-- ==== Sys2Proof/Word.lean ====
section
/-! DEFINITION. The word types of the model and the sparse tables that hold its stores.
R3: bit 0 is the least significant bit, and values of several bytes are little-endian. -/

namespace Sys2Proof

abbrev Byte := BitVec 8
abbrev W16 := BitVec 16
abbrev W32 := BitVec 32
abbrev W64 := BitVec 64
/-- One vector register: 128 lanes of 32 bits, lane `l` in bits `[32l+31:32l]` (R25, R217). -/
abbrev VReg := BitVec 4096
/-- One predicate register, or one tile-store line: 128 bits. -/
abbrev W128 := BitVec 128

/-- A sparse store: pairs of a key and a value, keys strictly rising. -/
abbrev TMap (α : Type) := List (Nat × α)

end Sys2Proof
end

