-- ==== Sys2Proof/Config.lean ====
section
/-! DEFINITION. What the spec leaves open: free values (opaque constants that nothing can evaluate), and the
constants of this part that its signed module record or its keys fix. -/

namespace Sys2Proof.Config

/-- A value of `w` bits that the spec calls undefined, or does not state (R7). The first argument is the moment
(the `epoch` of State, or the epoch of the launch that left the store undefined), the second the place. -/
opaque freeBits (epoch site w : Nat) : BitVec w

/-- A choice that the spec leaves open. -/
opaque freeBool (epoch site : Nat) : Bool

/-- A count that the spec leaves open. -/
opaque freeNat (epoch site : Nat) : Nat

/-- A byte of an area of a saved context whose inner form Table 15.6 leaves open, by what the area holds and its offset in it (R382). -/
opaque areaByte (content : List Nat) (offset : Nat) : Byte

/-- The signature by the device keys over the given bytes (R402). The spec gives the algorithms, not the keys. -/
opaque sign (key : Nat) (message : List Byte) : List Byte

/-- Whether a signature of a firmware image or a module record verifies under the keys fused in the part (R400, R403). -/
opaque verifies (key : Nat) (message signature : List Byte) : Bool

/-- What a firmware image says of itself (R403): its major and minor version, then the save layouts that it accepts. The spec
gives no image format. -/
opaque imageInfo (image : List Byte) : List Nat

end Sys2Proof.Config
end

