-- ==== Sys2Proof/Machine/Bits.lean ====
section
/-! DEFINITION. Bit fields, byte order, sign extension, and the sparse stores. -/

namespace Sys2Proof.Machine

/-- Bits `[lo+n-1:lo]` of a natural number. -/
def nbits (x lo n : Nat) : Nat := x >>> lo % 2 ^ n

/-- The value of `x` as a two's-complement number of `n` bits. -/
def toSigned (x n : Nat) : Int := if x % 2 ^ n < 2 ^ (n - 1) then (x % 2 ^ n : Nat) else ((x % 2 ^ n : Nat) : Int) - (2 ^ n : Nat)

/-- The low `n` bits of an integer's two's-complement form (R9). -/
def ofInt (x : Int) (n : Nat) : Nat := (x % (2 ^ n : Nat)).toNat

/-- Number of significant bits. -/
def bitLen (x : Nat) : Nat := if x = 0 then 0 else Nat.log2 x + 1

/-- Population count of the low `n` bits. -/
def popc (x : Nat) : Nat → Nat
  | 0 => 0
  | n + 1 => (if x.testBit n then 1 else 0) + popc x n

/-- Bytes of a value, least significant first (R3). -/
def toBytes (x : Nat) : Nat → List Byte
  | 0 => []
  | n + 1 => BitVec.ofNat 8 (x % 256) :: toBytes (x / 256) n

/-- The value of bytes, least significant first (R3). -/
def ofBytes : List Byte → Nat
  | [] => 0
  | b :: bs => b.toNat + 256 * ofBytes bs

/-- The entry of a sparse store at a key. -/
def mget {α : Type} : TMap α → Nat → Option α
  | [], _ => none
  | (k, x) :: m, a => if k = a then some x else mget m a

/-- A sparse store with the entry at a key written. -/
def mput {α : Type} : TMap α → Nat → α → TMap α
  | [], a, y => [(a, y)]
  | (k, x) :: m, a, y => if a < k then (a, y) :: (k, x) :: m else if a = k then (a, y) :: m else (k, x) :: mput m a y

/-- A sparse store without the entry at a key. -/
def mdel {α : Type} : TMap α → Nat → TMap α
  | [], _ => []
  | (k, x) :: m, a => if k = a then mdel m a else (k, x) :: mdel m a

/-- Keys strictly rising, all at least `lo`. -/
def sortedFrom {α : Type} (lo : Nat) : TMap α → Bool
  | [] => true
  | (k, _) :: m => lo ≤ k && sortedFrom (k + 1) m

/-- The canonical order of a sparse store. -/
def msorted {α : Type} (m : TMap α) : Bool := sortedFrom 0 m

/-- A memory of bytes in canonical form: keys strictly rising, and no entry equal to what an unlisted address reads as,
which is 0 (log entry 4). -/
def memWf (m : TMap Byte) : Bool := msorted m && m.all (fun c => c.2 != 0)

/-- One byte of a memory. -/
def byteAt (m : TMap Byte) (a : Nat) : Byte := (mget m a).getD 0

/-- A memory with one byte written, in canonical form. -/
def setByte (m : TMap Byte) (a : Nat) (b : Byte) : TMap Byte := if b = 0 then mdel m a else mput m a b

/-- `n` bytes from an address on. -/
def bytesAt (m : TMap Byte) (a : Nat) : Nat → List Byte
  | 0 => []
  | n + 1 => byteAt m a :: bytesAt m (a + 1) n

/-- A memory with bytes written from an address on. -/
def setBytes (m : TMap Byte) (a : Nat) : List Byte → TMap Byte
  | [] => m
  | b :: bs => setBytes (setByte m a b) (a + 1) bs

/-- Element `i` of width `w` of a wide value (R25). -/
def elem (x w i : Nat) : Nat := x >>> (i * w) % 2 ^ w

/-- A wide value from the elements of width `w`, element 0 first. -/
def packElems (w : Nat) : List Nat → Nat
  | [] => 0
  | x :: xs => x % 2 ^ w + 2 ^ w * packElems w xs

/-- The list `f 0, …, f (n-1)`. -/
def tab {α : Type} (n : Nat) (f : Nat → α) : List α := (List.range n).map f

end Sys2Proof.Machine
end

