-- ==== Sys2Proof/Machine/Hash.lean ====
section
/-! DEFINITION. CRC-32C (R86) and BLAKE3 with its keyed mode (R146, R157), as the spec names them. -/

namespace Sys2Proof.Machine

/-- One bit of CRC-32C, reflected polynomial 0x82F63B78. -/
def crcBit (c : Nat) : Nat := if c % 2 = 1 then (c / 2) ^^^ 0x82F63B78 else c / 2

def crcByte (c : Nat) (b : Byte) : Nat :=
  crcBit (crcBit (crcBit (crcBit (crcBit (crcBit (crcBit (crcBit (c ^^^ b.toNat))))))))

/-- The register after some bytes. The match evaluates it byte by byte. -/
def crcRun : List Byte → Nat → Nat
  | [], c => c
  | b :: bs, c =>
    match crcByte c b with
    | 0 => crcRun bs 0
    | c' + 1 => crcRun bs (c' + 1)

/-- CRC-32C with the standard initial value and final inversion (R86). -/
def crc32c (bs : List Byte) : W32 := BitVec.ofNat 32 (crcRun bs 0xFFFFFFFF ^^^ 0xFFFFFFFF)

/-! BLAKE3 over 32-bit words as natural numbers. -/

def bIV : List Nat :=
  [0x6A09E667, 0xBB67AE85, 0x3C6EF372, 0xA54FF53A, 0x510E527F, 0x9B05688C, 0x1F83D9AB, 0x5BE0CD19]

def bPerm : List Nat := [2, 6, 3, 10, 7, 0, 4, 13, 1, 11, 12, 5, 9, 14, 15, 8]

def add32 (a b : Nat) : Nat := (a + b) % 2 ^ 32
def ror32 (x n : Nat) : Nat := (x >>> n ||| x <<< (32 - n)) % 2 ^ 32
def atN (l : List Nat) (i : Nat) : Nat := l.getD i 0

/-- The quarter round on the state words at `a b c d`. -/
def bG (v : List Nat) (a b c d x y : Nat) : List Nat :=
  let va := add32 (add32 (atN v a) (atN v b)) x
  let vd := ror32 (atN v d ^^^ va) 16
  let vc := add32 (atN v c) vd
  let vb := ror32 (atN v b ^^^ vc) 12
  let va := add32 (add32 va vb) y
  let vd := ror32 (vd ^^^ va) 8
  let vc := add32 vc vd
  let vb := ror32 (vb ^^^ vc) 7
  (((v.set a va).set b vb).set c vc).set d vd

def bRound (v m : List Nat) : List Nat :=
  let v := bG v 0 4 8 12 (atN m 0) (atN m 1)
  let v := bG v 1 5 9 13 (atN m 2) (atN m 3)
  let v := bG v 2 6 10 14 (atN m 4) (atN m 5)
  let v := bG v 3 7 11 15 (atN m 6) (atN m 7)
  let v := bG v 0 5 10 15 (atN m 8) (atN m 9)
  let v := bG v 1 6 11 12 (atN m 10) (atN m 11)
  let v := bG v 2 7 8 13 (atN m 12) (atN m 13)
  bG v 3 4 9 14 (atN m 14) (atN m 15)

def bRounds : Nat → List Nat → List Nat → List Nat
  | 0, v, _ => v
  | n + 1, v, m => bRounds n (bRound v m) (bPerm.map (atN m))

/-- The compression function: its first eight output words. -/
def bCompress (cv m : List Nat) (counter len flags : Nat) : List Nat :=
  let v := cv ++ bIV.take 4 ++ [counter % 2 ^ 32, counter / 2 ^ 32, len, flags]
  let v := bRounds 7 v m
  tab 8 fun i => atN v i ^^^ atN v (i + 8)

/-- Words of a block of at most 64 bytes, zero padded. -/
def bWords (bs : List Byte) : List Nat := tab 16 fun i => ofBytes ((bs.drop (4 * i)).take 4)

def bWordsBytes (ws : List Nat) : List Byte := ws.flatMap fun w => toBytes w 4

/-- The output of a chunk's last block or of a parent, before it is known to be the root. -/
structure BNode where
  cv : List Nat
  m : List Nat
  counter : Nat
  len : Nat
  flags : Nat
  deriving DecidableEq, Repr

def BNode.chain (n : BNode) : List Nat := bCompress n.cv n.m n.counter n.len n.flags

/-- A chunk of at most 1,024 bytes: its blocks in order, CHUNK_START 1, CHUNK_END 2. -/
def bChunk (fuel : Nat) (cv : List Nat) (bs : List Byte) (counter flags : Nat) (first : Bool) : BNode :=
  let st := if first then 1 else 0
  match fuel with
  | 0 => { cv := cv, m := bWords bs, counter := counter, len := bs.length, flags := flags + st + 2 }
  | n + 1 =>
    if bs.length ≤ 64 then
      { cv := cv, m := bWords bs, counter := counter, len := bs.length, flags := flags + st + 2 }
    else
      let cv' := bCompress cv (bWords (bs.take 64)) counter 64 (flags + st)
      bChunk n cv' (bs.drop 64) counter flags false

/-- The number of bytes in the left subtree: the greatest power of two of chunks that leaves something on the right. -/
def bLeft (len : Nat) : Nat := 1024 * 2 ^ Nat.log2 ((len - 1) / 1024)

/-- The tree: PARENT 4. -/
def bTree (fuel : Nat) (key : List Nat) (bs : List Byte) (counter flags : Nat) : BNode :=
  match fuel with
  | 0 => bChunk 16 key bs counter flags true
  | n + 1 =>
    if bs.length ≤ 1024 then bChunk 16 key bs counter flags true
    else
      let k := bLeft bs.length
      let l := bTree n key (bs.take k) counter flags
      let r := bTree n key (bs.drop k) (counter + k / 1024) flags
      { cv := key, m := l.chain ++ r.chain, counter := 0, len := 64, flags := flags + 4 }

/-- The 32-byte BLAKE3 digest: ROOT 8 on the last node. -/
def blake3With (key : List Nat) (flags : Nat) (bs : List Byte) : List Byte :=
  let n := bTree 40 key bs 0 flags
  bWordsBytes (bCompress n.cv n.m 0 n.len (n.flags + 8))

def blake3 (bs : List Byte) : List Byte := blake3With bIV 0 bs

/-- Keyed mode: KEYED_HASH 16, the 32-byte key as the chaining value. -/
def blake3Keyed (key : List Byte) (bs : List Byte) : List Byte :=
  blake3With (tab 8 fun i => ofBytes ((key.drop (4 * i)).take 4)) 16 bs

end Sys2Proof.Machine
end

