-- ==== Sys2Proof/Syntax.lean ====
section
/-! DEFINITION. The instructions: one constructor for each row of the operation table. A syllable's constructor
carries the fields of its format (Table 3.3) with its K flag and its extension word; an event's constructor carries
what the outside world or an engine brings with it. -/

namespace Sys2Proof

/-- The slot classes of Tables 3.9 to 3.14. V0 and V1 share one map, and so do C0 and C1 (R78). -/
inductive SlotClass where
  | P | S | V | M | X | C
  deriving DecidableEq, Repr

/-- Format PS. -/
structure PS where
  k : Bool
  sc : BitVec 3
  deriving DecidableEq, Repr

/-- Format SA. `x` is the extension word, present when E = 1. -/
structure SA where
  x : Option W32
  k : Bool
  d : BitVec 6
  a : BitVec 6
  b : BitVec 6
  rstep : BitVec 2
  fn : BitVec 2
  deriving DecidableEq, Repr

/-- Format SC. -/
structure SC where
  x : Option W32
  k : Bool
  a : BitVec 6
  b : BitVec 6
  cnd : BitVec 4
  lc : BitVec 2
  deriving DecidableEq, Repr

/-- Format SM. -/
structure SM where
  x : Option W32
  k : Bool
  d : BitVec 6
  a : BitVec 6
  w : BitVec 3
  lat : BitVec 7
  deriving DecidableEq, Repr

/-- Format VA. `bs` makes `b[5:0]` a scalar register. `x` is the modifier word. -/
structure VA where
  x : Option W32
  k : Bool
  d : BitVec 7
  a : BitVec 7
  b : BitVec 7
  bs : Bool
  deriving DecidableEq, Repr

/-- Format VM. -/
structure VM where
  x : Option W32
  k : Bool
  d : BitVec 7
  a : BitVec 6
  md : BitVec 2
  lat : BitVec 7
  deriving DecidableEq, Repr

/-- Format MT. -/
structure MT where
  x : Option W32
  k : Bool
  acc : BitVec 3
  ta : BitVec 7
  tb : BitVec 7
  lcx : BitVec 2
  rstep : BitVec 2
  deriving DecidableEq, Repr

/-- Format XT. -/
structure XT where
  x : Option W32
  k : Bool
  d : BitVec 7
  a : BitVec 7
  fmt : BitVec 4
  rstep : BitVec 2
  ovp : BitVec 2
  deriving DecidableEq, Repr

/-- Format CQ. `x` is the step word. -/
structure CQ where
  x : Option W32
  k : Bool
  d : BitVec 6
  a : BitVec 6
  sh : BitVec 3
  lat : BitVec 7
  deriving DecidableEq, Repr

/-- The traffic classes of the write-combining region (R93). -/
inductive TrafficClass where
  | objects | folios | collectives | hostPeer
  deriving DecidableEq, Repr

/-- What the ECC of a chunk home found (R86, R100, R101): `uncorrectable` names the logical sectors it touches. -/
inductive Ecc where
  | clean | corrected | uncorrectable (sectors : BitVec 8)
  deriving DecidableEq, Repr

/-- A tile of an object, as a request to a layout unit names it (R91). -/
structure TileReq where
  q : Nat
  handle : Nat
  c0 : Nat
  c1 : Nat
  c2 : Nat
  c3 : Nat
  cols : Nat
  rows : Nat
  deriving DecidableEq, Repr

/-- Data for a layout unit to write (R92): its bytes, and the check values that came with its sectors. -/
structure TileData where
  bytes : List Byte
  cvs : List W32
  deriving DecidableEq, Repr

/-- How a reduction travels: its traffic class (R93), and whether its object is compressible (R87). -/
structure Traffic where
  cls : TrafficClass
  cmpr : Bool
  deriving DecidableEq, Repr

/-- A row that scrub reads (R100): the home of a chunk, or its metadata row. -/
inductive ScrubRow where
  | home (chunk : Nat)
  | metadata (chunk : Nat)
  deriving DecidableEq, Repr

/-- A host line that the host invalidates (Table 16.2), with the 64 bytes that it then writes, or none (log entry 19). -/
structure HostInv where
  line : Nat
  data : List Byte
  deriving DecidableEq, Repr

/-- What an annex device offers (R390): a static HDM range, or an extent of one of its dynamic capacity regions, which may be marked
shareable. -/
inductive AnnexRange where
  | hdm
  | extent (region : Nat) (shareable : Bool)
  deriving DecidableEq, Repr

/-- What a host debugger asks of a core through the mailbox (R407): to hold a partition, or to read or write bytes of the shadow store of
its die, where the images of saved contexts lie. -/
inductive DebugReq where
  | hold (part : Nat)
  | read (off n : Nat)
  | write (off : Nat) (bytes : List Byte)
  deriving DecidableEq, Repr

/-- The operations and events of the operation table, in the table's order, those that carry nothing last. -/
inductive Instr where
  /-- PARTITION_SELECT (R359). On each core clock the core lets the steward take the clock, or picks one or two ready user partitions with disjoint slot sets to issue. -/
  | partitionSelect (core : Nat) (words : List W32)
  /-- RESULT_WRITE (R18). An operation's result arrives from its engine and is written to its destination, or to its late-write entry, which may end a freeze. -/
  | resultWrite (core part seq : Nat)
  /-- SEGMENT_EXPAND (R75). The prefetch engine expands one stored bundle of a segment into the loop buffer, which may end a fetch freeze. -/
  | segmentExpand (core part : Nat)
  /-- BUCKET_TABLE_READ (R268). Before a BKSEL bundle issues, the prefetch engine reads and checks its bucket table under a fetch freeze. -/
  | bucketTableRead (core part : Nat)
  /-- PREEMPT_REQUEST (R379). The steward requests pre-emption of a partition, for queue arbitration or by firmware command. -/
  | preemptRequest (core part : Nat)
  /-- PARTITION_RESUME (R371). The steward resumes a stopped or reloaded partition, which becomes READY and writes held values at their original offsets. -/
  | partitionResume (core part : Nat)
  /-- SINGLE_STEP_SET (R385). The steward sets or clears single-step for a partition. -/
  | singleStepSet (core part : Nat) (on : Bool)
  /-- TASK_KILL (R378). A steward command ends a task without END, discards its buffer and reports KILLED in its queue. -/
  | taskKill (core part : Nat)
  /-- KV_FAULT_REPORT (R141). The KV walker reports a KV fault of an operation, which becomes a replay entry and a fault taken at the next boundary. -/
  | kvFaultReport (core part seq : Nat)
  /-- COPY_FAULT_REPORT (R207). A translation or range fault in a copy piece is reported, holding the copy at that piece for a trap. -/
  | copyFaultReport (core entry : Nat)
  /-- COPY_UNIT_DONE (R195). A unit of a copy has performed and is verified, and the copy counts it into its barrier word. -/
  | copyUnitDone (core entry : Nat) (failed : Bool)
  /-- COMPLETION_RECORD_WRITE (R202). An engine writes a completion record in a ring, then PROD, or holds it when the ring is full. -/
  | completionRecordWrite (q ring : Nat)
  /-- HOST_INTERRUPT_TIMER (R202). HTIME microseconds after the first unsignalled record, the I/O die raises vector HVEC. -/
  | hostInterruptTimer (q ring : Nat)
  /-- RING_CONS_ADVANCE (R202). A change of a full ring's CONS lets the engine write its held record. -/
  | ringConsAdvance (q ring : Nat)
  /-- CWAIT_TIMEOUT (R203). The timeout of a waiting CWAIT expires and it completes with status 2. -/
  | cwaitTimeout (core part seq : Nat)
  /-- WAITM_WAKE (R245). A write to the monitored line, or the loss of the monitor, wakes a waiting WAITM, which reads the word as an acquire. -/
  | waitmWake (core part seq : Nat)
  /-- WAITM_TIMEOUT (R245). The timeout of a waiting WAITM expires and it completes. -/
  | waitmTimeout (core part seq : Nat)
  /-- SVC_ANSWER (R280). The steward's 64-bit answer to an SVC arrives and is written to sD as an acquire at DEV. -/
  | svcAnswer (core part seq : Nat) (answer : W64)
  /-- SVC_FWVER (R405). The steward answers service 0x0000 with the version of the active firmware image. -/
  | svcFwver (core part seq : Nat)
  /-- SVC_CATCLK (R405). The steward answers service 0x0001 with CATCLK. -/
  | svcCatclk (core part seq : Nat)
  /-- SVC_DIRHOME (R405). The steward answers service 0x0002 with the home chip of the given shelfmark bits. -/
  | svcDirhome (core part seq : Nat)
  /-- SVC_EVENT (R405). The steward writes an event record with code 0x80 and the argument as detail, and answers 0. -/
  | svcEvent (core part seq : Nat)
  /-- SVC_UNKNOWN (R280). A service number that the firmware does not provide is answered with all ones. -/
  | svcUnknown (core part seq : Nat)
  /-- LAYOUT_READ (R91). A layout unit serves a read request for an object tile, merging, expanding, verifying and padding it and delivering sectors with check values. -/
  | layoutRead (t : TileReq)
  /-- LAYOUT_WRITE (R92). A layout unit accepts a write request, discards or faults out-of-shape bytes and places the bytes in a write-combining entry. -/
  | layoutWrite (t : TileReq) (cls : TrafficClass) (data : TileData)
  /-- MEMORY_SIDE_REDUCTION (R96). A BF16 or FP32 add reaches a write-combining entry and updates the element's state. -/
  | memorySideReduction (addr : Nat) (f32 : Bool) (x : W32) (cls : Traffic)
  /-- IO_DIE_REDUCTION (R96). A reduction to an annex or host element is applied by the I/O die as one read-modify-write. -/
  | ioDieReduction (addr : Nat) (f32 : Bool) (x : W32)
  /-- STEWARD_MERGE_COMMAND (R95). A steward command for extent release, power-down or relocation merges the write-combining entries it names. -/
  | stewardMergeCommand (chunks : List Nat)
  /-- CHUNK_CAPTURE (R98). An activation counter reaches ACT_CAP: the neighbour rows are refreshed and the chunk home is moved into a capture entry. -/
  | chunkCapture (chunk : Nat)
  /-- CAPTURE_STORE_BACK_DONE (R99). The store-back of a released capture entry completes and the accesses waiting on its chunk proceed. -/
  | captureStoreBackDone (chunk : Nat)
  /-- PATROL_SCRUB (R100). Patrol scrub reads and corrects a chunk home or metadata row, and adds homes with corrected errors to the hot list. -/
  | patrolScrub (chunk : ScrubRow) (ecc : Ecc)
  /-- RETIREMENT_COPY_DONE (R101). The copy of a retired home completes and the accesses waiting on it proceed. -/
  | retirementCopyDone (chunk : Nat)
  /-- RELOC_SUBTILE_COPY (R119). Once earlier writes to a COPYING sub-tile have performed, the relocation engine copies it to NBASE and sets MOV. -/
  | relocSubtileCopy (slot : Nat)
  /-- RELOC_FINISH (R119). When every access translated under BASE has performed, the engine writes BASE := NBASE, bumps GEN, invalidates the OLCs and writes the record. -/
  | relocFinish (slot : Nat)
  /-- REPLICA_REPAIR (R142). After an integrity failure, the circulation engine fetches the folio from listed replicas, or sets it DAMAGED and faults KV_DAMAGED. -/
  | replicaRepair (id : Nat)
  /-- SEAL_RUN (R157). The catalogue engine seals an accepted tail: digests, probes, accessions or deduplicates, extends the path and writes the record. -/
  | sealRun (id : Nat)
  /-- CATLOOK_RUN (R175). The catalogue engine probes node by node for the longest cached prefix and writes the result list and the record. -/
  | catlookRun (id : Nat)
  /-- PROMOTION_RUN (R161). The circulation engine moves a folio up from an image or fabric holder into a verified pool block, or handles a requested demotion. -/
  | promotionRun (id : Nat)
  /-- DEMOTION_PASS (R154). A tier's occupancy rises above its high watermark and the circulation engine recalls candidates in key order. -/
  | demotionPass (cat : Nat) (tier : Nat)
  /-- RECALL_DATA_MOVE (R155). Once loads of a recalled folio have performed, the engine demotes, drops or unlocks it and frees its storage. -/
  | recallDataMove (id : Nat)
  /-- DEACCESSION (R166). The steward marks an eligible node's entry GONE and releases the node and its folio headers. -/
  | deaccession (cat : Nat) (node : Nat)
  /-- POOL_BOUNDARY_CHANGE (R216). A core with no user task, no local copy and no pending result takes the launch's new pool boundaries, emptying the cache. -/
  | poolBoundaryChange (core : Nat) (b1 b2 b3 : Nat)
  /-- CORE_CACHE_LINE_EXPIRY (R239). A core-cache line is dropped 65,536 core clocks after it was filled. -/
  | coreCacheLineExpiry (core line : Nat)
  /-- PACKET_FETCH (R341). The command processor reads a written slot of a queue window with its job card, and releases slots after their last read. -/
  | packetFetch (q k : Nat)
  /-- QUEUE_VISIT (R341). At least every 4,096 uncore clocks the command processor visits every enabled queue. -/
  | queueVisit (q : Nat)
  /-- QUEUE_RESUME (R339). Software writes QERR := 0 and the queue resumes at the stopped packet or graph node. -/
  | queueResume (q : Nat)
  /-- PKT_NOP (R342). A NOP packet whose dependences have retired issues and retires. -/
  | pktNop (id : Nat)
  /-- PKT_LAUNCH (R346). A LAUNCH packet issues and its gang becomes a candidate for placement. -/
  | pktLaunch (id : Nat)
  /-- PKT_GRAPH (R345). A GRAPH packet issues and the command processor runs its node array from node 0. -/
  | pktGraph (id : Nat)
  /-- PKT_COND (R345). A COND graph node reads its word as an acquire and re-arms or skips nodes by moving the node pointer. -/
  | pktCond (id : Nat)
  /-- PKT_WRITE (R343). A WRITE packet writes VALUE to WADDR as a release at SC and retires when it has performed. -/
  | pktWrite (id : Nat)
  /-- PKT_FLUSH (R344). A FLUSH packet drops OLC and/or KVLC entries of the queue and retires when translations with them have performed. -/
  | pktFlush (id : Nat)
  /-- PACKET_RETIRE (R354). A packet retires once its writes, gang and children are complete, releasing its dependents. -/
  | packetRetire (id : Nat)
  /-- GANG_PLACE (R352). When room frees, the command processor places a whole chosen candidate gang in one step. -/
  | gangPlace (gang : Nat)
  /-- GANG_RELEASE (R353). After boundaries, images, flag presets, contexts and cache drops, every task of the gang becomes ready on one clock. -/
  | gangRelease (gang : Nat)
  /-- GANG_CLOSE (R357). A candidate gang that has waited GANG_WAIT uncore clocks closes its cores to other gangs. -/
  | gangClose (gang : Nat)
  /-- FIRMWARE_ACTIVATION (R383). A staged firmware image becomes active for a queue once no swapped task of it uses an unlisted layout. -/
  | firmwareActivation (q : Nat)
  /-- HOST_APERTURE_READ (R388). A host read of BAR2 is translated through its aperture as a host-class access, or completes with Unsupported Request. -/
  | hostApertureRead (offset n : Nat)
  /-- HOST_APERTURE_WRITE (R388). A host posted write of BAR2 is translated through its aperture, or discarded with an event record. -/
  | hostApertureWrite (offset : Nat) (data : List Byte)
  /-- BAR0_REGISTER_WRITE (R388). A host write to a BAR0 control register or aperture entry that has no behaviour of its own. -/
  | bar0RegisterWrite (offset : Nat) (x : W32)
  /-- HOST_SNPDATA (R389). A host SnpData moves a host line to S, writing back modified data. -/
  | hostSnpdata (line : Nat)
  /-- HOST_SNPINV (R389). A host SnpInv invalidates a host line, writing back modified data and waking a monitor on it. -/
  | hostSnpinv (line : HostInv)
  /-- HOST_LINE_EVICTION (R389). The shelf cache evicts a host line with CleanEvict or DirtyEvict. -/
  | hostLineEviction (line : Nat)
  /-- ANNEX_RELEASE_REQUEST (R392). The annex device asks for an extent back, and loaned folios in it are promoted during ANNEXGRACE. -/
  | annexReleaseRequest (extent : Nat)
  /-- ANNEXGRACE_EXPIRY (R392). When ANNEXGRACE has elapsed the steward unmaps the extent, merges buffer lines, retires objects, marks folios ABSENT and acknowledges. -/
  | annexgraceExpiry (extent : Nat)
  /-- ANNEX_FORCED_RELEASE (R393). A forced release poisons reads in flight, drops buffer lines and applies the unmapping steps at once. -/
  | annexForcedRelease (extent : Nat)
  /-- NVME_COMPLETION (R395). An NVMe Read, Write or Flush completes; a failed demotion write undoes the recall and a failed read is an integrity failure. -/
  | nvmeCompletion (cmd : Nat) (ok : Bool) (data : List Byte)
  /-- REPOTO_EXPIRY (R395). A repository Read that has not completed within REPOTO is treated as an integrity failure. -/
  | repotoExpiry (cmd : Nat)
  /-- ITK_HELLO (R399). A HELLO opens a connection and fixes the common Itkoril version, or refuses it. -/
  | itkHello (chip : Nat) (msg : List Byte)
  /-- ITK_ACK (R398). A cumulative acknowledgement advances a connection's window. -/
  | itkAck (chip : Nat) (msg : List Byte)
  /-- ITK_DREG (R162). The home registers the sending chip as a holder in the first free holder field, or refuses it. -/
  | itkDreg (chip : Nat) (msg : List Byte)
  /-- ITK_DQUERY (R163). The home answers a holder-list query with DLIST. -/
  | itkDquery (chip : Nat) (msg : List Byte)
  /-- ITK_DLIST (R163). A holder list arrives and the engine tries the holders in order. -/
  | itkDlist (chip : Nat) (msg : List Byte)
  /-- ITK_FETCH (R162). A holder answers a request for a folio's stored chunks with FDATA, or NOHOLD when it has no verified copy. -/
  | itkFetch (chip : Nat) (msg : List Byte)
  /-- ITK_FDATA (R163). A folio's chunks arrive from a holder and are verified against the local digest. -/
  | itkFdata (chip : Nat) (msg : List Byte)
  /-- ITK_NOHOLD (R162). A holder refuses a fetch, and the home clears that holder. -/
  | itkNohold (chip : Nat) (msg : List Byte)
  /-- ITK_NODEINFO (R165). A holder's shelfmark, tokens, recall classes and digests arrive for an import. -/
  | itkNodeinfo (chip : Nat) (msg : List Byte)
  /-- ITK_PREAD (R397). A peer read is translated as a peer-class access through the named queue's handle table. -/
  | itkPread (chip : Nat) (msg : List Byte)
  /-- ITK_PWRITE (R198). A peer write is checked and performs at DEV when accepted, or is answered with PREFUSE. -/
  | itkPwrite (chip : Nat) (msg : List Byte)
  /-- ITK_PDATA (R397). The data of a peer read arrives. -/
  | itkPdata (chip : Nat) (msg : List Byte)
  /-- ITK_PREFUSE (R198). A peer refuses an access, which ends as a refused peer access. -/
  | itkPrefuse (chip : Nat) (msg : List Byte)
  /-- ITK_CJOIN (R212). A member joins a collective by group and tag, which is checked for MISMATCH. -/
  | itkCjoin (chip : Nat) (msg : List Byte)
  /-- ITK_CDATA (R213). Collective data from another member arrives, is checked and is written or reduced into DST. -/
  | itkCdata (chip : Nat) (msg : List Byte)
  /-- ITK_UNKNOWN_TYPE (R397). A message of an unknown type is discarded and reported once per connection. -/
  | itkUnknownType (chip : Nat) (msg : List Byte)
  /-- ITK_RETRANSMIT_TIMEOUT (R398). A frame unacknowledged for 64 µs is sent again under go-back-N. -/
  | itkRetransmitTimeout (chip : Nat) (msg : List Byte)
  /-- PEERTO_EXPIRY (R398). A peer silent for PEERTO becomes unreachable; its accesses and collectives end. -/
  | peertoExpiry (chip : Nat)
  /-- COLLECTIVE_TIMEOUT (R212). A member that has not joined within the collective limit makes the collective TIMEOUT. -/
  | collectiveTimeout (id : Nat)
  /-- MAILBOX_MODULE_RECORD (R401). A new module record is staged through the mailbox. -/
  | mailboxModuleRecord (record : List Byte) (slot : Nat)
  /-- MAILBOX_FIRMWARE_STAGE (R403). A firmware image is staged through the mailbox and accepted when both signatures verify. -/
  | mailboxFirmwareStage (image : List Byte)
  /-- SETKEY (R404). A mailbox command in an SPDM session loads a namespace key slot. -/
  | setkey (slot : Nat) (nsid : W32) (key : BitVec 256)
  /-- CLEARKEY (R404). A mailbox command in an SPDM session clears a namespace key slot. -/
  | clearkey (slot : Nat)
  /-- DEBUG_HOLD (R407). A host debugger holds a partition through the mailbox, which sets single-step and routes BREAKPOINT to it. -/
  | debugHold (core : Nat) (req : DebugReq)
  /-- EVENT_RING_NAME (R406). The host names the steward's event ring through the mailbox. -/
  | eventRingName (addr : W64) (len : Nat)
  /-- GET_MEASUREMENTS (R402). An SPDM GET_MEASUREMENTS is answered with measurements signed by both device keys. -/
  | getMeasurements (nonce : List Byte)
  /-- SCOPE (R61). Sets the scope of the memory syllables of its bundle issue. -/
  | scope (f : PS)
  /-- NOP (R62). Does nothing except clear its slot's sticky register. -/
  | nop (cls : SlotClass)
  /-- ADD (R259). Integer addition. -/
  | add (f : SA)
  /-- SUB (R259). Integer subtraction. -/
  | sub (f : SA)
  /-- MUL (R259). Low half of the integer product. -/
  | mul (f : SA)
  /-- MULH (R259). High half of the integer product. -/
  | mulh (f : SA)
  /-- DIV (R259). Integer division toward zero. -/
  | div (f : SA)
  /-- REM (R259). Integer remainder. -/
  | rem (f : SA)
  /-- AND (R259). Bitwise AND. -/
  | and (f : SA)
  /-- OR (R259). Bitwise OR. -/
  | or (f : SA)
  /-- XOR (R259). Bitwise XOR. -/
  | xor (f : SA)
  /-- ANDN (R259). a AND NOT b. -/
  | andn (f : SA)
  /-- ORN (R259). a OR NOT b. -/
  | orn (f : SA)
  /-- SHL (R259). Shift left. -/
  | shl (f : SA)
  /-- SHR (R259). Logical shift right. -/
  | shr (f : SA)
  /-- SAR (R259). Arithmetic shift right. -/
  | sar (f : SA)
  /-- ROL (R259). Rotate left. -/
  | rol (f : SA)
  /-- MIN (R259). The lesser of two integers. -/
  | min (f : SA)
  /-- MAX (R259). The greater of two integers. -/
  | max (f : SA)
  /-- CMPEQ (R259). 1 if equal, else 0. -/
  | cmpeq (f : SA)
  /-- CMPNE (R259). 1 if not equal, else 0. -/
  | cmpne (f : SA)
  /-- CMPLT (R259). 1 if less, else 0. -/
  | cmplt (f : SA)
  /-- CMPLE (R259). 1 if less or equal, else 0. -/
  | cmple (f : SA)
  /-- POPC (R259). Population count of a AND b. -/
  | popc (f : SA)
  /-- MOV (R260). Copies a scalar register with its poison. -/
  | mov (f : SA)
  /-- MOVI (R260). Loads a sign-extended 32-bit immediate. -/
  | movi (f : SA)
  /-- MOVHI (R260). Combines an immediate high word with the low word of sA. -/
  | movhi (f : SA)
  /-- CSEL (R260). Conditionally selects sA into sD. -/
  | csel (f : SA)
  /-- LD (R261). Loads 1 to 8 bytes of an object into a scalar register. -/
  | ld (f : SM)
  /-- ST (R261). Stores 1 to 8 bytes of a scalar register to an object. -/
  | st (f : SM)
  /-- LDS (R262). Loads like LD but defers faults into a poisoned cause code. -/
  | lds (f : SM)
  /-- CHK (R263). Transfers to a recovery target when its register is poisoned. -/
  | chk (f : SC)
  /-- BR (R264). Unconditional transfer to a target word. -/
  | br (f : SC)
  /-- BC (R265). Conditional transfer on a comparison of two registers. -/
  | bc (f : SC)
  /-- BRI (R264). Transfer to a bundle address held in a register. -/
  | bri (f : SC)
  /-- CALL (R264). Transfer to a target word, writing a link. -/
  | call (f : SC)
  /-- CALLI (R264). Transfer to a register target, writing a link. -/
  | calli (f : SC)
  /-- RET (R264). Return to a bundle address held in a register. -/
  | ret (f : SC)
  /-- LSET (R266). Starts a hardware loop with count and epilogue count. -/
  | lset (f : SC)
  /-- LNEXT (R267). Closes a loop iteration, rotating stage predicates, with two delay slots. -/
  | lnext (f : SC)
  /-- BKSEL (R268). Selects a precompiled schedule bucket for a run-time dimension. -/
  | bksel (f : SC)
  /-- FSET (R271). Releases at DEV and adds to a synchronisation flag of a core. -/
  | fset (f : SA)
  /-- FWAIT (R271). Waits until a flag count reaches an amount and subtracts it, as an acquire at DEV. -/
  | fwait (f : SA)
  /-- LAUNCH (R272). Copies a child launch packet into the pending-launch pool. -/
  | launch (f : SA)
  /-- MFSR (R273). Reads a special register. -/
  | mfsr (f : SA)
  /-- MTSR (R273). Writes a special register. -/
  | mtsr (f : SA)
  /-- AADD (R274). Atomic add on an object word. -/
  | aadd (f : SM)
  /-- AMIN (R274). Atomic minimum on an object word. -/
  | amin (f : SM)
  /-- AMAX (R274). Atomic maximum on an object word. -/
  | amax (f : SM)
  /-- ASWAP (R274). Atomic swap on an object word. -/
  | aswap (f : SM)
  /-- ACAS (R274). Atomic compare-and-swap on an object word. -/
  | acas (f : SM)
  /-- ACLAIM (R275). Bounded claim of a queue slot index, or FULL. -/
  | aclaim (f : SM)
  /-- WAITM (R277). Arms a monitor on a line and waits while the word equals the comparand. -/
  | waitm (f : SM)
  /-- BARV (R278). Arrives at a gang barrier as a release and returns the generation. -/
  | barv (f : SA)
  /-- BARW (R278). Waits for a gang barrier's generation to change, as an acquire. -/
  | barw (f : SA)
  /-- TRAP (R279). Raises SOFT_TRAP with SRES 2. -/
  | trap (f : SA)
  /-- BRK (R279). Raises BREAKPOINT with SRES 2. -/
  | brk (f : SA)
  /-- SVC (R280). Calls a steward service as a release and waits for the answer. -/
  | svc (f : SA)
  /-- CTXSV (R380). Steward saves a stopped partition's context to the shadow store. -/
  | ctxsv (f : SA)
  /-- CTXLD (R282). Steward loads a saved context back onto the core. -/
  | ctxld (f : SA)
  /-- VFADD (R289). Vector floating add. -/
  | vfadd (f : VA)
  /-- VFSUB (R289). Vector floating subtract. -/
  | vfsub (f : VA)
  /-- VFMUL (R289). Vector floating multiply. -/
  | vfmul (f : VA)
  /-- VFMA (R289). Vector fused multiply-add. -/
  | vfma (f : VA)
  /-- VFNMA (R289). Vector fused negative multiply-add. -/
  | vfnma (f : VA)
  /-- VFMIN (R290). Vector floating minimum. -/
  | vfmin (f : VA)
  /-- VFMAX (R290). Vector floating maximum. -/
  | vfmax (f : VA)
  /-- VFABS (R290). Vector floating absolute value. -/
  | vfabs (f : VA)
  /-- VFNEG (R290). Vector floating negation. -/
  | vfneg (f : VA)
  /-- VFCMP (R292). Floating compare into a predicate. -/
  | vfcmp (f : VA)
  /-- VRCP (R291). Vector reciprocal. -/
  | vrcp (f : VA)
  /-- VRSQRT (R291). Vector reciprocal square root. -/
  | vrsqrt (f : VA)
  /-- VEXP2 (R291). Vector power of two. -/
  | vexp2 (f : VA)
  /-- VCVT (R293). Converts lane elements between formats, one part at a time. -/
  | vcvt (f : VA)
  /-- VADD (R294). Vector integer add. -/
  | vadd (f : VA)
  /-- VSUB (R294). Vector integer subtract. -/
  | vsub (f : VA)
  /-- VMUL (R294). Vector integer multiply, low bits. -/
  | vmul (f : VA)
  /-- VAND (R294). Vector bitwise AND. -/
  | vand (f : VA)
  /-- VOR (R294). Vector bitwise OR. -/
  | vor (f : VA)
  /-- VXOR (R294). Vector bitwise XOR. -/
  | vxor (f : VA)
  /-- VSHL (R294). Vector shift left. -/
  | vshl (f : VA)
  /-- VSHR (R294). Vector logical shift right. -/
  | vshr (f : VA)
  /-- VSAR (R294). Vector arithmetic shift right. -/
  | vsar (f : VA)
  /-- VMIN (R294). Vector integer minimum. -/
  | vmin (f : VA)
  /-- VMAX (R294). Vector integer maximum. -/
  | vmax (f : VA)
  /-- VCMP (R292). Integer compare into a predicate. -/
  | vcmp (f : VA)
  /-- VRADD (R295). Fixed-tree sum reduction. -/
  | vradd (f : VA)
  /-- VRMAX (R295). Fixed-tree maximum reduction. -/
  | vrmax (f : VA)
  /-- VSCANI (R295). Inclusive sum scan. -/
  | vscani (f : VA)
  /-- VSCANX (R295). Exclusive sum scan. -/
  | vscanx (f : VA)
  /-- VPERM (R296). Permutes lanes by an index register. -/
  | vperm (f : VA)
  /-- VBCAST (R296). Broadcasts one element to every element. -/
  | vbcast (f : VA)
  /-- VSLIDE (R296). Slides elements across a register pair. -/
  | vslide (f : VA)
  /-- VCOMPR (R296). Compresses predicated lanes to the front. -/
  | vcompr (f : VA)
  /-- PAND (R297). Predicate AND. -/
  | pand (f : VA)
  /-- POR (R297). Predicate OR. -/
  | por (f : VA)
  /-- PXOR (R297). Predicate XOR. -/
  | pxor (f : VA)
  /-- PNOT (R297). Predicate NOT. -/
  | pnot (f : VA)
  /-- PCNT (R297). Writes a predicate's population count to every lane. -/
  | pcnt (f : VA)
  /-- VLD (R299). Contiguous vector load. -/
  | vld (f : VM)
  /-- VST (R299). Contiguous vector store. -/
  | vst (f : VM)
  /-- VGATH (R300). Vector gather by index register. -/
  | vgath (f : VM)
  /-- VSCAT (R300). Vector scatter by index register. -/
  | vscat (f : VM)
  /-- VLDS (R301). Speculative contiguous load that defers faults. -/
  | vlds (f : VM)
  /-- VGATHS (R301). Speculative gather that defers faults. -/
  | vgaths (f : VM)
  /-- VPART (R302). Writes lane indices ordered by a 4-bit key. -/
  | vpart (f : VA)
  /-- VHIST (R303). Accumulates a histogram of digits. -/
  | vhist (f : VA)
  /-- VKEY (R304). Maps elements to order-preserving unsigned keys. -/
  | vkey (f : VA)
  /-- VKEYX (R304). Maps keys back to element values. -/
  | vkeyx (f : VA)
  /-- VPX3 (R305). Quantises 2^(a−b) into PX3 probabilities. -/
  | vpx3 (f : VA)
  /-- VSHADD3 (R306). Accumulates integer lanes weighted by PX3 bytes. -/
  | vshadd3 (f : VA)
  /-- VFXT (R307). Converts FP32 lanes to VFX24. -/
  | vfxt (f : VA)
  /-- VFXF (R307). Converts VFX24 lanes to FP32. -/
  | vfxf (f : VA)
  /-- MSTEP (R317). Adds the product of an A and a B tile into an accumulator bank. -/
  | mstep (f : MT)
  /-- MZERO (R320). Zeros an accumulator bank. -/
  | mzero (f : MT)
  /-- MREAD (R321). Converts 16 bank rows into the scratchpad. -/
  | mread (f : MT)
  /-- MWRITE (R322). Copies 16 scratchpad rows into a bank. -/
  | mwrite (f : MT)
  /-- MFMT (R323). Writes the low word of a format-table entry. -/
  | mfmt (f : MT)
  /-- MLOOP (R324). Writes a matrix control register. -/
  | mloop (f : MT)
  /-- MSCALE (R323). Writes the tensor scales of a format-table entry. -/
  | mscale (f : MT)
  /-- MEDGE (R325). Sets one edge count from a scalar register. -/
  | medge (f : MT)
  /-- MROT (R326). Rotates the accumulator bank map. -/
  | mrot (f : MT)
  /-- XQNT (R332). Quantises scratchpad rows into an E2M1 tile with scales. -/
  | xqnt (f : XT)
  /-- XEXP (R331). Writes 2^x of every tile element. -/
  | xexp (f : XT)
  /-- XTRN (R330). Transposes a PLANE region. -/
  | xtrn (f : XT)
  /-- XCVT (R331). Converts a tile-store region to another format. -/
  | xcvt (f : XT)
  /-- XPLANE (R329). Splits scratchpad rows into a PLANE region. -/
  | xplane (f : XT)
  /-- XUNPL (R329). Rewrites a PLANE region as a ROW region. -/
  | xunpl (f : XT)
  /-- XSCALE (R331). Multiplies every tile element by a BF16 factor. -/
  | xscale (f : XT)
  /-- OCOPY (R188). Copies a tile between two objects. -/
  | ocopy (f : CQ)
  /-- OLOAD (R188). Copies an object tile into scratchpad rows. -/
  | oload (f : CQ)
  /-- OSTORE (R188). Copies scratchpad rows into an object tile, plainly or as a memory-side add. -/
  | ostore (f : CQ)
  /-- TLOAD (R186). Copies an object tile into a tile-store PLANE region. -/
  | tload (f : CQ)
  /-- KVLD (R139). Loads KV rows of up to 64 positions into the scratchpad with a mask. -/
  | kvld (f : CQ)
  /-- KVLDT (R139). Loads KV rows into a tile-store PLANE region with a mask. -/
  | kvldt (f : CQ)
  /-- KVAPP (R140). Appends positions of one layer to the tail folio. -/
  | kvapp (f : CQ)
  /-- SEAL (R172). Requests the seal of a sequence's tail. -/
  | seal (f : CQ)
  /-- CATLOOK (R175). Requests a lookup of the longest cached prefix. -/
  | catlook (f : CQ)
  /-- LOAN (R173). Attaches a sealed node to a sequence with loans on its folios. -/
  | loan (f : CQ)
  /-- UNLOAN (R174). Gives back the loans of a path from entry k onward. -/
  | unloan (f : CQ)
  /-- PROMOTE (R176). Requests the move of a node's folios to a tier. -/
  | promote (f : CQ)
  /-- QPUSH (R209). Claims a queue slot and writes a packet as a release. -/
  | qpush (f : CQ)
  /-- QPOLL (R210). Consumes one written packet as an acquire. -/
  | qpoll (f : CQ)
  /-- CWAIT (R203). Waits for a barrier or a completion record. -/
  | cwait (f : CQ)
  /-- BARSET (R194). Arms a transaction barrier with a byte count. -/
  | barset (f : CQ)
  /-- COLL (R211). Starts a collective among the chips of a group. -/
  | coll (f : CQ)
  /-- OLCINV (R123). Invalidates cached object records at a scope. -/
  | olcinv (f : CQ)
  /-- RELOC (R124). Requests the relocation of an object to a new base. -/
  | reloc (f : CQ)
  /-- ANNEX_EXTENT_OFFER (R390). An annex Type 3 device offers a dynamic capacity extent, which is refused when shareable and otherwise mapped by the steward in 256 MiB granules. -/
  | annexExtentOffer (port base size : Nat) (kind : AnnexRange)
  /-- NVME_QUEUE_HANDOFF (R394). The host hands the NVMe I/O queue pairs that it created in HBM to the steward, which then uses them for repository traffic. -/
  | nvmeQueueHandoff (sq cq : Nat) (depth : Nat)
  /-- REFRESH_WINDOW_END (R98). At the end of a 32 ms window the trackers clear and capture entries left idle for the whole window are released. -/
  | refreshWindowEnd
  /-- SCRUB_PERIOD_END (R101). At the end of each SCRUB_PERIOD every retirement score halves. -/
  | scrubPeriodEnd
  /-- SLICE_START (R355). A new arbitration slice of SLICE core clocks begins for the whole chip. -/
  | sliceStart
  /-- RESET (R409). Reset checks the records, trains HBM, starts the steward, enumerates the host and opens the ports in order. -/
  | reset
  /-- POWER_OVER_CAP (R408). Module power exceeds PWRCAP and the steward lowers the core clock by 50 MHz steps. -/
  | powerOverCap
  /-- POWER_BELOW_CAP (R408). Power falls and the steward restores the core clock. -/
  | powerBelowCap
  /-- THERMAL_THROTTLE (R408). A die reaches 95 °C and throttles the core clock. -/
  | thermalThrottle
  /-- THERMAL_TRIP (R408). A die reaches 105 °C: all issue stops, an event record is written and reset is held. -/
  | thermalTrip
  /-- YIELD (R269). Makes the end of its bundle a yield point. -/
  | yield
  /-- END (R270). Waits for pending work and ends the task. -/
  | endTask
  /-- DRAIN (R276). Waits until the drain set has performed at the bundle's scope. -/
  | drain
  /-- RETT (R281). Returns from a trap handler, restoring state and applying RPLACT. -/
  | rett
  /-- UIRET (R281). Returns from a user-level completion handler. -/
  | uiret
  /-- THERMAL_RECOVERY (R408). A throttled die's temperature falls back below 95 °C, and the steward restores the core clock in 50 MHz steps. -/
  | thermalRecovery
  /-- SPDM_SECURE_SESSION (R404). An SPDM requester on the DOE mailbox sets up a secure session, inside which SETKEY and CLEARKEY are accepted. -/
  | spdmSecureSession
  deriving DecidableEq, Repr

end Sys2Proof
end

