-- ==== Sys2Proof/WellFormed.lean ====
section
/-! DEFINITION. Which syllables are legal (R56 to R65, R77 and the field rules of each instruction), as far as the
syllable alone decides it. What also depends on the partition (the register window, the claimed banks, the handler,
the steward's privileges) is checked by the meanings. Events are always well formed. -/

namespace Sys2Proof

/-- A LAT7 count of 0 is illegal (R58). -/
def latOk (l : BitVec 7) : Bool := l.toNat % 64 != 0

/-- Codes of W that name a width (R56). -/
def wOk (w : BitVec 3) : Bool := w != 7

/-- Widths of an atomic and of WAITM: .i32, .n32 and .i64 (R274, R277). -/
def wAtomic (w : BitVec 3) : Bool := w == 2 || w == 6 || w == 3

/-- A target word has its bits [31:25] zero (R72). -/
def targetOk (t : W32) : Bool := t.toNat < 2 ^ 25

/-- Formats whose code names an element format: all but 0xF (R24). -/
def fmtFloat (f : Nat) : Bool := f ≤ 4
/-- The lane formats of R284. -/
def fmtLane (f : Nat) : Bool := f ≤ 4 || f == 6 || f == 8 || f == 9 || f == 10 || f == 11 || f == 13 || f == 14
def fmtArith (f : Nat) : Bool := f ≤ 2
def fmtInt (f : Nat) : Bool := f == 6 || f == 10 || f == 11 || f == 13 || f == 14
def fmtWord (f : Nat) : Bool := f == 0 || f == 11 || f == 14
def fmtCvt (f : Nat) : Bool := f ≤ 4 || fmtInt f
/-- Formats of width 4, 8 or 16: those of the tile store (R327). -/
def fmtTile (f : Nat) : Bool := (1 ≤ f && f ≤ 8) || f == 10 || f == 13
/-- RND3 and OVP3 codes 1 to 3 are reserved (R38, R59). -/
def code3Ok (c : Nat) : Bool := c == 0 || (4 ≤ c && c ≤ 7)

/-- Width in bits of the formats of Table 2.1, as memory and the tile store hold them. -/
def storedWidth (f : Nat) : Nat :=
  match f with
  | 0 => 32 | 1 => 16 | 2 => 16 | 3 => 8 | 4 => 8 | 5 => 4 | 6 => 8 | 7 => 4 | 8 => 8 | 9 => 24 | 10 => 16
  | 11 => 32 | 12 => 64 | 13 => 8 | 14 => 32 | _ => 0

/-- Width in bits of an element in a vector register: a VFX24 element takes a 32-bit lane (R36). -/
def fmtWidth (f : Nat) : Nat := if f = 9 then 32 else storedWidth f

/-- The fields of the V-slot modifier word (Table 3.5), with the defaults of an absent word. -/
structure VMod where
  fmt : Nat
  pred : Nat
  rstep : Nat
  rnd : Nat
  ovp : Nat
  aux : Nat
  deriving DecidableEq, Repr

def VMod.of (x : Option W32) (dflt : Nat) : VMod :=
  match x with
  | none => { fmt := dflt, pred := 0, rstep := 0, rnd := 0, ovp := 0, aux := 0 }
  | some m =>
    { fmt := m.toNat % 16, pred := m.toNat / 16 % 16, rstep := m.toNat / 256 % 4, rnd := m.toNat / 1024 % 8
      ovp := m.toNat / 8192 % 8, aux := m.toNat / 65536 % 128 }

/-- Bits [31:23] of a modifier word are reserved (R59). -/
def modReserved (x : Option W32) : Bool :=
  match x with
  | none => true
  | some m => m.toNat < 2 ^ 23

/-- What the B field of a VA instruction may be (R283). -/
inductive BRole where
  | reg | scalar | unused
  deriving DecidableEq, Repr

/-- What AUX may be. -/
inductive AuxRole where
  | unused | vreg | below (n : Nat) | n16
  deriving DecidableEq, Repr

def bOk (r : BRole) (f : VA) : Bool :=
  match r with
  | .reg => !f.bs || f.b.toNat < 64
  | .scalar => f.bs && f.b.toNat < 64
  | .unused => !f.bs && f.b == 0

def auxOk (r : AuxRole) (m : VMod) : Bool :=
  match r with
  | .unused => m.aux == 0
  | .vreg => true
  | .below n => m.aux < n
  | .n16 => m.aux == 0 || (m.aux == 1 && m.fmt == 10)

/-- The rules common to the VA instructions: the formats, the roles of B and AUX, and whether RND3 and OVP3 apply. -/
def vaOk (f : VA) (dflt : Nat) (fmts : Nat → Bool) (b : BRole) (aux : AuxRole) (rnd ovp : Nat → Bool) : Bool :=
  let m := VMod.of f.x dflt
  modReserved f.x && fmts m.fmt && bOk b f && auxOk aux m && code3Ok m.rnd && code3Ok m.ovp &&
    (rnd m.fmt || m.rnd == 0) && (ovp m.fmt || m.ovp == 0)

def never (_ : Nat) : Bool := false
def always (_ : Nat) : Bool := true

/-- A register field that names a predicate has its upper bits zero (R56, R283). -/
def predField (r : BitVec 7) : Bool := r.toNat < 16

/-- The predicate operations take p0, format 0x0, no rounding, no policy and no AUX (R297). -/
def predOpMod (x : Option W32) : Bool :=
  let m := VMod.of x 0
  modReserved x && m.fmt == 0 && m.pred == 0 && m.rnd == 0 && m.ovp == 0 && m.aux == 0

/-- VCVT (R293): source format in B, part h below the ratio of the widths. -/
def vcvtOk (f : VA) : Bool :=
  let m := VMod.of f.x 0
  let s := f.b.toNat
  let ws := fmtWidth s
  let wt := fmtWidth m.fmt
  modReserved f.x && !f.bs && s < 16 && fmtCvt s && fmtCvt m.fmt && code3Ok m.rnd && code3Ok m.ovp &&
    m.aux < max ws wt / min ws wt

/-- The memory forms (R298). -/
def vmOk (f : VM) (fmts : Nat → Bool) (aux : AuxRole) : Bool :=
  let m := VMod.of f.x 0
  latOk f.lat && f.md.toNat ≤ 1 && modReserved f.x && fmts m.fmt && m.rnd == 0 && m.ovp == 0 && auxOk aux m

/-- Pairs of operand formats that the matrix engine accepts, and the planes of A that each allows (Table 13.4). -/
def pairOk (a b : Nat) : Bool :=
  (a == 5 && (b == 5 || b == 3 || b == 4 || b == 1)) || (a == 3 && (b == 3 || b == 4 || b == 1)) ||
  (a == 4 && (b == 3 || b == 4 || b == 1)) || (a == 1 && (b == 1 || b == 2)) || (a == 2 && (b == 1 || b == 2)) ||
  (a == 7 && (b == 7 || b == 6)) || (a == 6 && b == 6)

def planesOk (a n : Nat) : Bool :=
  n == 0 || (a == 5 && 3 ≤ n && n ≤ 4) || (a == 3 && 5 ≤ n && n ≤ 8) || (a == 4 && 6 ≤ n && n ≤ 8) ||
  (a == 1 && 9 ≤ n && n ≤ 16) || (a == 2 && 6 ≤ n && n ≤ 16) || (a == 7 && 1 ≤ n && n ≤ 4) ||
  (a == 6 && 1 ≤ n && n ≤ 8)

/-- A legal format-table entry (R311), by its bits [31:0]: its upper word holds no constrained field. -/
def entryLegal (e : W32) : Bool :=
  let n := e.toNat
  let o := n / 2 ^ 20 % 16
  pairOk (n % 16) (n / 16 % 16) && planesOk (n % 16) (n / 2 ^ 12 % 32) &&
  (o ≤ 4 || o == 6 || o == 10 || o == 11) && code3Ok (n / 2 ^ 24 % 8) && code3Ok (n / 2 ^ 27 % 8) &&
  n / 2 ^ 10 % 4 == 0 && n / 2 ^ 17 % 8 == 0 && n / 2 ^ 30 == 0

/-- The words that MLOOP may write: reserved bits zero, and ABASE and BBASE multiples of 16 (R324). -/
def mloopOk (sel : Nat) (x : W32) : Bool :=
  let n := x.toNat
  match sel with
  | 0 => n < 2 ^ 24 && n % 16 == 0
  | 1 => n < 2 ^ 24 && n % 16 == 0
  | 2 => n < 2 ^ 23
  | _ => n < 2 ^ 16

/-- Special registers that Table 11.8 assigns. -/
def srAssigned (n : Nat) : Bool := n ≤ 0x1D || (0x20 ≤ n && n ≤ 0x23)
/-- Those that MTSR may write in some context; TSW and TPC only in a handler, AGE_LIMIT only by the steward. -/
def srWritable (n : Nat) : Bool :=
  n == 3 || n == 4 || n == 0x10 || n == 0x13 || (0x14 ≤ n && n ≤ 0x17) || (0x20 ≤ n && n ≤ 0x23)

def plainSA (f : SA) : Bool := f.x.isNone && !f.k && f.rstep == 0 && f.fn == 0
def aluOk (u : Bool) (f : SA) : Bool := (f.x.isNone || f.b == 0) && (u || f.fn != 2)
def smOk (f : SM) : Bool := latOk f.lat && wOk f.w
def atomicOk (f : SM) : Bool := latOk f.lat && wAtomic f.w && f.a.toNat % 4 == 0 && !f.k
def scTarget (f : SC) : Bool :=
  !f.k && match f.x with
    | none => false
    | some t => targetOk t
def scPlain (f : SC) : Bool := !f.k && f.x.isNone
def cqOk (f : CQ) : Bool := latOk f.lat
def cqPlain (f : CQ) (align : Nat) : Bool := latOk f.lat && f.x.isNone && !f.k && f.a.toNat % align == 0
def extNone (x : Option W32) : Bool := x.isNone

/-- An extension word whose bits [31:16] are zero. -/
def extLow (x : Option W32) : Bool :=
  match x with
  | none => false
  | some i => i.toNat < 2 ^ 16

/-- Whether an instruction is legal by itself. -/
def Instr.wf (i : Instr) : Bool :=
  match i with
  | .scope f => f.sc.toNat ≤ 5
  | .nop _ => true
  | .add f => aluOk false f
  | .sub f => aluOk false f
  | .mul f => aluOk false f
  | .mulh f => aluOk true f
  | .div f => aluOk true f
  | .rem f => aluOk true f
  | .and f => aluOk false f
  | .or f => aluOk false f
  | .xor f => aluOk false f
  | .andn f => aluOk false f
  | .orn f => aluOk false f
  | .shl f => aluOk false f
  | .shr f => aluOk false f
  | .sar f => aluOk false f
  | .rol f => aluOk false f
  | .min f => aluOk true f
  | .max f => aluOk true f
  | .cmpeq f => aluOk false f
  | .cmpne f => aluOk false f
  | .cmplt f => aluOk true f
  | .cmple f => aluOk true f
  | .popc f => aluOk false f
  | .mov f => f.x.isNone && f.b == 0 && f.fn == 0
  | .movi f => f.x.isSome && f.a == 0 && f.b == 0 && f.fn == 0
  | .movhi f => f.x.isSome && f.b == 0 && f.fn == 0
  | .csel f => f.x.isNone && f.fn == 0
  | .ld f => smOk f
  | .st f => smOk f
  | .lds f => smOk f
  | .chk f => scTarget f && f.b == 0 && f.cnd == 0 && f.lc == 0
  | .br f => scTarget f && f.a == 0 && f.b == 0 && f.cnd == 0 && f.lc == 0
  | .bc f => scTarget f && f.cnd.toNat ≤ 11 && f.lc == 0
  | .bri f => scPlain f && f.b == 0 && f.cnd == 0 && f.lc == 0
  | .call f => scTarget f && f.b == 0 && f.cnd == 0 && f.lc == 0
  | .calli f => scPlain f && f.cnd == 0 && f.lc == 0
  | .ret f => scPlain f && f.b == 0 && f.cnd == 0 && f.lc == 0
  | .lset f => scPlain f && f.b == 0 && f.cnd.toNat < 8
  | .lnext f => scTarget f && f.a == 0 && f.b == 0 && f.cnd == 0
  | .bksel f => scTarget f && f.lc == 0 && extLow f.x
  | .yield => true
  | .endTask => true
  | .fset f => plainSA f && f.d == 0
  | .fwait f => plainSA f
  | .launch f => plainSA f && f.b == 0
  | .mfsr f => plainSA f && f.a == 0 && srAssigned f.b.toNat
  | .mtsr f => plainSA f && f.d == 0 && srWritable f.b.toNat
  | .aadd f => atomicOk f
  | .amin f => atomicOk f
  | .amax f => atomicOk f
  | .aswap f => atomicOk f
  | .acas f => atomicOk f
  | .aclaim f => atomicOk f && f.w == 3
  | .drain => true
  | .waitm f => latOk f.lat && wAtomic f.w && f.a.toNat % 2 == 0 && !f.k && f.x.isNone
  | .barv f => plainSA f && f.b == 0
  | .barw f => plainSA f
  | .trap f => plainSA f && f.d == 0 && f.b == 0
  | .rett => true
  | .uiret => true
  | .brk f => plainSA f && f.d == 0 && f.b == 0
  | .svc f => plainSA f && f.b == 0 && f.a.toNat % 2 == 0
  | .ctxsv f => plainSA f
  | .ctxld f => plainSA f
  | .vfadd f => vaOk f 0 fmtArith .reg .unused always always
  | .vfsub f => vaOk f 0 fmtArith .reg .unused always always
  | .vfmul f => vaOk f 0 fmtArith .reg .unused always always
  | .vfma f => vaOk f 0 fmtArith .reg .unused always always
  | .vfnma f => vaOk f 0 fmtArith .reg .unused always always
  | .vfmin f => vaOk f 0 fmtArith .reg .unused never never
  | .vfmax f => vaOk f 0 fmtArith .reg .unused never never
  | .vfabs f => vaOk f 0 fmtArith .unused .unused never never
  | .vfneg f => vaOk f 0 fmtArith .unused .unused never never
  | .vfcmp f => predField f.d && vaOk f 0 (· == 0) .reg (.below 6) never never
  | .vrcp f => vaOk f 0 fmtArith .unused .unused always always
  | .vrsqrt f => vaOk f 0 fmtArith .unused .unused always never
  | .vexp2 f => vaOk f 0 fmtArith .unused .unused always always
  | .vcvt f => vcvtOk f
  | .vadd f => vaOk f 11 fmtInt .reg .unused never never
  | .vsub f => vaOk f 11 fmtInt .reg .unused never never
  | .vmul f => vaOk f 11 fmtInt .reg .unused never never
  | .vand f => vaOk f 11 fmtLane .reg .unused never never
  | .vor f => vaOk f 11 fmtLane .reg .unused never never
  | .vxor f => vaOk f 11 fmtLane .reg .unused never never
  | .vshl f => vaOk f 11 fmtInt .reg .unused never never
  | .vshr f => vaOk f 11 fmtInt .reg .unused never never
  | .vsar f => vaOk f 11 fmtInt .reg .unused never never
  | .vmin f => vaOk f 11 fmtInt .reg .n16 never never
  | .vmax f => vaOk f 11 fmtInt .reg .n16 never never
  | .vcmp f => predField f.d && vaOk f 11 (fun x => x == 11 || x == 14) .reg (.below 12) never never
  | .vradd f => vaOk f 0 (fun x => fmtArith x || fmtInt x) .unused .unused fmtArith fmtArith
  | .vrmax f => vaOk f 0 (fun x => fmtArith x || fmtInt x) .unused .n16 never never
  | .vscani f => vaOk f 0 (fun x => fmtArith x || fmtInt x) .unused .unused fmtArith fmtArith
  | .vscanx f => vaOk f 0 (fun x => fmtArith x || fmtInt x) .unused .unused fmtArith fmtArith
  | .vperm f => vaOk f 14 fmtWord .reg .unused never never
  | .vbcast f => vaOk f 14 fmtLane .scalar .unused never never
  | .vslide f => vaOk f 14 fmtLane .scalar .vreg never never
  | .vcompr f => vaOk f 14 fmtWord .unused .unused never never
  | .pand f => predOpMod f.x && predField f.d && predField f.a && predField f.b && !f.bs
  | .por f => predOpMod f.x && predField f.d && predField f.a && predField f.b && !f.bs
  | .pxor f => predOpMod f.x && predField f.d && predField f.a && predField f.b && !f.bs
  | .pnot f => predOpMod f.x && predField f.d && predField f.a && f.b == 0 && !f.bs
  | .pcnt f => predOpMod f.x && predField f.a && f.b == 0 && !f.bs
  | .vld f => vmOk f fmtLane .unused
  | .vst f => vmOk f fmtLane .unused
  | .vgath f => vmOk f fmtWord .vreg
  | .vscat f => vmOk f fmtWord .vreg
  | .vlds f => vmOk f fmtLane .unused
  | .vgaths f => vmOk f fmtWord .vreg
  | .vpart f => vaOk f 14 (· == 14) .scalar .unused never never
  | .vhist f => vaOk f 14 (fun x => x == 14 || x == 10) .scalar (.below 2) never never
  | .vkey f => vaOk f 0 fmtCvt .unused (.below 2) never never
  | .vkeyx f => vaOk f 0 fmtCvt .unused (.below 2) never never
  | .vpx3 f => vaOk f 0 (· == 0) .reg (.below 4) always always
  | .vshadd3 f => vaOk f 11 (· == 11) .reg (.below (if f.bs then 1 else 4)) never never
  | .vfxt f => vaOk f 0 (· == 0) .scalar .unused always always
  | .vfxf f => vaOk f 0 (· == 0) .scalar .unused always always
  | .mstep f => f.x.isNone
  | .mzero f => f.x.isNone && f.ta == 0 && f.tb == 0 && f.lcx == 0 && f.rstep == 0
  | .mread f => f.x.isNone && f.ta.toNat < 8
  | .mwrite f => f.x.isNone && f.ta.toNat < 8 && f.lcx == 0
  | .mfmt f => !f.k && f.acc == 0 && f.ta.toNat < 16 && f.tb == 0 && f.lcx == 0 && f.rstep == 0 &&
      (match f.x with
       | none => false
       | some e => entryLegal e)
  | .mloop f => !f.k && f.acc == 0 && f.ta.toNat < 4 && f.tb == 0 && f.lcx == 0 && f.rstep == 0 &&
      (match f.x with
       | none => false
       | some e => mloopOk f.ta.toNat e)
  | .mscale f => !f.k && f.acc == 0 && f.ta.toNat < 16 && f.tb == 0 && f.lcx == 0 && f.rstep == 0 && f.x.isSome
  | .medge f => !f.k && f.acc == 0 && f.ta.toNat < 64 && f.tb.toNat < 3 && f.lcx == 0 && f.rstep == 0 && f.x.isNone
  | .mrot f => !f.k && f.x.isNone && 1 ≤ f.ta.toNat && f.acc.toNat + f.ta.toNat + 1 ≤ 8 && f.tb == 0 &&
      f.lcx == 0 && f.rstep == 0
  | .xqnt f => f.fmt.toNat ≤ 2 && (f.x.isNone || extLow f.x)
  | .xexp f => f.x.isNone && 1 ≤ f.fmt.toNat && f.fmt.toNat ≤ 4
  | .xtrn f => f.x.isNone && fmtTile f.fmt.toNat && f.fmt != 5 && f.ovp == 0
  | .xcvt f => f.x.isNone && 1 ≤ f.fmt.toNat && f.fmt.toNat ≤ 7
  | .xplane f => f.x.isNone && fmtTile f.fmt.toNat && f.ovp == 0
  | .xunpl f => f.x.isNone && fmtTile f.fmt.toNat && f.ovp == 0
  | .xscale f => extLow f.x && 1 ≤ f.fmt.toNat && f.fmt.toNat ≤ 4
  | .ocopy f => cqOk f && f.a.toNat % 4 == 0 && !f.sh.getLsbD 1
  | .oload f => cqOk f && f.a.toNat % 4 == 0 && !f.sh.getLsbD 1
  | .ostore f => cqOk f && f.a.toNat % 4 == 0
  | .tload f => cqOk f && f.a.toNat % 4 == 0 && !f.sh.getLsbD 1
  | .kvld f => cqOk f && f.a.toNat % 4 == 0
  | .kvldt f => cqOk f && f.a.toNat % 4 == 0
  | .kvapp f => cqOk f && f.a.toNat % 4 == 0 && !f.sh.getLsbD 0
  | .seal f => cqPlain f 2
  | .catlook f => cqPlain f 4
  | .loan f => cqPlain f 4 && f.sh == 0
  | .unloan f => cqPlain f 2 && f.sh.toNat ≤ 1
  | .promote f => cqPlain f 1 && f.sh.toNat < 4
  | .qpush f => cqPlain f 2 && f.sh == 0
  | .qpoll f => cqPlain f 2 && f.sh == 0
  | .cwait f => cqPlain f 2 && f.sh.toNat ≤ 1
  | .barset f => cqPlain f 2 && f.sh == 0
  | .coll f => cqPlain f 1 && f.sh != 7
  | .olcinv f => cqPlain f 1 && f.sh.toNat ≤ 3
  | .reloc f => cqPlain f 2
  | .partitionSelect _ _ => true
  | .resultWrite _ _ _ => true
  | .segmentExpand _ _ => true
  | .bucketTableRead _ _ => true
  | .preemptRequest _ _ => true
  | .partitionResume _ _ => true
  | .singleStepSet _ _ _ => true
  | .taskKill _ _ => true
  | .kvFaultReport _ _ _ => true
  | .copyFaultReport _ _ => true
  | .copyUnitDone _ _ _ => true
  | .completionRecordWrite _ _ => true
  | .hostInterruptTimer _ _ => true
  | .ringConsAdvance _ _ => true
  | .cwaitTimeout _ _ _ => true
  | .waitmWake _ _ _ => true
  | .waitmTimeout _ _ _ => true
  | .svcAnswer _ _ _ _ => true
  | .svcFwver _ _ _ => true
  | .svcCatclk _ _ _ => true
  | .svcDirhome _ _ _ => true
  | .svcEvent _ _ _ => true
  | .svcUnknown _ _ _ => true
  | .layoutRead _ => true
  | .layoutWrite _ _ _ => true
  | .memorySideReduction _ _ _ _ => true
  | .ioDieReduction _ _ _ => true
  | .stewardMergeCommand _ => true
  | .chunkCapture _ => true
  | .refreshWindowEnd => true
  | .captureStoreBackDone _ => true
  | .patrolScrub _ _ => true
  | .retirementCopyDone _ => true
  | .scrubPeriodEnd => true
  | .relocSubtileCopy _ => true
  | .relocFinish _ => true
  | .replicaRepair _ => true
  | .sealRun _ => true
  | .catlookRun _ => true
  | .promotionRun _ => true
  | .demotionPass _ _ => true
  | .recallDataMove _ => true
  | .deaccession _ _ => true
  | .poolBoundaryChange _ _ _ _ => true
  | .coreCacheLineExpiry _ _ => true
  | .packetFetch _ _ => true
  | .queueVisit _ => true
  | .queueResume _ => true
  | .pktNop _ => true
  | .pktLaunch _ => true
  | .pktGraph _ => true
  | .pktCond _ => true
  | .pktWrite _ => true
  | .pktFlush _ => true
  | .packetRetire _ => true
  | .gangPlace _ => true
  | .gangRelease _ => true
  | .gangClose _ => true
  | .sliceStart => true
  | .firmwareActivation _ => true
  | .hostApertureRead _ _ => true
  | .hostApertureWrite _ _ => true
  | .bar0RegisterWrite _ _ => true
  | .hostSnpdata _ => true
  | .hostSnpinv _ => true
  | .hostLineEviction _ => true
  | .annexReleaseRequest _ => true
  | .annexgraceExpiry _ => true
  | .annexForcedRelease _ => true
  | .nvmeCompletion _ _ _ => true
  | .repotoExpiry _ => true
  | .itkHello _ _ => true
  | .itkAck _ _ => true
  | .itkDreg _ _ => true
  | .itkDquery _ _ => true
  | .itkDlist _ _ => true
  | .itkFetch _ _ => true
  | .itkFdata _ _ => true
  | .itkNohold _ _ => true
  | .itkNodeinfo _ _ => true
  | .itkPread _ _ => true
  | .itkPwrite _ _ => true
  | .itkPdata _ _ => true
  | .itkPrefuse _ _ => true
  | .itkCjoin _ _ => true
  | .itkCdata _ _ => true
  | .itkUnknownType _ _ => true
  | .itkRetransmitTimeout _ _ => true
  | .peertoExpiry _ => true
  | .collectiveTimeout _ => true
  | .reset => true
  | .mailboxModuleRecord _ _ => true
  | .mailboxFirmwareStage _ => true
  | .setkey _ _ _ => true
  | .clearkey _ => true
  | .debugHold _ _ => true
  | .eventRingName _ _ => true
  | .getMeasurements _ => true
  | .powerOverCap => true
  | .powerBelowCap => true
  | .thermalThrottle => true
  | .thermalTrip => true
  | .annexExtentOffer _ _ _ _ => true
  | .thermalRecovery => true
  | .nvmeQueueHandoff _ _ _ => true
  | .spdmSecureSession => true

end Sys2Proof
end

