-- ==== Sys2Proof/Machine/Num.lean ====
section
/-! DEFINITION. Exact arithmetic, rounding, overflow and the element formats (R24 to R42). -/

namespace Sys2Proof.Machine

/-- An exact value: a NaN, an infinity, or `(-1)^neg * m * 2^e`, zeros with their sign. -/
inductive Num where
  | nan
  | inf (neg : Bool)
  | fin (neg : Bool) (m : Nat) (e : Int)
  deriving DecidableEq, Repr

/-- Table 2.6. -/
inductive RMode where
  | rne | rz | ru | rd
  deriving DecidableEq, Repr

/-- Table 2.7. -/
inductive Policy where
  | sat | inf | nan | trap
  deriving DecidableEq, Repr

def rmodeOf (n : Nat) : RMode :=
  match n % 4 with
  | 0 => .rne | 1 => .rz | 2 => .ru | _ => .rd

def policyOf (n : Nat) : Policy :=
  match n % 4 with
  | 0 => .sat | 1 => .inf | 2 => .nan | _ => .trap

/-- RND3: 0 selects FPCTL.RM, 4 to 7 the four modes (R38). -/
def rnd3 (c : Nat) (fpctl : W64) : RMode := if c = 0 then rmodeOf (fpctl.toNat % 4) else rmodeOf c
/-- OVP3: 0 selects FPCTL.OVP, 4 to 7 the four policies (R59). -/
def ovp3 (c : Nat) (fpctl : W64) : Policy := if c = 0 then policyOf (fpctl.toNat / 4 % 4) else policyOf c

/-- The sticky flags of FPCTL that an operation sets (Table 2.9): OF in bit 0, NV in bit 1, BV in bit 2. -/
abbrev Flags := BitVec 3
def flagOF : Flags := 1
def flagNV : Flags := 2
def flagBV : Flags := 4

/-- A shift by an integer amount, which must not be negative to be exact. -/
def shl (m : Nat) (k : Int) : Nat := if 0 ≤ k then m <<< k.toNat else m >>> (-k).toNat

/-- Whether a discarded part rounds the magnitude up: `q` is the kept value, `r` the remainder of `2^s`. -/
def roundsUp (mode : RMode) (neg : Bool) (q r s : Nat) : Bool :=
  match mode with
  | .rz => false
  | .ru => !neg && r != 0
  | .rd => neg && r != 0
  | .rne => 2 * r > 2 ^ s || (2 * r == 2 ^ s && q % 2 == 1)

/-- Rounds `m * 2^e` to at most `p` significant bits and to a multiple of `2^qmin`, in an unbounded exponent range:
the result is `m' * 2^q`. -/
def roundMag (mode : RMode) (neg : Bool) (m : Nat) (e : Int) (p : Nat) (qmin : Int) : Nat × Int :=
  if m = 0 then (0, qmin)
  else
    let q : Int := max (e + bitLen m - p) qmin
    if q ≤ e then (m <<< (e - q).toNat, q)
    else
      let s := (q - e).toNat
      let k := m >>> s
      let r := m % 2 ^ s
      (if roundsUp mode neg k r s then k + 1 else k, q)

/-- A binary floating format: fraction bits, exponent bits, bias, and whether it follows IEEE at the top exponent. -/
structure FFmt where
  w : Nat
  f : Nat
  bias : Int
  ieee : Bool
  deriving DecidableEq, Repr

/-- Table 2.1: FP32, BF16, FP16, E4M3, E5M2 by their codes. -/
def ffmt (code : Nat) : FFmt :=
  match code with
  | 0 => { w := 32, f := 23, bias := 127, ieee := true }
  | 1 => { w := 16, f := 7, bias := 127, ieee := true }
  | 2 => { w := 16, f := 10, bias := 15, ieee := true }
  | 3 => { w := 8, f := 3, bias := 7, ieee := false }
  | _ => { w := 8, f := 2, bias := 15, ieee := true }

/-- All ones in the exponent field. -/
def FFmt.emax (t : FFmt) : Nat := 2 ^ (t.w - 1 - t.f) - 1
/-- Canonical NaN (Table 2.2). -/
def FFmt.qnan (t : FFmt) : Nat := if t.ieee then t.emax * 2 ^ t.f + 2 ^ (t.f - 1) else 2 ^ (t.w - 1) - 1
/-- Magnitude code of the largest finite value. -/
def FFmt.top (t : FFmt) : Nat := if t.ieee then t.emax * 2 ^ t.f - 1 else 2 ^ (t.w - 1) - 2
/-- Exponent of the least subnormal. -/
def FFmt.qmin (t : FFmt) : Int := 1 - t.bias - t.f

/-- The exact value of a code of a binary floating format (R26, R27). -/
def FFmt.decode (t : FFmt) (x : Nat) : Num :=
  let neg := x.testBit (t.w - 1)
  let ex := x >>> t.f % 2 ^ (t.w - 1 - t.f)
  let fr := x % 2 ^ t.f
  if t.ieee && ex == t.emax then (if fr == 0 then .inf neg else .nan)
  else if !t.ieee && x % 2 ^ (t.w - 1) == 2 ^ (t.w - 1) - 1 then .nan
  else if ex == 0 then .fin neg fr t.qmin
  else .fin neg (fr + 2 ^ t.f) ((ex : Int) - t.bias - t.f)

/-- The magnitude code of `m * 2^q`, when it is a value of the format. -/
def FFmt.magCode (t : FFmt) (m : Nat) (q : Int) : Nat :=
  if m = 0 then 0
  else
    let up := q + bitLen m - 1 + t.bias
    if up ≤ 0 then shl m (q - t.qmin)
    else up.toNat * 2 ^ t.f + shl m ((t.f : Int) + 1 - bitLen m) % 2 ^ t.f

/-- Puts the sign on a magnitude code. -/
def FFmt.signed (t : FFmt) (neg : Bool) (c : Nat) : Nat := if neg then 2 ^ (t.w - 1) + c else c

/-- What a conversion gives: the code written and the flags, or nothing, with the overflow trap (R42). -/
structure Conv where
  code : Nat
  flags : Flags
  trap : Bool
  deriving DecidableEq, Repr

def convOk (c : Nat) : Conv := { code := c, flags := 0, trap := false }

/-- The row of Table 2.8 for the binary floating formats. -/
def FFmt.overflow (t : FFmt) (neg : Bool) (mode : RMode) (pol : Policy) : Conv :=
  let top := t.signed neg t.top
  match pol with
  | .trap => { code := 0, flags := 0, trap := true }
  | .nan => { code := t.qnan, flags := flagOF, trap := false }
  | .sat => { code := top, flags := flagOF, trap := false }
  | .inf =>
    let stays := !t.ieee || mode == .rz || (mode == .ru && neg) || (mode == .rd && !neg)
    { code := if stays then top else t.signed neg (t.emax * 2 ^ t.f), flags := flagOF, trap := false }

/-- Convert to a binary floating format (R39 to R42). -/
def FFmt.encode (t : FFmt) (x : Num) (mode : RMode) (pol : Policy) : Conv :=
  match x with
  | .nan => convOk t.qnan
  | .inf neg => if t.ieee then convOk (t.signed neg (t.emax * 2 ^ t.f)) else t.overflow neg mode pol
  | .fin neg m e =>
    let r := roundMag mode neg m e (t.f + 1) t.qmin
    let c := t.magCode r.1 r.2
    if r.1 != 0 && t.top < c then t.overflow neg mode pol else convOk (t.signed neg c)

/-- Convert to an integer range (R32, R39, R41): the nearest end of the range on overflow under every policy but
TRAP; a NaN gives 0 and sets NV. The code has `w` bits. A negative value for N8 or N32 is an overflow below the range, and sets OF
alone: whether Table 2.9 wants NV beside it is left open (log entry 119). -/
def intEncode (w : Nat) (lo hi : Int) (x : Num) (mode : RMode) (pol : Policy) : Conv :=
  let ovf (neg : Bool) : Conv :=
    if pol == .trap then { code := 0, flags := 0, trap := true }
    else { code := ofInt (if neg then lo else hi) w, flags := flagOF, trap := false }
  match x with
  | .nan => { code := 0, flags := flagNV, trap := false }
  | .inf neg => ovf neg
  | .fin neg m e =>
    let r := roundMag mode neg m e 100000 0
    let mag : Nat := shl r.1 r.2
    let v : Int := if neg then -(mag : Int) else mag
    if v < lo then ovf true else if hi < v then ovf false else convOk (ofInt v w)

/-- The ranges of the integer formats (R32), VFX24 by its stored form (R36). -/
def intRange (fmt : Nat) : Int × Int :=
  match fmt with
  | 6 => (-128, 127)
  | 7 => (-8, 7)
  | 9 => (-(2 ^ 23), 2 ^ 23 - 1)
  | 10 => (-(2 ^ 15), 2 ^ 15 - 1)
  | 11 => (-(2 ^ 31), 2 ^ 31 - 1)
  | 12 => (-(2 ^ 63), 2 ^ 63 - 1)
  | 13 => (0, 255)
  | _ => (0, 2 ^ 32 - 1)

/-- The exact value of an integer. -/
def numOfInt (x : Int) : Num := .fin (x < 0) x.natAbs 0

/-- Value of a PX3 byte (R33). -/
def px3Decode (x : Nat) : Num :=
  if x.testBit 7 then .fin false 0 0 else .fin false (4 + x % 4) (-(x / 4 % 32 : Nat) - 2)

/-- Compare `m * 2^e` with `n * 2^f`. -/
def magLt (m : Nat) (e : Int) (n : Nat) (f : Int) : Bool :=
  if e ≤ f then m < n <<< (f - e).toNat else m <<< (e - f).toNat < n

/-- Convert to PX3 (R34): 2^-31 times an integer of at most 3 significant bits; below 2^-31 the candidates are 0 and
2^-31, and a tie of theirs goes to 0, as does every value of RNE up to the tie. -/
def px3Encode (x : Num) (mode : RMode) (pol : Policy) : Conv :=
  let ovf : Conv :=
    if pol == .trap then { code := 0, flags := 0, trap := true } else { code := 0x03, flags := flagOF, trap := false }
  match x with
  | .nan => { code := 0x80, flags := flagNV, trap := false }
  | .inf neg => if neg then { code := 0x80, flags := flagNV, trap := false } else ovf
  | .fin neg m e =>
    if m = 0 then convOk 0x80
    else if neg then { code := 0x80, flags := flagNV, trap := false }
    else if magLt m e 1 (-31) then
      let up := match mode with
        | .rne => magLt 1 (-32) m e
        | .ru => true
        | _ => false
      convOk (if up then 0x7C else 0x80)
    else
      let r := roundMag mode false m e 3 (-100000)
      let lead := r.2 + bitLen r.1 - 1
      if 0 < lead then ovf
      else convOk ((-lead).toNat * 4 + shl r.1 (3 - (bitLen r.1 : Int)) % 4)

/-- The exact value of a lane or storage element, FP4 apart (R26 to R33). A VFX24 element is its integer. -/
def fmtDecode (fmt x : Nat) : Num :=
  if fmt ≤ 4 then (ffmt fmt).decode (x % 2 ^ (ffmt fmt).w)
  else if fmt == 8 then px3Decode x
  else if fmt == 13 || fmt == 14 then numOfInt (x % 2 ^ fmtWidth fmt : Nat)
  else numOfInt (toSigned x (fmtWidth fmt))

/-- Convert of Table 0.3 to an element format, FP4 blocks apart (R39 to R42). -/
def convert (x : Num) (fmt : Nat) (mode : RMode) (pol : Policy) : Conv :=
  if fmt ≤ 4 then (ffmt fmt).encode x mode pol
  else if fmt == 8 then px3Encode x mode pol
  else intEncode (fmtWidth fmt) (intRange fmt).1 (intRange fmt).2 x mode pol

/-! Exact operations. A zero sum takes its sign from IEEE 754: the operands' common sign, and otherwise + except under
RD. -/

def numNeg : Num → Num
  | .nan => .nan
  | .inf s => .inf !s
  | .fin s m e => .fin (!s) m e

/-- Sum, with whether it was an invalid operation (infinities of both signs, R286). -/
def numAdd (mode : RMode) (x y : Num) : Num × Bool :=
  match x, y with
  | .nan, _ => (.nan, false)
  | _, .nan => (.nan, false)
  | .inf a, .inf b => if a == b then (.inf a, false) else (.nan, true)
  | .inf a, .fin _ _ _ => (.inf a, false)
  | .fin _ _ _, .inf b => (.inf b, false)
  | .fin a m e, .fin b n f =>
    let g := min e f
    let xm : Int := if a then -((m <<< (e - g).toNat : Nat) : Int) else (m <<< (e - g).toNat : Nat)
    let ym : Int := if b then -((n <<< (f - g).toNat : Nat) : Int) else (n <<< (f - g).toNat : Nat)
    let z := xm + ym
    if z = 0 then
      let neg := if m = 0 && n = 0 && a == b then a else mode == .rd
      (.fin neg 0 0, false)
    else (.fin (z < 0) z.natAbs g, false)

/-- Product, with whether it was an invalid operation (0 * infinity). -/
def numMul (x y : Num) : Num × Bool :=
  match x, y with
  | .nan, _ => (.nan, false)
  | _, .nan => (.nan, false)
  | .inf a, .inf b => (.inf (a != b), false)
  | .inf a, .fin b n _ => if n = 0 then (.nan, true) else (.inf (a != b), false)
  | .fin a m _, .inf b => if m = 0 then (.nan, true) else (.inf (a != b), false)
  | .fin a m e, .fin b n f => (.fin (a != b) (m * n) (e + f), false)

/-- Integer square root, by binary digits: the greatest `r` with `r * r ≤ x`, for `x < 4^n`. -/
def isqrt (x : Nat) : Nat → Nat
  | 0 => 0
  | n + 1 =>
    let r := 2 * isqrt (x / 4) n
    if (r + 1) * (r + 1) ≤ x then r + 1 else r

/-- Bits kept beyond any target's precision before a sticky bit is appended. -/
def guardBits : Nat := 64

/-- A value of which only `m * 2^e` and whether something was cut off are known: the cut is folded into one more low
bit, which no rounding to fewer bits can mistake. -/
def withSticky (neg : Bool) (m : Nat) (e : Int) (cut : Bool) : Num := .fin neg (2 * m + if cut then 1 else 0) (e - 1)

/-- Exact quotient of finite values, the divisor not zero. -/
def finDiv (neg : Bool) (m : Nat) (e : Int) (n : Nat) (f : Int) : Num :=
  let k := guardBits + bitLen n
  let num := m <<< k
  if m = 0 then .fin neg 0 0 else withSticky neg (num / n) (e - f - k) (num % n != 0)

/-- 1 / √(m * 2^e) for `m` not 0: the square root of 2^(2k) / m, digit by digit. -/
def finRsqrt (m : Nat) (e : Int) : Num :=
  let odd := e % 2 != 0
  let m2 := if odd then 2 * m else m
  let e2 := if odd then e - 1 else e
  let k := guardBits + bitLen m2
  let q := 2 ^ (2 * k) / m2
  let r := isqrt q (k + 1)
  withSticky false r (-(e2 / 2) - k) (!(r * r == q && q * m2 == 2 ^ (2 * k)))

/-- 2^(f / 2^p) for 0 ≤ f < 2^p, as an interval of multiples of 2^-prec: the product over the set bits of f of
2^(2^-j), whose factors come from successive square roots of 2. Lower and upper ends. `bits` are the bits of f, the
highest first; `lo` and `hi` enclose the present factor. -/
def exp2Frac (prec : Nat) : List Bool → Nat → Nat → Nat × Nat → Nat × Nat
  | [], _, _, acc => acc
  | b :: bs, lo, hi, acc =>
    let lo' := isqrt (lo <<< prec) (prec + 4)
    let hi' := isqrt (hi <<< prec) (prec + 4) + 1
    let acc' := if b then ((acc.1 * lo') >>> prec, (acc.2 * hi') >>> prec + 1) else acc
    exp2Frac prec bs lo' hi' acc'

/-- The bits of `f` below bit `p`, highest first. -/
def bitsDown (f : Nat) : Nat → List Bool
  | 0 => []
  | p + 1 => f.testBit p :: bitsDown f p

/-- A decided enclosure: both ends agree in all bits but the last few, so that with a sticky bit either end rounds
alike to any target of at most 30 bits. -/
def encloses (lo hi prec : Nat) : Option Nat :=
  let s := prec - guardBits
  if lo >>> s = hi >>> s then some (lo >>> s) else none

/-- 2^x for a finite x = ±m * 2^e: the integer part of x moves the exponent, its fraction goes through `exp2Frac` at
rising precisions. Where x is an integer the result is exact; elsewhere it is irrational and a sticky bit stands for
the rest. Values beyond every format are cut to ones beyond every format. -/
def finExp2 (neg : Bool) (m : Nat) (e : Int) : Num :=
  if m = 0 then .fin false 1 0
  else if 12 < e + bitLen m then (if neg then .fin false 1 (-5000) else .fin false 1 5000)
  else if 0 ≤ e then
    .fin false 1 (if neg then -((m <<< e.toNat : Nat) : Int) else (m <<< e.toNat : Nat))
  else
    let p := (-e).toNat
    let whole : Int := if neg then -((m >>> p : Nat) : Int) else (m >>> p : Nat)
    let frac := m % 2 ^ p
    if frac = 0 then .fin false 1 whole
    else
      -- the exponent as floor + positive fraction of 2^p
      let fl := if neg then whole - 1 else whole
      let fr := if neg then 2 ^ p - frac else frac
      let bs := bitsDown fr p
      let go (prec : Nat) : Option Nat :=
        let r := exp2Frac prec bs (2 <<< prec) ((2 <<< prec) + 1) (1 <<< prec, 1 <<< prec)
        encloses r.1 r.2 prec
      match go 128 with
      | some k => withSticky false k (fl - guardBits) true
      | none =>
        match go 512 with
        | some k => withSticky false k (fl - guardBits) true
        | none =>
          let r := exp2Frac 2048 bs (2 <<< 2048) ((2 <<< 2048) + 1) (1 <<< 2048, 1 <<< 2048)
          withSticky false (r.1 >>> (2048 - guardBits)) (fl - guardBits) true

end Sys2Proof.Machine
end

