-- ==== Sys2Proof/Machine/State.lean ====
section
/-! DEFINITION. The state of the machine: plain data, all that the spec gives it. -/

namespace Sys2Proof.Machine

/-- Why the machine stops. Traps, faults and kills of the spec are next states and never appear here. -/
inductive Fault where
  /-- `step`, when the head of the input agenda names a core, partition or unit that the part has not: no such event
  can happen. Safe. -/
  | noSuchUnit (what : Nat)
  deriving DecidableEq, Repr

/-- Why an instruction is not run. -/
inductive Refusal where
  /-- an arm of `exec` for an instruction without a meaning, by its mnemonic. Safe. -/
  | notModelled (mnemonic : String)
  deriving DecidableEq, Repr

/-- Table 14.11. -/
inductive PState where
  | free | placed | ready | frozen | fetch | stopped | swapped | ending
  deriving DecidableEq, Repr

/-- A register destination with the value to be written (R18). `sh` marks a shadow copy of s56 to s63 (R205). -/
inductive RegWrite where
  | s (r : BitVec 6) (sh : Bool) (x : W64) (poison : Bool)
  | v (r : BitVec 7) (x : VReg) (poison : Bool)
  | p (r : BitVec 4) (x : W128)
  | g (r : BitVec 3) (x : W128)
  | lc (r : BitVec 2) (x : W32)
  | sr (n : BitVec 6) (x : W64)
  | ftLo (n : BitVec 4) (x : W32)
  | ftHi (n : BitVec 4) (x : W32)
  | mc (n : Nat) (x : W32)
  | edge (dim : Nat) (x : BitVec 8)
  deriving DecidableEq, Repr

/-- One nibble of a logical byte of an object (R106): a nibble of device memory, or pad, or four bits that lie in four planes
of a bit-plane object, 16,384 bits apart from the bit address on (R110). -/
inductive Nib where
  | pad (x : Nat)
  | mem (addr : Nat) (high : Bool)
  | planes (bitAddr : Nat)
  deriving DecidableEq, Repr

/-- A logical byte as its two nibbles, the low one first (R106). -/
structure LByte where
  lo : Nib
  hi : Nib
  deriving DecidableEq, Repr

/-- An atomic that has been translated (R242, R274): `kind` 0 to 4 for AADD, AMIN, AMAX, ASWAP, ACAS, 5 for ACLAIM of
the header at `addr`. -/
structure AtomicOp where
  kind : Nat
  addr : Nat
  n : Nat
  signed : Bool
  opnd : Nat
  cmp : Nat
  acq : Bool
  scope : Nat
  cmpr : Bool
  fmt : Nat
  deriving DecidableEq, Repr

/-- What an operation does once its release has been met, that is, once its drain set has performed (R240, R243). -/
inductive RelOp where
  | atomic (a : AtomicOp)
  | fset (core flag inc : Nat)
  | launch (pkt : List Byte)
  | barv (bar : Nat)
  | svc (number : W16) (arg : W64)
  | qpush (slotAddr : W64) (pkt : List Byte) (res : W64)
  deriving DecidableEq, Repr

/-- What a waiting operation waits for. Times are core clocks. `upto` bounds the drain set: the operations numbered
below it; for OLCINV it names the operations, by core, task and number, that may use a dropped record, and `rec_` is the address
of the record whose GEN it answers. -/
inductive Wait where
  | drain (scope upto : Nat)
  | rel (upto : Nat) (op : RelOp)
  | fwait (flag amount : Nat)
  | barw (bar : Nat) (gen : W32)
  | waitm (cells : List LByte) (signed : Bool) (scope : Nat) (timeout : Option Nat)
  | cwaitBar (idx : Nat) (timeout : Option Nat)
  | cwaitRing (ring : Nat) (k : W32) (timeout : Option Nat)
  | answer (number : W16) (arg : W64)
  | olcinv (upto : List (Nat × Nat × Nat)) (rec_ : Option Nat)
  deriving DecidableEq, Repr

/-- State of a pending operation (Table 15.3). -/
inductive PendSt where
  | ready
  | engine
  | wait (w : Wait)
  | fault (code : Nat) (taddr cfc01 cfc23 : W64)
  | replay
  deriving DecidableEq, Repr

/-- Bytes of the scratchpad (`tile = false`) or lines of the tile-store share whose new contents the partition may
read only from the deadline on (R19, R190, R334). The destination of a V-slot store is `soft`: only the M and X units may
miss it
before the deadline. -/
structure LocalRange where
  tile : Bool
  lo : Nat
  n : Nat
  soft : Bool := false
  deriving DecidableEq, Repr

/-- A pending operation, which is also its late-write entry (R369, R370). `cyc` is its issue cycle and `due` its deadline, in
the counter of its
`level`: 0 for the task, 1 for a trap handler, 2 for a nested one. `late` marks one that a later-issued operation with
the same destination has overtaken against R22; `lost` holds the destinations that a later-issued operation has already
written, so that they keep its value (R22, R371); `obj` the CTXID and the handle with whose record it was translated (R123). -/
structure Pend where
  seq : Nat
  op : Nat
  slot : Nat
  pc : W32
  cyc : Nat
  due : Nat
  level : Nat
  writes : List RegWrite
  flags : BitVec 3
  st : PendSt
  dst : Option (BitVec 6 × Bool)
  vec : Bool
  ranges : List LocalRange
  eng : Option Nat
  late : Bool
  lost : List RegWrite
  obj : Option (Nat × Nat) := none
  deriving DecidableEq, Repr

/-- A fault reported and not yet taken (R372, R207): of the pending operation `id`, or of the copy entry `id`. `level` is
that of the operation (0 for a copy). -/
structure Report where
  copy : Bool
  id : Nat
  level : Nat
  code : Nat
  slot : Nat
  op : Nat
  pc : W32
  taddr : W64
  cfc01 : W64
  cfc23 : W64
  deriving DecidableEq, Repr

/-- A sticky register (R63): the syllable as stepped so far, and for SM, VM and CQ the captured operand registers and
the number of re-issues made. -/
structure Sticky where
  instr : Instr
  cap : List W64
  cnt : Nat
  deriving DecidableEq, Repr

/-- A pending control transfer (R71). `target` is none when it is not taken; `bad` marks a target that breaks R72 or
R264. `left` is 3 until its own bundle has issued, then the delay slots still to issue, and 0 while the target has not
been checked (R74); a handler entry and a return to a written TPC stand at 0 too. `src` and `op` are the transfer's. -/
structure Xfer where
  target : Option W32
  bad : Bool
  left : Nat
  src : W32
  op : Nat
  deriving DecidableEq, Repr

/-- Where the issue of a partition stands: the bundle, the slot at which it is entered, the issues still to come after
the next one, whether the next issue is a repeat (named syllables do not issue), the pending transfer, the sticky
registers, the scope that a committed SCOPE left for the remaining slots, and whether the task waits to end after the
last bundle of its last segment (R351). -/
structure Point where
  pc : W32
  slot : Nat
  rep : Option Nat
  again : Bool
  xfer : Option Xfer
  sticky : Vector (Option Sticky) 8
  scope : BitVec 3
  done : Bool
  deriving DecidableEq, Repr

/-- A trap bank (R373, R376): the trap registers and what entry saved. -/
structure TrapBank where
  tsw : W64
  tcause : W64
  taddr : W64
  tpc : W32
  tc : Nat
  at_ : Point
  sawCause : Bool
  sawAddr : Bool
  repc : Bool
  deriving DecidableEq, Repr

/-- One stored bundle: its header and the words after it (R51). -/
structure Bundle where
  hdr : W32
  words : List W32
  deriving DecidableEq, Repr

/-- A segment in one half of the loop buffer (R75): its offset in 16-byte units, whether it is valid under R74, its
number of bundles, its next segment, and the bundles expanded so far. -/
structure Seg where
  off : Nat
  valid : Bool
  nb : Nat
  next : Option Nat
  bundles : List Bundle
  rest : List W32
  deriving DecidableEq, Repr

/-- What a tile-store line, or a 16-byte unit of the scratchpad, held before a write of a pending operation (R227, R334): the task, level,
deadline and slot of the operation, and the old value. -/
structure Was where
  task : Nat
  level : Nat
  due : Nat
  slot : Nat
  val : W128
  deriving DecidableEq, Repr

/-- A partition (Table 9.6, Table 14.10) with what the arbiter and the command processor keep of its task. Registers
that the spec leaves undefined at task start (vector registers, tile-store lines, banks) are free values until they
are written: an absent entry of `v`, `tile`, `tags` (tag NONE) or `acc` (R7). Row `i` of bank `a` has the key
128a + i in `acc`, its cell `j` in bits [32j+31:32j]. `early` holds the operations whose results were written before their
deadlines: their destinations read as undefined until then (R19). `born` names the launch for them, `entered` is the
number of the task. -/
structure Part where
  ps : PState
  steward : Bool
  age : Nat
  lastIssue : Nat
  gang : Option Nat
  queue : Nat
  role : Nat
  slots : BitVec 8
  accs : BitVec 8
  wregs : Nat
  tslen : Nat
  wbase : Nat
  tsbase : Nat
  segmax : Nat
  born : Nat
  spbase : Nat
  splen : Nat
  coord : Vector W64 8
  tc : Nat
  at_ : Point
  s : Vector W64 64
  sp : BitVec 64
  sh : Vector W64 8
  shp : BitVec 8
  v : TMap VReg
  vp : W128
  p : Vector W128 16
  g : Vector W128 8
  lc : Vector W32 4
  le : Vector (BitVec 3) 4
  ft : Vector W64 16
  mca : W32
  mcb : W32
  mcs : W32
  mcg : W32
  mce : W32
  mcr : W32
  acc : TMap VReg
  tile : TMap W128
  tileWas : TMap (List Was)
  tags : TMap W16
  fpctl : W64
  tvec : W32
  uivec : W32
  uictl : W64
  rplact : W64
  cfc01 : W64
  cfc23 : W64
  tsw : W64
  tcause : W64
  taddr : W64
  tpc : W32
  level : Nat
  bank1 : Option TrapBank
  bank2 : Option TrapBank
  ui : Option Point
  uiSeq : Nat
  pends : List Pend
  early : List Pend
  nextSeq : Nat
  reports : List Report
  monitor : Option Nat
  cur : Option Seg
  nxt : Option Seg
  bucket : Option (Nat × List W32)
  preempt : Option Bool
  single : Bool
  stepped : Bool
  debugged : Bool
  entered : Nat
  nexty : Nat
  atYield : Bool
  stepFrom : Nat
  deriving DecidableEq, Repr

/-- A context in the shadow store (R380, R382): the partition that was saved, the core and partition it left, the
version of its layout, the reason of the stop (0 a yield, 1 forced), and whether resources of its core that a task of a
lower rank has yielded are held for it (R356); the rings whose completion interrupts have become ready since (R381); and the bytes of
the image that a debugger has written, by their offsets (R407). -/
structure SavedCtx where
  core : Nat
  part : Nat
  lver : Nat
  len : Nat
  forced : Bool
  held : Bool
  uipend : BitVec 8
  patch : TMap Byte := []
  ctx : Part
  deriving DecidableEq, Repr

/-- A line of the core cache (R221, R239): 64 bytes, its poison bit and the core clock of its fill. -/
structure CacheLine where
  data : BitVec 512
  poison : Bool
  filled : Nat
  deriving DecidableEq, Repr

/-- A cached object record (R118), tagged by CTXID and handle. -/
structure OlcEntry where
  ctx : Nat
  handle : Nat
  line : BitVec 512
  deriving DecidableEq, Repr

/-- A cached KV line (R136): tagged by KVCTXID and its device address. -/
structure KvlcEntry where
  ctx : Nat
  addr : Nat
  line : BitVec 512
  deriving DecidableEq, Repr

/-- A core (R12, R13): what its partitions share. Absent words of `imem` read 0 and absent flags hold 0 (log entry 5);
absent scratchpad bytes are free values of the boundary change `bepoch` (R216). `area` holds the bytes of the steward area (R214), from
which the steward runs (R403): no syllable of a partition reaches them, and a boundary change leaves them. -/
structure CoreSt where
  flags : TMap W16
  imem : TMap W32
  ageLimit : Nat
  b1 : Nat
  b2 : Nat
  b3 : Nat
  scratch : TMap Byte
  area : TMap Byte
  spWas : TMap (List Was)
  bepoch : Nat
  cache : TMap CacheLine
  olc : List OlcEntry
  kvlc : List KvlcEntry
  winStart : Nat
  winTaken : Nat
  deriving DecidableEq, Repr

/-- One element of a write-combining entry that a reduction has touched (Table 4.4): its format, whether it is RED
(true) or DATA left in FP32 by a reduction (false), and the FP32 value carried. -/
structure RedElem where
  f32 : Bool
  red : Bool
  val : W32
  deriving DecidableEq, Repr

/-- A write-combining entry (R93): its class, when it was last written, its plain bytes, those among them that stand for
data which failed its check values (R14, R119), and its reduced elements, all by offset in the chunk; whether a write came
without the compressible flag, and the formats of the writes merged in. -/
structure WcEntry where
  cls : TrafficClass
  used : Nat
  data : TMap Byte
  bad : TMap Bool
  red : TMap RedElem
  raw : Bool
  fmts : List Nat
  deriving DecidableEq, Repr

/-- A capture entry (R98, R99): whether it was written, when it was last accessed, whether it is being stored
back, the flags of its writes for R87, and the sectors of its home that scrub has since found uncorrectable. Its bytes stand in
the memory itself, which is the one place of the chunk. -/
structure Capture where
  dirty : Bool
  used : Nat
  storing : Bool
  raw : Bool
  fmts : List Nat
  home : BitVec 8
  deriving DecidableEq, Repr

/-- Chunk metadata (R85, R86): the header of Table 4.2 without its POIS bits, whose one home is `State.pois`, and the check
values of the eight logical sectors. -/
structure ChunkMeta where
  hdr : W32
  cv : List W32
  deriving DecidableEq, Repr

/-- A home on the hot list (R100, R101): its retirement score and whether it was corrected in the present scrub pass. -/
structure HotHome where
  score : Nat
  corrected : Bool
  deriving DecidableEq, Repr

/-- A write that a bundle issue defers to its end (R236): a byte of device memory or of the core's scratchpad, with the
mask of the bits that it writes; `join` is set where it belongs to the same write as the byte before it, `atom` where an atomic
writes it, which the later atomics of the issue see (R242), `bad` where it comes from data that failed its check values (R14). -/
structure DefWrite where
  join : Bool
  atom : Bool
  scratch : Bool
  addr : Nat
  val : Byte
  mask : Byte
  cmpr : Bool
  fmt : Nat
  bad : Bool := false
  deriving DecidableEq, Repr

/-- The bundle issue being carried out. `slot` is the next slot to look at; `second` the partition that issues on the
same clock after it (R359). -/
structure Issue where
  isOpen : Bool
  core : Nat
  part : Nat
  slot : Nat
  named : Bool
  bundle : Bundle
  scope : BitVec 3
  writes : List DefWrite
  second : Option Nat
  deriving DecidableEq, Repr

/-- A unit of a copy (R187) while its bytes are being moved: the bytes that it counts, the coordinates of its first element,
whether a sector of it fails its check values, the places written, as (place, bits), and whether all of them were written with
the compressible flag (R87). -/
structure CUnit where
  bytes : Nat
  fc : List Nat
  bad : Bool
  dst : List (Nat × Nat)
  cmpr : Bool := true
  deriving DecidableEq, Repr

/-- What a copy reads or writes (R191): a sub-tile of an object (`handle`, `lo`), or a range of local storage (`handle`
none; scratchpad bytes or tile-store lines). -/
structure Foot where
  handle : Option Nat
  tile : Bool
  lo : Nat
  n : Nat
  wr : Bool
  deriving DecidableEq, Repr

/-- What the checks of a copy found of an object (R186): FMT, LAYOUT and the extents. -/
structure Geo where
  fmt : Nat
  layout : Nat
  e0 : Nat
  e1 : Nat
  e2 : Nat
  e3 : Nat
  deriving DecidableEq, Repr

/-- A copy in flight (R187 to R189). Its key is 4096 × core + entry; entries from 64 on wait for one of the core's 64.
`num` orders the copies by issue, `task` is the number of the task, `seq` the pending operation of a bound copy, `opd` the
four operand words as stepped. `pieces` holds the pieces still to be moved once the copy has begun, as 16384 × number + 128 ×
row + column of their first
elements; `shape` and `dshape` are what the checks of R186 found of the object and of OCOPY's destination, once they have
been made;
`barBad` that the barrier word lies outside the share; `whole` that the fault at which it holds (`pcode`, at
`pfc`) lies in no piece; `ended` that only its record is due. -/
structure Copy where
  num : Nat
  op : Nat
  slot : Nat
  part : Nat
  task : Nat
  seq : Option Nat
  queue : Nat
  scope : Nat
  opd : List W64
  red : Bool
  shape : Option Geo
  dshape : Option Geo
  barBad : Bool
  pieces : Option (List Nat)
  foot : List Foot
  units : TMap CUnit
  counted : Nat
  status : Nat
  fcode : Nat
  fhandle : Nat
  fc : List Nat
  holding : Bool
  whole : Bool
  pcode : Nat
  pfc : List Nat
  ended : Bool
  deriving DecidableEq, Repr

/-- The last tile that a layout unit delivered (R91): its bytes, the check value and the poison of each 256-byte sector,
and the coordinates of the element at which the request ended with the shape fault. -/
structure LayoutOut where
  data : List Byte
  cvs : List W32
  bad : List Bool
  fault : Option (List Nat)
  deriving DecidableEq, Repr

/-- The translation of a KV load that waits for a repair (R137, R142): the folio, the number and the index of its node, the
address
of its data, its survivor bitmap, and LEN of the sequence. -/
structure KvHeld where
  fol : Nat
  num : Nat
  node : Nat
  dbase : Nat
  surv : Nat
  len : Nat
  deriving DecidableEq, Repr

/-- An operation that an engine of the core carries out after its issue: a KV operation (R135, R141, R142), LOAN, UNLOAN or RELOC. The
task and number of its pending operation, its
queue, opcode and SH field, the operand words as stepped and the step count; the fault still to be reported; and the
translation of a load whose folio a replica is to repair. -/
structure KvOp where
  core : Nat
  task : Nat
  seq : Nat
  queue : Nat
  op : Nat
  sh : Nat
  opd : List W64
  c : Nat
  fault : Option (Nat × W64)
  repair : Option KvHeld
  deriving DecidableEq, Repr

/-- A relocation in progress (R119): the queue and handle that name the object, its record as the request was accepted with, its
bitmap and destination, the ring of
its record, the sub-tile that comes next, whether that is marked COPYING, their number, and the bits moved. -/
structure Reloc where
  queue : Nat
  handle : Nat
  line : BitVec 512
  rbmp : Nat
  nbase : Nat
  ring : Nat
  next : Nat
  copying : Bool
  total : Nat
  moved : Nat
  deriving DecidableEq, Repr

/-- A completion record that an engine holds for a ring until it can be written (R202). `entry` is the key of the copy
that ends with it, `ui` the core and task of the interrupt of R204. -/
structure HeldRec where
  queue : Nat
  ring : Nat
  body : List Byte
  entry : Option Nat
  ui : Option (Nat × Nat)
  deriving DecidableEq, Repr

/-- An entry of the steward's event record ring, kept also as the log of machine-check events (R386, R406). -/
structure EventRec where
  code : Nat
  loc : Nat
  detail : List Nat
  deriving DecidableEq, Repr

/-- Interrupts raised towards the host: MSI-X vectors (R202, R406). -/
structure HostIrq where
  queue : Nat
  ring : Nat
  waiting : Nat
  since : Option Nat
  deriving DecidableEq, Repr

/-- States of a packet (Table 14.6); an unwritten slot has no entry. -/
inductive PktSt where
  | fetched | issued | running | ended
  deriving DecidableEq, Repr

/-- A graph that a GRAPH packet runs (R345): the node pointer, the counts of taken COND nodes, and the number of nodes
executed so far. -/
structure Graph where
  base : Nat
  nnode : Nat
  ptr : Nat
  taken : TMap Nat
  execs : Nat
  deriving DecidableEq, Repr

/-- A packet that the command processor holds (R341, R342): of the ring of a queue (`k` its claim index), a node of a
graph (`graph` the packet that runs it, `k` the execution number), or a child launch (`parent` its parent gang). `ops` names the
operations that an issued FLUSH waits for, by core, task and number (R344). -/
structure Pkt where
  queue : Nat
  k : Nat
  words : List W32
  card : List W64
  st : PktSt
  graph : Option Nat
  node : Nat
  parent : Option Nat
  gang : Option Nat
  run : Option Graph
  ops : List (Nat × Nat × Nat) := []
  deriving DecidableEq, Repr

/-- One instance of a gang barrier (R348, R278). -/
structure BarInst where
  gen : W32
  arrived : Nat
  deriving DecidableEq, Repr

/-- A gang from its issue to its retirement (R346 to R354). `tasks` are the partition keys of the placed tasks with the
coordinates' indices, `numbers` those that the tasks were given at the release; `waits` the uncore clock since which it is a
candidate, `closed` that at which it closed its
cores (R357), `holds` the cores whose freed resources are held for it (R356). -/
structure Gang where
  pkt : Nat
  queue : Nat
  parent : Option Nat
  rec_ : List Byte
  header : List Byte
  depth : Nat
  kids : Nat
  kidsUsed : Nat
  placed : Bool
  released : Bool
  tasks : List (Nat × Nat)
  numbers : List Nat
  live : Nat
  bars : TMap BarInst
  waits : Nat
  closed : Option Nat
  holds : List Nat
  deriving DecidableEq, Repr

/-- What the command processor keeps of a queue beside its descriptor in memory: the oldest index of its window that
has not retired, the indices of the window that have, the first index whose slot has not had its last read, the packets
and graph nodes at which it stands stopped, and the uncore clock of its last visit. -/
structure QueueSt where
  base : Nat
  retired : List Nat
  lastRead : Nat
  stopped : List Nat
  visited : Nat
  fw : Nat
  deriving DecidableEq, Repr

/-- A granule of the annex map (R390, R392): whether new translations may use it, its port and its device-physical base. -/
structure Granule where
  v : Bool
  port : Nat
  base : Nat
  deriving DecidableEq, Repr

/-- States of a host line in the shelf cache (Table 16.2); a line in I has no entry. -/
inductive Mesi where
  | S | E | M
  deriving DecidableEq, Repr

/-- A host line held in the shelf cache (R389): 64 bytes. -/
structure HostLine where
  st : Mesi
  data : List Byte
  deriving DecidableEq, Repr

/-- The settings of the module record (Tables 4.5, 14.1, 16.6). Times of R400 are in seconds, the steward area in bytes. -/
structure Limits where
  actCap : Nat
  shares : List Nat
  slice : Nat
  gangWait : Nat
  sshare : Nat
  pooln : Nat
  scrubPeriod : Nat
  stewardArea : Nat
  ageLimit : Nat
  collLimit : Nat
  peerto : Nat
  repoto : Nat
  annexGrace : Nat
  itkPort : Nat
  portRole : Nat
  pwrCap : Nat
  deriving DecidableEq, Repr

/-- An Itkoril frame that this chip sends (Table 16.3): type, class, destination, sequence number, queue or group, operand
and payload. -/
structure Frame where
  type : Nat
  cls : Nat
  dst : Nat
  seq : Nat
  qg : Nat
  opnd : Nat
  payload : List Byte
  deriving DecidableEq, Repr

/-- A frame on its way out (R396, R397): the sender's chip number, the number expected next from the other end, the scale-out port and
the UDP port that it leaves to, and whether it takes the priority and queue of class 2 on a MIXED port. -/
structure Wire where
  frame : Frame
  src : Nat
  ack : Nat
  port : Nat
  udp : Nat
  own : Bool
  deriving DecidableEq, Repr

/-- A connection with one chip in one class (R398, R399): whether it is open, refused or lost, the version in use, the
next numbers to send and to accept, the frames not yet acknowledged, those beyond the window, whether an unknown type
has been reported, and the uncore clocks at which the other end was last heard and the oldest frame was last sent. -/
structure Conn where
  up : Bool
  lost : Bool
  vmin : Nat
  next : Nat
  expect : Nat
  sent : List Frame
  later : List Frame
  told : Bool
  heard : Nat
  sentAt : Nat
  deriving DecidableEq, Repr

/-- An NVM Express command under way (R394, R395): 0 Read, 1 Write, 2 Flush; its drive, block and bytes; the operation
that it serves and the uncore clock of its issue. -/
structure NvmeCmd where
  kind : Nat
  drive : Nat
  block : Nat
  bytes : Nat
  data : List Byte
  owner : Nat
  since : Nat
  deriving DecidableEq, Repr

/-- The search of an operation for a source of a folio, or of a node to import (R142, R161, R163, R165): the queue, the
node's name and the layer (none for a node), the holders still to try (none before the home has answered), the chip that has
been asked, the bytes that have arrived, whether they are complete, whether no source is left, and whether the bytes are
those of an image in the repository. -/
structure Fetch where
  queue : Nat
  sm : Nat
  layer : Option Nat
  holders : Option (List Nat)
  asked : Option Nat
  data : List Byte
  full : Bool
  failed : Bool
  repo : Bool
  deriving DecidableEq, Repr

/-- An accepted catalogue operation that completes by record (R170): 0 SEAL, 1 CATLOOK, 2 PROMOTE,
3 a promotion of the steward's own, which writes no record (R392). `args` are its operand
words, `key` the namespace key in force when it was accepted (R404), `step` the nodes or layers done, `parent` the last
node matched, `bytes` and `status` what its record will carry, `fault` a fault after acceptance with its handle and LOFS,
`awaited` the recall that it waits for, or 0 once a demotion pass has been made for it, and `block` the pool block that it has
taken. -/
structure CatOp where
  kind : Nat
  queue : Nat
  ring : Nat
  seqH : Nat
  args : List Nat
  key : List Byte
  step : Nat
  parent : Nat
  bytes : Nat
  status : Nat
  fault : Option (Nat × Nat × Nat)
  awaited : Option Nat
  block : Option Nat
  deriving DecidableEq, Repr

/-- A committed recall (R155): the folio with its node and layer, where its data goes (0 stacks, 1 dropped, 2 annex,
3 repository), the place and length of its image, how far the writes of the image have come, and the image itself. `up` is
the pool
block that holds verified data on its way up to the annex or the repository (R176): the folio is then no recalled one. -/
structure Recall where
  queue : Nat
  node : Nat
  layer : Nat
  fol : Nat
  dest : Nat
  place : Nat
  len : Nat
  stage : Nat
  image : List Byte
  up : Option Nat
  deriving DecidableEq, Repr

/-- A member's part in a collective (R212): whether it has joined, what it has named (operation, COUNT, WIRE, ROP and the
group's chips), the status with which the collective ended there without success (0 for none), and the bytes of its data that
have arrived, by offset. -/
structure Member where
  joined : Bool
  desc : List Nat
  bad : Nat
  data : TMap Byte
  deriving DecidableEq, Repr

/-- What a chip has told of the collectives of one name, (GID, TAG), that this chip has not started yet: its joins in order, and the number
of its joins still to come that belong to collectives which have ended here (R212). -/
structure PeerJoins where
  joins : List Member
  owed : Nat
  deriving DecidableEq, Repr

/-- A collective that this chip has started (R211 to R213): its copy entry, the task's queue, the operation, the descriptor,
the group and this chip's rank in it, the other members by rank, the uncore clock of its start, and whether its data has
been sent. -/
structure Coll where
  copyKey : Nat
  queue : Nat
  op : Nat
  desc : Nat
  gid : Nat
  rank : Nat
  chips : List Nat
  members : TMap Member
  since : Nat
  sent : Bool
  deriving DecidableEq, Repr

/-- An annex extent (R390, R392): its granules as window indices, the uncore clock at which the device has asked for it, and the
promotions of its grace. -/
structure Extent where
  first : Nat
  count : Nat
  since : Option Nat
  grace : List Nat
  deriving DecidableEq, Repr
/-- How a host read of an aperture completes (R388, R14): with data, with data whose check values failed, or with Unsupported
Request. -/
inductive HostReply where
  | data (bs : List Byte)
  | poisoned
  | unsupported
  deriving DecidableEq, Repr

/-- The identity record (R402): its version, the serial number, the architecture level (R2), the device's two public keys and the
signatures by the two algorithms. -/
structure Identity where
  iver : Nat
  serial : Nat
  archLevel : Nat
  keys : List (List Byte)
  sigs : List (List Byte)
  deriving DecidableEq, Repr

/-- A firmware image (R403): its bytes' digest, its version and the save layouts that it accepts. -/
structure FwImage where
  digest : List Byte
  major : Nat
  minor : Nat
  layouts : List Nat
  deriving DecidableEq, Repr

/-- A response to GET_MEASUREMENTS (R402): the measurements and the signatures by the two device keys. -/
structure Measured where
  body : List Byte
  sigs : List (List Byte)
  deriving DecidableEq, Repr

/-- The machine. `identified` says that the boot ROM has accepted the identity record at the last reset (R401, R409). `pois` holds the sectors that are known to fail their check values: the POIS bits of Table 4.2 (R14, R85).
`remap` gives a retired home its spare row pair, and `spares` counts those that each bank pair has used (R101). -/
structure State where
  clock : Nat
  uclock : Nat
  epoch : Nat
  parts : TMap Part
  cores : TMap CoreSt
  iss : Issue
  inputs : List Instr
  mem : TMap Byte
  pois : TMap Bool
  wc : TMap WcEntry
  meta_ : TMap ChunkMeta
  capture : TMap Capture
  tracker : TMap (List (Nat × Nat))
  capDue : List Nat
  winClock : Nat
  retiring : TMap Nat
  layoutOut : Option LayoutOut
  annexMap : TMap Granule
  annexMem : TMap Byte
  annexBuf : TMap (TMap Byte)
  hostMem : TMap Byte
  hostMaps : List (Nat × Nat)
  hostLines : TMap HostLine
  cxlCache : Bool
  limits : Limits
  woken : List Nat
  hot : TMap HotHome
  remap : TMap Nat
  spares : TMap Nat
  copies : TMap Copy
  kvs : TMap KvOp
  relocs : TMap Reloc
  held : List HeldRec
  events : List EventRec
  irqs : List HostIrq
  qtab : Nat
  queues : TMap QueueSt
  pkts : TMap Pkt
  gangs : TMap Gang
  nextId : Nat
  slice : Nat
  raised : List Nat
  nextCore : Nat
  turn : Nat
  coreMHz : Nat
  uacc : Nat
  told : List EventRec
  shadow : TMap SavedCtx
  nskeys : TMap (List Byte)
  catOps : TMap CatOp
  recalls : TMap Recall
  fetches : TMap Fetch
  images : TMap Nat
  nvme : TMap NvmeCmd
  nvmeQs : List (Nat × Nat × Nat)
  conns : TMap Conn
  outbox : List Wire
  colls : TMap Coll
  early : TMap PeerJoins
  extents : TMap Extent
  flash : List Byte
  ident : Identity
  identified : Bool
  recovery : Bool
  bar0 : TMap W32
  hostOut : Option HostReply
  spdm : Bool
  measured : Option Measured
  eventRing : Nat
  eventsOut : Nat
  fws : List FwImage
  deriving DecidableEq, Repr

/-- No bundle. -/
def Bundle.none : Bundle := { hdr := 0, words := [] }

/-- A partition's standing at a bundle with nothing pending. -/
def Point.start (pc : W32) : Point :=
  { pc := pc, slot := 0, rep := none, again := false, xfer := none, sticky := Vector.replicate 8 none, scope := 0
    done := false }

/-- A free partition. Its registers hold the values of Table 14.10, which every task start writes again (log entry 6). -/
def Part.empty : Part :=
  { ps := .free, steward := false, age := 0, lastIssue := 0, gang := none, queue := 0, role := 0, slots := 0
    accs := 0, wregs := 0, tslen := 0, wbase := 0, tsbase := 0, segmax := 0, born := 0, spbase := 0, splen := 0
    coord := Vector.replicate 8 0, tc := 0, at_ := Point.start 0, s := Vector.replicate 64 0, sp := 0
    sh := Vector.replicate 8 0, shp := 0, v := [], vp := 0
    p := (Vector.replicate 16 0).set 0 (BitVec.allOnes 128), g := Vector.replicate 8 0, lc := Vector.replicate 4 0
    le := Vector.replicate 4 0, ft := Vector.replicate 16 0x3F803F8000000000, mca := 0, mcb := 0, mcs := 0, mcg := 0
    mce := 0, mcr := 0x00FAC688, acc := [], tile := [], tileWas := [], tags := [], fpctl := 4, tvec := 0x80000000, uivec := 0
    uictl := 0, rplact := 0, cfc01 := 0, cfc23 := 0, tsw := 0, tcause := 0, taddr := 0, tpc := 0, level := 0
    bank1 := none, bank2 := none, ui := none, uiSeq := 0, pends := [], early := [], nextSeq := 0, reports := []
    monitor := none, cur := none
    nxt := none, bucket := none, preempt := none, single := false, stepped := false
    debugged := false, entered := 0, nexty := 0, atYield := false, stepFrom := 0 }

/-- The steward's data area of each core, which the module record sets (R214): the default, 64 KiB. -/
def stewardArea : Nat := 0x10000

/-- A core after reset: POOL_B1 = POOL_B2 = 0, the whole user pool core cache (R215), AGE_LIMIT 256 (Table 14.1). -/
def CoreSt.empty : CoreSt :=
  { flags := [], imem := [], ageLimit := 256, b1 := 0, b2 := 0, b3 := 0x200000 - stewardArea, scratch := [], area := []
    spWas := [], bepoch := 0, cache := [], olc := [], kvlc := [], winStart := 0, winTaken := 0 }

def Issue.closed : Issue :=
  { isOpen := false, core := 0, part := 0, slot := 0, named := false, bundle := Bundle.none, scope := 0, writes := []
    second := none }

/-- The defaults of Tables 4.5, 14.1 and 16.6. -/
def Limits.default : Limits :=
  { actCap := 1024, shares := [3584, 3584, 3584, 3584], slice := 700000, gangWait := 1500000, sshare := 4
    pooln := 1024, scrubPeriod := 24, stewardArea := 0x10000, ageLimit := 256, collLimit := 1, peerto := 1, repoto := 5
    annexGrace := 1, itkPort := 47613, portRole := 0x5550, pwrCap := 1800 }

/-- The identity record of this part: version 1 (Table 16.5), architecture level 1 (R2). The spec gives no serial number, no keys and no
signatures (log entry 100). -/
def Identity.part : Identity := { iver := 1, serial := 0, archLevel := 1, keys := [], sigs := [] }

/-- The machine right after reset. -/
def State.reset : State :=
  { clock := 0, uclock := 0, epoch := 0, parts := [], cores := [], iss := Issue.closed, inputs := [], mem := []
    pois := [], wc := [], meta_ := [], capture := [], tracker := [], capDue := [], winClock := 0, retiring := []
    layoutOut := none, annexMap := [], annexMem := []
    annexBuf := [], hostMem := [], hostMaps := [(0, 2 ^ 44)], hostLines := [], cxlCache := true
    limits := Limits.default, woken := [], hot := [], remap := [], spares := [], copies := []
    kvs := [], relocs := [], held := [], events := [], irqs := [], qtab := 0, queues := [], pkts := [], gangs := [], nextId := 1
    slice := 0, raised := [], nextCore := 0, turn := 0, coreMHz := 700, uacc := 0, told := [], shadow := [], nskeys := []
    catOps := []
    recalls := [], fetches := [], images := [], nvme := [], nvmeQs := [], conns := [], outbox := [], colls := []
    early := [], extents := [], flash := [], ident := Identity.part, identified := true, recovery := false, bar0 := [], hostOut := none
    spdm := false, measured := none, eventRing := 0
    eventsOut := 0, fws := [] }

end Sys2Proof.Machine
end

