-- ==== Sys2Proof/Machine/Mem.lean ====
section
/-! DEFINITION. Device memory: HBM behind the write-combining and capture regions, the annex behind its port's buffer,
and host memory behind the shelf cache's host lines (R83 to R101, R104, R389 to R391). Other agents see every access as
performed when it is made (log entry 2). -/

namespace Sys2Proof.Machine

/-- HBM_TOP (R83). -/
def hbmTop : Nat := 0x7735940000
def annexBase : Nat := 0x100000000000
def annexEnd : Nat := 0x180000000000
def hostBase : Nat := 0x200000000000
def hostEnd : Nat := 0x300000000000

/-- The annex granule of an address of the annex window (R390). -/
def granuleOf (a : Nat) : Nat := (a - annexBase) / 0x10000000

/-- Whether a device address lies in a populated region of Table 5.1. -/
def populated (s : State) (a : Nat) : Bool :=
  a < hbmTop ||
  (annexBase ≤ a && a < annexEnd && (mget s.annexMap (granuleOf a)).any (·.v)) ||
  (hostBase ≤ a && a < hostEnd && s.hostMaps.any fun r => r.1 ≤ a - hostBase && a - hostBase < r.2)

/-- Key of an annex byte: port and device-physical address (R390). -/
def annexKey (s : State) (a : Nat) : Nat :=
  match mget s.annexMap (granuleOf a) with
  | some g => g.port * 2 ^ 56 + g.base + (a - annexBase) % 0x10000000
  | none => 4 * 2 ^ 56 + a

def chunkOf (a : Nat) : Nat := a / 2048
def sectorOf (a : Nat) : Nat := a / 256

/-- The bank pair of a chunk (R84), as one number. -/
def bankPairOf (chunk : Nat) : Nat :=
  let g := (chunk % 512) ^^^ (chunk / 512 % 512) ^^^ (chunk / 2 ^ 18 % 512)
  g * 16 + chunk / 512 % 16

/-- The row of a chunk in its bank pair (R84). -/
def rowOf (chunk : Nat) : Nat := chunk / 512 / 16

/-- The FP32 code of a value rounded with RNE, overflow to infinity (R96). -/
def toF32 (x : Num) : W32 := BitVec.ofNat 32 ((ffmt 0).encode x .rne .inf).code
def ofF32 (x : W32) : Num := (ffmt 0).decode x.toNat
/-- BF16 or FP32 code of a value, RNE, overflow to infinity. -/
def redEncode (f32 : Bool) (x : Num) : Nat := ((ffmt (if f32 then 0 else 1)).encode x .rne .inf).code
def redDecode (f32 : Bool) (x : Nat) : Num := (ffmt (if f32 then 0 else 1)).decode x
def redWidth (f32 : Bool) : Nat := if f32 then 4 else 2

/-- The bytes that an element in state RED or DATA stores on merge (Table 4.4), `old` its stored bytes. -/
def RedElem.bytes (r : RedElem) (old : List Byte) : List Byte :=
  let x := if r.red then (numAdd .rne (redDecode r.f32 (ofBytes old)) (ofF32 r.val)).1 else ofF32 r.val
  toBytes (redEncode r.f32 x) (redWidth r.f32)

/-- The element of an entry that covers the offset, with its own offset. -/
def WcEntry.elemAt (w : WcEntry) (o : Nat) : Option (Nat × RedElem) :=
  match mget w.red (o - o % 4) with
  | some r => if r.f32 || o % 4 < 2 then some (o - o % 4, r) else (mget w.red (o - o % 2)).map fun r => (o - o % 2, r)
  | none => (mget w.red (o - o % 2)).map fun r => (o - o % 2, r)

/-- One byte of HBM as a read finds it, after the merge that the read makes (R94). -/
def hbmByte (s : State) (a : Nat) : Byte :=
  match mget s.wc (chunkOf a) with
  | none => byteAt s.mem a
  | some w =>
    match w.elemAt (a % 2048) with
    | some (o, r) => (r.bytes (bytesAt s.mem (a - a % 2048 + o) (redWidth r.f32))).getD (a % 2048 - o) 0
    | none =>
      match mget w.data (a % 2048) with
      | some b => b
      | none => byteAt s.mem a

/-- One byte of the annex as a read finds it. -/
def annexByte (s : State) (a : Nat) : Byte :=
  let k := annexKey s a
  match (mget s.annexBuf (k / 64)).bind (fun l => mget l (k % 64)) with
  | some b => b
  | none => byteAt s.annexMem k

/-- One byte of host memory as the device finds it. -/
def hostByte (s : State) (h : Nat) : Byte :=
  match mget s.hostLines (h / 64) with
  | some l => l.data.getD (h % 64) 0
  | none => byteAt s.hostMem h

/-- One byte of device memory as a read finds it. -/
def peek (s : State) (a : Nat) : Byte :=
  if a < hbmTop then hbmByte s a
  else if a < annexEnd then annexByte s a
  else hostByte s (a - hostBase)

def peekBytes (s : State) (a n : Nat) : List Byte := tab n fun i => peek s (a + i)
/-- Little-endian value of `n` bytes (R3). -/
def peekNat (s : State) (a n : Nat) : Nat := ofBytes (peekBytes s a n)

/-- Whether the bytes of a sector in its home fail the stored check value (R86). A captured chunk stands elsewhere. -/
def cvFails (s : State) (sec : Nat) : Bool :=
  match mget s.meta_ (sec / 8) with
  | none => false
  | some m =>
    (mget s.capture (sec / 8)).isNone && m.cv.getD (sec % 8) 0 != crc32c (bytesAt s.mem (256 * sec) 256)

/-- Whether a sector is poisoned, or fails its check value when it is read (R14). -/
def sectorFails (s : State) (sec : Nat) : Bool := (mget s.pois sec).isSome || cvFails s sec

/-- Whether a sector among the `n` bytes from `a` fails (R14). -/
def poisonedAt (s : State) (a n : Nat) : Bool :=
  (List.range ((a + n - 1) / 256 + 1 - a / 256)).any fun i => n != 0 && sectorFails s (a / 256 + i)

/-- Stored size of a chunk under ZERO-WORD (R88). -/
def zeroWordSize (bs : List Byte) : Nat :=
  64 + 4 * ((List.range 512).filter fun i => ofBytes ((bs.drop (4 * i)).take 4) != 0).length

/-- Stored size under PLANE with elements of `w` bits (R89). -/
def planeSize (w : Nat) (bs : List Byte) : Nat :=
  let x := ofBytes bs
  let stored := (List.range w).filter fun j =>
    let ones := ((List.range (16384 / w)).filter fun i => x.testBit (i * w + j)).length
    ones != 0 && ones != 16384 / w
  4 + stored.length * (2048 / w)

/-- The chunk header that R87 chooses: method, planes and stored sectors; `pois` says whether a POIS bit is set. -/
def chunkHeader (bs : List Byte) (raw : Bool) (fmts : List Nat) (pois : Bool) : W32 :=
  let rawHdr := BitVec.ofNat 32 (1 + 7 * 16)
  if raw || pois then rawHdr
  else
    let z := (zeroWordSize bs + 255) / 256
    let w := match fmts with
      | [f] => storedWidth f
      | _ => 0
    let p := if w == 4 || w == 8 || w == 16 then (planeSize (if w == 16 then 16 else 8) bs + 255) / 256 else 100
    if p < z && p ≤ 7 then BitVec.ofNat 32 (2 * 2 + (if w == 16 then 8 else 0) + (p - 1) * 16)
    else if z ≤ 7 then BitVec.ofNat 32 (1 * 2 + (z - 1) * 16)
    else rawHdr

def addEvent (s : State) (e : EventRec) : State := { s with events := s.events ++ [e] }

/-- Poison bits of a chunk's eight sectors. -/
def chunkPois (s : State) (c : Nat) : Nat :=
  (List.range 8).foldl (fun m i => if (mget s.pois (8 * c + i)).isSome then m + 2 ^ i else m) 0

/-- Whether an entry covers a whole sector with plain data: bytes that a reduction has left in FP32 do not count (log entry 101). -/
def WcEntry.coversSector (w : WcEntry) (i : Nat) : Bool :=
  (List.range 256).all fun b => (mget w.data (256 * i + b)).isSome

/-- Whether an entry changes a byte of a sector. -/
def WcEntry.meetsSector (w : WcEntry) (i : Nat) : Bool :=
  w.data.any (fun e => e.1 / 256 == i) || w.red.any fun e => e.1 / 256 == i

/-- Whether an entry brings a sector bytes that failed their check values. -/
def WcEntry.badSector (w : WcEntry) (i : Nat) : Bool := w.bad.any fun e => e.1 / 256 == i

/-- The metadata of a chunk whose bytes stand in memory, stored anew (R85 to R87): the sectors that `changed` names, or all of
a chunk that had none, get new check values. -/
def newMeta (s : State) (c : Nat) (raw : Bool) (fmts : List Nat) (changed : Nat → Bool) : ChunkMeta :=
  let bs := bytesAt s.mem (2048 * c) 2048
  let crc (i : Nat) : W32 := crc32c ((bs.drop (256 * i)).take 256)
  { hdr := chunkHeader bs raw fmts (chunkPois s c != 0)
    cv := tab 8 fun i => match mget s.meta_ c with
      | some m => if changed i then crc i else m.cv.getD i 0
      | none => crc i }

def storeMeta (s : State) (c : Nat) (raw : Bool) (fmts : List Nat) (changed : Nat → Bool) : State :=
  { s with meta_ := mput s.meta_ c (newMeta s c raw fmts changed) }

/-- The metadata of a chunk as a read finds it: that of a written capture entry, the stored one, or, of a chunk never written,
that of its contents. -/
def metaOf (s : State) (c : Nat) : ChunkMeta :=
  match mget s.capture c with
  | some e =>
    if e.dirty then newMeta s c e.raw e.fmts fun _ => true else (mget s.meta_ c).getD (newMeta s c false [] fun _ => true)
  | none => (mget s.meta_ c).getD (newMeta s c false [] fun _ => true)

/-- The header word of Table 4.2, POIS included. -/
def headerWord (s : State) (c : Nat) : W32 := (metaOf s c).hdr ||| BitVec.ofNat 32 (256 * chunkPois s c)

/-- The stack of a chunk (R84): bits [8:6] of its pseudo-channel. -/
def stackOf (c : Nat) : Nat := bankPairOf c / 16 / 64

/-- Applies an entry's plain bytes to memory. -/
def applyData (m : TMap Byte) (base : Nat) : TMap Byte → TMap Byte
  | [] => m
  | (o, b) :: ds => applyData (setByte m (base + o) b) base ds

/-- Applies an entry's reduced elements to memory (Table 4.4). -/
def applyRed (m : TMap Byte) (base : Nat) : TMap RedElem → TMap Byte
  | [] => m
  | (o, r) :: rs => applyRed (setBytes m (base + o) (r.bytes (bytesAt m (base + o) (redWidth r.f32)))) base rs

/-- Counts an activation of the row of a chunk in the tracker of one bank (R98); a counter that reaches ACT_CAP makes a
capture due. A row that a full tracker does not hold takes one from every counter, and a counter at 0 is free. -/
def trackBank (c : Nat) (s : State) (bank : Nat) : State :=
  let l := (mget s.tracker bank).getD []
  let l' :=
    if l.any fun e => e.1 == c then l.map fun e => if e.1 == c then (e.1, e.2 + 1) else e
    else if l.length < 32 then l ++ [(c, 1)]
    else (l.map fun e => (e.1, e.2 - 1)).filter fun e => e.2 != 0
  let full := l'.any fun e => e.1 == c && e.2 == s.limits.actCap
  { s with tracker := mput s.tracker bank l', capDue := if full && !s.capDue.contains c then s.capDue ++ [c] else s.capDue }

/-- An access to the home of a chunk activates its row in both banks of its pair (log entry 7). -/
def trackRow (s : State) (c : Nat) : State := [2 * bankPairOf c, 2 * bankPairOf c + 1].foldl (trackBank c) s

/-- The sectors that a write-combining entry leaves to be verified, and that fail (R94 step 2). -/
def failing (s : State) (c : Nat) (w : WcEntry) : List Nat :=
  (List.range 8).filter fun i => !w.coversSector i && (mget s.pois (8 * c + i)).isNone && cvFails s (8 * c + i)

/-- The bytes and the POIS bits of a chunk after its entry has been applied (R94, R96): a sector that fails, and that plain
data does not cover whole, is poisoned and reported; one that sound plain data covers whole verifies again. -/
def applyEntry (s : State) (c : Nat) (w : WcEntry) : State :=
  let fails := failing s c w
  let good := (List.range 8).filter fun i => w.coversSector i && !w.badSector i
  let bad := (List.range 8).filter fun i => w.badSector i || fails.contains i
  let pois := bad.foldl (fun p i => mput p (8 * c + i) true) (good.foldl (fun p i => mdel p (8 * c + i)) s.pois)
  let s := { s with mem := applyRed (applyData s.mem (2048 * c) w.data) (2048 * c) w.red, wc := mdel s.wc c, pois := pois }
  fails.foldl (fun s i => addEvent s { code := 0x05, loc := 8 * c + i, detail := [] }) s

/-- Merges the write-combining entry of a chunk into HBM (R94). -/
def mergeChunk (s : State) (c : Nat) : State :=
  match mget s.wc c with
  | none => s
  | some w => storeMeta (trackRow (applyEntry s c w) c) c w.raw w.fmts w.meetsSector

/-- Ends the store-back of a released capture entry (R99): the chunk is stored under R87. -/
def storeBack (s : State) (c : Nat) : State :=
  match mget s.capture c with
  | some e =>
    let s := { s with capture := mdel s.capture c }
    if e.dirty then storeMeta (trackRow s c) c e.raw e.fmts fun _ => true else s
  | none => s

/-- An access to a chunk whose entry is being stored back waits for the store (R99). -/
def awaitStore (s : State) (c : Nat) : State :=
  match mget s.capture c with
  | some e => if e.storing then storeBack s c else s
  | none => s

/-- What a read of a chunk does before it reads (R94, R99): it merges the chunk's write-combining entry. -/
def touchChunk (s : State) (c : Nat) : State :=
  let s := awaitStore (mergeChunk s c) c
  match mget s.capture c with
  | some e => { s with capture := mput s.capture c { e with used := s.clock } }
  | none => trackRow s c

/-- Merges a line of an annex port's buffer into the device (R391). -/
def mergeAnnexLine (s : State) (l : Nat) : State :=
  match mget s.annexBuf l with
  | none => s
  | some d => { s with annexMem := applyData s.annexMem (64 * l) d, annexBuf := mdel s.annexBuf l }

/-- A device read of a host line (Table 16.2): in state I it goes to S, or to E when the host grants it. -/
def hostReadLine (s : State) (l : Nat) : State :=
  if !s.cxlCache then s
  else
    match mget s.hostLines l with
    | some _ => s
    | none =>
      let st := if Config.freeBool s.epoch (l + 64) then Mesi.E else Mesi.S
      { s with hostLines := mput s.hostLines l { st := st, data := bytesAt s.hostMem (64 * l) 64 } }

/-- What a read of `n` bytes from `a` does to the memory system. -/
def touchRead (s : State) (a n : Nat) : State :=
  if n = 0 then s
  else if a < hbmTop then
    (List.range ((a + n - 1) / 2048 + 1 - a / 2048)).foldl (fun s i => touchChunk s (a / 2048 + i)) s
  else if a < annexEnd then
    (List.range ((a + n - 1) / 64 + 1 - a / 64)).foldl (fun s i => mergeAnnexLine s (annexKey s (64 * (a / 64 + i)) / 64)) s
  else
    let h := a - hostBase
    (List.range ((h + n - 1) / 64 + 1 - h / 64)).foldl (fun s i => hostReadLine s (h / 64 + i)) s

/-- The position of a traffic class in the module record's shares. -/
def classIdx (c : TrafficClass) : Nat :=
  match c with
  | .objects => 0 | .folios => 1 | .collectives => 2 | .hostPeer => 3

/-- The least recently written of some entries. -/
def lruOf : TMap WcEntry → Option (Nat × Nat)
  | [] => none
  | (c, w) :: ws =>
    match lruOf ws with
    | none => some (c, w.used)
    | some (c', u) => if w.used ≤ u then some (c, w.used) else some (c', u)

/-- Makes a write-combining entry of the class stand for the chunk (R93, R95): an entry of another class is merged
first, and so is the class's least recently written entry when its share of the stack's region is full. -/
def openEntry (s : State) (c : Nat) (cls : TrafficClass) : State × WcEntry :=
  let s := match mget s.wc c with
    | some w => if w.cls == cls then s else mergeChunk s c
    | none => s
  match mget s.wc c with
  | some w => (s, w)
  | none =>
    let mine := s.wc.filter fun e => e.2.cls == cls && stackOf e.1 == stackOf c
    let s :=
      if s.limits.shares.getD (classIdx cls) 3584 ≤ mine.length then
        match lruOf mine with
        | some (v, _) => mergeChunk s v
        | none => s
      else s
    (s, { cls := cls, used := s.epoch, data := [], bad := [], red := [], raw := false, fmts := [] })

/-- Reduced elements that a plain write of offsets `[o, o+n)` meets in part. -/
def WcEntry.partly (w : WcEntry) (o n : Nat) : List (Nat × RedElem) :=
  w.red.filter fun e =>
    let lo := e.1
    let hi := e.1 + redWidth e.2.f32
    lo < o + n && o < hi && !(o ≤ lo && hi ≤ o + n)

/-- DATA elements left in FP32 that a write meets in part become plain bytes (R96). -/
def WcEntry.settle (w : WcEntry) : List (Nat × RedElem) → WcEntry
  | [] => w
  | (o, r) :: es =>
    let d := (List.zip (List.range (redWidth r.f32)) (r.bytes [])).foldl (fun d ib => mput d (o + ib.1) ib.2) w.data
    ({ w with data := d, red := mdel w.red o } : WcEntry).settle es

/-- A capture entry after a write. -/
def Capture.wrote (e : Capture) (now : Nat) (raw : Bool) (fmt : Nat) : Capture :=
  { e with dirty := true, used := now, raw := e.raw || raw, fmts := if e.fmts.contains fmt then e.fmts else e.fmts ++ [fmt] }

/-- A sector that a write covers whole verifies again: of a captured chunk, of the annex or of host memory. -/
def clearSectors (s : State) (a n : Nat) : State :=
  let whole := (List.range (n / 256 + 1)).filter fun (i : Nat) =>
    a ≤ 256 * ((a + 255) / 256 + i) && 256 * ((a + 255) / 256 + i) + 256 ≤ a + n
  { s with pois := whole.foldl (fun p i => mdel p ((a + 255) / 256 + i)) s.pois }

/-- A plain write of bytes that lie in one chunk of HBM (R93 to R96, R99). -/
def hbmWriteChunk (s : State) (a : Nat) (bs : List Byte) (cls : TrafficClass) (cmpr : Bool) (fmt : Nat) : State :=
  let c := chunkOf a
  let s := awaitStore s c
  match mget s.capture c with
  | some e =>
    clearSectors { s with mem := setBytes s.mem a bs, capture := mput s.capture c (e.wrote s.clock (!cmpr) fmt) } a bs.length
  | none =>
    let (s, w) := openEntry s c cls
    let (s, w) :=
      if (w.partly (a % 2048) bs.length).any fun e => e.2.red then
        let s := mergeChunk { s with wc := mput s.wc c w } c
        openEntry s c cls
      else (s, w)
    let w := w.settle (w.partly (a % 2048) bs.length)
    let gone := w.red.filter fun e => a % 2048 ≤ e.1 && e.1 < a % 2048 + bs.length
    let d := (List.zip (List.range bs.length) bs).foldl (fun d ib => mput d (a % 2048 + ib.1) ib.2) w.data
    let w : WcEntry := { w with
      red := gone.foldl (fun m e => mdel m e.1) w.red, data := d
      bad := w.bad.filter fun e => !(a % 2048 ≤ e.1 && e.1 < a % 2048 + bs.length)
      used := s.epoch, raw := w.raw || !cmpr, fmts := if w.fmts.contains fmt then w.fmts else w.fmts ++ [fmt] }
    let s := { s with wc := mput s.wc c w }
    if w.data.length = 2048 then mergeChunk s c else s

/-- A plain write of bytes of HBM, chunk by chunk. `fuel` bounds the chunks. -/
def hbmWrite (fuel : Nat) (s : State) (a : Nat) (bs : List Byte) (cls : TrafficClass) (cmpr : Bool) (fmt : Nat) : State :=
  match fuel with
  | 0 => s
  | n + 1 =>
    if bs.isEmpty then s
    else
      let k := 2048 - a % 2048
      hbmWrite n (hbmWriteChunk s a (bs.take k) cls cmpr fmt) (a + k) (bs.drop k) cls cmpr fmt

/-- A device write of one byte of a host line (Table 16.2): to M under CXL.cache, at once otherwise. -/
def hostWriteByte (s : State) (h : Nat) (b : Byte) : State :=
  if s.cxlCache then
    let l := (mget s.hostLines (h / 64)).getD { st := .M, data := bytesAt s.hostMem (h - h % 64) 64 }
    { s with hostLines := mput s.hostLines (h / 64) { st := .M, data := l.data.set (h % 64) b } }
  else { s with hostMem := setByte s.hostMem h b }

/-- The shelf cache gives up a host line: modified data is written back (Table 16.2). -/
def hostGiveUp (s : State) (l : Nat) : State :=
  match mget s.hostLines l with
  | none => s
  | some x =>
    { s with hostLines := mdel s.hostLines l, hostMem := if x.st == .M then setBytes s.hostMem (64 * l) x.data else s.hostMem }

/-- What a copy or a collective has written to host memory goes out with ItoMWr, and no copy of the lines is kept (R389). -/
def sendHost (s : State) (addrs : List Nat) : State :=
  ((addrs.filter (hostBase ≤ ·)).map fun a => (a - hostBase) / 64).eraseDups.foldl hostGiveUp s

/-- Lines of the write-combining buffer of an annex port: 4 MiB (R391). -/
def annexLines : Nat := 65536

/-- Makes room for a line in the buffer of its port: a full one merges a line, which the model leaves free (R391, log entry 124). -/
def annexRoom (s : State) (l : Nat) : State :=
  let mine := s.annexBuf.filter fun e => e.1 / 2 ^ 50 == l / 2 ^ 50
  if (mget s.annexBuf l).isSome || mine.length < annexLines then s
  else
    match mine[Config.freeNat s.epoch 896 % mine.length]? with
    | some e => mergeAnnexLine s e.1
    | none => s

/-- A byte written to the annex goes into the buffer of its port (R391). -/
def annexWriteByte (s : State) (a : Nat) (b : Byte) : State :=
  let k := annexKey s a
  let s := annexRoom s (k / 64)
  { s with annexBuf := mput s.annexBuf (k / 64) (mput ((mget s.annexBuf (k / 64)).getD []) (k % 64) b) }

/-- A plain write of bytes of device memory. -/
def writeMem (s : State) (a : Nat) (bs : List Byte) (cls : TrafficClass) (cmpr : Bool) (fmt : Nat) : State :=
  let s := { s with woken := s.woken ++ tab ((a + bs.length + 63) / 64 - a / 64) fun i => a / 64 + i }
  if a < hbmTop then hbmWrite (bs.length / 2048 + 2) s a bs cls cmpr fmt
  else
    let s := clearSectors s a bs.length
    if a < annexEnd then (List.zip (List.range bs.length) bs).foldl (fun s ib => annexWriteByte s (a + ib.1) ib.2) s
    else (List.zip (List.range bs.length) bs).foldl (fun s ib => hostWriteByte s (a - hostBase + ib.1) ib.2) s

/-- Makes the `n` bytes from `a`, which have just been written with data that failed its check values, fail in their turn
(R14, R119): their sectors are poisoned until sound data covers them. -/
def failBytes (s : State) (a n : Nat) : State :=
  let s := { s with pois := (List.range ((a + n - 1) / 256 + 1 - a / 256)).foldl (fun p i => mput p (a / 256 + i) true) s.pois }
  if hbmTop ≤ a then s
  else
    { s with wc := (List.range n).foldl (fun m i =>
        match mget m (chunkOf (a + i)) with
        | some w => mput m (chunkOf (a + i)) { w with bad := mput w.bad ((a + i) % 2048) true }
        | none => m) s.wc }

/-! A write of several bytes is one write where they stand together. -/

/-- Whether a deferred byte goes on with the write that the byte before it belongs to. -/
def DefWrite.follows (w x : DefWrite) : Bool :=
  x.join && w.mask == 255 && x.mask == 255 && !w.scratch && !x.scratch && x.addr == w.addr + 1 && x.cmpr == w.cmpr && x.fmt == w.fmt

/-- The runs of deferred bytes that are one write each. -/
def writeRuns : List DefWrite → List (List DefWrite)
  | [] => []
  | w :: ws =>
    match writeRuns ws with
    | (x :: r) :: rs => if w.follows x then (w :: x :: r) :: rs else [w] :: (x :: r) :: rs
    | rs => [w] :: rs

/-- Writes to device memory with those to one byte made one, in ascending order of address: of the later write what it covers. -/
def mergeWrites (ws : List DefWrite) : List DefWrite :=
  (ws.foldl (fun m w => match mget m w.addr with
    | some o => mput m w.addr { w with join := true, val := (o.val &&& ~~~w.mask) ||| (w.val &&& w.mask), mask := o.mask ||| w.mask }
    | none => mput m w.addr { w with join := true, val := w.val &&& w.mask }) ([] : TMap DefWrite)).map (·.2)

/-- Writes one run to device memory; a part of a byte is read, changed and written. Bytes that come of data which failed its check
values, those of a byte read so among them, fail in their turn (R14). -/
def writeRun (cls : TrafficClass) (s : State) (g : List DefWrite) : State :=
  match g with
  | [] => s
  | w :: _ =>
    if w.mask = 255 then
      let s := writeMem s w.addr (g.map (·.val)) cls w.cmpr w.fmt
      (g.filter (·.bad)).foldl (fun s w => failBytes s w.addr 1) s
    else
      let s := touchRead s w.addr 1
      let bad := w.bad || poisonedAt s w.addr 1
      let s := writeMem s w.addr [(w.val &&& w.mask) ||| (peek s w.addr &&& ~~~w.mask)] cls w.cmpr w.fmt
      if bad then failBytes s w.addr 1 else s

/-- A write by an engine on its own behalf, such as a record or a header, which passes no object. R87 says nothing of it: it is
stored raw, as a write from outside without an object is, and takes the objects' traffic class, which R93 does not say either (DESIGN
CHOICE, log entry 102). -/
def engineWrite (s : State) (a : Nat) (bs : List Byte) : State := writeMem s a bs .objects false 0

/-- A reduction to an element of HBM (R96, Table 4.4). -/
def reduceHbm (s : State) (a : Nat) (f32 : Bool) (x : W32) (cls : TrafficClass) (cmpr : Bool) : State :=
  let c := chunkOf a
  let o := a % 2048
  let n := redWidth f32
  let s := awaitStore s c
  match mget s.capture c with
  | some e =>
    let old := redDecode f32 (ofBytes (bytesAt s.mem a n))
    let bs := toBytes (redEncode f32 (numAdd .rne old (ofF32 x)).1) n
    { s with mem := setBytes s.mem a bs, capture := mput s.capture c (e.wrote s.clock (!cmpr) (if f32 then 0 else 1)) }
  | none =>
    let (s, w) := openEntry s c cls
    let same := match mget w.red o with
      | some r => r.f32 == f32
      | none => false
    let meets := w.red.any fun e => e.1 < o + n && o < e.1 + redWidth e.2.f32
    let have_ := (List.range n).map fun i => (mget w.data (o + i)).isSome
    let conflict := if same then false else meets || (have_.any (·) && !have_.all (·))
    let (s, w) :=
      if conflict then openEntry (mergeChunk { s with wc := mput s.wc c w } c) c cls else (s, w)
    let r : RedElem := match mget w.red o with
      | some r => { r with val := toF32 (numAdd .rne (ofF32 r.val) (ofF32 x)).1 }
      | none =>
        if (List.range n).all fun i => (mget w.data (o + i)).isSome then
          let d := redDecode f32 (ofBytes ((List.range n).map fun i => (mget w.data (o + i)).getD 0))
          { f32 := f32, red := false, val := toF32 (numAdd .rne d (ofF32 x)).1 }
        else { f32 := f32, red := true, val := toF32 (numAdd .rne (.fin true 0 0) (ofF32 x)).1 }
    let w : WcEntry := { w with
      red := mput w.red o r, data := (List.range n).foldl (fun d i => mdel d (o + i)) w.data, used := s.epoch
      raw := w.raw || !cmpr
      fmts := if w.fmts.contains (if f32 then 0 else 1) then w.fmts else w.fmts ++ [if f32 then 0 else 1] }
    { s with wc := mput s.wc c w }

/-- A reduction to an element of the annex or of host memory: one read-modify-write of the I/O die (R96). -/
def reduceIo (s : State) (a : Nat) (f32 : Bool) (x : W32) : State :=
  let n := redWidth f32
  let s := touchRead s a n
  let old := redDecode f32 (peekNat s a n)
  writeMem s a (toBytes (redEncode f32 (numAdd .rne old (ofF32 x)).1) n) .objects true (if f32 then 0 else 1)

/-- A memory-side reduction (R96). The elements of objects are naturally aligned, and only such stand in the buffer (Table 4.4). -/
def reduceMem (s : State) (a : Nat) (f32 : Bool) (x : W32) (cls : TrafficClass) (cmpr : Bool) : State :=
  if a < hbmTop && a % redWidth f32 = 0 then
    let s := { s with woken := s.woken ++ [a / 64] }
    reduceHbm s a f32 x cls cmpr
  else reduceIo s a f32 x

end Sys2Proof.Machine
end

