-- ==== Sys2Proof/Decode.lean ====
section
/-! DEFINITION. The decoder and the encoder of syllables (R56, R57, R61, R62, Tables 3.3 and 3.9 to 3.14), and the
decoder of bundles (R51 to R53, R55). Decoding is total and rejects by name; which decoded syllables are legal is
`Instr.wf`. -/

namespace Sys2Proof

/-- Why a word is no syllable. -/
inductive Reject where
  /-- the slot class's map leaves the opcode unassigned (Table 3.8) -/
  | unassigned (op : Nat)
  /-- a bit that the format reserves, or an E or K flag that the format has not, is set -/
  | reservedBits
  /-- E = 1 and no extension word follows, or E = 0 and one is given -/
  | extension
  deriving DecidableEq, Repr

/-- Bits `[lo+n-1:lo]` of a word. -/
abbrev bitsOf (w : W32) (lo n : Nat) : BitVec n := w.extractLsb' lo n

def wordOp (w : W32) : Nat := (bitsOf w 24 8).toNat
def wordE (w : W32) : Bool := w.getLsbD 23
def wordK (w : W32) : Bool := w.getLsbD 22

def toPS (w : W32) : PS := { k := wordK w, sc := bitsOf w 19 3 }
def toSA (w : W32) (x : Option W32) : SA :=
  { x := x, k := wordK w, d := bitsOf w 16 6, a := bitsOf w 10 6, b := bitsOf w 4 6, rstep := bitsOf w 2 2
    fn := bitsOf w 0 2 }
def toSC (w : W32) (x : Option W32) : SC :=
  { x := x, k := wordK w, a := bitsOf w 16 6, b := bitsOf w 10 6, cnd := bitsOf w 6 4, lc := bitsOf w 4 2 }
def toSM (w : W32) (x : Option W32) : SM :=
  { x := x, k := wordK w, d := bitsOf w 16 6, a := bitsOf w 10 6, w := bitsOf w 7 3, lat := bitsOf w 0 7 }
def toVA (w : W32) (x : Option W32) : VA :=
  { x := x, k := wordK w, d := bitsOf w 15 7, a := bitsOf w 8 7, b := bitsOf w 1 7, bs := w.getLsbD 0 }
def toVM (w : W32) (x : Option W32) : VM :=
  { x := x, k := wordK w, d := bitsOf w 15 7, a := bitsOf w 9 6, md := bitsOf w 7 2, lat := bitsOf w 0 7 }
def toMT (w : W32) (x : Option W32) : MT :=
  { x := x, k := wordK w, acc := bitsOf w 19 3, ta := bitsOf w 12 7, tb := bitsOf w 5 7, lcx := bitsOf w 3 2
    rstep := bitsOf w 1 2 }
def toXT (w : W32) (x : Option W32) : XT :=
  { x := x, k := wordK w, d := bitsOf w 15 7, a := bitsOf w 8 7, fmt := bitsOf w 4 4, rstep := bitsOf w 2 2
    ovp := bitsOf w 0 2 }
def toCQ (w : W32) (x : Option W32) : CQ :=
  { x := x, k := wordK w, d := bitsOf w 16 6, a := bitsOf w 10 6, sh := bitsOf w 7 3, lat := bitsOf w 0 7 }

/-- The opcode map of Table 3.9, on a word whose reserved bits have been checked. -/
def scopeMap (w : W32) (_x : Option W32) : Option Instr :=
  match wordOp w with
  | 0x01 => some (.scope (toPS w))
  | _ => none

/-- The opcode map of Table 3.10, on a word whose reserved bits have been checked. -/
def scalarMap (w : W32) (x : Option W32) : Option Instr :=
  match wordOp w with
  | 0x01 => some (.nop .S)
  | 0x02 => some (.add (toSA w x))
  | 0x03 => some (.sub (toSA w x))
  | 0x04 => some (.mul (toSA w x))
  | 0x05 => some (.mulh (toSA w x))
  | 0x06 => some (.div (toSA w x))
  | 0x07 => some (.rem (toSA w x))
  | 0x08 => some (.and (toSA w x))
  | 0x09 => some (.or (toSA w x))
  | 0x0A => some (.xor (toSA w x))
  | 0x0B => some (.andn (toSA w x))
  | 0x0C => some (.orn (toSA w x))
  | 0x0D => some (.shl (toSA w x))
  | 0x0E => some (.shr (toSA w x))
  | 0x0F => some (.sar (toSA w x))
  | 0x10 => some (.rol (toSA w x))
  | 0x11 => some (.min (toSA w x))
  | 0x12 => some (.max (toSA w x))
  | 0x13 => some (.cmpeq (toSA w x))
  | 0x14 => some (.cmpne (toSA w x))
  | 0x15 => some (.cmplt (toSA w x))
  | 0x16 => some (.cmple (toSA w x))
  | 0x17 => some (.popc (toSA w x))
  | 0x18 => some (.mov (toSA w x))
  | 0x19 => some (.movi (toSA w x))
  | 0x1A => some (.movhi (toSA w x))
  | 0x1B => some (.csel (toSA w x))
  | 0x20 => some (.ld (toSM w x))
  | 0x21 => some (.st (toSM w x))
  | 0x22 => some (.lds (toSM w x))
  | 0x23 => some (.chk (toSC w x))
  | 0x28 => some (.br (toSC w x))
  | 0x29 => some (.bc (toSC w x))
  | 0x2A => some (.bri (toSC w x))
  | 0x2B => some (.call (toSC w x))
  | 0x2C => some (.calli (toSC w x))
  | 0x2D => some (.ret (toSC w x))
  | 0x2E => some (.lset (toSC w x))
  | 0x2F => some (.lnext (toSC w x))
  | 0x30 => some (.bksel (toSC w x))
  | 0x38 => some .yield
  | 0x39 => some .endTask
  | 0x3A => some (.fset (toSA w x))
  | 0x3B => some (.fwait (toSA w x))
  | 0x3C => some (.launch (toSA w x))
  | 0x3D => some (.mfsr (toSA w x))
  | 0x3E => some (.mtsr (toSA w x))
  | 0x40 => some (.aadd (toSM w x))
  | 0x41 => some (.amin (toSM w x))
  | 0x42 => some (.amax (toSM w x))
  | 0x43 => some (.aswap (toSM w x))
  | 0x44 => some (.acas (toSM w x))
  | 0x45 => some (.aclaim (toSM w x))
  | 0x48 => some .drain
  | 0x49 => some (.waitm (toSM w x))
  | 0x4A => some (.barv (toSA w x))
  | 0x4B => some (.barw (toSA w x))
  | 0x50 => some (.trap (toSA w x))
  | 0x51 => some .rett
  | 0x52 => some .uiret
  | 0x53 => some (.brk (toSA w x))
  | 0x54 => some (.svc (toSA w x))
  | 0x55 => some (.ctxsv (toSA w x))
  | 0x56 => some (.ctxld (toSA w x))
  | _ => none

/-- The opcode map of Table 3.11, on a word whose reserved bits have been checked. -/
def vectorMap (w : W32) (x : Option W32) : Option Instr :=
  match wordOp w with
  | 0x01 => some (.nop .V)
  | 0x02 => some (.vfadd (toVA w x))
  | 0x03 => some (.vfsub (toVA w x))
  | 0x04 => some (.vfmul (toVA w x))
  | 0x05 => some (.vfma (toVA w x))
  | 0x06 => some (.vfnma (toVA w x))
  | 0x07 => some (.vfmin (toVA w x))
  | 0x08 => some (.vfmax (toVA w x))
  | 0x09 => some (.vfabs (toVA w x))
  | 0x0A => some (.vfneg (toVA w x))
  | 0x0B => some (.vfcmp (toVA w x))
  | 0x0C => some (.vrcp (toVA w x))
  | 0x0D => some (.vrsqrt (toVA w x))
  | 0x0E => some (.vexp2 (toVA w x))
  | 0x0F => some (.vcvt (toVA w x))
  | 0x10 => some (.vadd (toVA w x))
  | 0x11 => some (.vsub (toVA w x))
  | 0x12 => some (.vmul (toVA w x))
  | 0x13 => some (.vand (toVA w x))
  | 0x14 => some (.vor (toVA w x))
  | 0x15 => some (.vxor (toVA w x))
  | 0x16 => some (.vshl (toVA w x))
  | 0x17 => some (.vshr (toVA w x))
  | 0x18 => some (.vsar (toVA w x))
  | 0x19 => some (.vmin (toVA w x))
  | 0x1A => some (.vmax (toVA w x))
  | 0x1B => some (.vcmp (toVA w x))
  | 0x20 => some (.vradd (toVA w x))
  | 0x21 => some (.vrmax (toVA w x))
  | 0x22 => some (.vscani (toVA w x))
  | 0x23 => some (.vscanx (toVA w x))
  | 0x24 => some (.vperm (toVA w x))
  | 0x25 => some (.vbcast (toVA w x))
  | 0x26 => some (.vslide (toVA w x))
  | 0x27 => some (.vcompr (toVA w x))
  | 0x28 => some (.pand (toVA w x))
  | 0x29 => some (.por (toVA w x))
  | 0x2A => some (.pxor (toVA w x))
  | 0x2B => some (.pnot (toVA w x))
  | 0x2C => some (.pcnt (toVA w x))
  | 0x30 => some (.vld (toVM w x))
  | 0x31 => some (.vst (toVM w x))
  | 0x32 => some (.vgath (toVM w x))
  | 0x33 => some (.vscat (toVM w x))
  | 0x34 => some (.vlds (toVM w x))
  | 0x35 => some (.vgaths (toVM w x))
  | 0x38 => some (.vpart (toVA w x))
  | 0x39 => some (.vhist (toVA w x))
  | 0x3A => some (.vkey (toVA w x))
  | 0x3B => some (.vkeyx (toVA w x))
  | 0x3C => some (.vpx3 (toVA w x))
  | 0x3D => some (.vshadd3 (toVA w x))
  | 0x3E => some (.vfxt (toVA w x))
  | 0x3F => some (.vfxf (toVA w x))
  | _ => none

/-- The opcode map of Table 3.12, on a word whose reserved bits have been checked. -/
def matrixMap (w : W32) (x : Option W32) : Option Instr :=
  match wordOp w with
  | 0x01 => some (.nop .M)
  | 0x02 => some (.mstep (toMT w x))
  | 0x03 => some (.mzero (toMT w x))
  | 0x04 => some (.mread (toMT w x))
  | 0x05 => some (.mwrite (toMT w x))
  | 0x06 => some (.mfmt (toMT w x))
  | 0x07 => some (.mloop (toMT w x))
  | 0x08 => some (.mscale (toMT w x))
  | 0x09 => some (.medge (toMT w x))
  | 0x0A => some (.mrot (toMT w x))
  | _ => none

/-- The opcode map of Table 3.13, on a word whose reserved bits have been checked. -/
def transformMap (w : W32) (x : Option W32) : Option Instr :=
  match wordOp w with
  | 0x01 => some (.nop .X)
  | 0x02 => some (.xqnt (toXT w x))
  | 0x03 => some (.xexp (toXT w x))
  | 0x04 => some (.xtrn (toXT w x))
  | 0x05 => some (.xcvt (toXT w x))
  | 0x06 => some (.xplane (toXT w x))
  | 0x07 => some (.xunpl (toXT w x))
  | 0x08 => some (.xscale (toXT w x))
  | _ => none

/-- The opcode map of Table 3.14, on a word whose reserved bits have been checked. -/
def copyMap (w : W32) (x : Option W32) : Option Instr :=
  match wordOp w with
  | 0x01 => some (.nop .C)
  | 0x02 => some (.ocopy (toCQ w x))
  | 0x03 => some (.oload (toCQ w x))
  | 0x04 => some (.ostore (toCQ w x))
  | 0x05 => some (.tload (toCQ w x))
  | 0x06 => some (.kvld (toCQ w x))
  | 0x07 => some (.kvldt (toCQ w x))
  | 0x08 => some (.kvapp (toCQ w x))
  | 0x09 => some (.seal (toCQ w x))
  | 0x0A => some (.catlook (toCQ w x))
  | 0x0B => some (.loan (toCQ w x))
  | 0x0C => some (.unloan (toCQ w x))
  | 0x0D => some (.promote (toCQ w x))
  | 0x0E => some (.qpush (toCQ w x))
  | 0x0F => some (.qpoll (toCQ w x))
  | 0x10 => some (.cwait (toCQ w x))
  | 0x11 => some (.barset (toCQ w x))
  | 0x12 => some (.coll (toCQ w x))
  | 0x13 => some (.olcinv (toCQ w x))
  | 0x14 => some (.reloc (toCQ w x))
  | _ => none

/-- The bits that the format of an opcode reserves, E and K flags that the format has not among them, are zero. -/
def reservedOk (i : Instr) (w : W32) : Bool :=
  match i with
  | .scope _ => bitsOf w 0 19 == 0 && !wordE w
  | .chk _ => bitsOf w 0 4 == 0
  | .br _ => bitsOf w 0 4 == 0
  | .bc _ => bitsOf w 0 4 == 0
  | .bri _ => bitsOf w 0 4 == 0
  | .call _ => bitsOf w 0 4 == 0
  | .calli _ => bitsOf w 0 4 == 0
  | .ret _ => bitsOf w 0 4 == 0
  | .lset _ => bitsOf w 0 4 == 0
  | .lnext _ => bitsOf w 0 4 == 0
  | .bksel _ => bitsOf w 0 4 == 0
  | .yield => bitsOf w 0 24 == 0
  | .endTask => bitsOf w 0 24 == 0
  | .drain => bitsOf w 0 24 == 0
  | .rett => bitsOf w 0 24 == 0
  | .uiret => bitsOf w 0 24 == 0
  | .mstep _ => !w.getLsbD 0
  | .mzero _ => !w.getLsbD 0
  | .mread _ => !w.getLsbD 0
  | .mwrite _ => !w.getLsbD 0
  | .mfmt _ => !w.getLsbD 0
  | .mloop _ => !w.getLsbD 0
  | .mscale _ => !w.getLsbD 0
  | .medge _ => !w.getLsbD 0
  | .mrot _ => !w.getLsbD 0
  | .nop _ => bitsOf w 0 24 == 0
  | _ => true

def classMap (cls : SlotClass) (w : W32) (x : Option W32) : Option Instr :=
  match cls with
  | .P => scopeMap w x
  | .S => scalarMap w x
  | .V => vectorMap w x
  | .M => matrixMap w x
  | .X => transformMap w x
  | .C => copyMap w x

/-- The instruction that a syllable of the slot class encodes. `x` is the word that follows it, taken as its extension
word exactly when E = 1. -/
def decodeSyl (cls : SlotClass) (w : W32) (x : Option W32) : Except Reject Instr :=
  if wordE w != x.isSome then .error .extension
  else
    match classMap cls w x with
    | none => .error (.unassigned (wordOp w))
    | some i => if reservedOk i w then .ok i else .error .reservedBits

/-- One bit as a word of one bit. -/
abbrev bit1 (b : Bool) : BitVec 1 := BitVec.ofBool b

def ofPS (op : BitVec 8) (f : PS) : W32 := op ++ 0#1 ++ bit1 f.k ++ f.sc ++ 0#19
def ofSA (op : BitVec 8) (f : SA) : W32 :=
  op ++ bit1 f.x.isSome ++ bit1 f.k ++ f.d ++ f.a ++ f.b ++ f.rstep ++ f.fn
def ofSC (op : BitVec 8) (f : SC) : W32 :=
  op ++ bit1 f.x.isSome ++ bit1 f.k ++ f.a ++ f.b ++ f.cnd ++ f.lc ++ 0#4
def ofSM (op : BitVec 8) (f : SM) : W32 := op ++ bit1 f.x.isSome ++ bit1 f.k ++ f.d ++ f.a ++ f.w ++ f.lat
def ofVA (op : BitVec 8) (f : VA) : W32 := op ++ bit1 f.x.isSome ++ bit1 f.k ++ f.d ++ f.a ++ f.b ++ bit1 f.bs
def ofVM (op : BitVec 8) (f : VM) : W32 := op ++ bit1 f.x.isSome ++ bit1 f.k ++ f.d ++ f.a ++ f.md ++ f.lat
def ofMT (op : BitVec 8) (f : MT) : W32 :=
  op ++ bit1 f.x.isSome ++ bit1 f.k ++ f.acc ++ f.ta ++ f.tb ++ f.lcx ++ f.rstep ++ 0#1
def ofXT (op : BitVec 8) (f : XT) : W32 :=
  op ++ bit1 f.x.isSome ++ bit1 f.k ++ f.d ++ f.a ++ f.fmt ++ f.rstep ++ f.ovp
def ofCQ (op : BitVec 8) (f : CQ) : W32 := op ++ bit1 f.x.isSome ++ bit1 f.k ++ f.d ++ f.a ++ f.sh ++ f.lat
def ofNF (op : BitVec 8) : W32 := op ++ 0#24

/-- The encoding of a syllable: its slot class, its word and its extension word. An event has none. -/
def encode (i : Instr) : Option (SlotClass × W32 × Option W32) :=
  match i with
  | .nop c => some (c, ofNF 0x01, none)
  | .scope f => some (.P, ofPS 0x01 f, none)
  | .add f => some (.S, ofSA 0x02 f, f.x)
  | .sub f => some (.S, ofSA 0x03 f, f.x)
  | .mul f => some (.S, ofSA 0x04 f, f.x)
  | .mulh f => some (.S, ofSA 0x05 f, f.x)
  | .div f => some (.S, ofSA 0x06 f, f.x)
  | .rem f => some (.S, ofSA 0x07 f, f.x)
  | .and f => some (.S, ofSA 0x08 f, f.x)
  | .or f => some (.S, ofSA 0x09 f, f.x)
  | .xor f => some (.S, ofSA 0x0A f, f.x)
  | .andn f => some (.S, ofSA 0x0B f, f.x)
  | .orn f => some (.S, ofSA 0x0C f, f.x)
  | .shl f => some (.S, ofSA 0x0D f, f.x)
  | .shr f => some (.S, ofSA 0x0E f, f.x)
  | .sar f => some (.S, ofSA 0x0F f, f.x)
  | .rol f => some (.S, ofSA 0x10 f, f.x)
  | .min f => some (.S, ofSA 0x11 f, f.x)
  | .max f => some (.S, ofSA 0x12 f, f.x)
  | .cmpeq f => some (.S, ofSA 0x13 f, f.x)
  | .cmpne f => some (.S, ofSA 0x14 f, f.x)
  | .cmplt f => some (.S, ofSA 0x15 f, f.x)
  | .cmple f => some (.S, ofSA 0x16 f, f.x)
  | .popc f => some (.S, ofSA 0x17 f, f.x)
  | .mov f => some (.S, ofSA 0x18 f, f.x)
  | .movi f => some (.S, ofSA 0x19 f, f.x)
  | .movhi f => some (.S, ofSA 0x1A f, f.x)
  | .csel f => some (.S, ofSA 0x1B f, f.x)
  | .ld f => some (.S, ofSM 0x20 f, f.x)
  | .st f => some (.S, ofSM 0x21 f, f.x)
  | .lds f => some (.S, ofSM 0x22 f, f.x)
  | .chk f => some (.S, ofSC 0x23 f, f.x)
  | .br f => some (.S, ofSC 0x28 f, f.x)
  | .bc f => some (.S, ofSC 0x29 f, f.x)
  | .bri f => some (.S, ofSC 0x2A f, f.x)
  | .call f => some (.S, ofSC 0x2B f, f.x)
  | .calli f => some (.S, ofSC 0x2C f, f.x)
  | .ret f => some (.S, ofSC 0x2D f, f.x)
  | .lset f => some (.S, ofSC 0x2E f, f.x)
  | .lnext f => some (.S, ofSC 0x2F f, f.x)
  | .bksel f => some (.S, ofSC 0x30 f, f.x)
  | .yield => some (.S, ofNF 0x38, none)
  | .endTask => some (.S, ofNF 0x39, none)
  | .fset f => some (.S, ofSA 0x3A f, f.x)
  | .fwait f => some (.S, ofSA 0x3B f, f.x)
  | .launch f => some (.S, ofSA 0x3C f, f.x)
  | .mfsr f => some (.S, ofSA 0x3D f, f.x)
  | .mtsr f => some (.S, ofSA 0x3E f, f.x)
  | .aadd f => some (.S, ofSM 0x40 f, f.x)
  | .amin f => some (.S, ofSM 0x41 f, f.x)
  | .amax f => some (.S, ofSM 0x42 f, f.x)
  | .aswap f => some (.S, ofSM 0x43 f, f.x)
  | .acas f => some (.S, ofSM 0x44 f, f.x)
  | .aclaim f => some (.S, ofSM 0x45 f, f.x)
  | .drain => some (.S, ofNF 0x48, none)
  | .waitm f => some (.S, ofSM 0x49 f, f.x)
  | .barv f => some (.S, ofSA 0x4A f, f.x)
  | .barw f => some (.S, ofSA 0x4B f, f.x)
  | .trap f => some (.S, ofSA 0x50 f, f.x)
  | .rett => some (.S, ofNF 0x51, none)
  | .uiret => some (.S, ofNF 0x52, none)
  | .brk f => some (.S, ofSA 0x53 f, f.x)
  | .svc f => some (.S, ofSA 0x54 f, f.x)
  | .ctxsv f => some (.S, ofSA 0x55 f, f.x)
  | .ctxld f => some (.S, ofSA 0x56 f, f.x)
  | .vfadd f => some (.V, ofVA 0x02 f, f.x)
  | .vfsub f => some (.V, ofVA 0x03 f, f.x)
  | .vfmul f => some (.V, ofVA 0x04 f, f.x)
  | .vfma f => some (.V, ofVA 0x05 f, f.x)
  | .vfnma f => some (.V, ofVA 0x06 f, f.x)
  | .vfmin f => some (.V, ofVA 0x07 f, f.x)
  | .vfmax f => some (.V, ofVA 0x08 f, f.x)
  | .vfabs f => some (.V, ofVA 0x09 f, f.x)
  | .vfneg f => some (.V, ofVA 0x0A f, f.x)
  | .vfcmp f => some (.V, ofVA 0x0B f, f.x)
  | .vrcp f => some (.V, ofVA 0x0C f, f.x)
  | .vrsqrt f => some (.V, ofVA 0x0D f, f.x)
  | .vexp2 f => some (.V, ofVA 0x0E f, f.x)
  | .vcvt f => some (.V, ofVA 0x0F f, f.x)
  | .vadd f => some (.V, ofVA 0x10 f, f.x)
  | .vsub f => some (.V, ofVA 0x11 f, f.x)
  | .vmul f => some (.V, ofVA 0x12 f, f.x)
  | .vand f => some (.V, ofVA 0x13 f, f.x)
  | .vor f => some (.V, ofVA 0x14 f, f.x)
  | .vxor f => some (.V, ofVA 0x15 f, f.x)
  | .vshl f => some (.V, ofVA 0x16 f, f.x)
  | .vshr f => some (.V, ofVA 0x17 f, f.x)
  | .vsar f => some (.V, ofVA 0x18 f, f.x)
  | .vmin f => some (.V, ofVA 0x19 f, f.x)
  | .vmax f => some (.V, ofVA 0x1A f, f.x)
  | .vcmp f => some (.V, ofVA 0x1B f, f.x)
  | .vradd f => some (.V, ofVA 0x20 f, f.x)
  | .vrmax f => some (.V, ofVA 0x21 f, f.x)
  | .vscani f => some (.V, ofVA 0x22 f, f.x)
  | .vscanx f => some (.V, ofVA 0x23 f, f.x)
  | .vperm f => some (.V, ofVA 0x24 f, f.x)
  | .vbcast f => some (.V, ofVA 0x25 f, f.x)
  | .vslide f => some (.V, ofVA 0x26 f, f.x)
  | .vcompr f => some (.V, ofVA 0x27 f, f.x)
  | .pand f => some (.V, ofVA 0x28 f, f.x)
  | .por f => some (.V, ofVA 0x29 f, f.x)
  | .pxor f => some (.V, ofVA 0x2A f, f.x)
  | .pnot f => some (.V, ofVA 0x2B f, f.x)
  | .pcnt f => some (.V, ofVA 0x2C f, f.x)
  | .vld f => some (.V, ofVM 0x30 f, f.x)
  | .vst f => some (.V, ofVM 0x31 f, f.x)
  | .vgath f => some (.V, ofVM 0x32 f, f.x)
  | .vscat f => some (.V, ofVM 0x33 f, f.x)
  | .vlds f => some (.V, ofVM 0x34 f, f.x)
  | .vgaths f => some (.V, ofVM 0x35 f, f.x)
  | .vpart f => some (.V, ofVA 0x38 f, f.x)
  | .vhist f => some (.V, ofVA 0x39 f, f.x)
  | .vkey f => some (.V, ofVA 0x3A f, f.x)
  | .vkeyx f => some (.V, ofVA 0x3B f, f.x)
  | .vpx3 f => some (.V, ofVA 0x3C f, f.x)
  | .vshadd3 f => some (.V, ofVA 0x3D f, f.x)
  | .vfxt f => some (.V, ofVA 0x3E f, f.x)
  | .vfxf f => some (.V, ofVA 0x3F f, f.x)
  | .mstep f => some (.M, ofMT 0x02 f, f.x)
  | .mzero f => some (.M, ofMT 0x03 f, f.x)
  | .mread f => some (.M, ofMT 0x04 f, f.x)
  | .mwrite f => some (.M, ofMT 0x05 f, f.x)
  | .mfmt f => some (.M, ofMT 0x06 f, f.x)
  | .mloop f => some (.M, ofMT 0x07 f, f.x)
  | .mscale f => some (.M, ofMT 0x08 f, f.x)
  | .medge f => some (.M, ofMT 0x09 f, f.x)
  | .mrot f => some (.M, ofMT 0x0A f, f.x)
  | .xqnt f => some (.X, ofXT 0x02 f, f.x)
  | .xexp f => some (.X, ofXT 0x03 f, f.x)
  | .xtrn f => some (.X, ofXT 0x04 f, f.x)
  | .xcvt f => some (.X, ofXT 0x05 f, f.x)
  | .xplane f => some (.X, ofXT 0x06 f, f.x)
  | .xunpl f => some (.X, ofXT 0x07 f, f.x)
  | .xscale f => some (.X, ofXT 0x08 f, f.x)
  | .ocopy f => some (.C, ofCQ 0x02 f, f.x)
  | .oload f => some (.C, ofCQ 0x03 f, f.x)
  | .ostore f => some (.C, ofCQ 0x04 f, f.x)
  | .tload f => some (.C, ofCQ 0x05 f, f.x)
  | .kvld f => some (.C, ofCQ 0x06 f, f.x)
  | .kvldt f => some (.C, ofCQ 0x07 f, f.x)
  | .kvapp f => some (.C, ofCQ 0x08 f, f.x)
  | .seal f => some (.C, ofCQ 0x09 f, f.x)
  | .catlook f => some (.C, ofCQ 0x0A f, f.x)
  | .loan f => some (.C, ofCQ 0x0B f, f.x)
  | .unloan f => some (.C, ofCQ 0x0C f, f.x)
  | .promote f => some (.C, ofCQ 0x0D f, f.x)
  | .qpush f => some (.C, ofCQ 0x0E f, f.x)
  | .qpoll f => some (.C, ofCQ 0x0F f, f.x)
  | .cwait f => some (.C, ofCQ 0x10 f, f.x)
  | .barset f => some (.C, ofCQ 0x11 f, f.x)
  | .coll f => some (.C, ofCQ 0x12 f, f.x)
  | .olcinv f => some (.C, ofCQ 0x13 f, f.x)
  | .reloc f => some (.C, ofCQ 0x14 f, f.x)
  | _ => none

/-- The slot classes in the order in which `decodeTableWord` tries them. -/
def tableClasses : List SlotClass := [.S, .V, .M, .X, .C, .P]

/-- The first slot class in which the word is a legal syllable, with the instruction. -/
def firstLegal (w : W32) (x : Option W32) : List SlotClass → Option Instr
  | [] => none
  | c :: cs =>
    match decodeSyl c w x with
    | .ok i => if i.wf then some i else firstLegal w x cs
    | .error _ => firstLegal w x cs

/-- The first slot class whose map reads the word at all. -/
def firstRead (w : W32) (x : Option W32) : List SlotClass → Option Instr
  | [] => none
  | c :: cs =>
    match decodeSyl c w x with
    | .ok i => some i
    | .error _ => firstRead w x cs

/-- The instruction of a word of the operation table. A word does not say its slot (its bundle's header does), and the
maps of two slot classes give one opcode two meanings: the classes are tried in the order of `tableClasses`, first for
a legal syllable and then for any (log entry 3). The words above `nbits` are zero, an extension word among them. -/
def decodeTableWord (_nbits w : Nat) : Option Instr :=
  let word := BitVec.ofNat 32 w
  let x : Option W32 := if wordE word then some (BitVec.ofNat 32 (w / 2 ^ 32)) else none
  match firstLegal word x tableClasses with
  | some i => some i
  | none => firstRead word x tableClasses

end Sys2Proof
end

