-- ==== Sys2Proof/Machine/Operands.lean ====
section
/-! DEFINITION. What the fields of a syllable mean, for every format: opcode, stickiness, operand stepping on re-issue
(R56, R63, R64, Table 3.6), and which registers a sticky syllable captures. -/

namespace Sys2Proof.Machine

/-- The opcode of a syllable; 0 for an event. -/
def opOf (i : Instr) : Nat :=
  match encode i with
  | some (_, w, _) => wordOp w
  | none => 0

/-- The word of a syllable; 0 for an event. -/
def wordOf (i : Instr) : W32 :=
  match encode i with
  | some (_, w, _) => w
  | none => 0

/-- The K flag of a syllable. -/
def stickyFlag (i : Instr) : Bool := wordK (wordOf i)

/-- Whether a slot number belongs to a slot class (Tables 3.2, 3.9 to 3.14). -/
def slotIn (c : SlotClass) (slot : Nat) : Bool :=
  match c with
  | .P => slot == 0
  | .S => slot == 1
  | .V => slot == 2 || slot == 3
  | .M => slot == 4
  | .X => slot == 7
  | .C => slot == 5 || slot == 6

/-- The slot class of a slot number. -/
def classOf (slot : Nat) : SlotClass :=
  match slot with
  | 0 => .P | 1 => .S | 2 => .V | 3 => .V | 4 => .M | 5 => .C | 6 => .C | _ => .X

def stepMod (x : BitVec 7) (n m : Nat) : BitVec 7 := BitVec.ofNat 7 ((x.toNat + n) % m)

/-- SA: D, A, and B when E = 0, modulo 64. MOV uses no B and MOVI no A. -/
def stepSA (useA useB : Bool) (f : SA) : SA :=
  let n : BitVec 6 := f.rstep.setWidth 6
  { f with d := f.d + n, a := if useA then f.a + n else f.a, b := if useB && f.x.isNone then f.b + n else f.b }

/-- The RSTEP of a modifier word. -/
def modStep (x : Option W32) : Nat := (VMod.of x 0).rstep

/-- A modifier word with its AUX register advanced. -/
def stepAux (x : Option W32) (w : Nat) : Option W32 :=
  x.map fun m =>
    BitVec.ofNat 32 (m.toNat - (m.toNat / 65536 % 128) * 65536 + ((m.toNat / 65536 % 128 + m.toNat / 256 % 4) % w) * 65536)

/-- How a V register field steps. -/
inductive VField where
  | vreg | pred | fixed
  deriving DecidableEq, Repr

def stepField (k : VField) (x : BitVec 7) (n w : Nat) : BitVec 7 :=
  match k with
  | .vreg => stepMod x n w
  | .pred => stepMod x n 16
  | .fixed => x

/-- VA: D, A, AUX, and B when BS = 0, modulo the window, predicate fields modulo 16 (R283). -/
def stepVA (kd ka kb : VField) (aux : Bool) (w : Nat) (f : VA) : VA :=
  let n := modStep f.x
  { f with d := stepField kd f.d n w, a := stepField ka f.a n w
           b := if f.bs then f.b else stepField kb f.b n w, x := if aux then stepAux f.x w else f.x }

/-- VM: D and AUX. -/
def stepVM (aux : Bool) (w : Nat) (f : VM) : VM :=
  { f with d := stepMod f.d (modStep f.x) w, x := if aux then stepAux f.x w else f.x }

/-- MT: TA and TB modulo 128. -/
def stepMT (f : MT) : MT :=
  { f with ta := stepMod f.ta f.rstep.toNat 128, tb := stepMod f.tb f.rstep.toNat 128 }

/-- XT: D and A modulo 128. -/
def stepXT (f : XT) : XT :=
  { f with d := stepMod f.d f.rstep.toNat 128, a := stepMod f.a f.rstep.toNat 128 }

/-- The syllable of the next re-issue, in a register window of `w` registers (R60, R64). -/
def stepInstr (w : Nat) (i : Instr) : Instr :=
  match i with
  | .add f => .add (stepSA true true f)
  | .sub f => .sub (stepSA true true f)
  | .mul f => .mul (stepSA true true f)
  | .mulh f => .mulh (stepSA true true f)
  | .div f => .div (stepSA true true f)
  | .rem f => .rem (stepSA true true f)
  | .and f => .and (stepSA true true f)
  | .or f => .or (stepSA true true f)
  | .xor f => .xor (stepSA true true f)
  | .andn f => .andn (stepSA true true f)
  | .orn f => .orn (stepSA true true f)
  | .shl f => .shl (stepSA true true f)
  | .shr f => .shr (stepSA true true f)
  | .sar f => .sar (stepSA true true f)
  | .rol f => .rol (stepSA true true f)
  | .min f => .min (stepSA true true f)
  | .max f => .max (stepSA true true f)
  | .cmpeq f => .cmpeq (stepSA true true f)
  | .cmpne f => .cmpne (stepSA true true f)
  | .cmplt f => .cmplt (stepSA true true f)
  | .cmple f => .cmple (stepSA true true f)
  | .popc f => .popc (stepSA true true f)
  | .mov f => .mov (stepSA true false f)
  | .movi f => .movi (stepSA false false f)
  | .movhi f => .movhi (stepSA true false f)
  | .csel f => .csel (stepSA true true f)
  | .vfadd f => .vfadd (stepVA .vreg .vreg .vreg false w f)
  | .vfsub f => .vfsub (stepVA .vreg .vreg .vreg false w f)
  | .vfmul f => .vfmul (stepVA .vreg .vreg .vreg false w f)
  | .vfma f => .vfma (stepVA .vreg .vreg .vreg false w f)
  | .vfnma f => .vfnma (stepVA .vreg .vreg .vreg false w f)
  | .vfmin f => .vfmin (stepVA .vreg .vreg .vreg false w f)
  | .vfmax f => .vfmax (stepVA .vreg .vreg .vreg false w f)
  | .vfabs f => .vfabs (stepVA .vreg .vreg .fixed false w f)
  | .vfneg f => .vfneg (stepVA .vreg .vreg .fixed false w f)
  | .vfcmp f => .vfcmp (stepVA .pred .vreg .vreg false w f)
  | .vrcp f => .vrcp (stepVA .vreg .vreg .fixed false w f)
  | .vrsqrt f => .vrsqrt (stepVA .vreg .vreg .fixed false w f)
  | .vexp2 f => .vexp2 (stepVA .vreg .vreg .fixed false w f)
  | .vcvt f => .vcvt (stepVA .vreg .vreg .fixed false w f)
  | .vadd f => .vadd (stepVA .vreg .vreg .vreg false w f)
  | .vsub f => .vsub (stepVA .vreg .vreg .vreg false w f)
  | .vmul f => .vmul (stepVA .vreg .vreg .vreg false w f)
  | .vand f => .vand (stepVA .vreg .vreg .vreg false w f)
  | .vor f => .vor (stepVA .vreg .vreg .vreg false w f)
  | .vxor f => .vxor (stepVA .vreg .vreg .vreg false w f)
  | .vshl f => .vshl (stepVA .vreg .vreg .vreg false w f)
  | .vshr f => .vshr (stepVA .vreg .vreg .vreg false w f)
  | .vsar f => .vsar (stepVA .vreg .vreg .vreg false w f)
  | .vmin f => .vmin (stepVA .vreg .vreg .vreg false w f)
  | .vmax f => .vmax (stepVA .vreg .vreg .vreg false w f)
  | .vcmp f => .vcmp (stepVA .pred .vreg .vreg false w f)
  | .vradd f => .vradd (stepVA .vreg .vreg .fixed false w f)
  | .vrmax f => .vrmax (stepVA .vreg .vreg .fixed false w f)
  | .vscani f => .vscani (stepVA .vreg .vreg .fixed false w f)
  | .vscanx f => .vscanx (stepVA .vreg .vreg .fixed false w f)
  | .vperm f => .vperm (stepVA .vreg .vreg .vreg false w f)
  | .vbcast f => .vbcast (stepVA .vreg .vreg .vreg false w f)
  | .vslide f => .vslide (stepVA .vreg .vreg .vreg true w f)
  | .vcompr f => .vcompr (stepVA .vreg .vreg .fixed false w f)
  | .pand f => .pand (stepVA .pred .pred .pred false w f)
  | .por f => .por (stepVA .pred .pred .pred false w f)
  | .pxor f => .pxor (stepVA .pred .pred .pred false w f)
  | .pnot f => .pnot (stepVA .pred .pred .fixed false w f)
  | .pcnt f => .pcnt (stepVA .vreg .pred .fixed false w f)
  | .vld f => .vld (stepVM false w f)
  | .vst f => .vst (stepVM false w f)
  | .vgath f => .vgath (stepVM true w f)
  | .vscat f => .vscat (stepVM true w f)
  | .vlds f => .vlds (stepVM false w f)
  | .vgaths f => .vgaths (stepVM true w f)
  | .vpart f => .vpart (stepVA .vreg .vreg .vreg false w f)
  | .vhist f => .vhist (stepVA .vreg .vreg .vreg false w f)
  | .vkey f => .vkey (stepVA .vreg .vreg .fixed false w f)
  | .vkeyx f => .vkeyx (stepVA .vreg .vreg .fixed false w f)
  | .vpx3 f => .vpx3 (stepVA .vreg .vreg .vreg false w f)
  | .vshadd3 f => .vshadd3 (stepVA .vreg .vreg .vreg false w f)
  | .vfxt f => .vfxt (stepVA .vreg .vreg .vreg false w f)
  | .vfxf f => .vfxf (stepVA .vreg .vreg .vreg false w f)
  | .mstep f => .mstep (stepMT f)
  | .mread f => .mread (stepMT f)
  | .mwrite f => .mwrite (stepMT f)
  | .xqnt f => .xqnt (stepXT f)
  | .xexp f => .xexp (stepXT f)
  | .xtrn f => .xtrn (stepXT f)
  | .xcvt f => .xcvt (stepXT f)
  | .xplane f => .xplane (stepXT f)
  | .xunpl f => .xunpl (stepXT f)
  | .xscale f => .xscale (stepXT f)
  | i => i

/-- The scalar registers whose values a sticky syllable captures at its named issue (R64): the address of an SM or VM
syllable and the operand registers of a CQ syllable. -/
def capturedRegs (i : Instr) : List (BitVec 6) :=
  match i with
  | .ld f => [f.a]
  | .st f => [f.a]
  | .lds f => [f.a]
  | .vld f => [f.a]
  | .vst f => [f.a]
  | .vgath f => [f.a]
  | .vscat f => [f.a]
  | .vlds f => [f.a]
  | .vgaths f => [f.a]
  | .ocopy f => [f.a, f.a + 1, f.a + 2, f.a + 3]
  | .oload f => [f.a, f.a + 1, f.a + 2, f.a + 3]
  | .ostore f => [f.a, f.a + 1, f.a + 2, f.a + 3]
  | .tload f => [f.a, f.a + 1, f.a + 2, f.a + 3]
  | .kvld f => [f.a, f.a + 1, f.a + 2, f.a + 3]
  | .kvldt f => [f.a, f.a + 1, f.a + 2, f.a + 3]
  | .kvapp f => [f.a, f.a + 1, f.a + 2, f.a + 3]
  | _ => []

/-- The declared latency that a LAT7 field gives (R58). -/
def lat7 (l : BitVec 7) : Nat := if l.toNat < 64 then l.toNat else 16 * (l.toNat - 64)

/-- Bytes that a W code names (R56). -/
def widthBytes (w : BitVec 3) : Nat :=
  match w.toNat with
  | 0 => 1 | 1 => 2 | 2 => 4 | 3 => 8 | 4 => 1 | 5 => 2 | 6 => 4 | _ => 8

/-- Whether a W code sign-extends (R261): .i8, .i16 and .i32. -/
def widthSigned (w : BitVec 3) : Bool := w.toNat ≤ 2

/-- A value of `n` bytes extended to 64 bits. -/
def extend (signed : Bool) (n x : Nat) : W64 :=
  if signed then BitVec.ofInt 64 (toSigned x (8 * n)) else BitVec.ofNat 64 (x % 2 ^ (8 * n))

end Sys2Proof.Machine
end

