-- ==== Sys2Proof/Machine/Ops.lean ====
section
/-! DEFINITION. The named operations of a partition: its registers and pending results (R18 to R23, R369 to R372),
local storage (R218, R219, R229), taking a trap and ending a task (R373 to R378). -/

namespace Sys2Proof.Machine

def partKey (core part : Nat) : Nat := core * 32 + part

/-- The steward context of a core: it stands beside the 16 partitions as number 16, always ready, on the scalar unit (R403): the slots P
and S. -/
def stewardPart : Part := { Part.empty with ps := .ready, steward := true, slots := 0xC0 }

def getPart (s : State) (core part : Nat) : Part :=
  (mget s.parts (partKey core part)).getD (if part = 16 then stewardPart else Part.empty)

def setPart (s : State) (core part : Nat) (p : Part) : State := { s with parts := mput s.parts (partKey core part) p }

def getCore (s : State) (core : Nat) : CoreSt := (mget s.cores core).getD CoreSt.empty
def setCore (s : State) (core : Nat) (c : CoreSt) : State := { s with cores := mput s.cores core c }

/-- The partition whose bundle issue is being carried out. -/
def cur (s : State) : Part := getPart s s.iss.core s.iss.part
def setCur (s : State) (p : Part) : State := setPart s s.iss.core s.iss.part p
def curCore (s : State) : CoreSt := getCore s s.iss.core
def setCurCore (s : State) (c : CoreSt) : State := setCore s s.iss.core c

/-! Registers. -/

/-- Whether s56 to s63 stand for their shadow copies (R205). -/
def shadowed (p : Part) (r : BitVec 6) : Bool := p.ui.isSome && 56 ≤ r.toNat

def writesS (r : BitVec 6) (sh : Bool) (w : RegWrite) : Bool :=
  match w with
  | .s r' sh' _ _ => r' == r && sh' == sh
  | _ => false

/-- Whether a pending operation has issued in an earlier bundle of the present level: the bundles up to its deadline read
its destination as undefined (R19). Those of its own bundle still read what it held before (R18). -/
def inFlight (p : Part) (e : Pend) : Bool := e.level == p.level && e.cyc < p.tc

/-- Whether an operation of an earlier bundle that `f` marks has its deadline still to come: it is pending, or its result was written
early (R19). -/
def pendingBy (p : Part) (f : Pend → Bool) : Bool :=
  (p.pends.any fun e => inFlight p e && f e) || p.early.any fun e => inFlight p e && p.tc < e.due && f e

/-- Whether the register has a pending result of the present level (R19, R370). -/
def pendingS (p : Part) (r : BitVec 6) : Bool :=
  pendingBy p fun e => e.writes.any (writesS r (shadowed p r)) || e.dst == some (r, shadowed p r)

/-- The stored value of a scalar register with its poison bit. -/
def regS (p : Part) (r : BitVec 6) : W64 × Bool :=
  if r = 0 then (0, false)
  else if shadowed p r then (p.sh[(r.toNat - 56) % 8]'(Nat.mod_lt _ (by decide)), p.shp.getLsbD (r.toNat - 56))
  else (p.s[r.toNat]'r.isLt, p.sp.getLsbD r.toNat)

/-- Read of Table 0.3 for a scalar register at the issue of a bundle: a register with a pending result is undefined
(R19). s0 reads 0 with poison 0 (R254). -/
def readS (s : State) (r : BitVec 6) : W64 × Bool :=
  if r = 0 then (0, false)
  else if pendingS (cur s) r then (Config.freeBits s.epoch r.toNat 64, false)
  else regS (cur s) r

def writesV (r : BitVec 7) (w : RegWrite) : Bool :=
  match w with
  | .v r' _ _ => r' == r
  | _ => false

def pendingV (p : Part) (r : BitVec 7) : Bool :=
  pendingBy p fun e => e.writes.any (writesV r)

/-- What a store holds that nothing has written since the launch `born`, or the boundary change, left it undefined (R7):
a free value. Before the first one it is 0 (log entry 6). -/
def undef (born site w : Nat) : BitVec w := if born = 0 then 0 else Config.freeBits born (2 ^ 40 + site) w

def regV (p : Part) (r : BitVec 7) : VReg × Bool :=
  ((mget p.v r.toNat).getD (undef p.born (1000 + r.toNat) 4096), p.vp.getLsbD r.toNat)

def readV (s : State) (r : BitVec 7) : VReg × Bool :=
  if pendingV (cur s) r then (Config.freeBits s.epoch (100 + r.toNat) 4096, false) else regV (cur s) r

def writesP (r : BitVec 4) (w : RegWrite) : Bool :=
  match w with
  | .p r' _ => r' == r
  | _ => false

/-- p0 reads as all true (Table 1.5). -/
def readP (s : State) (r : BitVec 4) : W128 :=
  if r = 0 then BitVec.allOnes 128
  else if pendingBy (cur s) fun e => e.writes.any (writesP r) then
    Config.freeBits s.epoch (300 + r.toNat) 128
  else (cur s).p[r.toNat]'r.isLt

def writesG (r : BitVec 3) (w : RegWrite) : Bool :=
  match w with
  | .g r' _ => r' == r
  | _ => false

def readG (s : State) (r : BitVec 3) : W128 :=
  if pendingBy (cur s) fun e => e.writes.any (writesG r) then
    Config.freeBits s.epoch (320 + r.toNat) 128
  else (cur s).g[r.toNat]'r.isLt

def writesLc (r : BitVec 2) (w : RegWrite) : Bool :=
  match w with
  | .lc r' _ => r' == r
  | _ => false

def readLc (s : State) (r : BitVec 2) : W32 :=
  if pendingBy (cur s) fun e => e.writes.any (writesLc r) then
    Config.freeBits s.epoch (330 + r.toNat) 32
  else (cur s).lc[r.toNat]'r.isLt

def writesSr (n : Nat) (w : RegWrite) : Bool :=
  match w with
  | .sr n' _ => n'.toNat == n
  | _ => false

/-- Whether a special register or matrix control register has a pending write of the present level. -/
def pendingW (s : State) (f : RegWrite → Bool) : Bool :=
  pendingBy (cur s) fun e => e.writes.any f

/-- A write to UICTL: EN is written, and writing 1 to a PEND bit clears it (R204). -/
def writeUictl (old x : W64) : W64 :=
  let pend := old.toNat / 4 % 256
  let clr := x.toNat / 4 % 256
  BitVec.ofNat 64 (x.toNat % 2 + old.toNat / 2 % 2 * 2 + (pend &&& (255 - clr)) * 4)

/-- MTSR of a special register, as its definition takes it (R43, R204, R207, R360, R364, R374). -/
def writeSr (p : Part) (n : Nat) (x : W64) : Part :=
  match n with
  | 0x03 => { p with fpctl := x &&& 0x70F }
  | 0x10 => { p with tsw := (p.tsw &&& ~~~7#64) ||| (x &&& 7#64) }
  | 0x13 => { p with
      tpc := x.setWidth 32, tsw := p.tsw &&& ~~~0xFFC007#64
      bank1 := p.bank1.map fun b =>
        { b with repc := true, at_ := { b.at_ with xfer := none, slot := 0, rep := some 0, again := false } } }
  | 0x14 => { p with tvec := x.setWidth 32 }
  | 0x15 => { p with uivec := x.setWidth 32 }
  | 0x16 => { p with uictl := writeUictl p.uictl x }
  | 0x17 => { p with rplact := if x.toNat % 4 = 1 then 1 else 0 }
  | _ => p

def setBit {n : Nat} (x : BitVec n) (i : Nat) (b : Bool) : BitVec n :=
  if b then x ||| (1#n <<< i) else x &&& ~~~(1#n <<< i)

/-- Writes one result into its destination. Writes of s0 and p0 are discarded. -/
def writeReg (p : Part) (w : RegWrite) : Part :=
  match w with
  | .s r sh x po =>
    if r = 0 then p
    else if sh then
      { p with sh := p.sh.set ((r.toNat - 56) % 8) x (Nat.mod_lt _ (by decide)), shp := setBit p.shp (r.toNat - 56) po }
    else { p with s := p.s.set r.toNat x r.isLt, sp := setBit p.sp r.toNat po }
  | .v r x po => { p with v := mput p.v r.toNat x, vp := setBit p.vp r.toNat po }
  | .p r x => if r = 0 then p else { p with p := p.p.set r.toNat x r.isLt }
  | .g r x => { p with g := p.g.set r.toNat x r.isLt }
  | .lc r x => { p with lc := p.lc.set r.toNat x r.isLt }
  | .sr n x => writeSr p n.toNat x
  | .ftLo n x =>
    { p with ft := p.ft.set n.toNat ((p.ft[n.toNat]'n.isLt &&& ~~~0xFFFFFFFF#64) ||| x.setWidth 64) n.isLt }
  | .ftHi n x =>
    { p with ft := p.ft.set n.toNat ((p.ft[n.toNat]'n.isLt &&& 0xFFFFFFFF#64) ||| (x.setWidth 64 <<< 32)) n.isLt }
  | .mc n x =>
    match n with
    | 0 => { p with mca := x }
    | 1 => { p with mcb := x }
    | 2 => { p with mcs := x }
    | 3 => { p with mcg := x }
    | _ => { p with mcr := x }
  | .edge d x =>
    { p with mce := (p.mce &&& ~~~(0xFF#32 <<< (8 * d))) ||| (x.setWidth 32 <<< (8 * d)) }

def writeRegs (p : Part) (ws : List RegWrite) : Part := ws.foldl writeReg p

/-- ORs the flags of an operation into FPCTL (R44). -/
def orFlags (p : Part) (f : Flags) : Part := { p with fpctl := p.fpctl ||| (f.setWidth 64 <<< 8) }

/-- An AGE_LIMIT write reaches the core, held within 16 to 4,096 (R360). -/
def ageWrites (c : CoreSt) (ws : List RegWrite) : CoreSt :=
  ws.foldl (fun c w =>
    match w with
    | .sr n x => if n.toNat = 4 then { c with ageLimit := max 16 (min 4096 x.toNat) } else c
    | _ => c) c

/-- Whether two results have a destination register in common. -/
def sameDest (a b : RegWrite) : Bool :=
  match a, b with
  | .s r sh _ _, .s r' sh' _ _ => r == r' && sh == sh'
  | .v r _ _, .v r' _ _ => r == r'
  | .p r _, .p r' _ => r == r'
  | .g r _, .g r' _ => r == r'
  | .lc r _, .lc r' _ => r == r'
  | .sr n _, .sr n' _ => n == n'
  | .ftLo n _, .ftLo n' _ => n == n'
  | .ftHi n _, .ftHi n' _ => n == n'
  | .mc n _, .mc n' _ => n == n'
  | .edge d _, .edge d' _ => d == d'
  | _, _ => false

/-- The destinations of a pending operation, its result known or not. -/
def Pend.dests (e : Pend) : List RegWrite :=
  e.writes ++ match e.dst with
    | some (r, sh) => [.s r sh 0 false]
    | none => []

/-- What an operation has left to write: an overtaken one writes or leaves its destinations (R22); any other leaves those that a
later-issued one has written already. -/
def Pend.toWrite (e : Pend) (epoch : Nat) : List RegWrite :=
  if e.late then (if Config.freeBool epoch e.seq then [] else e.writes)
  else e.writes.filter fun w => !e.lost.any (sameDest w)

/-- An older operation of the same level loses the destinations that have now been written (R22, R371). -/
def Pend.loses (x e : Pend) (ws : List RegWrite) : Pend :=
  if x.seq < e.seq && x.level == e.level && !x.late && x.dests.any (fun d => ws.any (sameDest d)) then { x with lost := x.lost ++ ws } else x

/-- Writes the result of a pending operation. Its flags, and the certain end of its reads, come at its deadline (R19, R44): until
then it stands among those written early. -/
def writePend (s : State) (core part : Nat) (e : Pend) : State :=
  let p := getPart s core part
  let ws := e.toWrite s.epoch
  let p := writeRegs p ws
  let p := if p.tc < e.due then { p with early := p.early ++ [e] } else orFlags p e.flags
  let p := { p with pends := (p.pends.filter fun x => x.seq != e.seq).map fun x => x.loses e ws }
  let s := setPart s core part p
  if ws.any (writesSr 4) then setCore s core (ageWrites (getCore s core) ws) else s

/-- Whether a pending operation is due at the partition's present task cycle. -/
def isDue (p : Part) (e : Pend) : Bool := e.level == p.level && e.due ≤ p.tc

/-- The early-written operations that `f` marks are over: their flags are set (R44). -/
def endEarly (p : Part) (f : Pend → Bool) : Part :=
  { (p.early.filter f).foldl (fun p e => orFlags p e.flags) p with early := p.early.filter fun e => !f e }

/-- Writes every ready result that is due, oldest first (R18, R371). Where flags of an operation and an MTSR of FPCTL fall due
together, they are taken in that order too (log entry 105). -/
def writeDue (s : State) (core part : Nat) : State :=
  let p := getPart s core part
  let s := p.pends.foldl
    (fun s e => if isDue (getPart s core part) e && e.st == .ready then writePend s core part e else s) s
  if p.early.any (isDue p) then
    let p := getPart s core part
    setPart s core part (endEarly p (isDue p))
  else s

/-- Whether a partition takes part in its core's issue. -/
def isActive (p : Part) : Bool := p.ps == .ready || p.ps == .frozen || p.ps == .fetch

/-- Whether an engine has still to write to the local storage of a task (R378): a copy into the scratchpad or the tile store, or an
operation that an engine has still to carry out. -/
def localWrites (s : State) (core task : Nat) : Bool :=
  s.copies.any (fun e => e.1 / 4096 == core && e.2.task == task && !e.2.ended && (e.2.op == 3 || e.2.op == 5)) ||
    s.kvs.any fun e => e.2.core == core && e.2.task == task

/-- Adds a pending operation to a partition. -/
def pushPend (p : Part) (e : Pend) : Part :=
  let clash (x : Pend) : Bool :=
    x.level == p.level && e.due < x.due && x.dests.any fun w => e.dests.any (sameDest w)
  { p with
    pends := (p.pends.map fun x => if clash x then { x with late := true } else x) ++ [{ e with seq := p.nextSeq }]
    nextSeq := p.nextSeq + 1 }

/-- A pending operation of the syllable that issues, with latency `lat` and nothing else filled in. -/
def newPend (i : Instr) (s : State) (lat : Nat) : Pend :=
  { seq := 0, op := opOf i, slot := s.iss.slot, pc := (cur s).at_.pc, cyc := (cur s).tc, due := (cur s).tc + lat, level := (cur s).level
    writes := [], flags := 0, st := .ready, dst := none, vec := false, ranges := [], eng := none, late := false, lost := [] }

/-- WriteLate of Table 0.3: the results of the syllable are written by its deadline. -/
def result (i : Instr) (lat : Nat) (ws : List RegWrite) (fl : Flags) (s : State) : State :=
  let vec := ws.any fun w => match w with
    | .v _ _ _ => true
    | _ => false
  setCur s (pushPend (cur s) { newPend i s lat with writes := ws, flags := fl, vec := vec })

/-- The destination of a scalar result, in the bank for which its syllable issues (R205). -/
def sDest (s : State) (r : BitVec 6) (x : W64) (po : Bool) : RegWrite := .s r (shadowed (cur s) r) x po

/-- A scalar result. -/
def resultS (i : Instr) (lat : Nat) (d : BitVec 6) (x : W64) (po : Bool) (s : State) : State :=
  result i lat [sDest s d x po] 0 s

/-! Traps. -/

/-- Trap causes (Table 15.2). -/
def cLocalRange : Nat := 0x21
def cIllegal : Nat := 0x30
def cFraming : Nat := 0x31
def cBundle : Nat := 0x32
def cSegment : Nat := 0x33
def cTarget : Nat := 0x34
def cPoison : Nat := 0x35
def cOverflow : Nat := 0x36
def cLayout : Nat := 0x37
def cMatrix : Nat := 0x38
def cSoft : Nat := 0x40
def cBreak : Nat := 0x41

/-- A precise trap that a syllable raises: its cause, TADDR, and whether the syllable commits all the same (R279). -/
structure TrapReq where
  code : Nat
  taddr : W64
  commits : Bool
  deriving DecidableEq, Repr

def trapReq {α : Type} (code : Nat) (taddr : W64) : Except TrapReq α :=
  .error { code := code, taddr := taddr, commits := false }

/-- ILLEGAL_SYLLABLE with the syllable's word in TADDR. -/
def illegal {α : Type} (i : Instr) : Except TrapReq α := trapReq cIllegal ((wordOf i).setWidth 64)

/-- POISON_USE of a scalar register or a vector register: REG[6:0] and CLASS[10:8]. -/
def poisonS {α : Type} (r : BitVec 6) : Except TrapReq α := trapReq cPoison (r.setWidth 64)
def poisonV {α : Type} (r : BitVec 7) : Except TrapReq α := trapReq cPoison (r.setWidth 64 + 0x100)

/-- A scalar operand in a role that poison may not take (R255). -/
def useS (s : State) (r : BitVec 6) : Except TrapReq W64 :=
  if (readS s r).2 then poisonS r else .ok (readS s r).1

/-- The descriptor address of a queue (R338). -/
def queueAddr (s : State) (q : Nat) : Nat := s.qtab + 128 * q

/-- Stops a queue (R339) at an item: QERR, GNODE and QIDX are written, and the steward is told, with the cause of a fault in
translation. -/
def stopQueue (s : State) (q code k gnode : Nat) (item : Nat) (cause : List Nat) : State :=
  let word := toBytes (code % 256 + gnode % 8192 * 256) 4 ++ toBytes (k % 2 ^ 32) 4
  let s := engineWrite s (queueAddr s q + 0x70) word
  let qs := (mget s.queues q).getD { base := 0, retired := [], lastRead := 0, stopped := [], visited := 0, fw := 0 }
  let s := { s with queues := mput s.queues q { qs with stopped := item :: qs.stopped.erase item } }
  addEvent s { code := 0x0F, loc := q, detail := code :: cause }

/-- The ring packet from which a packet descends: itself, the GRAPH packet of a node, the LAUNCH of a child's parent.
`fuel` bounds the nesting, which never passes 7 launches, each in a graph at most (R362). -/
def rootPkt (s : State) : Nat → Nat → Nat
  | 0, id => id
  | fuel + 1, id =>
    match mget s.pkts id with
    | none => id
    | some p =>
      match p.graph, p.parent with
      | some g, _ => rootPkt s fuel g
      | none, some g =>
        match mget s.gangs g with
        | some gg => rootPkt s fuel gg.pkt
        | none => id
      | none, none => id

/-- The number of the graph node from which a packet descends; 0 for none. -/
def nodeOfPkt (s : State) : Nat → Nat → Nat
  | 0, _ => 0
  | fuel + 1, id =>
    match mget s.pkts id with
    | none => 0
    | some p =>
      match p.graph, p.parent with
      | some _, _ => p.node
      | none, some g =>
        match mget s.gangs g with
        | some gg => nodeOfPkt s fuel gg.pkt
        | none => 0
      | none, none => 0

/-- Stops the queue of a packet at it: QIDX names the ring packet and GNODE the node from which it descends. -/
def stopAt (s : State) (q id code : Nat) (cause : List Nat) : State :=
  let k := ((mget s.pkts (rootPkt s 32 id)).map (·.k)).getD 0
  stopQueue s q code k (nodeOfPkt s 32 id) id cause

/-- A partition without a task. The debugger's and the single-step marks belong to the partition and stay. -/
def freePart (p : Part) : Part :=
  if p.steward then stewardPart else { Part.empty with lastIssue := p.lastIssue, single := p.single, debugged := p.debugged, bank2 := p.bank2 }

/-- A gang counts one task less (R354). -/
def countEnd (s : State) (gang : Option Nat) : State :=
  match gang.bind fun g => (mget s.gangs g).map fun gg => (g, gg) with
  | none => s
  | some (g, gg) => { s with gangs := mput s.gangs g { gg with live := gg.live - 1 } }

/-- A task ends: its partition is free, and its gang counts one task less (R270, R354). -/
def endTask (s : State) (core part : Nat) : State :=
  let p := getPart s core part
  countEnd (setPart s core part (freePart { p with bank2 := none })) p.gang

/-- The expanded bundle at which a partition stands (R72, R75). -/
def bundleAt (p : Part) : Option Bundle :=
  match p.cur with
  | some g => if g.off = p.at_.pc.toNat % 2 ^ 16 then g.bundles[p.at_.pc.toNat / 2 ^ 16 % 512]? else none
  | none => none

/-- REP of a bundle (Table 3.1). -/
def Bundle.rep (b : Bundle) : Nat := b.hdr.toNat / 2 ^ 16 % 256

/-- Begins the issue of a partition's next bundle (R17), which `second` follows on the same clock. -/
def openIssue (s : State) (core part : Nat) (second : Option Nat) : State :=
  let p := getPart s core part
  let b := (bundleAt p).getD Bundle.none
  let rep := p.at_.rep.getD b.rep
  let from_ := if p.at_.slot = 0 then p.nextSeq else p.stepFrom
  let p' := { p with at_ := { p.at_ with rep := some rep, xfer := p.at_.xfer.filter (·.left != 0) }, age := 0, lastIssue := s.clock, stepFrom := from_ }
  let iss : Issue := { isOpen := true, core := core, part := part, slot := p.at_.slot, named := false, bundle := b
                       scope := if p.at_.slot = 0 then 0 else p.at_.scope, writes := [], second := second }
  { setPart s core part p' with iss := iss }

/-- Closes the issue; the partition that issues on the same clock comes next (R359, R368). -/
def closeIssue (s : State) : State :=
  match s.iss.second with
  | none => { s with iss := { s.iss with isOpen := false } }
  | some q => openIssue s s.iss.core q none

/-- What a kill leaves of a partition (R378): results, faults and waits are gone. Its resources stay held, in state ENDING, until
the engines have made their writes to its local storage. -/
def killedPart (s : State) (core : Nat) (p : Part) : Part :=
  if p.steward || !localWrites s core p.entered then freePart p
  else { p with ps := .ending, age := 0, gang := none, pends := [], early := [], reports := [], monitor := none, preempt := none, ui := none
                cur := none, nxt := none, bucket := none }

/-- What a kill leaves of a task's operations in the engines: those that are held at a fault are gone with it, the others run to
completion (R378). -/
def keepOps (s : State) (core : Nat) (p : Part) : State :=
  let dead (x : KvOp) : Bool :=
    x.core == core && x.task == p.entered && (x.fault.isSome || !p.pends.any fun e => e.seq == x.seq && e.st == .engine)
  { s with kvs := s.kvs.filter fun e => !dead e.2 }

/-- The reports of a kill (R378): the steward's, with its cause, and the queue's, which stops with KILLED. -/
def killReports (s : State) (p : Part) (report : EventRec) : State :=
  let s := addEvent s report
  match p.gang.bind (mget s.gangs ·) with
  | none => s
  | some g => stopAt s p.queue g.pkt 0x08 []

/-- A kill (R378): the task ends with the steward's report of its cause, and its queue stops with KILLED. The gang goes on. `keep`
is what the secondary trap bank keeps (R375). -/
def killWith (s : State) (core part : Nat) (report : EventRec) (keep : Option TrapBank) : State :=
  let p := getPart s core part
  let s := keepOps (killReports s p report) core p
  countEnd (setPart s core part (killedPart s core { p with bank2 := keep })) p.gang

/-- A killed partition whose last local write has been made is free. -/
def releaseKilled (s : State) (core part : Nat) : State :=
  let p := getPart s core part
  if p.ps == .ending && !localWrites s core p.entered then setPart s core part (freePart p) else s

/-- A kill for a cause, with its TADDR. -/
def killTask (s : State) (core part : Nat) (causes : List Nat) : State :=
  killWith s core part { code := 0x0C, loc := partKey core part, detail := causes } none

/-- Drops every line of a core's cache (R239). -/
def dropCache (s : State) (core : Nat) : State := setCore s core { getCore s core with cache := [] }

def Nib.bytes (x : Nib) : List Nat :=
  match x with
  | .pad _ => []
  | .mem a _ => [a]
  | .planes ba => tab 4 fun j => (ba + 16384 * j) / 8

/-- The lines that a nibble touches. -/
def Nib.line (x : Nib) : List Nat := x.bytes.map (· / 64)

/-- Lines that an access touches, each once. -/
def linesOf (l : List LByte) : List Nat := (l.flatMap fun b => b.lo.line ++ b.hi.line).eraseDups

/-- The value of a nibble, its bytes read by `rd`. -/
def Nib.value (rd : Nat → Byte) (x : Nib) : Nat :=
  match x with
  | .pad v => v
  | .mem a high => if high then (rd a).toNat / 16 else (rd a).toNat % 16
  | .planes ba => (List.range 4).foldl (fun v j => v + ((rd ((ba + 16384 * j) / 8)).toNat / 2 ^ (ba % 8) % 2) * 2 ^ j) 0

def Nib.peek (s : State) (x : Nib) : Nat := x.value (Machine.peek s)

/-- The value of logical bytes, the stored ones read by `rd`. -/
def cellsBy (rd : Nat → Byte) (l : List LByte) : Nat := ofBytes (l.map fun b => BitVec.ofNat 8 (b.lo.value rd + 16 * b.hi.value rd))

/-- The value of logical bytes as memory holds it. -/
def peekCells (s : State) (l : List LByte) : Nat := cellsBy (Machine.peek s) l

/-- A line that the core cache holds is read anew (R239). -/
def refreshLine (core : Nat) (s : State) (line : Nat) : State :=
  let c := getCore s core
  if (mget c.cache line).isNone then s
  else
    let x : CacheLine := { data := BitVec.ofNat 512 (peekNat s (64 * line) 64), poison := poisonedAt s (64 * line) 64
                           filled := s.clock }
    setCore s core { c with cache := mput c.cache line x }

/-- A WAITM completes (R245): it reads its word again, as an acquire at its scope; the core's own copy of the line follows it
(R238). -/
def wakeWaitm (s : State) (core part : Nat) (e : Pend) : State :=
  match e.st with
  | .wait (.waitm cells signed scope _) =>
    let s := (linesOf cells).foldl (fun s n => touchRead s (64 * n) 64) s
    let x := extend signed cells.length (peekCells s cells)
    let bad := (linesOf cells).any fun n => poisonedAt s (64 * n) 64
    let ws := match e.dst with
      | some (r, sh) => [RegWrite.s r sh x bad]
      | none => []
    let p := getPart s core part
    let e' := { e with st := .ready, writes := ws, dst := none }
    let p := { p with pends := p.pends.map fun y => if y.seq = e.seq then e' else y, monitor := none }
    let s := setPart s core part p
    if scope = 0 then (linesOf cells).foldl (refreshLine core) s else dropCache s core
  | _ => s

/-- A trap, a pre-emption or a completion interrupt wakes a waiting WAITM (R245, R246). -/
def wakeAllWaitm (s : State) (core part : Nat) : State :=
  (getPart s core part).pends.foldl (fun s e => wakeWaitm s core part e) s

/-- The rules of R264 for a bundle address in a register. -/
def badAddr (x : W64) : Bool := x.toNat / 2 ^ 14 % 4 != 0 || 2 ^ 25 ≤ x.toNat

/-- Control passes to a bundle address outside the normal sequence: its segment and index are checked first (R74). -/
def landAt (at_ : Point) (pc : W32) (src : W32) (op : Nat) : Point :=
  { at_ with pc := pc
             xfer := some { target := some pc, bad := badAddr (pc.setWidth 64), left := 0, src := src, op := op } }

/-- A trap to be entered: cause, RF, slot, opcode, TADDR, TPC, the resume point, the coordinates of a copy fault, and
whether a replay entry is held. -/
structure TrapIn where
  code : Nat
  rf : Bool
  slot : Nat
  op : Nat
  taddr : W64
  tpc : W32
  resume : Point
  sres : Nat
  rpt : Nat
  cfc : Option (W64 × W64)
  rpe : Bool
  deriving DecidableEq, Repr

/-- TSW at entry (Table 15.1). -/
def entryTsw (p : Part) (t : TrapIn) : W64 :=
  let ds := match t.resume.xfer with
    | some x => min x.left 2
    | none => 0
  BitVec.ofNat 64 (t.sres % 8 + p.pends.length % 128 * 16 + (if t.rpe then 2048 else 0) +
    (if p.ui.isSome then 4096 else 0) + (if p.level = 0 then 0 else 8192) + ds * 16384 + t.rpt % 256 * 65536)

def entryCause (t : TrapIn) : W64 :=
  BitVec.ofNat 64 (t.code % 256 + (if t.rf then 256 else 0) + t.slot % 8 * 512 + t.op % 256 * 65536)

/-- The trap registers and the saved state of a partition as a bank. -/
def bankOf (p : Part) : Option TrapBank :=
  p.bank1.map fun b => { b with tsw := p.tsw, tcause := p.tcause, taddr := p.taddr, tpc := p.tpc }

/-- What a trap or a stop makes of the pending operations: entries of the late-write buffer, which are written in issue order
(R370, R371). -/
def inOrder (p : Part) : Part := { p with pends := p.pends.map fun e => { e with late := false } }

/-- The first trap of a partition that meets another in its handler, as the secondary bank keeps it (R375, R376). -/
def firstTrap (p : Part) : Option TrapBank := if p.level = 1 then bankOf p else p.bank2

/-- DOUBLE_FAULT (R375, R376): the task is killed; the secondary bank keeps the first trap, and the report carries both causes
and both addresses (the causes stand above the location, log entry 106). -/
def doubleFault (s : State) (core part : Nat) (t : TrapIn) : State :=
  let p := getPart s core part
  let cause := ((firstTrap p).map fun b => b.tcause.toNat % 256).getD 0
  let taddr := ((firstTrap p).map fun b => b.taddr.toNat).getD 0
  killWith s core part
    { code := 0x0D, loc := partKey core part + cause * 2 ^ 32 + t.code * 2 ^ 40, detail := [taddr, t.taddr.toNat] } (firstTrap p)

/-- Trap entry (R373), with the double fault and nesting of R375 and R376. A partition with no handler is killed. -/
def takeTrap (s : State) (core part : Nat) (t : TrapIn) : State :=
  let s := wakeAllWaitm s core part
  let p := inOrder (getPart s core part)
  let windowOpen := match p.bank1 with
    | some b => !(b.sawCause && b.sawAddr)
    | none => false
  if p.level ≠ 0 && (windowOpen || 2 ≤ p.level) then doubleFault s core part t
  else if p.tvec = 0x80000000 then killTask s core part [t.code, t.taddr.toNat]
  else
    let b : TrapBank := { tsw := 0, tcause := 0, taddr := 0, tpc := 0, tc := p.tc, at_ := t.resume, sawCause := false
                          sawAddr := false, repc := false }
    let p' := { p with
      tsw := entryTsw p t, tcause := entryCause t, taddr := t.taddr, tpc := t.tpc, bank1 := some b
      bank2 := if p.level = 0 then p.bank2 else bankOf p, rplact := 0, tc := 0, level := p.level + 1, bucket := none
      at_ := landAt (Point.start p.tvec) p.tvec (Config.freeBits s.epoch 77 32) 0
      cfc01 := (t.cfc.map (·.1)).getD p.cfc01, cfc23 := (t.cfc.map (·.2)).getD p.cfc23 }
    setPart s core part p'

/-- A byte of the scratchpad at a physical offset; never written since the boundaries changed, it is undefined (R216). -/
def scratchByte (c : CoreSt) (o : Nat) : Byte := (mget c.scratch o).getD (undef c.bepoch o 8)

/-- A write by an S or V syllable updates a cached copy of its byte (R221). -/
def cachePut (s : State) (core a : Nat) (b : Byte) : State :=
  let c := getCore s core
  match mget c.cache (a / 64) with
  | none => s
  | some l =>
    let old := nbits l.data.toNat (8 * (a % 64)) 8
    let data := BitVec.ofNat 512 (l.data.toNat - old * 2 ^ (8 * (a % 64)) + b.toNat * 2 ^ (8 * (a % 64)))
    setCore s core { c with cache := mput c.cache (a / 64) { l with data := data } }

def cacheBytes (s : State) (core a : Nat) : List Byte → State
  | [] => s
  | b :: bs => cacheBytes (cachePut s core a b) core (a + 1) bs

/-- The value that an atomic writes, from the old value (Table 11.9). -/
def AtomicOp.newValue (a : AtomicOp) (o : Nat) : Nat :=
  let m := 2 ^ (8 * a.n)
  let lt (x y : Nat) : Bool := if a.signed then toSigned x (8 * a.n) < toSigned y (8 * a.n) else x < y
  match a.kind with
  | 0 => (o + a.opnd) % m
  | 1 => if lt (a.opnd % m) o then a.opnd % m else o
  | 2 => if lt o (a.opnd % m) then a.opnd % m else o
  | 3 => a.opnd % m
  | _ => if o = a.cmp % m then a.opnd % m else o

/-- A byte of device memory as an atomic of the open issue reads it: the plain writes of the issue come after its read (R236), the
writes of its earlier atomics do not (R242, R244). -/
def atomByte (s : State) (a : Nat) : Byte :=
  (s.iss.writes.filter fun w => w.atom && !w.scratch && w.addr == a).foldl (fun b w => (w.val &&& w.mask) ||| (b &&& ~~~w.mask)) (peek s a)

def atomBytes (s : State) (a n : Nat) : List Byte := tab n fun i => atomByte s (a + i)
def atomNat (s : State) (a n : Nat) : Nat := ofBytes (atomBytes s a n)

/-- The step of an atomic (R242, R244, R274, R275): the bytes that it writes from its address on, if any, its result, and whether
it has read failed data (R14). -/
structure AtomStep where
  bytes : List Byte
  res : W64
  bad : Bool
  deriving DecidableEq, Repr

/-- Reads the word of an atomic. -/
def AtomicOp.step (a : AtomicOp) (s : State) : State × AtomStep :=
  if a.kind = 5 then
    let s := touchRead s a.addr 24
    let claim := atomNat s a.addr 8
    let limit := atomNat s (a.addr + 8) 8
    let size := atomNat s (a.addr + 16) 4
    let bad := poisonedAt s a.addr 24
    (s, if (claim + 2 ^ 64 - limit) % 2 ^ 64 < size then { bytes := toBytes (claim + 1) 8, res := BitVec.ofNat 64 claim, bad := bad }
        else { bytes := [], res := BitVec.allOnes 64, bad := bad })
  else
    let s := touchRead s a.addr a.n
    let o := atomNat s a.addr a.n
    (s, { bytes := toBytes (a.newValue o) a.n, res := extend a.signed a.n o, bad := poisonedAt s a.addr a.n })

/-- Whether what an atomic writes comes of the word that it has read and that has failed its check values (R14): that of ASWAP does
not. -/
def AtomicOp.spreads (a : AtomicOp) (x : AtomStep) : Bool := x.bad && a.kind != 3

/-- Reads and writes the word of an atomic in one step. -/
def AtomicOp.perform (a : AtomicOp) (s : State) (core : Nat) : State × AtomStep :=
  let (s, x) := a.step s
  if x.bytes.isEmpty then (s, x)
  else
    let s := writeMem s a.addr x.bytes .objects a.cmpr a.fmt
    let s := if a.spreads x then failBytes s a.addr x.bytes.length else s
    (cacheBytes s core a.addr x.bytes, x)

/-- Defers bytes of device memory to the end of the bundle issue. -/
def deferBytes (s : State) (atom bad : Bool) (a : Nat) (bs : List Byte) (cmpr : Bool) (fmt : Nat) : State :=
  let ws := (List.zip (List.range bs.length) bs).map fun q : Nat × Byte =>
    ({ join := q.1 != 0, atom := atom, scratch := false, addr := a + q.1, val := q.2, mask := 255, cmpr := cmpr, fmt := fmt, bad := bad } : DefWrite)
  { s with iss := { s.iss with writes := s.iss.writes ++ ws } }

/-- Defers bytes of the scratchpad, by their physical offsets, to the end of the bundle issue (R236). -/
def deferScratch (s : State) (l : List (Nat × Byte)) : State :=
  let ws := l.map fun q : Nat × Byte =>
    ({ join := true, atom := false, scratch := true, addr := q.1, val := q.2, mask := 255, cmpr := false, fmt := 0 } : DefWrite)
  { s with iss := { s.iss with writes := s.iss.writes ++ ws } }

def updPend (p : Part) (seq : Nat) (f : Pend → Pend) : Part :=
  { p with pends := p.pends.map fun e => if e.seq = seq then f e else e }

/-- The value that a waiting operation has come to, for its destination register. -/
def Pend.answer (e : Pend) (x : W64) (st : PendSt) (bad : Bool := false) : Pend :=
  { e with st := st, dst := none, writes := match e.dst with
      | some (r, sh) => [RegWrite.s r sh x bad]
      | none => [] }

/-- Performs a pending atomic; with the acquire flag and a scope wider than CORE it drops the core cache (R243). -/
def performAtomic (s : State) (core part : Nat) (e : Pend) (a : AtomicOp) : State :=
  let (s, x) := a.perform s core
  let s := refreshLine core s (a.addr / 64)
  let s := setPart s core part (updPend (getPart s core part) e.seq fun e => e.answer x.res .engine x.bad)
  if a.acq && a.scope != 0 then setCore s core { getCore s core with cache := [] } else s

/-- Whether an access of the drain set has not performed (R240): one still in its engine, held at a fault, a WAITM before its
last read, or one that waits for its own release. -/
def undrained (e : Pend) : Bool :=
  match e.st with
  | .engine => e.slot != 4 && e.slot != 7
  | .replay => true
  | .fault _ _ _ _ => e.eng.isSome
  | .wait (.rel _ (.atomic _)) => true
  | .wait (.rel _ (.qpush _ _ _)) => true
  | .wait (.olcinv _ _) => true
  | .wait (.waitm _ _ _ _) => true
  | _ => false

/-- Whether every access of the partition numbered below `upto` has performed. -/
def drained (p : Part) (upto : Nat) : Bool := p.pends.all fun e => upto ≤ e.seq || !undrained e

/-- Applies one run of the deferred writes, to the scratchpad or to device memory and to the core's own cached copies. -/
def applyRun (s : State) (g : List DefWrite) : State :=
  if g.any (·.scratch) then
    g.foldl (fun s w =>
      let c := curCore s
      let old := scratchByte c w.addr
      setCurCore s { c with scratch := mput c.scratch w.addr ((w.val &&& w.mask) ||| (old &&& ~~~w.mask)) }) s
  else
    g.foldl (fun s w => cachePut s s.iss.core w.addr (peek s w.addr)) (writeRun .objects s g)

/-- A tile-store line of the share, undefined from placement until it is written (R222). -/
def tileLine (p : Part) (l : Nat) : W128 := (mget p.tile l).getD (undef p.born (100000 + l) 128)

/-- A 16-byte unit of the scratchpad (R220). -/
def spUnitOf (c : CoreSt) (u : Nat) : W128 := BitVec.ofNat 128 (ofBytes (tab 16 fun i => scratchByte c (16 * u + i)))

/-- Whether the operation that a kept value stands for has its deadline still to come, for a reader of its own task and level. -/
def Was.open_ (w : Was) (p : Part) : Bool := w.task == p.entered && w.level == p.level && p.tc < w.due

/-- A pending operation of a partition as the writer of a line or unit. -/
def wasOf (p : Part) (e : Pend) : Was := { task := p.entered, level := e.level, due := e.due, slot := e.slot, val := 0 }

/-- The kept values of a line or unit once `w` writes it, newest first: a write with no deadline to come leaves nothing older to be seen. -/
def pushWas (p : Part) (old : List Was) (w : Option Was) (now : W128) : List Was :=
  match w with
  | some w => { w with val := now } :: old.filter (·.open_ p)
  | none => []

/-- Keeps what units of the scratchpad hold before `w` writes to them (R334). -/
def keepUnits (c : CoreSt) (p : Part) (w : Option Was) (us : List Nat) : CoreSt :=
  { c with spWas := us.foldl (fun m u => mput m u (pushWas p ((mget m u).getD []) w (spUnitOf c u))) c.spWas }

/-- Keeps what lines of the tile store hold before `w` writes to them (R227). -/
def keepLines (p : Part) (w : Option Was) (lo n : Nat) : Part :=
  { p with tileWas := (List.range n).foldl (fun m i => mput m (lo + i) (pushWas p ((mget m (lo + i)).getD []) w (tileLine p (lo + i)))) p.tileWas }

/-- The operation of the present bundle issue that writes a unit of the scratchpad. -/
def unitWriter (p : Part) (u : Nat) : Option Was :=
  (p.pends.reverse.find? fun e => e.cyc == p.tc && e.level == p.level && e.eng.isNone &&
    e.ranges.any fun r => !r.tile && r.lo < 16 * u + 16 && 16 * u < r.lo + r.n).map (wasOf p)

/-- Keeps the scratchpad units that the deferred writes of a bundle issue meet. -/
def keepDeferred (s : State) : State :=
  ((s.iss.writes.filter (·.scratch)).map fun w => w.addr / 16).eraseDups.foldl
    (fun s u => setCurCore s (keepUnits (curCore s) (cur s) (unitWriter (cur s) u) [u])) s

/-- Applies the writes that a bundle issue has deferred, in slot order: all its reads have been made (R236). -/
def applyWrites (s : State) : State :=
  let s1 := (writeRuns s.iss.writes).foldl applyRun (keepDeferred s)
  { s1 with iss := { s1.iss with writes := [] } }

/-- A precise trap of the syllable in the present slot (R366, R367): the earlier slots have committed, the issue ends
without advancing TASK_CYCLE, and the return re-enters it at the slot. -/
def preciseTrapOp (op : Nat) (r : TrapReq) (s : State) : State :=
  let s := applyWrites s
  -- a single-stepped bundle that traps ends its step here (R385)
  let p := { cur s with stepped := (cur s).single, stepFrom := (cur s).nextSeq }
  let s := setCur s p
  let sres := if r.commits then s.iss.slot + 1 else s.iss.slot
  let resume := { p.at_ with slot := sres, scope := s.iss.scope }
  closeIssue (takeTrap s s.iss.core s.iss.part
    { code := r.code, rf := false, slot := s.iss.slot, op := op, taddr := r.taddr, tpc := p.at_.pc
      resume := resume, sres := sres, rpt := p.at_.rep.getD 0, cfc := none, rpe := false })

def preciseTrap (i : Instr) (r : TrapReq) (s : State) : State := preciseTrapOp (opOf i) r s

/-! Commit. -/

def getSticky (p : Part) (slot : Nat) : Option Sticky := p.at_.sticky[slot % 8]'(Nat.mod_lt _ (by decide))

def setSticky (p : Part) (slot : Nat) (x : Option Sticky) : Part :=
  { p with at_ := { p.at_ with sticky := p.at_.sticky.set (slot % 8) x (Nat.mod_lt _ (by decide)) } }

/-- The captured operands of a syllable; none when one of them is poisoned, as only LDS, VLDS and VGATHS take it. -/
def captureNow (s : State) (i : Instr) : List W64 :=
  if (capturedRegs i).any fun r => (readS s r).2 then [] else (capturedRegs i).map fun r => (readS s r).1

/-- The sticky register of the slot after the syllable has committed (R63, R64). -/
def stickyAfter (i : Instr) (s : State) : Option Sticky :=
  let w := (cur s).wregs
  if s.iss.named then
    if stickyFlag i then
      some { instr := stepInstr w i, cap := captureNow s i, cnt := 1 }
    else none
  else (getSticky (cur s) s.iss.slot).map fun k => { k with instr := stepInstr w i, cnt := k.cnt + 1 }

/-- What an instruction answers. -/
abbrev Out := Host.Outcome State Fault Refusal

/-- An event's step: the free choices of the next step are new. -/
def event (f : State → State) (s : State) : Out := .next { f s with epoch := s.epoch + 1 }

/-- A syllable commits: its slot's sticky register changes, and the next slot follows. `sticky` is what the register
becomes, computed at the issue. -/
def commitSyl (sticky : Option Sticky) (s : State) : State :=
  let s := setCur s (setSticky (cur s) s.iss.slot sticky)
  { s with epoch := s.epoch + 1, iss := { s.iss with slot := s.iss.slot + 1 } }

/-- Carries out a syllable: its effect and its commit, or its precise trap. -/
def runSyl (i : Instr) (body : State → Except TrapReq State) (s : State) : Out :=
  match body s with
  | .ok t => .next (commitSyl (stickyAfter i s) t)
  | .error r =>
    event (fun s => preciseTrap i r (if r.commits then setCur s (setSticky (cur s) s.iss.slot (stickyAfter i s)) else s)) s

/-- The captured operand `n` of the syllable, and the number of re-issues before this one (R64): the registers at the
named issue, in a role that poison may not take. -/
def captured (s : State) (rs : List (BitVec 6)) : Except TrapReq (List W64 × Nat) :=
  if s.iss.named then (rs.mapM (useS s)).map fun l => (l, 0)
  else
    match getSticky (cur s) s.iss.slot with
    | some k => .ok (k.cap, k.cnt)
    | none => .ok (rs.map fun _ => 0, 0)

/-- The captured operands of a speculative access: none when the named issue found a poisoned address. -/
def capturedSpec (s : State) (i : Instr) : Option (List W64 × Nat) :=
  let (l, n) :=
    if s.iss.named then (captureNow s i, 0)
    else
      match getSticky (cur s) s.iss.slot with
      | some k => (k.cap, k.cnt)
      | none => ([], 0)
  if l.isEmpty then none else some (l, n)

/-- A result that comes from an engine: it arrives with a RESULT_WRITE (R18, R20). -/
def resultEng (i : Instr) (lat : Nat) (ws : List RegWrite) (s : State) : State :=
  let vec := ws.any fun w => match w with
    | .v _ _ _ => true
    | _ => false
  setCur s (pushPend (cur s) { newPend i s lat with writes := ws, vec := vec, st := .engine })

/-! Local storage. -/

/-- Physical scratchpad offset (Table 9.3). -/
def swizzle (mode o : Nat) : Nat :=
  match mode with
  | 0 => o
  | 1 => o ^^^ ((o / 512 % 32) * 16)
  | 2 => o ^^^ ((o / 512 % 16) * 32)
  | _ => o ^^^ ((o / 512 % 8) * 64)

/-- Size of the core's scratchpad (R218). -/
def scratchSize (c : CoreSt) : Nat := c.b2 - c.b1

/-- Whether a logical scratchpad offset lies in the partition's share (R229). -/
def inShare (p : Part) (c : CoreSt) (o : Nat) : Bool := p.spbase ≤ o && o < p.spbase + p.splen && o < scratchSize c

def rangeInShare (p : Part) (c : CoreSt) (o n : Nat) : Bool :=
  n = 0 || (p.spbase ≤ o && o + n ≤ p.spbase + p.splen && o + n ≤ scratchSize c)

/-- OFF and SWZ of a scratchpad offset operand (Table 9.2). -/
def spOff (x : W64) : Nat := x.toNat % 2 ^ 21
def spSwz (x : W64) : Nat := x.toNat / 2 ^ 22 % 4
/-- The reserved bits [21] and [31:24] of a scratchpad offset operand are zero. -/
def spOk (x : W64) : Bool := x.toNat / 2 ^ 21 % 2 = 0 && x.toNat / 2 ^ 24 % 2 ^ 8 = 0

/-- LOCAL_RANGE at a scratchpad offset, or at a tile-store line. -/
def localRange {α : Type} (o : Nat) : Except TrapReq α := trapReq cLocalRange (BitVec.ofNat 64 (o % 2 ^ 21))
def localLine {α : Type} (l : Nat) : Except TrapReq α := trapReq cLocalRange (BitVec.ofNat 64 (l % 2 ^ 16 + 2 ^ 63))

/-- Whether the partition may not yet read a byte of the scratchpad or a tile-store line: a pending operation of the
present level has it as its destination (R19, R190, R334). -/
def localPending (p : Part) (tile : Bool) (o : Nat) : Bool :=
  (p.pends ++ p.early).any fun e => e.level == p.level && p.tc < e.due &&
    e.ranges.any fun r => !r.soft && r.tile == tile && r.lo ≤ o && o < r.lo + r.n

/-- The old values that a unit of slot `unit` may still find, newest first: from before writes of other slots whose deadlines are to come
(R227, R334). Its own writes, and those whose deadline has come, it observes, with all that they follow. -/
def oldsFor (p : Part) (unit : Nat) (l : List Was) : List W128 := (l.takeWhile fun w => w.open_ p && w.slot != unit).map (·.val)

/-- A line or unit as a unit of slot `unit` reads it: as it stands, or one of the old values. -/
def pickOld (s : State) (site : Nat) (now : W128) (olds : List W128) : W128 :=
  if olds.isEmpty then now else olds.getD (Config.freeNat s.epoch site % (olds.length + 1)) now

/-- A byte of the scratchpad as the issuing partition reads it. -/
def readScratch (s : State) (o : Nat) : Byte :=
  if localPending (cur s) false o then Config.freeBits s.epoch (5000 + o) 8 else scratchByte (curCore s) o

def writeScratch (c : CoreSt) (o : Nat) (b : Byte) : CoreSt := { c with scratch := mput c.scratch o b }

def writeScratchBytes (c : CoreSt) (o : Nat) : List Byte → CoreSt
  | [] => c
  | b :: bs => writeScratchBytes (writeScratch c o b) (o + 1) bs

def scratchBytes (c : CoreSt) (o n : Nat) : List Byte := tab n fun i => scratchByte c (o + i)

/-- The layout tag of a granule; NONE at placement. -/
def tileTag (p : Part) (g : Nat) : W16 := (mget p.tags g).getD 0

end Sys2Proof.Machine
end

