-- ==== Sys2Proof/Machine/Objects.lean ====
section
/-! DEFINITION. Tensor objects: the record and its rules, the placement of elements, translation, the object lookaside
cache, the core cache, and the relocation of sub-tiles (R104 to R122, R419). -/

namespace Sys2Proof.Machine

/-- An object record (Tables 5.3 and 5.4). `rsv` holds when a reserved field is not 0. -/
structure ObjRec where
  base : Nat
  gen : Nat
  nbase : Nat
  e0 : Nat
  e1 : Nat
  e2 : Nat
  e3 : Nat
  s1 : Nat
  s2 : Nat
  s3 : Nat
  padv : Nat
  rankm1 : Nat
  layout : Nat
  fmt : Nat
  pad : Bool
  cmpr : Bool
  state : Nat
  v : Bool
  perm : Nat
  scoff : Nat
  rbmp : Nat
  rsv : Bool
  deriving DecidableEq, Repr

/-- The record that a 64-byte line holds. -/
def ObjRec.of (l : Nat) : ObjRec :=
  { base := nbits l 0 48, gen := nbits l 48 16, nbase := nbits l 64 48
    e0 := nbits l 128 32, e1 := nbits l 160 32, e2 := nbits l 192 32, e3 := nbits l 224 32
    s1 := nbits l 256 32, s2 := nbits l 288 32, s3 := nbits l 320 32, padv := nbits l 352 32
    rankm1 := nbits l 384 2, layout := nbits l 386 3, fmt := nbits l 389 4, pad := l.testBit 393
    cmpr := l.testBit 394, state := nbits l 395 2, v := l.testBit 397, perm := nbits l 400 12
    scoff := nbits l 416 32, rbmp := nbits l 448 48
    rsv := nbits l 112 16 != 0 || nbits l 398 2 != 0 || nbits l 412 4 != 0 || nbits l 496 16 != 0 }

def ceilDiv (a b : Nat) : Nat := (a + b - 1) / b

/-- Element width in bits. -/
def ObjRec.w (r : ObjRec) : Nat := storedWidth r.fmt
def ObjRec.tb (r : ObjRec) : Nat := 2048 * r.w
def ObjRec.tc (r : ObjRec) : Nat := ceilDiv r.e0 128
def ObjRec.nelem (r : ObjRec) : Nat := r.e0 * r.e1 * r.e2 * r.e3
/-- Bytes of the logical dense image (R106). -/
def ObjRec.image (r : ObjRec) : Nat := ceilDiv (r.nelem * r.w) 8
def ObjRec.isE2M1 (r : ObjRec) : Bool := r.fmt == 5
def ObjRec.isPlane (r : ObjRec) : Bool := r.layout == 4

/-- A coordinate of an object. -/
structure Coord where
  c0 : Nat
  c1 : Nat
  c2 : Nat
  c3 : Nat
  deriving DecidableEq, Repr

/-- The coordinate of a logical index (R106). -/
def ObjRec.coordOf (r : ObjRec) (li : Nat) : Coord :=
  { c0 := li % r.e0, c1 := li / r.e0 % r.e1, c2 := li / r.e0 / r.e1 % r.e2, c3 := li / r.e0 / r.e1 / r.e2 }

def ObjRec.liOf (r : ObjRec) (c : Coord) : Nat := c.c0 + r.e0 * (c.c1 + r.e1 * (c.c2 + r.e2 * c.c3))

def ObjRec.inShape (r : ObjRec) (c : Coord) : Bool := c.c0 < r.e0 && c.c1 < r.e1 && c.c2 < r.e2 && c.c3 < r.e3

/-- Offset of an element from the base, in bits (Table 5.5). Under bit-plane it is that of plane 0; plane `j` lies
16,384 bits further for each plane. -/
def ObjRec.bitOff (r : ObjRec) (c : Coord) : Nat :=
  let hi := 128 * (r.s2 * c.c2 + r.s3 * c.c3)
  let tile := hi + 128 * (r.s1 * (c.c1 / 128)) + 8 * r.tb * (c.c0 / 128)
  match r.layout with
  | 0 => r.liOf c * r.w
  | 1 => c.c0 * r.w + 128 * (r.s1 * c.c1) + hi
  | 2 => c.c1 * r.w + 128 * (r.s1 * c.c0) + hi
  | 3 => tile + (128 * (c.c1 % 128) + c.c0 % 128) * r.w
  | _ => tile + 128 * (c.c1 % 128) + c.c0 % 128

/-- Spans of Table 5.5 that the three strides must cover, in bytes. -/
def ObjRec.spans (r : ObjRec) : List Nat :=
  match r.layout with
  | 1 => [ceilDiv (r.e0 * r.w) 8, 16 * r.s1 * r.e1, 16 * r.s2 * r.e2]
  | 2 => [ceilDiv (r.e1 * r.w) 8, 16 * r.s1 * r.e0, 16 * r.s2 * r.e2]
  | _ => [r.tc * r.tb, 16 * r.s1 * ceilDiv r.e1 128, 16 * r.s2 * r.e2]

/-- Whether a stride that belongs to coordinate `c` keeps the stride rules of R109. -/
def strideOk (linear : Bool) (rankm1 c s span : Nat) : Bool :=
  if linear || rankm1 < c then s == 0 else 16 * ceilDiv span 16 ≤ 16 * s

/-- Bytes from the base to the end of the last element inside the shape. -/
def ObjRec.elemSpan (r : ObjRec) : Nat :=
  let o := r.bitOff { c0 := r.e0 - 1, c1 := r.e1 - 1, c2 := r.e2 - 1, c3 := r.e3 - 1 }
  if r.isPlane then o / 8 + 1 + 2048 * (r.w - 1) else ceilDiv (o + r.w) 8

/-- Sub-tiles of R115. -/
def ObjRec.nsub (r : ObjRec) : Nat :=
  if r.layout = 0 then ceilDiv r.image 4096 else ceilDiv r.e0 64 * ceilDiv r.e1 64 * r.e2 * r.e3

/-- The sub-tile of an element. One of 24 bits that lies across a 4,096-byte boundary of a linear object belongs with all its bytes to
that of its first byte (DESIGN CHOICE, log entry 131). -/
def ObjRec.subTile (r : ObjRec) (c : Coord) : Nat :=
  if r.layout = 0 then r.liOf c * r.w / 8 / 4096
  else c.c0 / 64 + ceilDiv r.e0 64 * (c.c1 / 64 + ceilDiv r.e1 64 * (c.c2 + r.e2 * c.c3))

/-- The alignment of BASE and NBASE. -/
def ObjRec.align (r : ObjRec) : Nat := if r.layout == 3 || r.isPlane || r.isE2M1 then 256 else 16

/-- The rules of R108 and R109. -/
def ObjRec.ok (r : ObjRec) : Bool :=
  let lin := r.layout == 0
  let sp := r.spans
  !r.rsv && r.layout ≤ 4 && r.fmt ≤ 14 && r.state ≤ 2 &&
  1 ≤ r.e0 && 1 ≤ r.e1 && 1 ≤ r.e2 && 1 ≤ r.e3 &&
  (1 ≤ r.rankm1 || r.e1 == 1) && (2 ≤ r.rankm1 || r.e2 == 1) && (3 ≤ r.rankm1 || r.e3 == 1) &&
  strideOk lin r.rankm1 (if r.layout == 2 then 0 else 1) r.s1 (sp.getD 0 0) &&
  strideOk lin r.rankm1 2 r.s2 (sp.getD 1 0) && strideOk lin r.rankm1 3 r.s3 (sp.getD 2 0) &&
  r.image < 2 ^ 44 && r.base % r.align == 0 && r.nbase % r.align == 0 && (r.state == 1 || r.nbase == 0) &&
  (!r.isPlane || r.w == 4 || r.w == 8 || r.w == 16) &&
  (if r.isE2M1 then r.rankm1 ≤ 2 && (r.layout == 1 || 3 ≤ r.layout) && r.elemSpan ≤ 256 * r.scoff && nbits r.padv 4 4 == 0
   else r.scoff == 0 && (32 ≤ r.w || r.padv < 2 ^ r.w)) &&
  (r.rbmp == 0 || (r.rbmp % 64 == 0 && r.rbmp + ceilDiv r.nsub 4 ≤ hbmTop))

/-- The handle-table descriptor of a queue (Table 5.2). -/
structure Tab where
  tbase : Nat
  tlen : Nat
  ctx : Nat
  relocok : Bool
  deriving DecidableEq, Repr

def tabOf (s : State) (q : Nat) : Tab :=
  let x := peekNat s (queueAddr s q + 8) 16
  { tbase := nbits x 0 48, tlen := nbits x 64 21, ctx := nbits x 96 12, relocok := x.testBit 108 }

/-- The number under which the caches of the I/O die stand beside those of the cores (R118). -/
def ioDie : Nat := 128

/-- Fault codes of Table 8.8. -/
def oInvalid : Nat := 1
def oMalformed : Nat := 2
def oPerm : Nat := 3
def oLayout : Nat := 4
def oAlign : Nat := 5
def oShape : Nat := 6
def oAbsent : Nat := 7
def oBase : Nat := 8

def olcFind (l : List OlcEntry) (ctx h : Nat) : Option OlcEntry := l.find? fun e => e.ctx == ctx && e.handle == h

/-- The line of a record as a translation uses it (R118, R419): cached, for as long as the cache keeps it, or read from
memory and then cached. A line whose sector fails its check values twice is not used. -/
def recLine (s : State) (core : Nat) (t : Tab) (h : Nat) : State × Option Nat :=
  let c := getCore s core
  let now := BitVec.ofNat 512 (peekNat s (t.tbase + 64 * h) 64)
  let hit := match olcFind c.olc t.ctx h with
    | some e => if e.line != now && Config.freeBool s.epoch 601 then none else some e.line.toNat
    | none => none
  match hit with
  | some l => (s, some l)
  | none =>
    let a := t.tbase + 64 * h
    let s := touchRead s a 64
    if poisonedAt s a 64 then (addEvent s { code := 0x10, loc := a / 256, detail := [] }, none)
    else
      let l := peekNat s a 64
      let others := c.olc.filter fun e => !(e.ctx == t.ctx && e.handle == h)
      let kept := if others.length < 64 then others else others.drop 1
      (setCore s core { c with olc := kept ++ [{ ctx := t.ctx, handle := h, line := BitVec.ofNat 512 l }] }, some l)

/-- The first steps of R116: the record of a handle, or the fault code. -/
def findRec (s : State) (core : Nat) (t : Tab) (h : Nat) : State × Except Nat ObjRec :=
  if h = 0 || t.tlen ≤ h then (s, .error oInvalid)
  else
    let (s, l) := recLine s core t h
    match l with
    | none => (s, .error oMalformed)
    | some l =>
      let r := ObjRec.of l
      if !r.v || r.state = 2 then (s, .error oInvalid)
      else if !r.ok then (s, .error oMalformed)
      else (s, .ok r)

/-- Access classes of Table 5.7, as the number of their read bit in PERM. -/
def clsScalar : Nat := 0
def clsVector : Nat := 2
def clsCopy : Nat := 4
def clsMatrix : Nat := 6
def clsHost : Nat := 8
def clsPeer : Nat := 10

/-- What an access does (R113). -/
structure Kind where
  cls : Nat
  rd : Bool
  wr : Bool
  deriving DecidableEq, Repr

def ObjRec.permits (r : ObjRec) (k : Kind) : Bool :=
  (!k.rd || r.perm.testBit k.cls) && (!k.wr || r.perm.testBit (k.cls + 1))

/-- RES and MOV of a sub-tile, read through the shelf cache (R115); none when their byte fails its check values. -/
def resMov (s : State) (r : ObjRec) (n : Nat) : State × Option (Bool × Bool) :=
  let a := r.rbmp + n / 4
  let s := touchRead s a 1
  if poisonedAt s a 1 then (addEvent s { code := 0x10, loc := a / 256, detail := [] }, none)
  else
    let b := peekNat s a 1
    (s, some (b.testBit (2 * (n % 4)), b.testBit (2 * (n % 4) + 1)))

/-! Bits of memory. -/

/-- One bit of device memory. -/
def peekBit (s : State) (ba : Nat) : Bool := (peek s (ba / 8)).getLsbD (ba % 8)

/-- `n` bits of device memory from a bit address, within a byte or in whole bytes. -/
def peekBits (s : State) (ba n : Nat) : Nat :=
  if n % 8 = 0 then peekNat s (ba / 8) (n / 8) else nbits (peek s (ba / 8)).toNat (ba % 8) n

/-- Writes `n` bits at a bit address, within a byte or in whole bytes. -/
def pokeBits (s : State) (ba n x : Nat) (cls : TrafficClass) (cmpr : Bool) (fmt : Nat) : State :=
  if n % 8 = 0 then writeMem s (ba / 8) (toBytes x (n / 8)) cls cmpr fmt
  else
    let s := touchRead s (ba / 8) 1
    let old := (peek s (ba / 8)).toNat
    let new := old - nbits old (ba % 8) n * 2 ^ (ba % 8) + x % 2 ^ n * 2 ^ (ba % 8)
    writeMem s (ba / 8) [BitVec.ofNat 8 new] cls cmpr fmt

/-- The code of an element at the bit address of its bit 0, gathered from its planes under bit-plane. -/
def peekElem (s : State) (r : ObjRec) (ba : Nat) : Nat :=
  if r.isPlane then (List.range r.w).foldl (fun x j => if peekBit s (ba + 16384 * j) then x + 2 ^ j else x) 0
  else peekBits s ba r.w

/-- Marks bits of bytes to be written: by address, the value and the mask of a byte. -/
def putBits (m : TMap (Nat × Nat)) (ba n x : Nat) : TMap (Nat × Nat) :=
  (List.range ((ba + n + 7) / 8 - ba / 8)).foldl (fun m i =>
    let a := ba / 8 + i
    let lo := max ba (8 * a)
    let k := min (ba + n) (8 * a + 8) - lo
    let old := (mget m a).getD (0, 0)
    let mask := (2 ^ k - 1) * 2 ^ (lo - 8 * a)
    mput m a ((old.1 &&& (255 - mask)) + nbits x (lo - ba) k * 2 ^ (lo - 8 * a), old.2 ||| mask)) m

/-- The bits of an element, at the bit address of its bit 0, as places with their values. -/
def elemBits (r : ObjRec) (ba x : Nat) : List (Nat × Nat × Nat) :=
  if r.isPlane then tab r.w fun j => (ba + 16384 * j, 1, x / 2 ^ j % 2) else [(ba, r.w, x)]

/-- Writes elements of an object, each at the bit address of its bit 0: bytes that stand together are written together, as the
layout unit hands them to the memory-side buffer (R92). -/
def writeElems (s : State) (r : ObjRec) (cls : TrafficClass) (es : List (Nat × Nat)) : State :=
  let m := (es.flatMap fun e => elemBits r e.1 e.2).foldl (fun m q => putBits m q.1 q.2.1 q.2.2) ([] : TMap (Nat × Nat))
  let ws := m.map fun e : Nat × (Nat × Nat) =>
    ({ join := true, atom := false, scratch := false, addr := e.1, val := BitVec.ofNat 8 e.2.1, mask := BitVec.ofNat 8 e.2.2, cmpr := r.cmpr
       fmt := r.fmt } : DefWrite)
  (writeRuns ws).foldl (writeRun cls) s

/-- The keys of a sparse store. -/
def mkeys {α : Type} (m : TMap α) : List Nat := m.map (·.1)

/-- Reads the blocks of device memory that hold the given byte addresses: each chunk of HBM once, each line elsewhere. -/
def touchAll (s : State) (addrs : List Nat) : State :=
  let hbm := mkeys ((addrs.filter (· < hbmTop)).foldl (fun m a => mput m (a / 2048) ()) ([] : TMap Unit))
  let io := mkeys ((addrs.filter (hbmTop ≤ ·)).foldl (fun m a => mput m (a / 64) ()) ([] : TMap Unit))
  io.foldl (fun s l => touchRead s (64 * l) 64) (hbm.foldl touchChunk s)

/-- The bytes that an element touches, as runs. -/
def elemRuns (r : ObjRec) (ba : Nat) : List (Nat × Nat) :=
  if r.isPlane then tab r.w fun j => ((ba + 16384 * j) / 8, 1) else [(ba / 8, (ba % 8 + r.w + 7) / 8)]

/-- The byte addresses that an element touches. -/
def elemAddrs (r : ObjRec) (ba : Nat) : List Nat := (elemRuns r ba).flatMap fun q => tab q.2 fun i => q.1 + i

/-- Whether an element's stored bytes lie in a poisoned sector. -/
def elemPoison (s : State) (r : ObjRec) (ba : Nat) : Bool := (elemRuns r ba).any fun q => poisonedAt s q.1 q.2

/-- Makes the stored bytes of elements fail, whose data has failed: each sector is reported once (R119). -/
def failElems (s : State) (r : ObjRec) (places : List Nat) : State :=
  let runs := places.flatMap (elemRuns r)
  let s := runs.foldl (fun s q => failBytes s q.1 q.2) s
  let secs := mkeys (runs.foldl (fun m q => mput (mput m (q.1 / 256) ()) ((q.1 + q.2 - 1) / 256) ()) ([] : TMap Unit))
  secs.foldl (fun s k => addEvent s { code := 0x07, loc := k, detail := [] }) s

/-- Whether an element's stored bytes all lie in a populated region. -/
def elemPopulated (s : State) (r : ObjRec) (ba : Nat) : Bool := (elemAddrs r ba).all (populated s)

/-! Scales of E2M1 objects (R111, Table 5.6). -/

/-- Offset of the scale record of an element's tile from the base. -/
def ObjRec.scaleOff (r : ObjRec) (c : Coord) : Nat :=
  256 * r.scoff + 2304 * (c.c0 / 128 + r.tc * (c.c1 / 128 + ceilDiv r.e1 128 * c.c2))

def ObjRec.blockOff (r : ObjRec) (c : Coord) : Nat := r.scaleOff c + 16 * (c.c1 % 128) + c.c0 % 128 / 8
def ObjRec.bandOff (r : ObjRec) (c : Coord) : Nat := r.scaleOff c + 0x800 + 2 * (c.c1 % 128 / 64)

/-! Relocation (R119, R120). -/

/-- Coordinates of the elements of a sub-tile that lie inside the shape, in ascending order. -/
def ObjRec.subCoords (r : ObjRec) (n : Nat) : List Coord :=
  if r.layout = 0 then
    let lo := ceilDiv (n * 32768) r.w
    let hi := min r.nelem (ceilDiv ((n + 1) * 32768) r.w)
    tab (hi - lo) fun i => r.coordOf (lo + i)
  else
    let su := ceilDiv r.e0 64
    let sv := ceilDiv r.e1 64
    (List.range 4096).filterMap fun i =>
      let c : Coord := { c0 := n % su * 64 + i % 64, c1 := n / su % sv * 64 + i / 64, c2 := n / su / sv % r.e2
                         c3 := n / su / sv / r.e2 }
      if r.inShape c then some c else none

/-- Moves `n` bytes of stored data; a sector that fails its check values makes the destination's fail too (R119). -/
def moveBytes (s : State) (src dst n : Nat) (r : ObjRec) : State :=
  let s := touchRead s src n
  let bad := poisonedAt s src n
  let s := writeMem s dst (peekBytes s src n) .objects r.cmpr r.fmt
  if bad then addEvent (failBytes s dst n) { code := 0x07, loc := dst / 256, detail := [] } else s

/-- Moves elements from under BASE to under NBASE, read with merging and verification. -/
def moveElems (s : State) (r : ObjRec) (cs : List Coord) : State :=
  let src (c : Coord) : Nat := 8 * r.base + r.bitOff c
  let dst (c : Coord) : Nat := 8 * r.nbase + r.bitOff c
  let s := touchAll s (cs.flatMap fun c => elemAddrs r (src c))
  let bad := (cs.filter fun c => elemPoison s r (src c)).map dst
  failElems (writeElems s r .objects (cs.map fun c => (dst c, peekElem s r (src c)))) r bad

/-- Moves the scales that belong to resident elements of an E2M1 pair: each block scale, and the band scale. -/
def moveScales (s : State) (r : ObjRec) (cs : List Coord) : State :=
  let s := (cs.filter fun c => c.c0 % 8 = 0).foldl
    (fun s c => moveBytes s (r.base + r.blockOff c) (r.nbase + r.blockOff c) 1 r) s
  match cs with
  | [] => s
  | c :: _ => moveBytes s (r.base + r.bandOff c) (r.nbase + r.bandOff c) 2 r

/-- Sub-tiles that move as one unit with `n` (R119): a pair for E2M1. -/
def ObjRec.unitOf (r : ObjRec) (n : Nat) : List Nat :=
  if r.isE2M1 then
    let su := ceilDiv r.e0 64
    let b := n - n % su % 2
    if b % su + 1 < su then [b, b + 1] else [b]
  else [n]

/-- Sets the MOV bit of a sub-tile. -/
def setMov (s : State) (r : ObjRec) (n : Nat) (b : Bool) : State :=
  pokeBits s (8 * r.rbmp + 2 * n + 1) 1 (if b then 1 else 0) .objects false 0

/-- RES of the sub-tiles of a unit; none when a byte of the bitmap fails its check values (R419). -/
def resOf (s : State) (r : ObjRec) : List Nat → State × Option (List (Nat × Bool))
  | [] => (s, some [])
  | m :: ms =>
    let (s, rm) := resMov s r m
    match rm with
    | none => (s, none)
    | some (res, _) =>
      let (s, l) := resOf s r ms
      (s, l.map ((m, res) :: ·))

/-- Copies the unit of a COPYING sub-tile and sets MOV (R119 step 2). The second component counts the bits copied; it is none when
the bitmap fails its check values. -/
def copyUnit (s : State) (r : ObjRec) (n : Nat) : State × Option Nat :=
  let (s, l) := resOf s r (r.unitOf n)
  match l with
  | none => (s, none)
  | some l =>
    let cs := (l.filter (·.2)).flatMap fun m => r.subCoords m.1
    let s := moveElems s r cs
    let s := if r.isE2M1 then moveScales s r cs else s
    let scales := if r.isE2M1 && !cs.isEmpty then 8 * (cs.filter fun c => c.c0 % 8 = 0).length + 16 else 0
    ((r.unitOf n).foldl (fun s m => setMov s r m true) s, some (cs.length * r.w + scales))

/-- The record by which the relocation engine moves an object (R119): the one that RELOC was accepted with, and no later write of
software to it (R118, R8). -/
def Reloc.obj (x : Reloc) : ObjRec := { ObjRec.of x.line.toNat with nbase := x.nbase, state := 1 }

/-- The relocation slot that moves the object of a table record at the given address. -/
def relocOf (s : State) (rbmp nbase : Nat) : Option (Nat × Reloc) :=
  s.relocs.find? fun e => e.2.rbmp == rbmp && e.2.nbase == nbase

/-- The next sub-tile to be visited after a unit. -/
def ObjRec.nextSub (r : ObjRec) (n : Nat) : Nat := (r.unitOf n).foldl (fun m k => max m (k + 1)) (n + 1)

/-- Carries out the copy of the sub-tile that a relocation slot has marked COPYING. One whose bitmap fails stays COPYING: its
relocation ends when the engine comes to it. -/
def relocAdvance (s : State) (slot : Nat) (x : Reloc) : State :=
  if x.copying then
    let (s, k) := copyUnit s x.obj x.next
    match k with
    | some k => { s with relocs := mput s.relocs slot { x with next := x.obj.nextSub x.next, copying := false, moved := x.moved + k } }
    | none => s
  else s

/-- A write translated while its sub-tile is COPYING waits until MOV is 1 (R116, R120): the wait is carried out here by
letting the engine finish the sub-tile, after which the write goes to the new location. The engine marks a sub-tile only when no
write translated to its old location is pending, so that the copy holds every one of them (log entry 103). -/
def awaitCopying (s : State) (r : ObjRec) (n : Nat) : State :=
  match relocOf s r.rbmp r.nbase with
  | some (slot, x) => if x.copying && (x.obj.unitOf x.next).contains n then relocAdvance s slot x else s
  | none => s

/-- The base of an element inside the shape: residency and MOV (R116). -/
def baseFor (s : State) (r : ObjRec) (n : Nat) (wr : Bool) : State × Except Nat Nat :=
  if r.rbmp = 0 then (s, .ok r.base)
  else
    let (s, rm) := resMov s r n
    match rm with
    | none => (s, .error oMalformed)
    | some (res, mov) =>
      if !res then (s, .error oAbsent)
      else if r.state = 1 then
        if mov then (s, .ok r.nbase)
        else if wr then
          let s := awaitCopying s r n
          let (s, rm) := resMov s r n
          (s, .ok (if (rm.map (·.2)).getD false then r.nbase else r.base))
        else (s, .ok r.base)
      else (s, .ok r.base)

/-- Where one element lies. -/
inductive ElemAt where
  | pad
  | at (bitAddr : Nat)
  deriving DecidableEq, Repr

/-- The steps of R116 that depend on the element. -/
def xlateElem (s : State) (r : ObjRec) (c : Coord) (wr : Bool) : State × Except Nat ElemAt :=
  if !r.inShape c then (s, if r.pad then .ok .pad else .error oShape)
  else
    let (s, b) := baseFor s r (r.subTile c) wr
    match b with
    | .error e => (s, .error e)
    | .ok base =>
      let ba := 8 * base + r.bitOff c
      if elemPopulated s r ba then (s, .ok (.at ba)) else (s, .error oBase)

/-- PADV[w−1:0] (R114). The record states 32 bits; above them the spec states none (log entry 9). -/
def ObjRec.padCode (r : ObjRec) : Nat :=
  if 32 < r.w then r.padv + 2 ^ 32 * (Config.freeBits 0 602 32).toNat else r.padv % 2 ^ r.w

/-! Scalar and vector accesses: logical bytes. -/

/-- A fault of a scalar or vector access: its code and TADDR. -/
structure ObjFault where
  code : Nat
  taddr : W64
  deriving DecidableEq, Repr

def objAddr (h lofs : Nat) : W64 := BitVec.ofNat 64 (h * 2 ^ 44 + lofs % 2 ^ 44)

/-- Bits `[lo+3:lo]` of an element stored at a bit address. -/
def nibAt (r : ObjRec) (ba lo : Nat) : Nib :=
  if r.isPlane then .planes (ba + 16384 * lo) else .mem ((ba + lo) / 8) ((ba + lo) % 8 = 4)

/-- The nibble of an element of width 4. -/
def nibOf (s : State) (r : ObjRec) (li : Nat) (wr : Bool) : State × Except Nat Nib :=
  if r.nelem ≤ li then (s, if r.pad then .ok (.pad (r.padv % 16)) else .error oShape)
  else
    let (s, e) := xlateElem s r (r.coordOf li) wr
    (s, match e with
      | .error c => .error c
      | .ok .pad => .ok (.pad (r.padv % 16))
      | .ok (.at ba) => .ok (nibAt r ba 0))

/-- One logical byte of an object. The upper half of the last byte of an odd number of 4-bit elements belongs to no element: it reads
as pad, and a write of it is discarded, under FAULT too (log entry 104). -/
def logicalByte (s : State) (r : ObjRec) (h u : Nat) (wr : Bool) : State × Except ObjFault LByte :=
  if r.w = 4 then
    let (s, a) := nibOf s r (2 * u) wr
    match a with
    | .error c => (s, .error { code := c, taddr := objAddr h u })
    | .ok lo =>
      if r.nelem ≤ 2 * u + 1 then (s, .ok { lo := lo, hi := .pad (r.padv % 16) })
      else
        let (s, b) := nibOf s r (2 * u + 1) wr
        match b with
        | .error c => (s, .error { code := c, taddr := objAddr h u })
        | .ok hi => (s, .ok { lo := lo, hi := hi })
  else
    let n := r.w / 8
    let pad : LByte :=
      let x := nbits r.padCode (8 * (u % n)) 8
      { lo := .pad (x % 16), hi := .pad (x / 16) }
    if r.nelem ≤ u / n then
      (s, if r.pad then .ok pad else .error { code := oShape, taddr := objAddr h (u / n * n) })
    else
      let (s, e) := xlateElem s r (r.coordOf (u / n)) wr
      (s, match e with
        | .error c => .error { code := c, taddr := objAddr h (u / n * n) }
        | .ok .pad => .ok pad
        | .ok (.at ba) => .ok { lo := nibAt r ba (8 * (u % n)), hi := nibAt r ba (8 * (u % n) + 4) })

def logicalBytes (s : State) (r : ObjRec) (h u : Nat) (wr : Bool) : Nat → State × Except ObjFault (List LByte)
  | 0 => (s, .ok [])
  | n + 1 =>
    let (s, b) := logicalByte s r h u wr
    match b with
    | .error e => (s, .error e)
    | .ok b =>
      let (s, l) := logicalBytes s r h (u + 1) wr n
      match l with
      | .error e => (s, .error e)
      | .ok l => (s, .ok (b :: l))

/-- The logical bytes of a scalar access of `n` bytes at a LOFS that must be a multiple of `al`, all translated before any
is performed (R116, R117). TADDR of OBJ_ALIGN, which R117 does not list among the causes of the whole access, is the address of the access
(DESIGN CHOICE, log entry 130). -/
def xlateAl (s : State) (core q : Nat) (oaddr : W64) (n al : Nat) (k : Kind) :
    State × Except ObjFault (ObjRec × List LByte) :=
  let h := oaddr.toNat / 2 ^ 44
  let lofs := oaddr.toNat % 2 ^ 44
  let (s, r) := findRec s core (tabOf s q) h
  match r with
  | .error c => (s, .error { code := c, taddr := oaddr })
  | .ok r =>
    if !r.permits k then (s, .error { code := oPerm, taddr := oaddr })
    else if r.isPlane && k.cls < clsCopy then (s, .error { code := oLayout, taddr := oaddr })
    else if lofs % al ≠ 0 then (s, .error { code := oAlign, taddr := oaddr })
    else
      let (s, l) := logicalBytes s r h lofs k.wr n
      match l with
      | .error e => (s, .error (if e.code = oMalformed then { e with taddr := oaddr } else e))
      | .ok l => (s, .ok (r, l))

def xlateSV (s : State) (core q : Nat) (oaddr : W64) (n : Nat) (k : Kind) : State × Except ObjFault (ObjRec × List LByte) :=
  xlateAl s core q oaddr n n k

/-! The core cache (R221, R239). -/

/-- Whether the core cache may hold the line of an address: HBM and annex only. -/
def cacheable (a : Nat) : Bool := a < hostBase

/-- Fills a line of the core cache from the shelf cache and beyond. -/
def fillLine (s : State) (core line : Nat) : State :=
  let s := touchRead s (64 * line) 64
  let c := getCore s core
  let cap := (c.b3 - c.b2) / 64
  if cap = 0 || !cacheable (64 * line) then s
  else
    let x : CacheLine := { data := BitVec.ofNat 512 (peekNat s (64 * line) 64), poison := poisonedAt s (64 * line) 64
                           filled := s.clock }
    let kept := if c.cache.length < cap || (mget c.cache line).isSome then c.cache else c.cache.drop 1
    setCore s core { c with cache := mput kept line x }

/-- Makes ready the line of an access at a scope: a read at CORE may be served from a line that the cache still holds;
every other read goes through it and refreshes it. A line 65,536 clocks old serves nothing (R239, R251). -/
def readyLine (s : State) (core scope line : Nat) : State :=
  match mget (getCore s core).cache line with
  | some l =>
    if scope = 0 && s.clock < l.filled + 65536 && (l.data == BitVec.ofNat 512 (peekNat s (64 * line) 64) || !Config.freeBool s.epoch (700 + line)) then s
    else fillLine s core line
  | none => fillLine s core line

/-- A byte as a read of the core finds it after its line has been made ready, with its poison. -/
def lineByte (s : State) (core a : Nat) : Byte × Bool :=
  match mget (getCore s core).cache (a / 64) with
  | some l => (BitVec.ofNat 8 (l.data.toNat / 2 ^ (8 * (a % 64))), l.poison)
  | none => (peek s a, poisonedAt s a 1)

def nibValue (s : State) (core : Nat) (x : Nib) : Nat × Bool :=
  match x with
  | .pad v => (v, false)
  | .mem a high =>
    let b := lineByte s core a
    (if high then b.1.toNat / 16 else b.1.toNat % 16, b.2)
  | .planes _ => (x.peek s, (x.bytes.any fun a => poisonedAt s a 1))

/-- Reads the logical bytes of an S or V access at a scope: their values and their poison. -/
def readSV (s : State) (core scope : Nat) (l : List LByte) : State × List (Byte × Bool) :=
  let s := (linesOf l).foldl (fun s n => readyLine s core scope n) s
  (s, l.map fun b =>
    let lo := nibValue s core b.lo
    let hi := nibValue s core b.hi
    (BitVec.ofNat 8 (lo.1 + 16 * hi.1), lo.2 || hi.2))

/-- The deferred writes of one logical byte (R106, R236). Padding is discarded (R114). -/
def writeNibs (r : ObjRec) (b : LByte) (x : Byte) : List DefWrite :=
  let mk (n : Nib) (v : Nat) : List DefWrite :=
    match n with
    | .pad _ => []
    | .mem a high =>
      [{ join := true, atom := false, scratch := false, addr := a, val := BitVec.ofNat 8 (if high then v * 16 else v), mask := if high then 0xF0 else 0x0F
         cmpr := r.cmpr, fmt := r.fmt }]
    | .planes ba => tab 4 fun j =>
      { join := true, atom := false, scratch := false, addr := (ba + 16384 * j) / 8, val := BitVec.ofNat 8 (v / 2 ^ j % 2 * 2 ^ (ba % 8))
        mask := BitVec.ofNat 8 (2 ^ (ba % 8)), cmpr := r.cmpr, fmt := r.fmt }
  match b.lo, b.hi with
  | .mem a false, .mem a' true =>
    if a = a' then [{ join := true, atom := false, scratch := false, addr := a, val := x, mask := 255, cmpr := r.cmpr, fmt := r.fmt }]
    else mk b.lo (x.toNat % 16) ++ mk b.hi (x.toNat / 16)
  | _, _ => mk b.lo (x.toNat % 16) ++ mk b.hi (x.toNat / 16)

/-- Defers the writes of an S or V access to the end of the bundle issue. -/
def deferSV (s : State) (r : ObjRec) (l : List LByte) (xs : List Byte) : State :=
  let ws := match (List.zip l xs).flatMap fun p => writeNibs r p.1 p.2 with
    | [] => []
    | w :: ws => { w with join := false } :: ws
  { s with iss := { s.iss with writes := s.iss.writes ++ ws } }

/-! Copy-class, matrix-class, host-class and peer-class accesses. -/

/-- The record of a handle for an access of a class, with its permission (R116 down to OBJ_PERM). -/
def recFor (s : State) (core q h : Nat) (k : Kind) : State × Except Nat ObjRec :=
  let (s, r) := findRec s core (tabOf s q) h
  match r with
  | .error e => (s, .error e)
  | .ok r => if r.permits k then (s, .ok r) else (s, .error oPerm)

/-- Device address of the stored bytes of logical bytes that form one word aligned to `al` (R242). -/
def wordAddr (l : List LByte) (al : Nat) : Option Nat :=
  match l with
  | { lo := .mem a false, hi := .mem _ true } :: _ =>
    if a % al = 0 &&
       (List.zip (List.range l.length) l).all (fun p => p.2 == { lo := .mem (a + p.1) false, hi := .mem (a + p.1) true })
    then some a else none
  | _ => none

def isPadNib (x : Nib) : Bool :=
  match x with
  | .pad _ => true
  | _ => false

/-- The word of an atomic or of a queue header: every byte inside the shape, and the stored bytes one aligned word (R242). -/
def xlateWord (s : State) (core q : Nat) (oaddr : W64) (n al wal : Nat) (k : Kind) : State × Except ObjFault (ObjRec × Nat) :=
  let (s, x) := xlateAl s core q oaddr n al k
  match x with
  | .error e => (s, .error e)
  | .ok (r, l) =>
    match l.findIdx? fun b => isPadNib b.lo || isPadNib b.hi with
    | some i =>
      let u := (oaddr.toNat + i) % 2 ^ 44
      let g := max 1 (r.w / 8)
      (s, .error { code := oShape, taddr := objAddr (oaddr.toNat / 2 ^ 44) (u / g * g) })
    | none =>
      match wordAddr l wal with
      | some a => (s, .ok (r, a))
      | none => (s, .error { code := oAlign, taddr := oaddr })

end Sys2Proof.Machine
end

