-- ==== Sys2Proof/Machine/Flags.lean ====
section
/-! DEFINITION. Flag and condition computations: the conditions of Table 11.6, the sticky flags of FPCTL under a
conversion (R43, R44), and elementwise conversion with one overflow trap for the whole syllable (R42). -/

namespace Sys2Proof.Machine

/-- The condition of Table 11.6 on `n`-bit values. -/
def condHolds (c n a b : Nat) : Bool :=
  match c with
  | 0 => a == b
  | 1 => a != b
  | 2 => toSigned a n < toSigned b n
  | 3 => toSigned b n ≤ toSigned a n
  | 4 => toSigned a n ≤ toSigned b n
  | 5 => toSigned b n < toSigned a n
  | 6 => a < b
  | 7 => b ≤ a
  | 8 => a ≤ b
  | 9 => b < a
  | 10 => a &&& b != 0
  | _ => a &&& b == 0

/-- What the elements of a syllable give together: their codes, the flags of all, and whether any of them overflowed
under TRAP, in which case nothing is written (R42). -/
structure Elems where
  codes : List Nat
  flags : Flags
  trap : Bool
  deriving DecidableEq, Repr

/-- Collects converted elements. -/
def collect : List Conv → Elems
  | [] => { codes := [], flags := 0, trap := false }
  | c :: cs =>
    let r := collect cs
    { codes := c.code :: r.codes, flags := c.flags ||| r.flags, trap := c.trap || r.trap }

/-- An element that keeps its code. -/
def keepConv (code : Nat) : Conv := convOk code

/-- A rounded floating result, with NV when the operation was invalid (R286). -/
def roundFloat (fmt : Nat) (mode : RMode) (pol : Policy) (x : Num × Bool) : Conv :=
  let c := convert x.1 fmt mode pol
  if x.2 then { c with flags := c.flags ||| flagNV } else c

end Sys2Proof.Machine
end

