-- ==== Sys2Proof/Machine/Scalar.lean ====
section
/-! DEFINITION. SCOPE, NOP, the integer ALU and the moves (R61, R62, R258 to R260, Table 11.3). -/

namespace Sys2Proof.Machine

/-- Operand width that FN[0] selects (R258). -/
def aluWidth (fn : BitVec 2) : Nat := if fn.getLsbD 0 then 32 else 64

/-- Operand B: the immediate sign-extended, never poisoned, or the register (R57, R259). -/
def aluB (s : State) (f : SA) : W64 × Bool :=
  match f.x with
  | some imm => (imm.signExtend 64, false)
  | none => readS s f.b

/-- The value of `n` bits as FN[1] interprets it. -/
def asInt (unsigned : Bool) (n x : Nat) : Int := if unsigned then (x % 2 ^ n : Nat) else toSigned x n

/-- An n-bit result as it is written: zero-extended or sign-extended from 32 bits by FN[1] (R259). -/
def aluExtend (unsigned : Bool) (n r : Nat) : W64 :=
  if n = 32 && !unsigned then BitVec.ofInt 64 (toSigned r 32) else BitVec.ofNat 64 (r % 2 ^ n)

/-- The effect of every ALU instruction (R259), with the exact operation of Table 11.3 on `unsigned n a b`, where `a`
and `b` are n-bit values. -/
def aluBody (i : Instr) (f : SA) (lat : Nat) (op : Bool → Nat → Nat → Nat → Int) (s : State) : Except TrapReq State :=
  let a := readS s f.a
  let b := aluB s f
  let n := aluWidth f.fn
  let u := f.fn.getLsbD 1
  let r := ofInt (op u n (a.1.toNat % 2 ^ n) (b.1.toNat % 2 ^ n)) n
  .ok (resultS i lat f.d (aluExtend u n r) (a.2 || b.2) s)

def opAdd (_u : Bool) (_n a b : Nat) : Int := (a + b : Nat)
def opSub (_u : Bool) (_n a b : Nat) : Int := (a : Int) - b
def opMul (_u : Bool) (_n a b : Nat) : Int := (a * b : Nat)
def opMulh (u : Bool) (n a b : Nat) : Int := (asInt u n a * asInt u n b) / (2 ^ n : Nat)
/-- Rounded toward zero; a divisor of 0 gives all ones (Table 11.3). -/
def opDiv (u : Bool) (n a b : Nat) : Int := if b = 0 then -1 else (asInt u n a).tdiv (asInt u n b)
def opRem (u : Bool) (n a b : Nat) : Int :=
  if b = 0 then asInt u n a else asInt u n a - asInt u n b * (asInt u n a).tdiv (asInt u n b)
def opAnd (_u : Bool) (_n a b : Nat) : Int := (a &&& b : Nat)
def opOr (_u : Bool) (_n a b : Nat) : Int := (a ||| b : Nat)
def opXor (_u : Bool) (_n a b : Nat) : Int := (a ^^^ b : Nat)
def opAndn (_u : Bool) (n a b : Nat) : Int := (a &&& (2 ^ n - 1 - b) : Nat)
def opOrn (_u : Bool) (n a b : Nat) : Int := (a ||| (2 ^ n - 1 - b) : Nat)
/-- The shift amount: b[5:0], or b[4:0] when n = 32. -/
def shAmount (n b : Nat) : Nat := b % n
def opShl (_u : Bool) (n a b : Nat) : Int := (a <<< shAmount n b : Nat)
def opShr (_u : Bool) (n a b : Nat) : Int := (a >>> shAmount n b : Nat)
def opSar (_u : Bool) (n a b : Nat) : Int := toSigned a n / (2 ^ shAmount n b : Nat)
def opRol (_u : Bool) (n a b : Nat) : Int := (a <<< shAmount n b ||| a >>> (n - shAmount n b) : Nat)
def opMin (u : Bool) (n a b : Nat) : Int := min (asInt u n a) (asInt u n b)
def opMax (u : Bool) (n a b : Nat) : Int := max (asInt u n a) (asInt u n b)
def boolInt (b : Bool) : Int := if b then 1 else 0
def opCmpeq (_u : Bool) (_n a b : Nat) : Int := boolInt (a == b)
def opCmpne (_u : Bool) (_n a b : Nat) : Int := boolInt (a != b)
def opCmplt (u : Bool) (n a b : Nat) : Int := boolInt (asInt u n a < asInt u n b)
def opCmple (u : Bool) (n a b : Nat) : Int := boolInt (asInt u n a ≤ asInt u n b)
def opPopc (_u : Bool) (n a b : Nat) : Int := (popc (a &&& b) n : Nat)


/-- SCOPE (R61): the memory syllables of the same bundle issue are made at the named scope. -/
def execScope (f : PS) (s : State) : Out :=
  runSyl (.scope f) (fun s => .ok { s with iss := { s.iss with scope := f.sc } }) s

/-- NOP (R62): nothing but the clearing of its slot's sticky register, which its commit makes. -/
def execNop (c : SlotClass) (s : State) : Out := runSyl (.nop c) .ok s

def execAdd (f : SA) (s : State) : Out := runSyl (.add f) (aluBody (.add f) f 1 opAdd) s
def execSub (f : SA) (s : State) : Out := runSyl (.sub f) (aluBody (.sub f) f 1 opSub) s
def execMul (f : SA) (s : State) : Out := runSyl (.mul f) (aluBody (.mul f) f 3 opMul) s
def execMulh (f : SA) (s : State) : Out := runSyl (.mulh f) (aluBody (.mulh f) f 3 opMulh) s
def execDiv (f : SA) (s : State) : Out := runSyl (.div f) (aluBody (.div f) f 20 opDiv) s
def execRem (f : SA) (s : State) : Out := runSyl (.rem f) (aluBody (.rem f) f 20 opRem) s
def execAnd (f : SA) (s : State) : Out := runSyl (.and f) (aluBody (.and f) f 1 opAnd) s
def execOr (f : SA) (s : State) : Out := runSyl (.or f) (aluBody (.or f) f 1 opOr) s
def execXor (f : SA) (s : State) : Out := runSyl (.xor f) (aluBody (.xor f) f 1 opXor) s
def execAndn (f : SA) (s : State) : Out := runSyl (.andn f) (aluBody (.andn f) f 1 opAndn) s
def execOrn (f : SA) (s : State) : Out := runSyl (.orn f) (aluBody (.orn f) f 1 opOrn) s
def execShl (f : SA) (s : State) : Out := runSyl (.shl f) (aluBody (.shl f) f 1 opShl) s
def execShr (f : SA) (s : State) : Out := runSyl (.shr f) (aluBody (.shr f) f 1 opShr) s
def execSar (f : SA) (s : State) : Out := runSyl (.sar f) (aluBody (.sar f) f 1 opSar) s
def execRol (f : SA) (s : State) : Out := runSyl (.rol f) (aluBody (.rol f) f 1 opRol) s
def execMin (f : SA) (s : State) : Out := runSyl (.min f) (aluBody (.min f) f 1 opMin) s
def execMax (f : SA) (s : State) : Out := runSyl (.max f) (aluBody (.max f) f 1 opMax) s
def execCmpeq (f : SA) (s : State) : Out := runSyl (.cmpeq f) (aluBody (.cmpeq f) f 1 opCmpeq) s
def execCmpne (f : SA) (s : State) : Out := runSyl (.cmpne f) (aluBody (.cmpne f) f 1 opCmpne) s
def execCmplt (f : SA) (s : State) : Out := runSyl (.cmplt f) (aluBody (.cmplt f) f 1 opCmplt) s
def execCmple (f : SA) (s : State) : Out := runSyl (.cmple f) (aluBody (.cmple f) f 1 opCmple) s
def execPopc (f : SA) (s : State) : Out := runSyl (.popc f) (aluBody (.popc f) f 1 opPopc) s

/-- MOV (R260): sD := sA with its poison. -/
def execMov (f : SA) (s : State) : Out :=
  runSyl (.mov f) (fun s => .ok (resultS (.mov f) 1 f.d (readS s f.a).1 (readS s f.a).2 s)) s

/-- MOVI (R260): the immediate sign-extended, poison 0. -/
def execMovi (f : SA) (s : State) : Out :=
  runSyl (.movi f) (fun s => .ok (resultS (.movi f) 1 f.d ((f.x.getD 0).signExtend 64) false s)) s

/-- MOVHI (R260): the immediate over sA[31:0], with sA's poison. -/
def execMovhi (f : SA) (s : State) : Out :=
  runSyl (.movhi f) (fun s =>
    let a := readS s f.a
    .ok (resultS (.movhi f) 1 f.d (f.x.getD 0 ++ a.1.setWidth 32) a.2 s)) s

/-- CSEL (R260, R255): only the condition register and the selected register carry poison. -/
def execCsel (f : SA) (s : State) : Out :=
  runSyl (.csel f) (fun s =>
    let b := readS s f.b
    let r := if b.1 ≠ 0 then readS s f.a else readS s f.d
    .ok (resultS (.csel f) 1 f.d r.1 (b.2 || r.2) s)) s

end Sys2Proof.Machine
end

