-- ==== Sys2Proof/Machine/VecArith.lean ====
section
/-! DEFINITION. Vector arithmetic, conversions, integer and logic instructions, reductions and scans (R283 to R295). -/

namespace Sys2Proof.Machine

/-- An operation whose result came back with a fault (R23, R372): it writes nothing, and the fault is reported. -/
def faultResult (i : Instr) (lat code : Nat) (taddr cfc01 cfc23 : W64) (s : State) : State :=
  let p := cur s
  let e := { newPend i s lat with st := .fault code taddr cfc01 cfc23 }
  let r : Report := { copy := false, id := p.nextSeq, level := p.level, code := code, slot := s.iss.slot, op := opOf i, pc := p.at_.pc
                      taddr := taddr, cfc01 := cfc01, cfc23 := cfc23 }
  setCur s { pushPend p e with reports := p.reports ++ [r] }

/-- FP_OVERFLOW as a result fault (R42). -/
def overflowResult (i : Instr) (lat : Nat) (s : State) : State := faultResult i lat cOverflow 0 0 0 s

/-- A vector register field must lie below the window (R60). -/
def vregOk (s : State) (r : BitVec 7) : Bool := r.toNat < (cur s).wregs

/-- The AUX register of a modifier. -/
def auxReg (m : VMod) : BitVec 7 := BitVec.ofNat 7 m.aux
/-- The predicate of a modifier. -/
def predOf (s : State) (m : VMod) : W128 := readP s (BitVec.ofNat 4 m.pred)

/-- Whether the governing predicate includes element `i` of width `w` (R284). -/
def governs (p : W128) (w i : Nat) : Bool := p.getLsbD (i * w / 32)

/-- Whether the predicate leaves some lane out. -/
def leavesOut (p : W128) : Bool := p != BitVec.allOnes 128

/-- Operand B: a vector register, or a scalar broadcast (R56). Its elements, and its poison. -/
structure OperandB where
  vec : Nat
  scalar : Option Nat
  poison : Bool
  deriving DecidableEq, Repr

def readB (s : State) (f : VA) : OperandB :=
  if f.bs then
    let r := readS s (f.b.setWidth 6)
    { vec := 0, scalar := some r.1.toNat, poison := r.2 }
  else
    let r := readV s f.b
    { vec := r.1.toNat, scalar := none, poison := r.2 }

def OperandB.elem (b : OperandB) (w i : Nat) : Nat :=
  match b.scalar with
  | some x => x % 2 ^ w
  | none => Machine.elem b.vec w i

/-- A vector result of elements, merged under the predicate with the destination at issue (R284), with its poison
(R285), its flags and its overflow trap (R286). `op i a b d` gives governed element `i`. -/
def vecResult (i : Instr) (lat : Nat) (d : BitVec 7) (w : Nat) (gov : Nat → Bool) (op : Nat → Nat → Conv)
    (poison : Bool) (s : State) : State :=
  let dv := readV s d
  let x := dv.1.toNat
  let n := 4096 / w
  let e := collect (tab n fun k => if gov k then op k (elem x w k) else keepConv (elem x w k))
  let kept := !(List.range n).all gov
  if e.trap then overflowResult i lat s
  else result i lat [.v d (BitVec.ofNat 4096 (packElems w e.codes)) (poison || (kept && dv.2))] e.flags s

/-- The VA instructions that work element by element on vA and vB: `op fmt mode pol a b d`. `accum` marks those that
accumulate into the destination, whose poison then always enters. -/
def vaBody (i : Instr) (f : VA) (dflt lat : Nat) (usesB accum : Bool)
    (op : Nat → RMode → Policy → Nat → Nat → Nat → Conv) (s : State) : Except TrapReq State :=
  let m := VMod.of f.x dflt
  let w := fmtWidth m.fmt
  if !(vregOk s f.d && vregOk s f.a && (!usesB || f.bs || vregOk s f.b)) then illegal i
  else
    let a := readV s f.a
    let b := readB s f
    let p := predOf s m
    let fp := (cur s).fpctl
    let po := a.2 || (usesB && b.poison) || (accum && (readV s f.d).2)
    .ok (vecResult i lat f.d w (governs p w)
      (fun k d => op m.fmt (rnd3 m.rnd fp) (ovp3 m.ovp fp) (elem a.1.toNat w k) (b.elem w k) d) po s)

def isNan (x : Num) : Bool := x == .nan

def opVfadd (t : Nat) (r : RMode) (o : Policy) (a b _d : Nat) : Conv :=
  roundFloat t r o (numAdd r (fmtDecode t a) (fmtDecode t b))
def opVfsub (t : Nat) (r : RMode) (o : Policy) (a b _d : Nat) : Conv :=
  roundFloat t r o (numAdd r (fmtDecode t a) (numNeg (fmtDecode t b)))
def opVfmul (t : Nat) (r : RMode) (o : Policy) (a b _d : Nat) : Conv :=
  roundFloat t r o (numMul (fmtDecode t a) (fmtDecode t b))

/-- ±a × b + d, rounded once. A NaN operand gives the canonical NaN and no flag (R289). -/
def fma (neg : Bool) (t : Nat) (r : RMode) (o : Policy) (a b d : Nat) : Conv :=
  let x := fmtDecode t a
  let y := fmtDecode t b
  let z := fmtDecode t d
  if isNan x || isNan y || isNan z then convOk (ffmt t).qnan
  else
    let m := numMul (if neg then numNeg x else x) y
    let q := numAdd r m.1 z
    roundFloat t r o (q.1, m.2 || q.2)

/-- Sign-magnitude order of two codes that are no NaNs, −0 below +0. -/
def floatKey (t x : Nat) : Int :=
  let f := ffmt t
  let mag := x % 2 ^ (f.w - 1)
  if x.testBit (f.w - 1) then -(mag : Int) - 1 else mag

/-- VFMIN and VFMAX (R290). -/
def floatPick (max : Bool) (t a b : Nat) : Nat :=
  if isNan (fmtDecode t a) then (if isNan (fmtDecode t b) then (ffmt t).qnan else b)
  else if isNan (fmtDecode t b) then a
  else if floatKey t a < floatKey t b then (if max then b else a) else (if max then a else b)

def opVfabs (t : Nat) (_r : RMode) (_o : Policy) (a _b _d : Nat) : Conv :=
  convOk (if isNan (fmtDecode t a) then (ffmt t).qnan else a % 2 ^ ((ffmt t).w - 1))
def opVfneg (t : Nat) (_r : RMode) (_o : Policy) (a _b _d : Nat) : Conv :=
  convOk (if isNan (fmtDecode t a) then (ffmt t).qnan else a ^^^ 2 ^ ((ffmt t).w - 1))

/-- 1/a, Table 12.3. -/
def numRcp (x : Num) : Num :=
  match x with
  | .nan => .nan
  | .inf n => .fin n 0 0
  | .fin n m e => if m = 0 then .inf n else finDiv n 1 0 m e

/-- 1/√a with its NV, Table 12.3. -/
def numRsqrt (x : Num) : Num × Bool :=
  match x with
  | .nan => (.nan, false)
  | .inf n => if n then (.nan, true) else (.fin false 0 0, false)
  | .fin n m e => if m = 0 then (.inf n, false) else if n then (.nan, true) else (finRsqrt m e, false)

/-- 2^a, Table 12.3. -/
def numExp2 (x : Num) : Num :=
  match x with
  | .nan => .nan
  | .inf n => if n then .fin false 0 0 else .inf false
  | .fin n m e => finExp2 n m e

def opVrcp (t : Nat) (r : RMode) (o : Policy) (a _b _d : Nat) : Conv := roundFloat t r o (numRcp (fmtDecode t a), false)
def opVrsqrt (t : Nat) (r : RMode) (o : Policy) (a _b _d : Nat) : Conv := roundFloat t r o (numRsqrt (fmtDecode t a))
def opVexp2 (t : Nat) (r : RMode) (o : Policy) (a _b _d : Nat) : Conv := roundFloat t r o (numExp2 (fmtDecode t a), false)

def execVfadd (f : VA) (s : State) : Out := runSyl (.vfadd f) (vaBody (.vfadd f) f 0 4 true false opVfadd) s
def execVfsub (f : VA) (s : State) : Out := runSyl (.vfsub f) (vaBody (.vfsub f) f 0 4 true false opVfsub) s
def execVfmul (f : VA) (s : State) : Out := runSyl (.vfmul f) (vaBody (.vfmul f) f 0 4 true false opVfmul) s
def execVfma (f : VA) (s : State) : Out := runSyl (.vfma f) (vaBody (.vfma f) f 0 4 true true (fma false)) s
def execVfnma (f : VA) (s : State) : Out := runSyl (.vfnma f) (vaBody (.vfnma f) f 0 4 true true (fma true)) s
def execVfmin (f : VA) (s : State) : Out :=
  runSyl (.vfmin f) (vaBody (.vfmin f) f 0 2 true false fun t _ _ a b _ => convOk (floatPick false t a b)) s
def execVfmax (f : VA) (s : State) : Out :=
  runSyl (.vfmax f) (vaBody (.vfmax f) f 0 2 true false fun t _ _ a b _ => convOk (floatPick true t a b)) s
def execVfabs (f : VA) (s : State) : Out := runSyl (.vfabs f) (vaBody (.vfabs f) f 0 2 false false opVfabs) s
def execVfneg (f : VA) (s : State) : Out := runSyl (.vfneg f) (vaBody (.vfneg f) f 0 2 false false opVfneg) s
def execVrcp (f : VA) (s : State) : Out := runSyl (.vrcp f) (vaBody (.vrcp f) f 0 8 false false opVrcp) s
def execVrsqrt (f : VA) (s : State) : Out := runSyl (.vrsqrt f) (vaBody (.vrsqrt f) f 0 8 false false opVrsqrt) s
def execVexp2 (f : VA) (s : State) : Out := runSyl (.vexp2 f) (vaBody (.vexp2 f) f 0 8 false false opVexp2) s

/-- VFCMP on FP32 lanes: a NaN makes ne hold and every other condition fail; −0 equals +0 (R292). -/
def fcond (c a b : Nat) : Bool :=
  let x := fmtDecode 0 a
  let y := fmtDecode 0 b
  if isNan x || isNan y then c == 1
  else
    let key (t : Nat) : Int := if t % 2 ^ 31 = 0 then 0 else floatKey 0 t + (if t.testBit 31 then 1 else 0)
    match c with
    | 0 => key a == key b
    | 1 => key a != key b
    | 2 => key a < key b
    | 3 => key b ≤ key a
    | 4 => key a ≤ key b
    | _ => key b < key a

/-- Bits of a predicate from a list, lane 0 first. -/
def packBits : List Bool → Nat
  | [] => 0
  | b :: bs => (if b then 1 else 0) + 2 * packBits bs

/-- VFCMP and VCMP: governed lanes are compared, the others keep their bits; poisoned sources trap (R285, R292). -/
def cmpBody (i : Instr) (f : VA) (dflt lat : Nat) (cond : Nat → Nat → Nat → Bool) (s : State) : Except TrapReq State :=
  let m := VMod.of f.x dflt
  if !(vregOk s f.a && (f.bs || vregOk s f.b)) then illegal i
  else
    let a := readV s f.a
    let b := readB s f
    if a.2 then poisonV f.a
    else if b.poison then (if f.bs then poisonS (f.b.setWidth 6) else poisonV f.b)
    else
      let p := predOf s m
      let d := f.d.setWidth 4
      let old := readP s d
      let x := packBits (tab 128 fun l =>
        if p.getLsbD l then cond m.aux (elem a.1.toNat 32 l) (b.elem 32 l) else old.getLsbD l)
      .ok (result i lat [.p d (BitVec.ofNat 128 x)] 0 s)

def execVfcmp (f : VA) (s : State) : Out := runSyl (.vfcmp f) (cmpBody (.vfcmp f) f 0 2 fcond) s
def execVcmp (f : VA) (s : State) : Out :=
  runSyl (.vcmp f) (cmpBody (.vcmp f) f 11 1 fun c a b => condHolds c 32 a b) s

/-- Convert between lane formats (R32, R39 to R41, R46); an unchanged format only makes NaNs canonical (R293). -/
def convertElem (src dst x : Nat) (mode : RMode) (pol : Policy) : Conv :=
  if src == dst then
    (if src ≤ 4 && isNan (fmtDecode src x) then convOk (ffmt src).qnan else convOk (x % 2 ^ fmtWidth src))
  else convert (fmtDecode src x) dst mode pol

/-- VCVT (R293). -/
def vcvtBody (f : VA) (s : State) : Except TrapReq State :=
  let i := Instr.vcvt f
  let m := VMod.of f.x 0
  let src := f.b.toNat
  let ws := fmtWidth src
  let wt := fmtWidth m.fmt
  let g := max ws wt
  let k := 4096 / g
  if !(vregOk s f.d && vregOk s f.a) then illegal i
  else
    let a := readV s f.a
    let p := predOf s m
    let fp := (cur s).fpctl
    -- target element t comes from index j = t or t - k*h of the wider side
    let idx (t : Nat) : Option Nat :=
      if wt = g then some t else if k * m.aux ≤ t && t < k * m.aux + k then some (t - k * m.aux) else none
    let gov (t : Nat) : Bool := match idx t with
      | some j => governs p g j
      | none => false
    let op (t _d : Nat) : Conv :=
      let j := (idx t).getD 0
      let si := if ws = g then j else k * m.aux + j
      convertElem src m.fmt (elem a.1.toNat ws si) (rnd3 m.rnd fp) (ovp3 m.ovp fp)
    .ok (vecResult i 3 f.d wt gov op a.2 s)

def execVcvt (f : VA) (s : State) : Out := runSyl (.vcvt f) (vcvtBody f) s

/-- An integer operation on w-bit values, wrapped (R294). -/
def vInt (op : Nat → Nat → Nat → Int) (t : Nat) (_r : RMode) (_o : Policy) (a b _d : Nat) : Conv :=
  convOk (ofInt (op (fmtWidth t) a b) (fmtWidth t))

def execVadd (f : VA) (s : State) : Out :=
  runSyl (.vadd f) (vaBody (.vadd f) f 11 1 true false (vInt fun _ a b => (a + b : Nat))) s
def execVsub (f : VA) (s : State) : Out :=
  runSyl (.vsub f) (vaBody (.vsub f) f 11 1 true false (vInt fun _ a b => (a : Int) - b)) s
def execVmul (f : VA) (s : State) : Out :=
  runSyl (.vmul f) (vaBody (.vmul f) f 11 3 true false (vInt fun _ a b => (a * b : Nat))) s
def execVand (f : VA) (s : State) : Out :=
  runSyl (.vand f) (vaBody (.vand f) f 11 1 true false (vInt fun _ a b => (a &&& b : Nat))) s
def execVor (f : VA) (s : State) : Out :=
  runSyl (.vor f) (vaBody (.vor f) f 11 1 true false (vInt fun _ a b => (a ||| b : Nat))) s
def execVxor (f : VA) (s : State) : Out :=
  runSyl (.vxor f) (vaBody (.vxor f) f 11 1 true false (vInt fun _ a b => (a ^^^ b : Nat))) s
def execVshl (f : VA) (s : State) : Out :=
  runSyl (.vshl f) (vaBody (.vshl f) f 11 1 true false (vInt fun w a b => (a <<< (b % w) : Nat))) s
def execVshr (f : VA) (s : State) : Out :=
  runSyl (.vshr f) (vaBody (.vshr f) f 11 1 true false (vInt fun w a b => (a >>> (b % w) : Nat))) s
def execVsar (f : VA) (s : State) : Out :=
  runSyl (.vsar f) (vaBody (.vsar f) f 11 1 true false (vInt fun w a b => toSigned a w / (2 ^ (b % w) : Nat))) s

/-- Whether a format compares unsigned: N8 and N32, and INT16 under the .n16 form (AUX = 1, R294). -/
def unsignedFmt (t aux : Nat) : Bool := t == 13 || t == 14 || aux == 1

/-- The lesser or the greater of two integer codes. -/
def intPick (max : Bool) (u : Bool) (w a b : Nat) : Nat :=
  if asInt u w a < asInt u w b then (if max then b else a) else (if max then a else b)

def auxOf (f : VA) : Nat := (VMod.of f.x 11).aux

def execVmin (f : VA) (s : State) : Out :=
  runSyl (.vmin f) (vaBody (.vmin f) f 11 1 true false
    fun t _ _ a b _ => convOk (intPick false (unsignedFmt t (auxOf f)) (fmtWidth t) a b)) s
def execVmax (f : VA) (s : State) : Out :=
  runSyl (.vmax f) (vaBody (.vmax f) f 11 1 true false
    fun t _ _ a b _ => convOk (intPick true (unsignedFmt t (auxOf f)) (fmtWidth t) a b)) s

/-! Reductions and scans: the tree of R49. -/

/-- One level of the tree. -/
def pairUp (op : Nat → Nat → Conv) : List Conv → List Conv
  | a :: b :: r =>
    let c := op a.code b.code
    { code := c.code, flags := a.flags ||| b.flags ||| c.flags, trap := a.trap || b.trap || c.trap } :: pairUp op r
  | l => l

/-- All levels, the leaves first. -/
def treeLevels (op : Nat → Nat → Conv) : Nat → List Conv → List (List Conv)
  | 0, l => [l]
  | n + 1, l => l :: treeLevels op n (pairUp op l)

/-- The inclusive scan at element `i` (R50): the aligned nodes that cover 0 to i, from the lowest index upward. Each
node's own flags have been counted with the tree; here the combinations add theirs. -/
def scanAt (op : Nat → Nat → Conv) (levels : List (List Conv)) (i : Nat) : Nat → Nat → Option Conv → Conv
  | 0, _, acc => acc.getD (convOk 0)
  | lvl + 1, base, acc =>
    if (i + 1).testBit lvl then
      let blk := (levels.getD lvl []).getD (base / 2 ^ lvl) (convOk 0)
      let acc' := match acc with
        | none => blk
        | some a =>
          let c := op a.code blk.code
          { code := c.code, flags := a.flags ||| blk.flags ||| c.flags, trap := a.trap || blk.trap || c.trap }
      scanAt op levels i lvl (base + 2 ^ lvl) (some acc')
    else scanAt op levels i lvl base acc

/-- The sum of two elements. -/
def sumOp (t : Nat) (r : RMode) (o : Policy) (a b : Nat) : Conv :=
  if t ≤ 2 then roundFloat t r o (numAdd r (fmtDecode t a) (fmtDecode t b)) else convOk ((a + b) % 2 ^ fmtWidth t)

/-- The maximum of two elements: floating, a NaN gives the canonical NaN and +0 is above −0 (R295). -/
def maxOp (t aux a b : Nat) : Conv :=
  if t ≤ 2 then
    (if isNan (fmtDecode t a) || isNan (fmtDecode t b) then convOk (ffmt t).qnan
     else convOk (if floatKey t a < floatKey t b then b else a))
  else convOk (intPick true (unsignedFmt t aux) (fmtWidth t) a b)

/-- Identity of the sum: −0 floating, 0 integer (R49). -/
def sumId (t : Nat) : Nat := if t ≤ 2 then 2 ^ (fmtWidth t - 1) else 0
/-- Identity of the maximum: the least value of the format. -/
def maxId (t aux : Nat) : Nat :=
  if t ≤ 2 then (ffmt t).signed true ((ffmt t).emax * 2 ^ (ffmt t).f)
  else if unsignedFmt t aux then 0 else 2 ^ (fmtWidth t - 1)

/-- A leaf of the tree: no NaN keeps its payload or its sign, also where a scan hands it on alone (R26, R286). -/
def leafOf (t c : Nat) : Nat := if t ≤ 2 && isNan (fmtDecode t c) then (ffmt t).qnan else c

/-- Shape of the reductions and scans: 0 the single result everywhere, 1 the inclusive and 2 the exclusive scan. -/
def treeBody (i : Instr) (f : VA) (lat kind : Nat) (isMax : Bool) (s : State) : Except TrapReq State :=
  let m := VMod.of f.x 0
  let w := fmtWidth m.fmt
  let n := 4096 / w
  if !(vregOk s f.d && vregOk s f.a) then illegal i
  else
    let a := readV s f.a
    let p := predOf s m
    let fp := (cur s).fpctl
    let op := if isMax then maxOp m.fmt m.aux else sumOp m.fmt (rnd3 m.rnd fp) (ovp3 m.ovp fp)
    let ident := if isMax then maxId m.fmt m.aux else sumId m.fmt
    let leaves := tab n fun k => convOk (if governs p w k then leafOf m.fmt (elem a.1.toNat w k) else ident)
    let levels := treeLevels op (Nat.log2 n) leaves
    let root := (levels.getD (Nat.log2 n) []).getD 0 (convOk 0)
    let incl (k : Nat) : Conv := scanAt op levels k (Nat.log2 n + 1) 0 none
    let out := match kind with
      | 0 => tab n fun _ => root
      | 1 => tab n incl
      | _ => tab n fun k => if k = 0 then convOk ident else incl (k - 1)
    let e := collect out
    if e.trap then .ok (overflowResult i lat s)
    else .ok (result i lat [.v f.d (BitVec.ofNat 4096 (packElems w e.codes)) a.2] e.flags s)

def execVradd (f : VA) (s : State) : Out := runSyl (.vradd f) (treeBody (.vradd f) f 8 0 false) s
def execVrmax (f : VA) (s : State) : Out := runSyl (.vrmax f) (treeBody (.vrmax f) f 6 0 true) s
def execVscani (f : VA) (s : State) : Out := runSyl (.vscani f) (treeBody (.vscani f) f 10 1 false) s
def execVscanx (f : VA) (s : State) : Out := runSyl (.vscanx f) (treeBody (.vscanx f) f 10 2 false) s

end Sys2Proof.Machine
end

