-- ==== Sys2Proof/Machine/ScalarMem.lean ====
section
/-! DEFINITION. The scalar loads and stores by handle (R261, R262). -/

namespace Sys2Proof.Machine

/-- The signed displacement of an SM syllable, in elements (R57). -/
def dispOf (x : Option W32) : Int := (x.map BitVec.toInt).getD 0

/-- The object address of an SM access (R261): `base` the captured address, `c` the re-issue count. -/
def smAddr (base : W64) (w : BitVec 3) (x : Option W32) (c : Nat) : W64 :=
  let lofs : Int := (base.toNat % 2 ^ 44 : Nat) + widthBytes w * (dispOf x + c)
  objAddr (base.toNat / 2 ^ 44) (ofInt lofs 44)

/-- An object fault as the result fault of a syllable. -/
def objResult (i : Instr) (lat : Nat) (e : ObjFault) (s : State) : State := faultResult i lat e.code e.taddr 0 0 s

/-- The value of a scalar load at an address: its bytes and poison, or its fault. -/
def loadScalar (addr : W64) (n : Nat) (s : State) : State × Except ObjFault (Nat × Bool) :=
  let (s, r) := xlateSV s s.iss.core (cur s).queue addr n { cls := clsScalar, rd := true, wr := false }
  match r with
  | .error e => (s, .error e)
  | .ok (_, l) =>
    let (s, bs) := readSV s s.iss.core s.iss.scope.toNat l
    (s, .ok (ofBytes (bs.map (·.1)), bs.any (·.2)))

/-- LD (R261). -/
def ldBody (f : SM) (s : State) : Except TrapReq State :=
  match captured s [f.a] with
  | .error e => .error e
  | .ok (caps, c) =>
    let n := widthBytes f.w
    let (s, r) := loadScalar (smAddr (caps.getD 0 0) f.w f.x c) n s
    .ok (match r with
      | .error e => objResult (.ld f) (lat7 f.lat) e s
      | .ok (x, po) => resultEng (.ld f) (lat7 f.lat) [sDest s f.d (extend (widthSigned f.w) n x) po] s)

def execLd (f : SM) (s : State) : Out := runSyl (.ld f) (ldBody f) s

/-- ST (R261). -/
def stBody (f : SM) (s : State) : Except TrapReq State :=
  match captured s [f.a] with
  | .error e => .error e
  | .ok (caps, c) =>
    match useS s f.d with
    | .error e => .error e
    | .ok x =>
      let n := widthBytes f.w
      let addr := smAddr (caps.getD 0 0) f.w f.x c
      let (s, r) := xlateSV s s.iss.core (cur s).queue addr n { cls := clsScalar, rd := false, wr := true }
      .ok (match r with
        | .error e => objResult (.st f) (lat7 f.lat) e s
        | .ok (rec_, l) => resultEng (.st f) (lat7 f.lat) [] (deferSV s rec_ l (toBytes x.toNat n)))

def execSt (f : SM) (s : State) : Out := runSyl (.st f) (stBody f) s

/-- LDS (R262): every fault becomes a poisoned cause code. -/
def ldsBody (f : SM) (s : State) : Except TrapReq State :=
  let bad (code : Nat) (s : State) : State :=
    resultEng (.lds f) (lat7 f.lat) [sDest s f.d (BitVec.ofNat 64 code) true] s
  match capturedSpec s (.lds f) with
  | none => .ok (bad 0x3F s)
  | some (caps, c) =>
    let n := widthBytes f.w
    let (s, r) := loadScalar (smAddr (caps.getD 0 0) f.w f.x c) n s
    .ok (match r with
      | .error e => bad e.code s
      | .ok (x, po) => resultEng (.lds f) (lat7 f.lat) [sDest s f.d (extend (widthSigned f.w) n x) po] s)

def execLds (f : SM) (s : State) : Out := runSyl (.lds f) (ldsBody f) s

end Sys2Proof.Machine
end

