-- ==== Sys2Proof/Machine/Sync.lean ====
section
/-! DEFINITION. Synchronisation: atomics, releases and acquires, flags, gang barriers, monitored waits, steward calls
and child launches; and how a waiting operation ends (R240 to R246, R271, R272, R274 to R278, R280, R362). -/

namespace Sys2Proof.Machine

/-- A pending operation that waits, with the register of its result. -/
def waitPend (i : Instr) (lat : Nat) (d : Option (BitVec 6)) (w : Wait) (s : State) (obj : Option (Nat × Nat) := none) : State :=
  setCur s (pushPend (cur s)
    { newPend i s lat with st := .wait w, dst := d.map fun r => (r, shadowed (cur s) r), obj := obj })

/-- The object that an access of the issuing partition names, as its record is cached: CTXID and handle. -/
def objTag (s : State) (oaddr : W64) : Option (Nat × Nat) := some ((tabOf s (cur s).queue).ctx, oaddr.toNat / 2 ^ 44)

/-! Swapped-out tasks (R380). An event names the place of a task by a number: its partition, or 32 and more for a context in the
shadow store. -/

/-- The context at a place. -/
def placePart (s : State) (core no : Nat) : Part :=
  if no < 32 then getPart s core no
  else
    match mget s.shadow (no - 32) with
    | some x => if x.core = core then x.ctx else Part.empty
    | none => Part.empty

/-- The number under which a swapped-out context stands for the moment in which its operations are looked at: no partition has it. -/
def guestPart : Nat := 31

/-- Does something to the task at a place as though it stood in a partition. -/
def atPlace (s : State) (core no : Nat) (f : Nat → State → State) : State :=
  if no < 32 then f no s
  else
    match mget s.shadow (no - 32) with
    | none => s
    | some x =>
      if x.core ≠ core then s
      else
        let t := f guestPart (setPart s core guestPart x.ctx)
        { t with shadow := mput t.shadow (no - 32) { x with ctx := getPart t core guestPart }
                 parts := mdel t.parts (partKey core guestPart) }

/-- The pending operation with a number of the task at a place. -/
def findPend (s : State) (core no seq : Nat) : Option Pend := (placePart s core no).pends.find? fun e => e.seq == seq

/-- The same of a task that stands in a partition. -/
def livePend (s : State) (core part seq : Nat) : Option Pend := if part < 17 then findPend s core part seq else none

/-! Packets (R340). -/

def pktType (x : Nat) : Nat := nbits x 0 8
def pktScope (x : Nat) : Nat := nbits x 8 3
def pktPhase (x : Nat) : Bool := x.testBit 31
def pktAddr (x : Nat) : Nat := nbits x 64 48
def pktCard (x : Nat) : Nat := nbits x 128 48

/-- An HBM address field of 64 bits, a multiple of 64; 0 only where `zero` allows it. -/
def hbmField (x : Nat) (zero : Bool) : Bool := x % 64 == 0 && (x + 64 ≤ hbmTop) && (zero || x != 0)

/-- The rules of Tables 14.4 and 14.5 for a packet of 64 bytes, its phase ignored. -/
def pktOk (x : Nat) : Bool :=
  let hdr := nbits x 11 20 == 0 && 3 ≤ pktScope x && pktScope x ≤ 5 && nbits x 32 32 == 0 && nbits x 448 64 == 0
  let card := hbmField (nbits x 128 64) true
  let z (lo n : Nat) : Bool := nbits x lo n == 0
  hdr && match pktType x with
    | 0 => z 64 64 && card && z 192 256
    | 1 => hbmField (nbits x 64 64) true && card
    | 2 => hbmField (nbits x 64 64) true && card && nbits x 205 51 == 0 && 1 ≤ nbits x 192 13 && nbits x 192 13 ≤ 4096 && z 256 192
    | 3 => nbits x 192 4 ≤ 11 && nbits x 196 12 == 0 && nbits x 220 4 == 0 && z 256 192
    | 4 => card && z 256 192
    | 5 => nbits x 66 62 == 0 && z 128 320
    | _ => false

/-! Local storage of the issuing or waiting partition. -/

/-- Bytes of the scratchpad at a scratchpad offset operand of a partition, mapped by its swizzle (R219). Those with a write of an
operation that has not come to its deadline are undefined (R19, R190). -/
def localBytes (s : State) (core : Nat) (p : Part) (op : W64) (n : Nat) : List Byte :=
  tab n fun b =>
    let o := swizzle (spSwz op) (spOff op + b)
    if localPending p false o then Config.freeBits s.epoch (5000 + o) 8 else scratchByte (getCore s core) o

/-- Whether `n` bytes at a scratchpad offset operand lie in the share (R229). -/
def localOk (p : Part) (c : CoreSt) (op : W64) (n : Nat) : Bool := spOk op && rangeInShare p c (spOff op) n

/-! Gang barriers (R278, R348). -/

/-- A 16-bit field of COORDl. -/
def coordDigit (p : Part) (l : Nat) : Nat := ((p.coord.toList.getD l 0).toNat) % 65536
def coordExt (p : Part) (l : Nat) : Nat := ((p.coord.toList.getD l 0).toNat) / 65536 % 65536
def coordScope (p : Part) (l : Nat) : Nat := ((p.coord.toList.getD l 0).toNat) / 2 ^ 35 % 8

/-- The level of a gang barrier that the launch declared. -/
def barLevel (g : Gang) (b : Nat) : Option Nat :=
  let rec_ := ofBytes g.rec_
  let f := nbits rec_ (0x1C * 8 + 4 * b) 4
  if 8 ≤ f && f % 8 ≤ nbits rec_ 8 3 then some (f % 8) else none

/-- The group of tasks that share the coordinates of the levels below `m`. -/
def barGroup (p : Part) (m : Nat) : Nat := (List.range m).foldl (fun x l => x * 65536 + coordDigit p l) 0
/-- Participants of a barrier at level `m`, of `n` levels. -/
def barCount (p : Part) (m n : Nat) : Nat := (List.range (n - m)).foldl (fun x l => x * coordExt p (m + l)) 1

/-- The barrier on which a task's BARV or BARW acts: gang, key of the instance, its state, participants and scope. -/
structure BarAt where
  gang : Nat
  key : Nat
  inst : BarInst
  count : Nat
  scope : Nat
  deriving DecidableEq, Repr

def barAt (s : State) (p : Part) (b : Nat) : Option BarAt :=
  match p.gang with
  | none => none
  | some g =>
    match mget s.gangs g with
    | none => none
    | some gg =>
      (barLevel gg b).map fun m =>
        let key := b * 2 ^ 128 + barGroup p m
        { gang := g, key := key, inst := (mget gg.bars key).getD { gen := 0, arrived := 0 }
          count := barCount p m (nbits (ofBytes gg.rec_) 8 3 + 1), scope := coordScope p m }

/-- An arrival (R278): the barrier after it. -/
def BarInst.arrive (b : BarInst) (count : Nat) : BarInst :=
  if count ≤ b.arrived + 1 then { gen := b.gen + 1, arrived := 0 } else { b with arrived := b.arrived + 1 }

def putBar (s : State) (a : BarAt) (b : BarInst) : State :=
  match mget s.gangs a.gang with
  | some g => { s with gangs := mput s.gangs a.gang { g with bars := mput g.bars a.key b } }
  | none => s

/-! Flags (R271). -/

def flagOf (c : CoreSt) (f : Nat) : Nat := ((mget c.flags f).getD 0).toNat

def setFlag (s : State) (core f x : Nat) : State :=
  let c := getCore s core
  setCore s core { c with flags := mput c.flags f (BitVec.ofNat 16 x) }

/-! Child launches (R272, R362). -/

/-- Status of a LAUNCH and its effect: BADPKT, DEPTH, FULL, or the packet copied into a reserved slot of the pool. -/
def launchChild (s : State) (p : Part) (pkt : List Byte) : State × Nat :=
  let x := ofBytes pkt
  if pktType x ≠ 1 || !pktOk x then (s, 3)
  else
    match p.gang with
    | none => (s, 2)
    | some g =>
      match mget s.gangs g with
      | none => (s, 2)
      | some gg =>
        if gg.depth = 0 then (s, 2)
        else if gg.kids ≤ gg.kidsUsed then (s, 1)
        else
          let child : Pkt :=
            { queue := p.queue, k := s.nextId, words := tab 16 fun i => BitVec.ofNat 32 (nbits x (32 * i) 32)
              card := [], st := .fetched, graph := none, node := 0, parent := some g, gang := none, run := none }
          ({ s with pkts := mput s.pkts s.nextId child, nextId := s.nextId + 1
                    gangs := mput s.gangs g { gg with kidsUsed := gg.kidsUsed + 1 } }, 0)

/-! The end of a wait. -/

/-- A pending operation comes to its value. -/
def answerPend (s : State) (core part seq : Nat) (x : W64) (bad : Bool := false) : State :=
  setPart s core part (updPend (getPart s core part) seq fun e => e.answer x .ready bad)

/-- A pending operation ends with a fault (R23, R372). -/
def failPend (s : State) (core part : Nat) (e : Pend) (code : Nat) (taddr : W64) : State :=
  let p := updPend (getPart s core part) e.seq fun e => { e with st := .fault code taddr 0 0, writes := [], dst := none }
  let r : Report := { copy := false, id := e.seq, level := e.level, code := code, slot := e.slot, op := e.op, pc := e.pc
                      taddr := taddr, cfc01 := 0, cfc23 := 0 }
  setPart s core part { p with reports := p.reports ++ [r] }

/-- Ends an operation that waited for nothing but its drain set, with no result. -/
def endPend (s : State) (core part seq : Nat) : State :=
  setPart s core part (updPend (getPart s core part) seq fun e => { e with st := .ready })

/-- Whether bytes that an engine reads for a header all verify (R14). A header that does not counts as malformed (log entry 108). -/
def soundAt (s : State) (l : List LByte) : Bool := !(linesOf l).any fun n => poisonedAt s (64 * n) 64

/-- Writes logical bytes at once. -/
def writeCells (s : State) (r : ObjRec) (l : List LByte) (bs : List Byte) : State :=
  (writeRuns ((List.zip l bs).flatMap fun p => writeNibs r p.1 p.2)).foldl (writeRun .objects) s

/-- Reads logical bytes from memory itself. -/
def readCells (s : State) (l : List LByte) : State × Nat :=
  let s := (linesOf l).foldl (fun s n => touchRead s (64 * n) 64) s
  (s, peekCells s l)

/-- Reads logical bytes as an atomic of the open issue does; the core's own copies of the lines follow (R238, R242). -/
def atomCells (s : State) (core : Nat) (l : List LByte) : State × Nat :=
  let s := (linesOf l).foldl (fun s n => refreshLine core (touchRead s (64 * n) 64) n) s
  (s, cellsBy (atomByte s) l)

/-- Defers the writes of logical bytes to the end of the bundle issue (R236). -/
def deferCells (s : State) (atom : Bool) (r : ObjRec) (l : List LByte) (bs : List Byte) : State :=
  let ws := ((List.zip l bs).flatMap fun p => writeNibs r p.1 p.2).map fun w => { w with atom := atom }
  { s with iss := { s.iss with writes := s.iss.writes ++ ws } }

/-- The line write of QPUSH, translated when it is made (R209); the core's own copy of the line follows it (R238). -/
def writePacket (s : State) (core part : Nat) (e : Pend) (slotAddr : W64) (pkt : List Byte) (res : W64) : State :=
  let q := (getPart s core part).queue
  let (s, r) := xlateAl s core q slotAddr 64 64 { cls := clsCopy, rd := true, wr := true }
  match r with
  | .error f => failPend s core part e f.code f.taddr
  | .ok (r, l) => answerPend ((linesOf l).foldl (refreshLine core) (writeCells s r l pkt)) core part e.seq res

/-- What an operation does once its drain set has performed. -/
def performRel (s : State) (core part : Nat) (e : Pend) (op : RelOp) : State :=
  match op with
  | .atomic a => performAtomic s core part e a
  | .fset c f inc => endPend (setFlag s c f (min 0xFFFF (flagOf (getCore s c) f + inc))) core part e.seq
  | .launch pkt =>
    let (s, st) := launchChild s (getPart s core part) pkt
    answerPend s core part e.seq (BitVec.ofNat 64 st)
  | .barv b =>
    match barAt s (getPart s core part) b with
    | none => answerPend s core part e.seq (BitVec.allOnes 64)
    | some a => answerPend (putBar s a (a.inst.arrive a.count)) core part e.seq (a.inst.gen.setWidth 64)
  | .svc n arg => setPart s core part (updPend (getPart s core part) e.seq fun e => { e with st := .wait (.answer n arg) })
  | .qpush a pkt res => writePacket s core part e a pkt res

/-! Completion rings (R200). -/

/-- HBM address of completion-ring header `r` of a queue; 0 for none. -/
def ringAddr (s : State) (q r : Nat) : Nat := peekNat s (queueAddr s q + 0x30 + 8 * r) 6

/-- The rules of Table 8.6 for a ring header of 64 bytes. -/
def ringOk (x : Nat) : Bool :=
  let len := nbits x 64 17
  nbits x 81 15 == 0 && nbits x 98 30 == 0 && nbits x 171 21 == 0 && nbits x 192 320 == 0 &&
  16 ≤ len && len ≤ 65536 && 2 ^ Nat.log2 len == len

/-- What CWAIT finds for a ring: its answer when the wait is over (R203). -/
def ringAnswer (s : State) (q r : Nat) (k : W32) : Option W64 :=
  let a := ringAddr s q r
  let h := peekNat s a 64
  if a = 0 || !ringOk h || poisonedAt s a 64 then some 3
  else
    let prod := nbits h 0 32
    let d := (prod + 2 ^ 32 - k.toNat) % 2 ^ 32
    if 1 ≤ d && d ≤ 2 ^ 31 then some (BitVec.ofNat 64 (prod * 2 ^ 32)) else none

/-- A barrier word of the core (R193). -/
def barWord (c : CoreSt) (idx : Nat) : Nat := ofBytes (scratchBytes c (8 * idx) 8)

/-- What CWAIT finds for a transaction barrier (R195, R203). -/
def barAnswer (c : CoreSt) (idx : Nat) : Option W64 :=
  let x := barWord c idx
  if x.testBit 57 then some 1
  else if !x.testBit 56 then some 3
  else if x % 2 ^ 56 = 0 then some 0
  else none

/-- Whether the operation with a number of a task has still to perform, wherever the task stands. -/
def pendLeft (s : State) (core task seq : Nat) : Bool :=
  let left (p : Part) : Bool := p.ps != .free && p.entered == task && p.pends.any fun e => e.seq == seq && undrained e
  ((List.range 17).any fun (i : Nat) => left (getPart s core i)) || s.shadow.any fun e => e.2.core == core && left e.2.ctx

/-- GEN of the record at an address (R123), 0 for none. A record that fails its check values is not used (R419): what OLCINV then
answers is not stated. -/
def genAt (s : State) (rec_ : Option Nat) : State × W64 :=
  match rec_ with
  | none => (s, 0)
  | some a =>
    let s := touchRead s a 64
    if poisonedAt s a 64 then
      (addEvent s { code := 0x10, loc := a / 256, detail := [] }, (Config.freeBits s.epoch 815 16).setWidth 64)
    else (s, BitVec.ofNat 64 (peekNat s (a + 6) 2))

/-- Ends the wait of a pending operation of the partition's present level, where its condition has come. -/
def pollPend (s : State) (core part : Nat) (e : Pend) : State :=
  let p := getPart s core part
  let c := getCore s core
  match e.st with
  | .wait w =>
    match w with
    | .drain scope upto =>
      if drained p upto then
        let s := endPend s core part e.seq
        if scope = 0 then s else dropCache s core
      else s
    | .rel upto op => if drained p upto then performRel s core part e op else s
    | .fwait f m =>
      if m ≤ flagOf c f then
        let n := flagOf c f - m
        dropCache (answerPend (setFlag s core f n) core part e.seq (BitVec.ofNat 64 n)) core
      else s
    | .barw b gen =>
      match barAt s p b with
      | none => answerPend s core part e.seq (BitVec.allOnes 64)
      | some a =>
        if a.inst.gen = gen then s
        else
          let s := answerPend s core part e.seq (a.inst.gen.setWidth 64)
          if a.scope = 0 then s else dropCache s core
    | .waitm _ _ _ _ => if p.monitor = some e.seq then s else wakeWaitm s core part e
    | .cwaitBar idx _ =>
      match barAnswer c idx with
      | some x =>
        let s := answerPend s core part e.seq x
        if x = 0 then dropCache s core else s
      | none => s
    | .cwaitRing r k _ =>
      match ringAnswer s p.queue r k with
      | some x => dropCache (answerPend s core part e.seq x) core
      | none => s
    | .answer _ _ => s
    | .olcinv upto rec_ =>
      if upto.all fun u => !pendLeft s u.1 u.2.1 u.2.2 then
        let (s, g) := genAt s rec_
        answerPend s core part e.seq g
      else s
  | _ => s

/-- Whether a waiting operation runs on while its task is interrupted (Table 11.2): an atomic, a QPUSH and an SVC that wait for their
drain set, and an OLCINV (R123). Every other wait is kept as an entry. -/
def runsOn (e : Pend) : Bool :=
  match e.st with
  | .wait (.rel _ (.atomic _)) => true
  | .wait (.rel _ (.qpush _ _ _)) => true
  | .wait (.rel _ (.svc _ _)) => true
  | .wait (.olcinv _ _) => true
  | _ => false

/-- Looks at the waiting operations of the partition that `f` marks, oldest first. -/
def pollSome (s : State) (core part : Nat) (f : Pend → Bool) : State :=
  (getPart s core part).pends.foldl (fun s e => if f e then pollPend s core part e else s) s

/-- Whether an operation is an FWAIT that waits. -/
def isFwait (e : Pend) : Bool :=
  match e.st with
  | .wait (.fwait _ _) => true
  | _ => false

/-- Looks at the FWAITs of a partition that issues: those of a core take their flags in the order of its partitions (R271). -/
def pollFlags (s : State) (core part : Nat) (ends : Bool) : State :=
  let p := getPart s core part
  if isActive p then pollSome s core part fun e => isFwait e && (e.level == p.level || ends) else s

/-- Looks at every other waiting operation of the partition's present level, and at those of the levels below that run on; before the end
of the task, at all of them (R270). -/
def pollAll (s : State) (core part : Nat) (ends : Bool) : State :=
  let p := getPart s core part
  pollSome s core part fun e => !isFwait e && (e.level == p.level || runsOn e || ends)

/-- The operations of a swapped-out context that run on (R380, Table 11.2). -/
def pollShadow (s : State) (core key : Nat) (x : SavedCtx) : State :=
  if x.core = core && x.ctx.pends.any runsOn then atPlace s core (32 + key) fun i s => pollSome s core i runsOn else s

/-- Looks at the operation that the syllable has just pushed: it may end at once. -/
def pollLast (s : State) : State :=
  match (cur s).pends.getLast? with
  | some e => pollPend s s.iss.core s.iss.part e
  | none => s

/-! Instructions. -/

/-- An atomic performs in its bundle issue: its read comes with the reads of the issue, its write among the writes, in slot order
(R236). With the acquire flag and a scope wider than CORE it drops the core cache (R243). -/
def atomicNow (i : Instr) (lat : Nat) (d : BitVec 6) (a : AtomicOp) (s : State) : State :=
  let (s, x) := a.step s
  let s := refreshLine s.iss.core s (a.addr / 64)
  let s := deferBytes s true (a.spreads x) a.addr x.bytes a.cmpr a.fmt
  let s := setCur s (pushPend (cur s) { newPend i s lat with writes := [sDest s d x.res x.bad], st := .engine })
  if a.acq && a.scope != 0 then dropCache s s.iss.core else s

/-- The effect of an atomic (R242, R274, R275): translated at issue, performed in its bundle issue, or when its release has been
met. -/
def atomicBody (i : Instr) (f : SM) (kind : Nat) (s : State) : Except TrapReq State :=
  let addr := useS s f.a
  let opnd := if kind = 5 then .ok 0 else useS s (f.a + 1)
  let cmp := if kind = 4 then useS s (f.a + 2) else .ok 0
  let order := useS s (f.a + 3)
  match addr, opnd, cmp, order with
  | .error e, _, _, _ => .error e
  | _, .error e, _, _ => .error e
  | _, _, .error e, _ => .error e
  | _, _, _, .error e => .error e
  | .ok addr, .ok opnd, .ok cmp, .ok order =>
    let n := widthBytes f.w
    let oaddr := smAddr addr f.w f.x 0
    let (s, r) :=
      if kind = 5 then xlateWord s s.iss.core (cur s).queue oaddr 24 64 8 { cls := clsScalar, rd := true, wr := true }
      else xlateWord s s.iss.core (cur s).queue oaddr n n n { cls := clsScalar, rd := true, wr := true }
    .ok (match r with
      | .error e => objResult i (lat7 f.lat) e s
      | .ok (r, a) =>
        let op : AtomicOp :=
          { kind := kind, addr := a, n := n, signed := widthSigned f.w && n = 4, opnd := opnd.toNat, cmp := cmp.toNat
            acq := order.getLsbD 0, scope := s.iss.scope.toNat, cmpr := r.cmpr, fmt := r.fmt }
        let op := if n = 8 then { op with signed := true } else op
        let seq := (cur s).nextSeq
        if order.getLsbD 1 && !drained (cur s) seq then waitPend i (lat7 f.lat) (some f.d) (.rel seq (.atomic op)) s (objTag s oaddr)
        else atomicNow i (lat7 f.lat) f.d op s)

def execAadd (f : SM) (s : State) : Out := runSyl (.aadd f) (atomicBody (.aadd f) f 0) s
def execAmin (f : SM) (s : State) : Out := runSyl (.amin f) (atomicBody (.amin f) f 1) s
def execAmax (f : SM) (s : State) : Out := runSyl (.amax f) (atomicBody (.amax f) f 2) s
def execAswap (f : SM) (s : State) : Out := runSyl (.aswap f) (atomicBody (.aswap f) f 3) s
def execAcas (f : SM) (s : State) : Out := runSyl (.acas f) (atomicBody (.acas f) f 4) s
def execAclaim (f : SM) (s : State) : Out := runSyl (.aclaim f) (atomicBody (.aclaim f) f 5) s

/-- DRAIN (R240, R276). -/
def execDrain (s : State) : Out :=
  runSyl .drain (fun s => .ok (pollLast (waitPend .drain 1 none (.drain s.iss.scope.toNat (cur s).nextSeq) s))) s

/-- FSET (R271). -/
def fsetBody (f : SA) (s : State) : Except TrapReq State :=
  match useS s f.a, useS s f.b with
  | .error e, _ => .error e
  | _, .error e => .error e
  | .ok a, .ok b =>
    let op := RelOp.fset (a.toNat % 128) (a.toNat / 256 % 64) (b.toNat % 65536)
    .ok (pollLast (waitPend (.fset f) 1 none (.rel (cur s).nextSeq op) s))

def execFset (f : SA) (s : State) : Out := runSyl (.fset f) (fsetBody f) s

/-- FWAIT (R271). Whether the count is there is looked at with the other waits of the core, in partition order. -/
def fwaitBody (f : SA) (s : State) : Except TrapReq State :=
  match useS s f.a, useS s f.b with
  | .error e, _ => .error e
  | _, .error e => .error e
  | .ok a, .ok b => .ok (waitPend (.fwait f) 1 (some f.d) (.fwait (a.toNat % 64) (b.toNat % 65536)) s)

def execFwait (f : SA) (s : State) : Out := runSyl (.fwait f) (fwaitBody f) s

/-- LAUNCH (R272). The packet is read at the issue (R237). One outside the share is a result fault, as R272 and Table 11.2 say of this instruction, where R229 makes the
range faults of the S slot precise (log entry 107). -/
def launchBody (f : SA) (s : State) : Except TrapReq State :=
  match useS s f.a with
  | .error e => .error e
  | .ok a =>
    let a := BitVec.ofNat 64 (a.toNat % 2 ^ 32)
    if a.toNat % 64 ≠ 0 then .ok (resultEng (.launch f) 16 [sDest s f.d 3 false] s)
    else if !localOk (cur s) (curCore s) a 64 then
      .ok (faultResult (.launch f) 16 cLocalRange (BitVec.ofNat 64 (spOff a)) 0 0 s)
    else
      let pkt := localBytes s s.iss.core (cur s) a 64
      .ok (pollLast (waitPend (.launch f) 16 (some f.d) (.rel (cur s).nextSeq (.launch pkt)) s))

def execLaunch (f : SA) (s : State) : Out := runSyl (.launch f) (launchBody f) s

/-- WAITM (R245, R277). -/
def waitmBody (f : SM) (s : State) : Except TrapReq State :=
  match useS s f.a with
  | .error e => .error e
  | .ok addr =>
    let tm := (readS s (f.a + 1)).1
    let i := Instr.waitm f
    let n := widthBytes f.w
    let cmp := (readS s f.d).1.toNat % 2 ^ (8 * n)
    let core := s.iss.core
    let (s, r) := xlateSV s core (cur s).queue addr n { cls := clsScalar, rd := true, wr := false }
    .ok (match r with
      | .error e => objResult i (lat7 f.lat) e s
      | .ok (_, l) =>
        let (s, bs) := readSV s core s.iss.scope.toNat l
        let t := tm.toNat % 2 ^ 32
        let w := Wait.waitm l (widthSigned f.w) s.iss.scope.toNat (if t = 0 then none else some (s.clock + t))
        let seq := (cur s).nextSeq
        let s := waitPend i (lat7 f.lat) (some f.d) w s (objTag s addr)
        let s := setCur s { cur s with monitor := some seq }
        if ofBytes (bs.map (·.1)) = cmp then s
        else
          match (cur s).pends.getLast? with
          | some e => wakeWaitm s core s.iss.part e
          | none => s)

def execWaitm (f : SM) (s : State) : Out := runSyl (.waitm f) (waitmBody f) s

/-- BARV (R278): on a barrier that the launch has not declared it completes at once, with all ones. -/
def barvBody (f : SA) (s : State) : Except TrapReq State :=
  match useS s f.a with
  | .error e => .error e
  | .ok a =>
    match barAt s (cur s) (a.toNat % 8) with
    | none => .ok (resultS (.barv f) 1 f.d (BitVec.allOnes 64) false s)
    | some _ => .ok (pollLast (waitPend (.barv f) 1 (some f.d) (.rel (cur s).nextSeq (.barv (a.toNat % 8))) s))

def execBarv (f : SA) (s : State) : Out := runSyl (.barv f) (barvBody f) s

/-- BARW (R278). -/
def barwBody (f : SA) (s : State) : Except TrapReq State :=
  match useS s f.a, useS s f.b with
  | .error e, _ => .error e
  | _, .error e => .error e
  | .ok a, .ok b => .ok (pollLast (waitPend (.barw f) 1 (some f.d) (.barw (a.toNat % 8) (b.setWidth 32)) s))

def execBarw (f : SA) (s : State) : Out := runSyl (.barw f) (barwBody f) s

/-- SVC (R280): the request goes to the steward as a release; the answer comes as an event. -/
def svcBody (f : SA) (s : State) : Except TrapReq State :=
  match useS s f.a, useS s (f.a + 1) with
  | .error e, _ => .error e
  | _, .error e => .error e
  | .ok a, .ok b =>
    .ok (pollLast (waitPend (.svc f) 1 (some f.d) (.rel (cur s).nextSeq (.svc (a.setWidth 16) b)) s))

def execSvc (f : SA) (s : State) : Out := runSyl (.svc f) (svcBody f) s

end Sys2Proof.Machine
end

