-- ==== Sys2Proof/Machine/Fetch.lean ====
section
/-! DEFINITION. Segments, the loop buffer and the shape of bundles (R51 to R55, R66 to R75, R268). -/

namespace Sys2Proof.Machine

/-- Words of instruction memory: 256 KiB (R350). -/
def imemWords : Nat := 65536

def imemWord (c : CoreSt) (i : Nat) : W32 := (mget c.imem i).getD 0
def imemRange (c : CoreSt) (i n : Nat) : List W32 := tab n fun j => imemWord c (i + j)

/-! One bundle. -/

def Bundle.count (b : Bundle) : Nat := b.hdr.toNat / 2 ^ 10 % 16
def Bundle.y (b : Bundle) : Bool := b.hdr.getLsbD 15
def Bundle.send (b : Bundle) : Bool := b.hdr.getLsbD 14
/-- Whether the header names a slot (Table 3.1). -/
def Bundle.names (b : Bundle) (slot : Nat) : Bool := b.hdr.getLsbD (31 - slot)

/-- A syllable of a bundle: its slot, its word and its extension word. -/
structure Syl where
  slot : Nat
  word : W32
  ext : Option W32
  deriving DecidableEq, Repr

/-- Reads the syllables of the last `n` slots from the words, in slot order (R51): the syllables, and the words left.
None when the words run out. -/
def scanSyls (b : Bundle) : Nat → List W32 → Option (List Syl × List W32)
  | 0, ws => some ([], ws)
  | n + 1, ws =>
    if b.names (7 - n) then
      match ws with
      | [] => none
      | w :: r =>
        if wordE w then
          match r with
          | [] => none
          | x :: r => (scanSyls b n r).map fun p => ({ slot := 7 - n, word := w, ext := some x } :: p.1, p.2)
        else (scanSyls b n r).map fun p => ({ slot := 7 - n, word := w, ext := none } :: p.1, p.2)
    else scanSyls b n ws

/-- The syllables of a bundle, with what follows them. -/
def Bundle.scan (b : Bundle) : Option (List Syl × List W32) := scanSyls b 8 b.words

def Bundle.syls (b : Bundle) : List Syl := (b.scan.map (·.1)).getD []

def Bundle.sylAt (b : Bundle) (slot : Nat) : Option Syl := b.syls.find? fun x => x.slot == slot

/-- The yield word's NEXTY; 0 without one (R55, R269). -/
def Bundle.nexty (b : Bundle) : Nat :=
  match b.scan with
  | some (_, w :: _) => w.toNat % 2 ^ 20
  | _ => 0

/-- The framing rules of R53. -/
def Bundle.framed (b : Bundle) : Bool :=
  b.hdr.toNat % 2 ^ 10 == 0 && b.words.length == b.count &&
  match b.scan with
  | some (_, []) => !b.y
  | some (_, [w]) => b.y && w.toNat < 2 ^ 20
  | _ => false

/-- Opcode of the syllable in the S slot. -/
def Bundle.sOp (b : Bundle) : Nat := ((b.sylAt 1).map fun x => wordOp x.word).getD 0

/-- A control transfer, with CHK (R69, R263). -/
def isTransfer (op : Nat) : Bool := op == 0x23 || (0x28 ≤ op && op ≤ 0x2D) || op == 0x2F || op == 0x30
/-- YIELD, END, TRAP, RETT, UIRET, BRK, SVC. -/
def isStopper (op : Nat) : Bool := op == 0x38 || op == 0x39 || (0x50 ≤ op && op ≤ 0x54)

/-- Whether a bundle holds an instruction that R67 and R70 name: one of these or a catalogue operation. -/
def Bundle.restricted (b : Bundle) : Bool :=
  b.syls.any fun x =>
    if x.slot = 1 then isTransfer (wordOp x.word) || isStopper (wordOp x.word)
    else if x.slot = 5 || x.slot = 6 then 0x09 ≤ wordOp x.word && wordOp x.word ≤ 0x0D
    else false

def Bundle.isEnd (b : Bundle) : Bool := b.sOp == 0x39

/-! Segments. -/

/-- The bundles of a segment's words, parsed by each header's COUNT. -/
def parseBundles : Nat → List W32 → Option (List Bundle)
  | _, [] => some []
  | 0, _ => none
  | n + 1, h :: ws =>
    let c := h.toNat / 2 ^ 10 % 16
    if ws.length < c then none
    else (parseBundles n (ws.drop c)).map ({ hdr := h, words := ws.take c } :: ·)

/-- SEND stands on the last bundle and on no other. -/
def sendOk : List Bundle → Bool
  | [] => false
  | [b] => b.send
  | b :: bs => !b.send && sendOk bs

/-- Begins the expansion of the segment at an offset (R73 to R75): whether it is valid, its next segment, and the words to
be expanded. Its bundles are issued as these words have them, also where instruction memory is rewritten meanwhile: R76 leaves open
whether it is the old form or the new (log entry 120). A next segment beyond instruction memory, on either side, is segment 0x4000, which
is invalid: TPC and TADDR name it so (log entry 121). -/
def startSeg (c : CoreSt) (off segmax : Nat) : Seg :=
  let base := 4 * off
  let w0 := (imemWord c base).toNat
  let w1 := (imemWord c (base + 1)).toNat
  let lenw := w0 % 65536
  let nb := w0 / 65536 % 512
  let nxrel := w1 % 65536
  let none_ := w1 / 2 ^ 31 = 1
  let words := imemRange c (base + 4) (lenw - 4)
  let bs := parseBundles words.length words
  let next : Option Nat :=
    if none_ then none
    else
      let o := (off : Int) + toSigned nxrel 16
      some (if 0 ≤ o && o < 2 ^ 14 then o.toNat else 2 ^ 14)
  let ok := w0 / 2 ^ 25 == 0 && w1 / 65536 % 2 ^ 15 == 0 && (!none_ || nxrel == 0) && imemWord c (base + 2) == 0 &&
    5 ≤ lenw && base + lenw ≤ imemWords && nb + 1 ≤ segmax &&
    imemWord c (base + 3) == crc32c (words.flatMap fun w => toBytes w.toNat 4) &&
    (match bs with
     | some l => l.length == nb + 1 && sendOk l
     | none => false)
  { off := off, valid := ok, nb := nb, next := next, bundles := [], rest := if ok then words else [] }

/-- Expands one stored bundle. -/
def Seg.expand (g : Seg) : Seg :=
  match g.rest with
  | [] => g
  | h :: ws =>
    let c := h.toNat / 2 ^ 10 % 16
    { g with bundles := g.bundles ++ [{ hdr := h, words := ws.take c }], rest := ws.drop c }

/-- SEG of a bundle address. Its bits [15:14] are kept, so that a segment beyond instruction memory stays one. -/
def segOf (pc : W32) : Nat := pc.toNat % 2 ^ 16
def idxOf (pc : W32) : Nat := pc.toNat / 2 ^ 16 % 512
def mkAddr (seg idx : Nat) : W32 := BitVec.ofNat 32 (seg % 2 ^ 16 + idx * 2 ^ 16)

/-- The segment at an offset, as the loop buffer holds it or as instruction memory does. -/
def segInfo (c : CoreSt) (p : Part) (off : Nat) : Seg :=
  match p.cur with
  | some g => if g.off = off then g else
    match p.nxt with
    | some h => if h.off = off then h else startSeg c off p.segmax
    | none => startSeg c off p.segmax
  | none => startSeg c off p.segmax

/-- The next bundle in sequence (R69); none after the last bundle of a segment whose NEXT is none. -/
def advance (c : CoreSt) (p : Part) (pos : Nat × Nat) : Option (Nat × Nat) :=
  let g := segInfo c p pos.1
  if pos.2 < g.nb then some (pos.1, pos.2 + 1) else g.next.map fun o => (o, 0)

def posOf (pc : W32) : Nat × Nat := (segOf pc, idxOf pc)

/-- The link of a call (R264): the bundle after the second delay slot, or BIDX NB + 1 of a segment with no next. -/
def linkOf (c : CoreSt) (p : Part) : W32 :=
  match (advance c p (posOf p.at_.pc)).bind (advance c p) with
  | none => p.at_.pc
  | some pos =>
    match advance c p pos with
    | some n => mkAddr n.1 n.2
    | none => mkAddr pos.1 (pos.2 + 1)

/-- Makes the loop buffer hold the segment of the next bundle (R75): a transfer into the expanded next segment moves it
over and prefetches its own next; any other discards it. -/
def ensureSeg (c : CoreSt) (p : Part) : Part :=
  let off := segOf p.at_.pc
  let onto (g : Seg) : Part := { p with cur := some g, nxt := g.next.map fun o => startSeg c o p.segmax }
  match p.cur with
  | some g =>
    if g.off = off then p
    else
      match p.nxt with
      | some h => if h.off = off then onto h else { p with cur := some (startSeg c off p.segmax), nxt := none }
      | none => { p with cur := some (startSeg c off p.segmax), nxt := none }
  | none => { p with cur := some (startSeg c off p.segmax), nxt := none }

/-- Whether something of a partition's segments is still to be expanded. -/
def expandable (p : Part) : Bool :=
  let some_ (g : Option Seg) : Bool := (g.map fun g => !g.rest.isEmpty).getD false
  some_ p.cur || some_ p.nxt || (p.nxt.isNone && (p.cur.map fun g => g.next.isSome).getD false)

/-- SEGMENT_EXPAND (R75): one stored bundle. -/
def expandOne (c : CoreSt) (p : Part) : Part :=
  match p.cur with
  | none => p
  | some g =>
    if !g.rest.isEmpty then { p with cur := some g.expand }
    else
      match p.nxt with
      | some h => { p with nxt := some h.expand }
      | none => { p with nxt := g.next.map fun o => startSeg c o p.segmax }

/-- A bundle of the sequence, for the check of delay slots: `none` while it is not expanded, `some none` where its segment
is invalid. A bundle in a segment beyond the next one, which the two halves of the loop buffer cannot hold, is taken from
instruction memory at once: R70's wait for it could not end (DESIGN CHOICE, log entry 127). -/
def bundleAtPos (c : CoreSt) (p : Part) (pos : Nat × Nat) : Option (Option Bundle) :=
  let held (g : Seg) : Option (Option Bundle) :=
    if !g.valid then some none
    else
      match g.bundles[pos.2]? with
      | some b => some (some b)
      | none => none
  let stored : Option (Option Bundle) :=
    let g := startSeg c pos.1 p.segmax
    if !g.valid then some none else some ((parseBundles g.rest.length g.rest).bind fun l => l[pos.2]?)
  match p.cur with
  | none => stored
  | some g =>
    if g.off = pos.1 then held g
    else
      match p.nxt with
      | some h => if h.off = pos.1 then held h else stored
      | none => if g.next = some pos.1 then none else stored

/-- The bucket table that a BKSEL names (R268): its offset, where its target word does not wrap, and its words. -/
def bucketOff (pc : W32) (t : W32) : Option Nat :=
  let o := (segOf pc : Int) + toSigned (t.toNat % 65536) 16
  if 0 ≤ o && o < 2 ^ 14 then some o.toNat else none

def bucketWords (c : CoreSt) (off : Nat) : List W32 :=
  let n := (imemWord c (4 * off)).toNat % 64
  imemRange c (4 * off) (4 * ((n + 4) / 4))

/-- The checks of a bucket table. -/
def bucketOk (off : Nat) (ws : List W32) : Bool :=
  match ws with
  | [] => false
  | n :: r =>
    1 ≤ n.toNat && n.toNat ≤ 32 && 4 * off + ws.length ≤ imemWords && (r.take n.toNat).all targetOk &&
    (r.drop n.toNat).all fun w => w == 0

end Sys2Proof.Machine
end

