-- ==== Sys2Proof/Machine/Control.lean ====
section
/-! DEFINITION. Control transfers, loops, bucket select, task control, special registers and the trap instructions
(R263 to R270, R273, R279). -/

namespace Sys2Proof.Machine

/-- A control transfer issues (R69 to R71): what follows its two delay slots is fixed now. -/
def transfer (op : Nat) (target : Option W32) (bad : Bool) (s : State) : State :=
  let p := cur s
  setCur s { p with at_ := { p.at_ with xfer := some { target := target, bad := bad, left := 3, src := p.at_.pc, op := op } } }

/-- The target that a target word names (R72); a sum outside the segments names none, and then the target address that
TPC is to hold is not stated (log entry 10). -/
def wordTarget (s : State) (t : W32) : W32 × Bool :=
  let seg := (segOf (cur s).at_.pc : Int) + toSigned (t.toNat % 65536) 16
  if 0 ≤ seg && seg < 2 ^ 14 then (mkAddr seg.toNat (idxOf t), false)
  else (Config.freeBits s.epoch 801 32, true)

/-- A transfer to a target word, taken or not. -/
def jumpWord (op : Nat) (x : Option W32) (taken : Bool) (s : State) : State :=
  let t := wordTarget s (x.getD 0)
  if taken then transfer op (some t.1) t.2 s else transfer op none false s

/-- A transfer to a bundle address in a register (R264). -/
def jumpReg (op : Nat) (x : W64) (s : State) : State := transfer op (some (x.setWidth 32)) (badAddr x) s

/-- Writes a link (R264). -/
def writeLink (i : Instr) (d : BitVec 6) (s : State) : State :=
  resultS i 1 d ((linkOf (curCore s) (cur s)).setWidth 64) false s

/-- CHK (R263). -/
def chkBody (f : SC) (s : State) : Except TrapReq State :=
  .ok (if (readS s f.a).2 then jumpWord 0x23 f.x true s else s)

def execChk (f : SC) (s : State) : Out := runSyl (.chk f) (chkBody f) s

def execBr (f : SC) (s : State) : Out := runSyl (.br f) (fun s => .ok (jumpWord 0x28 f.x true s)) s

/-- BC (R265). -/
def bcBody (f : SC) (s : State) : Except TrapReq State :=
  match useS s f.a, useS s f.b with
  | .error e, _ => .error e
  | _, .error e => .error e
  | .ok a, .ok b => .ok (jumpWord 0x29 f.x (condHolds f.cnd.toNat 64 a.toNat b.toNat) s)

def execBc (f : SC) (s : State) : Out := runSyl (.bc f) (bcBody f) s

/-- BRI and RET (R264). -/
def regBody (op : Nat) (r : BitVec 6) (s : State) : Except TrapReq State :=
  match useS s r with
  | .error e => .error e
  | .ok a => .ok (jumpReg op a s)

def execBri (f : SC) (s : State) : Out := runSyl (.bri f) (regBody 0x2A f.a) s
def execRet (f : SC) (s : State) : Out := runSyl (.ret f) (regBody 0x2D f.a) s

def execCall (f : SC) (s : State) : Out :=
  runSyl (.call f) (fun s => .ok (writeLink (.call f) f.a (jumpWord 0x2B f.x true s))) s

def calliBody (f : SC) (s : State) : Except TrapReq State :=
  match useS s f.b with
  | .error e => .error e
  | .ok b => .ok (writeLink (.calli f) f.a (jumpReg 0x2C b s))

def execCalli (f : SC) (s : State) : Out := runSyl (.calli f) (calliBody f) s

def allTrue (b : Bool) : W128 := if b then BitVec.allOnes 128 else 0

/-- LSET (R266). -/
def lsetBody (f : SC) (s : State) : Except TrapReq State :=
  match useS s f.a with
  | .error e => .error e
  | .ok a =>
    let nn := a.toNat % 2 ^ 32
    let e : BitVec 3 := f.cnd.setWidth 3
    let p := cur s
    let s := setCur s { p with le := p.le.set f.lc.toNat e f.lc.isLt }
    let gs := if f.lc = 0 then tab 8 fun k => RegWrite.g (BitVec.ofNat 3 k) (allTrue (k == 0 && nn != 0)) else []
    .ok (result (.lset f) 1 (.lc f.lc (BitVec.ofNat 32 (min (nn + e.toNat) (2 ^ 32 - 1))) :: gs) 0 s)

def execLset (f : SC) (s : State) : Out := runSyl (.lset f) (lsetBody f) s

/-- LNEXT (R267). -/
def lnextBody (f : SC) (s : State) : Except TrapReq State :=
  let c := (readLc s f.lc).toNat
  if c = 0 then .ok (jumpWord 0x2F f.x false s)
  else
    let le := ((cur s).le[0]).toNat
    let gs :=
      if f.lc = 0 then
        RegWrite.g 0 (allTrue (decide (le < c - 1))) ::
          tab 7 fun k => RegWrite.g (BitVec.ofNat 3 (k + 1)) (readG s (BitVec.ofNat 3 k))
      else []
    .ok (jumpWord 0x2F f.x (1 < c) (result (.lnext f) 1 (.lc f.lc (BitVec.ofNat 32 (c - 1)) :: gs) 0 s))

def execLnext (f : SC) (s : State) : Out := runSyl (.lnext f) (lnextBody f) s

/-- BKSEL (R268), on the table that was read before its bundle issued. -/
def bkselBody (f : SC) (s : State) : Except TrapReq State :=
  match useS s f.a with
  | .error e => .error e
  | .ok a =>
    let ws := ((cur s).bucket.map (·.2)).getD []
    let nent := (ws.getD 0 0).toNat
    let x := a.toNat % 2 ^ 32
    let g := 2 ^ f.cnd.toNat
    if x = 0 || nent * g < x then
      .ok (transfer 0x30 none false (resultS (.bksel f) 1 f.b (BitVec.allOnes 64) false s))
    else
      let i := (x + g - 1) / g - 1
      let p15 := BitVec.ofNat 128 (2 ^ ((x - 1) % 128 + 1) - 1)
      let ws' := [sDest s f.b (BitVec.ofNat 64 (i * 2 ^ 32 + ((i + 1) * g - x))) false, RegWrite.p 15 p15]
      .ok (jumpWord 0x30 ws[1 + i]? true (result (.bksel f) 1 ws' 0 s))

def execBksel (f : SC) (s : State) : Out := runSyl (.bksel f) (bkselBody f) s

/-- YIELD (R269) writes no state: the end of its bundle is a yield point. -/
def execYield (s : State) : Out := runSyl .yield .ok s

/-- END (R270): the task ends. -/
def execEndTask (s : State) : Out := event (fun s => closeIssue (endTask (applyWrites s) s.iss.core s.iss.part)) s

/-! Special registers (Table 11.8). -/

/-- FPCTL as MFSR finds it: the flags of each operation whose deadline is still to come are seen or not (R44). -/
def readFpctl (s : State) : W64 :=
  let p := cur s
  ((p.pends ++ p.early).filter fun e => e.level != p.level || e.cyc < p.tc).foldl
    (fun x e => if Config.freeBool s.epoch (10 ^ 8 + e.seq) then x ||| ((e.flags.setWidth 64 : W64) <<< (8 : Nat)) else x) p.fpctl

/-- LOOPST. -/
def loopst (p : Part) : Nat :=
  p.le[0].toNat + p.le[1].toNat * 2 ^ 8 + p.le[2].toNat * 2 ^ 16 + p.le[3].toNat * 2 ^ 24

/-- The value of a special register at issue. -/
def readSr (s : State) (n : Nat) : W64 :=
  let p := cur s
  let c := curCore s
  match n with
  | 0x00 => BitVec.ofNat 64 p.tc
  | 0x01 => BitVec.ofNat 64 s.iss.core
  | 0x02 => BitVec.ofNat 64 (s.iss.part % 16)
  | 0x03 => readFpctl s
  | 0x04 => BitVec.ofNat 64 c.ageLimit
  | 0x05 => BitVec.ofNat 64 c.b1
  | 0x06 => BitVec.ofNat 64 c.b2
  | 0x07 => BitVec.ofNat 64 c.b3
  | 0x10 => p.tsw
  | 0x11 => p.tcause
  | 0x12 => p.taddr
  | 0x13 => p.tpc.setWidth 64
  | 0x14 => p.tvec.setWidth 64
  | 0x15 => p.uivec.setWidth 64
  | 0x16 => p.uictl
  | 0x17 => p.rplact
  | 0x18 => p.cfc01
  | 0x19 => p.cfc23
  | 0x1A => BitVec.ofNat 64 p.spbase
  | 0x1B => BitVec.ofNat 64 p.splen
  | 0x1C => BitVec.ofNat 64 p.tslen
  | 0x1D => BitVec.ofNat 64 (loopst p)
  | n => if 8 ≤ n && n < 16 then p.coord.toList.getD (n - 8) 0 else ((p.lc.toList.getD (n - 0x20) 0).setWidth 64)

/-- Whether the register has a write pending (R273). -/
def srPending (s : State) (n : Nat) : Bool :=
  if 0x20 ≤ n then pendingW s (writesLc (BitVec.ofNat 2 (n - 0x20))) else pendingW s (writesSr n)

/-- MFSR of TCAUSE and of TADDR close the handler window (R375). -/
def markWindow (n : Nat) (p : Part) : Part :=
  { p with bank1 := p.bank1.map fun b =>
      if n = 0x11 then { b with sawCause := true } else if n = 0x12 then { b with sawAddr := true } else b }

/-- MFSR (R273). -/
def mfsrBody (f : SA) (s : State) : Except TrapReq State :=
  let n := f.b.toNat
  let x := if srPending s n then Config.freeBits s.epoch (900 + n) 64 else readSr s n
  .ok (resultS (.mfsr f) 1 f.d x false (setCur s (markWindow n (cur s))))

def execMfsr (f : SA) (s : State) : Out := runSyl (.mfsr f) (mfsrBody f) s

/-- MTSR (R273). -/
def mtsrBody (f : SA) (s : State) : Except TrapReq State :=
  let n := f.b.toNat
  if ((n = 0x10 || n = 0x13) && (cur s).level = 0) || (n = 4 && !(cur s).steward) then illegal (.mtsr f)
  else
    match useS s f.a with
    | .error e => .error e
    | .ok x =>
      let w := if 0x20 ≤ n then RegWrite.lc (BitVec.ofNat 2 (n - 0x20)) (x.setWidth 32) else .sr f.b x
      .ok (result (.mtsr f) 1 [w] 0 s)

def execMtsr (f : SA) (s : State) : Out := runSyl (.mtsr f) (mtsrBody f) s

/-! TRAP and BRK (R279). -/

def softTrap (code : Nat) (f : SA) (s : State) : Except TrapReq State :=
  match useS s f.a with
  | .error e => .error e
  | .ok a => .error { code := code, taddr := a, commits := true }

def execTrap (f : SA) (s : State) : Out := runSyl (.trap f) (softTrap cSoft f) s

/-- What the steward is told of, beside machine-check events: 1 a step (R385), 2 a BREAKPOINT with its operand (R279), 3
an annex or other request named where it arises. -/
def tellSteward (s : State) (e : EventRec) : State := { s with told := s.told ++ [e] }

/-- A BREAKPOINT that goes to the steward: the partition stops, to resume at slot V0 of the same issue. -/
def stopAtBreak (x : W64) (s : State) : State :=
  let s := applyWrites s
  let p := cur s
  let p := { p with ps := .stopped, at_ := { p.at_ with slot := 2, scope := s.iss.scope } }
  let s := tellSteward (wakeAllWaitm (setCur s p) s.iss.core s.iss.part)
    { code := 2, loc := partKey s.iss.core s.iss.part, detail := [x.toNat] }
  closeIssue s

/-- BRK: to the steward when a debugger holds the partition or single-step is set (R279, R385, R407). -/
def execBrk (f : SA) (s : State) : Out :=
  if (cur s).debugged || (cur s).single then
    match useS s f.a with
    | .error r => event (fun s => preciseTrap (.brk f) r s) s
    | .ok x => event (fun s => stopAtBreak x (setCur s (setSticky (cur s) s.iss.slot (stickyAfter (.brk f) s)))) s
  else runSyl (.brk f) (softTrap cBreak f) s

end Sys2Proof.Machine
end

