-- ==== Sys2Proof/Machine/Issue.lean ====
section
/-! DEFINITION. One bundle issue slot by slot (R63, R66, R366), its end (R17, R69, R351), and the checks that come
before it: fetch, landing of transfers, framing and legality, exits, and occupancy (R20, R53, R54, R67, R70, R74, R75,
R268, R270, R281, R369, R384). -/

namespace Sys2Proof.Machine

/-- What a slot of a bundle issue does. -/
inductive SlotDo where
  | none
  | run (named : Bool) (i : Instr)
  | bad (w : W32)
  deriving DecidableEq, Repr

/-- The syllable of a slot: the one that the bundle names, unless this issue is a repeat, else the sticky one, which an
END bundle does not re-issue (R63, R66, R270). -/
def slotDo (p : Part) (b : Bundle) (slot : Nat) : SlotDo :=
  if !p.at_.again && b.names slot then
    match b.sylAt slot with
    | none => .none
    | some x =>
      match decodeSyl (classOf slot) x.word x.ext with
      | .ok i => if i.wf then .run true i else .bad x.word
      | .error _ => .bad x.word
  else if b.isEnd then .none
  else
    match getSticky p slot with
    | some k => .run false k.instr
    | none => .none

/-- The first of the `n` last slots, from `slot` on, that does something. -/
def nextSlot (p : Part) (b : Bundle) (slot : Nat) : Nat → Option Nat
  | 0 => none
  | n + 1 =>
    if slot ≤ 7 - n && slotDo p b (7 - n) != .none then some (7 - n) else nextSlot p b slot n

/-- A syllable that is no legal instruction (R56, R77). -/
def badSyllable (w : W32) (s : State) : State :=
  preciseTrapOp (wordOp w) { code := cIllegal, taddr := w.setWidth 64, commits := false } s

/-- Where control goes after the last issue of a bundle: the point, and whether the task ends there (R69, R71, R351). -/
def pointAfter (c : CoreSt) (p : Part) : Point :=
  let at_ := p.at_
  let plain : Point := { at_ with slot := 0, rep := none, again := false, scope := 0 }
  let seq (x : Option Xfer) : Point :=
    match advance c p (posOf at_.pc) with
    | some pos => { plain with pc := mkAddr pos.1 pos.2, xfer := x }
    | none => { plain with xfer := none, done := true }
  match at_.xfer with
  | none => seq none
  | some x =>
    if x.left ≤ 1 then
      match x.target with
      | some t => { plain with pc := t, xfer := some { x with left := 0 } }
      | none => seq none
    else seq (some { x with left := x.left - 1 })

/-- The end of a bundle issue: its writes perform, TASK_CYCLE advances (R17), and the next issue is set (R66). -/
def endIssue (s : State) : State :=
  let s := applyWrites s
  let p := cur s
  let b := s.iss.bundle
  let r := p.at_.rep.getD 0
  let last := r = 0
  let at' := if last then pointAfter (curCore s) p
    else { p.at_ with slot := 0, rep := some (r - 1), again := true, scope := 0 }
  let yields := last && (b.y || b.sOp == 0x38)
  let p := { p with
    tc := p.tc + 1, at_ := at', stepped := p.single, atYield := yields
    nexty := if yields then b.nexty else p.nexty
    bucket := none }
  closeIssue (setCur s p)

/-- What the machine does in an open issue: run an instruction in a state, or pass to the next state. -/
inductive Action where
  | exec (i : Instr) (s : State)
  | done (s : State)
  deriving DecidableEq, Repr

def issueAction (s : State) : Action :=
  match nextSlot (cur s) s.iss.bundle s.iss.slot 8 with
  | none => .done (endIssue s)
  | some k =>
    match slotDo (cur s) s.iss.bundle k with
    | .none => .done (endIssue s)
    | .bad w => .done (badSyllable w { s with iss := { s.iss with slot := k } })
    | .run named i => .exec i { s with iss := { s.iss with slot := k, named := named } }

/-! Checks before an issue. -/

/-- How a partition stands before its next issue. -/
inductive Standing where
  | ready
  | frozen
  | fetch
  | exitWait
  | ended
  | trap (code : Nat) (slot op : Nat) (taddr : W64)
  deriving DecidableEq, Repr

/-- The next bundle's stored form, expanded or not. -/
def nextBundle (c : CoreSt) (p : Part) : Option Bundle :=
  match bundleAt p with
  | some b => some b
  | none =>
    let g := startSeg c (segOf p.at_.pc) p.segmax
    (parseBundles g.rest.length g.rest).bind fun l => l[idxOf p.at_.pc]?

/-- RPT for a resumption at the partition's point (R367). -/
def rptOf (c : CoreSt) (p : Part) : Nat :=
  match p.at_.rep with
  | some r => r
  | none => ((nextBundle c p).map Bundle.rep).getD 0

/-- The slot a syllable issues in belongs to the declared set (R54). SLOTS has slot `k` in bit `7 − k`. -/
def slotsOk (p : Part) (b : Bundle) : Bool :=
  (List.range 8).all fun k => slotDo p b k == .none || p.slots.getLsbD (7 - k)

/-- Instructions barred from delay slots and from repeated bundles (R67, R70), or a repeat. -/
def delayOk (b : Bundle) : Bool := !b.restricted && b.rep == 0

/-- The delay-slot check of a transfer bundle (R70, R74). -/
inductive DelayCheck where
  | ok | wait | illegal
  | segment (off : Nat)
  deriving DecidableEq, Repr

def checkDelay (c : CoreSt) (p : Part) : Nat → Nat × Nat → DelayCheck
  | 0, _ => .ok
  | n + 1, pos =>
    match advance c p pos with
    | none => .illegal
    | some q =>
      match bundleAtPos c p q with
      | none => .wait
      | some none => .segment q.1
      | some (some b) => if delayOk b then checkDelay c p n q else .illegal

/-- A bundle as its header in TADDR. -/
def hdrTrap (code : Nat) (b : Bundle) : Standing := .trap code 0 0 (b.hdr.setWidth 64)

/-- The checks of the bundle itself, made before its issue and before each re-entry of it (R53, R54, R67, R70, R268, R270): a
handler may have sent it to any slot (R364). The delay slots and the table of a transfer are looked at while its slot is still to
come. -/
def bundleCheck (c : CoreSt) (p : Part) (b : Bundle) : Standing :=
  if p.at_.again then (if slotsOk p b then .ready else hdrTrap cBundle b)
  else if !b.framed then hdrTrap cFraming b
  else if !slotsOk p b then hdrTrap cBundle b
  else if b.restricted && b.rep != 0 then hdrTrap cBundle b
  else if (p.at_.xfer.any fun x => x.left == 1 || x.left == 2) && !delayOk b then hdrTrap cBundle b
  else if b.isEnd && (List.range 6).any (fun k => b.names (k + 2)) then hdrTrap cBundle b
  else
    let delays := if isTransfer b.sOp && p.at_.slot ≤ 1 then checkDelay c p 2 (posOf p.at_.pc) else .ok
    match delays with
    | .wait => .fetch
    | .illegal => hdrTrap cBundle b
    | .segment o => .trap cSegment 0 0 (BitVec.ofNat 64 o)
    | .ok =>
      if b.sOp = 0x30 && p.at_.slot ≤ 1 then
        match (b.sylAt 1).bind fun x => x.ext.bind fun t => if targetOk t && t.toNat < 2 ^ 16 then some t else none with
        | none => .ready
        | some t =>
          match bucketOff p.at_.pc t with
          | none => .trap cSegment 0 0 (BitVec.ofInt 64 ((segOf p.at_.pc : Int) + toSigned (t.toNat % 65536) 16))
          | some o =>
            match p.bucket with
            | none => .fetch
            | some (o', ws) => if o' = o && bucketOk o ws then .ready else .trap cSegment 0 0 (BitVec.ofNat 64 o)
      else .ready

/-- Whether an operation orders every later memory access of its partition after itself (R240, R243, R271, R278, R280). An atomic or a
QPUSH that waits for its drain set does too: a later access to its bytes may not pass it (R238). -/
def isAcquire (e : Pend) : Bool :=
  match e.st with
  | .wait (.drain _ _) => true
  | .wait (.fwait _ _) => true
  | .wait (.barw _ _) => true
  | .wait (.waitm _ _ _ _) => true
  | .wait (.answer _ _) => true
  | .wait (.rel _ (.svc _ _)) => true
  | .wait (.rel _ (.atomic _)) => true
  | .wait (.rel _ (.qpush _ _ _)) => true
  | _ => false

/-- Whether a syllable accesses memory: S loads, stores, atomics, WAITM and LAUNCH; V accesses; MREAD and MWRITE; C operations but
CWAIT; XPLANE and XQNT, which read the scratchpad. -/
def isMemSyl (slot op : Nat) : Bool :=
  if slot = 1 then (0x20 ≤ op && op ≤ 0x22) || (0x40 ≤ op && op ≤ 0x45) || op == 0x49 || op == 0x3C
  else if slot = 4 then op == 4 || op == 5
  else if slot = 2 || slot = 3 then 0x30 ≤ op && op ≤ 0x35
  else if slot = 5 || slot = 6 then 2 ≤ op && op != 0x10
  else if slot = 7 then op == 2 || op == 6
  else false

/-- Whether the issue of a bundle makes a memory access. -/
def accesses (p : Part) (b : Bundle) : Bool :=
  (List.range 8).any fun k =>
    match slotDo p b k with
    | .run _ i => p.at_.slot ≤ k && isMemSyl k (opOf i)
    | _ => false

/-- Whether a syllable is an atomic with the release flag. A flag word whose value is still to come may have it. -/
def isRelease (p : Part) (i : Instr) : Bool :=
  let flag (f : SM) : Bool := pendingS p (f.a + 3) || (regS p (f.a + 3)).1.getLsbD 1
  match i with
  | .aadd f => flag f
  | .amin f => flag f
  | .amax f => flag f
  | .aswap f => flag f
  | .acas f => flag f
  | .aclaim f => flag f
  | _ => false

/-- Whether a bundle has a release atomic that would wait, beside another access: the reads and writes of one issue are made together
(R236), so the issue then waits for the drain set (R243). -/
def releaseWaits (p : Part) (b : Bundle) : Bool :=
  match slotDo p b 1 with
  | .run _ i =>
    p.at_.slot ≤ 1 && isRelease p i && !drained p p.nextSeq && (List.range 8).any fun k => k != 1 && (match slotDo p b k with
      | .run _ j => isMemSyl k (opOf j)
      | _ => false)
  | _ => false

/-- Whether a pending operation still keeps END from issuing (R270). Of a trap handler that ends its task, the values and faults
held for the levels below it wait for no return any more (log entry 11). -/
def keepsEnd (p : Part) (e : Pend) : Bool :=
  if e.level = p.level then true
  else
    match e.st with
    | .engine => true
    | .wait _ => true
    | _ => false

/-- Whether the exit that a bundle makes must still wait (R270, R281). -/
def exitWaits (p : Part) (b : Bundle) : Bool :=
  if b.isEnd then p.pends.any (keepsEnd p)
  else if b.sOp = 0x51 then p.level != 0 && p.pends.any fun e => e.level == p.level
  else if b.sOp = 0x52 then p.ui.isSome && p.pends.any fun e => e.level == p.level && p.uiSeq ≤ e.seq
  else false

def vecPends (p : Part) : Nat := (p.pends.filter (·.vec)).length

/-- Whether the next issue could pass the limits of R369: at most one operation enters for each slot. -/
def crowded (p : Part) : Bool := 64 < p.pends.length + 8 || 20 < vecPends p + 2

/-- The checks of the place to which control has passed (R72, R74): the segment, and the index in it. -/
def landing (p : Part) (g : Seg) : Option Standing :=
  match p.at_.xfer.filter (·.left == 0) with
  | some x =>
    if x.bad then some (.trap cTarget 1 x.op (x.src.setWidth 64))
    else if !g.valid then some (.trap cSegment 0 0 (BitVec.ofNat 64 g.off))
    else if g.nb < idxOf p.at_.pc then some (.trap cTarget 1 x.op (x.src.setWidth 64))
    else none
  | none =>
    if !g.valid then some (.trap cSegment 0 0 (BitVec.ofNat 64 g.off))
    else if g.nb < idxOf p.at_.pc then some (.trap cTarget 1 0 (p.at_.pc.setWidth 64))
    else none

/-- How the partition stands, its segment already looked up: the freeze at a deadline comes before every check of the bundle (R20).
`full` says that the issue would pass the limits. -/
def standing (c : CoreSt) (p : Part) (full : Bool) : Standing :=
  if p.at_.done then (if p.pends.any (keepsEnd p) then .exitWait else .ended)
  else if p.pends.any (isDue p) then .frozen
  else
    match p.cur.filter (·.off == segOf p.at_.pc) with
    | none => .fetch
    | some g =>
      match landing p g with
      | some t => t
      | none =>
        match g.bundles[idxOf p.at_.pc]? with
        | none => .fetch
        | some b =>
          match bundleCheck c p b with
          | .ready =>
            if exitWaits p b then .exitWait
            else if full then .frozen
            else if accesses p b && p.pends.any (fun e => e.level == p.level && isAcquire e) then .frozen
            else if releaseWaits p b then .frozen
            else .ready
          | t => t

/-- The state that Table 14.11 gives a standing; an exit wait is a freeze (Table 15.4). -/
def Standing.ps : Standing → PState
  | .ready => .ready
  | .frozen => .frozen
  | .fetch => .fetch
  | .exitWait => .frozen
  | .ended => .ending
  | .trap _ _ _ _ => .ready

/-- Writes results that have arrived before their deadlines, as an exit wait and an occupancy freeze need it (R18, R270, R371):
those of the present level for which `f` holds, oldest first. -/
def writeEarly (s : State) (core part : Nat) (f : Pend → Bool) : State :=
  (getPart s core part).pends.foldl
    (fun s e => if e.level == (getPart s core part).level && e.st == .ready && f e then writePend s core part e else s) s

/-! Events at a boundary. -/

/-- Whether an operation is a copy or a KV operation, which a fault leaves as a REPLAY entry (R141, R207). -/
def isReplayable (slot op : Nat) : Bool := (slot == 5 || slot == 6) && 2 ≤ op && op ≤ 8

/-- Takes a held result fault (R372 to R374). -/
def takeReport (s : State) (core part : Nat) (r : Report) : State :=
  let c := getCore s core
  let p := getPart s core part
  let held := r.copy || isReplayable r.slot r.op
  let p := { p with
    reports := p.reports.erase r
    pends := if held then p.pends.map (fun e => if !r.copy && e.seq = r.id then { e with st := .replay } else e)
      else p.pends.filter fun e => e.seq != r.id }
  let ovf := r.code = cOverflow
  let resume := { p.at_ with slot := 0 }
  takeTrap (setPart s core part p) core part
    { code := r.code, rf := true, slot := r.slot, op := r.op
      taddr := if ovf then p.at_.pc.setWidth 64 else r.taddr
      tpc := if ovf then r.pc else p.at_.pc
      resume := resume, sres := 0, rpt := rptOf c p
      cfc := if r.copy || (held && r.op ≤ 5) then some (r.cfc01, r.cfc23) else none, rpe := held }

/-- Takes a precise fault of the bundle as a whole (R366, R374). A step whose bundle traps ends here (R385). -/
def takeBundleTrap (s : State) (core part : Nat) (code slot op : Nat) (taddr : W64) : State :=
  let p := { getPart s core part with stepped := (getPart s core part).single, stepFrom := (getPart s core part).nextSeq }
  takeTrap (setPart s core part p) core part
    { code := code, rf := false, slot := slot, op := op, taddr := taddr, tpc := p.at_.pc, resume := p.at_, sres := 0
      rpt := rptOf (getCore s core) p, cfc := none, rpe := false }

/-- Entry of the user-level completion handler (R205). -/
def enterUi (s : State) (core part : Nat) : State :=
  let s := wakeAllWaitm s core part
  let p := getPart s core part
  let pend := p.uictl.toNat / 4 % 256
  setPart s core part { p with
    ui := some p.at_, uiSeq := p.nextSeq, sh := p.sh.set 0 (BitVec.ofNat 64 pend), shp := setBit p.shp 0 false
    uictl := BitVec.ofNat 64 (p.uictl.toNat % 2 + 2)
    at_ := landAt (Point.start p.uivec) p.uivec (Config.freeBits s.epoch 78 32) 0 }

/-- Whether a user-level completion interrupt may be entered at the boundary (R205). -/
def uiDue (p : Part) : Bool :=
  p.uictl.toNat % 4 == 1 && p.uictl.toNat / 4 % 256 != 0 && p.ui.isNone && !p.single && p.at_.slot == 0

/-- A stop of the partition (R379): its WAITM is woken, its freezes are cancelled. -/
def stopPart (s : State) (core part : Nat) : State :=
  let s := wakeAllWaitm s core part
  let p := inOrder (getPart s core part)
  setPart s core part { p with ps := .stopped, age := 0 }

/-- Whether the step of a single-stepped partition has reached its end (R385): the waits that it began are over, but that
of a WAITM, whose monitor is armed; its copies stand in entries of the core, not in line for one (R192). -/
def stepOver (p : Part) : Bool :=
  p.pends.all fun e => e.seq < p.stepFrom ||
    (match e.st with
     | .wait (.waitm _ _ _ _) => true
     | .wait _ => false
     | .engine => !e.eng.any fun k => k < 2 ^ 24 && 64 ≤ k % 4096
     | _ => true)

end Sys2Proof.Machine
end

