-- ==== Sys2Proof/Machine/Records.lean ====
section
/-! DEFINITION. Where a task stands while operations of it run on, completion records and rings with their interrupts
(R200 to R204, R380, R381), and the barrier words (R193, R195). -/

namespace Sys2Proof.Machine

/-! Tasks. -/

/-- Where a task stands: in a partition of its core, or in the shadow store. -/
inductive Home where
  | part (n : Nat)
  | shadow (key : Nat)
  deriving DecidableEq, Repr

/-- The home of the task with a number; none once it has ended. The steward, whose bundles belong to no task, has the number 0. -/
def homeOf (s : State) (core task : Nat) : Option Home :=
  let here (i : Nat) : Bool :=
    let p := getPart s core i
    p.ps != .free && p.ps != .ending && p.entered == task && (task != 0 || i == 16)
  match (List.range 17).find? here with
  | some i => some (.part i)
  | none => (s.shadow.find? fun e => e.2.ctx.entered == task).map fun e => .shadow e.1

/-- The context of a task, wherever it stands. -/
def taskPart (s : State) (core task : Nat) : Option Part :=
  match homeOf s core task with
  | some (.part i) => some (getPart s core i)
  | some (.shadow k) => (mget s.shadow k).map (·.ctx)
  | none => none

/-- The context that still holds the local storage of a task: its own, or the partition that a kill has left in ENDING (R378). -/
def ownerPart (s : State) (core task : Nat) : Option Part :=
  match taskPart s core task with
  | some p => some p
  | none => ((List.range 16).map (getPart s core)).find? fun p => p.ps == .ending && p.entered == task

/-- Changes the context of a task, wherever it stands (R380). -/
def modTask (s : State) (core task : Nat) (f : Part → Part) : State :=
  match homeOf s core task with
  | some (.part i) => setPart s core i (f (getPart s core i))
  | some (.shadow k) =>
    match mget s.shadow k with
    | some x => { s with shadow := mput s.shadow k { x with ctx := f x.ctx } }
    | none => s
  | none => s

/-! Operations of the engines: they are taken at issue, and carried out when their result is due to come (R138, R170, log entry 56). -/

/-- The engine key of such an operation. -/
def kvKey (id : Nat) : Nat := 2 ^ 24 + id

/-- The id of the operation that a pending operation stands for. -/
def kvIdOf (e : Pend) : Option Nat := e.eng.bind fun k => if 2 ^ 24 ≤ k then some (k - 2 ^ 24) else none

/-- Takes an operation into its engine: with its operand words, its step count, and the local storage that it may write before its
deadline. -/
def submitOp (i : Instr) (f : CQ) (opd : List W64) (c : Nat) (ranges : List LocalRange) (s : State) : State :=
  let p := cur s
  let id := s.nextId
  let x : KvOp := { core := s.iss.core, task := p.entered, seq := p.nextSeq, queue := p.queue, op := opOf i, sh := f.sh.toNat, opd := opd
                    c := c, fault := none, repair := none }
  setCur { s with kvs := mput s.kvs id x, nextId := id + 1 } (pushPend p { newPend i s (lat7 f.lat) with
    st := .engine, dst := some (f.d, shadowed p f.d), ranges := ranges, eng := some (kvKey id) })

/-- Such an operation ends with its value; a task that has ended takes none. -/
def opDone (s : State) (x : KvOp) (id : Nat) (v : W64) (ranges : List LocalRange) : State :=
  modTask { s with kvs := mdel s.kvs id } x.core x.task fun p =>
    updPend p x.seq fun e => { e.answer v .ready with ranges := ranges, eng := none }

/-- The fault of such an operation is reported (R23, R141, R372): what it holds stays with its entry where `keep` says so. -/
def opFault (s : State) (x : KvOp) (code : Nat) (taddr : W64) (keep : Bool) : State :=
  modTask s x.core x.task fun p =>
    match p.pends.find? fun e => e.seq == x.seq with
    | some e =>
      let r : Report := { copy := false, id := e.seq, level := e.level, code := code, slot := e.slot, op := e.op, pc := e.pc
                          taddr := taddr, cfc01 := 0, cfc23 := 0 }
      { updPend p x.seq (fun e => { e with st := .fault code taddr 0 0, dst := if keep then e.dst else none, eng := if keep then e.eng else none })
          with reports := p.reports ++ [r] }
    | none => p

/-- Such an operation ends with a fault. -/
def opFail (s : State) (x : KvOp) (id : Nat) (code : Nat) (taddr : W64) : State :=
  opFault { s with kvs := mdel s.kvs id } x code taddr false

/-- Operand word `i` of an operation of the engines. -/
def KvOp.word (x : KvOp) (i : Nat) : Nat := (x.opd.getD i 0).toNat

/-! Barrier words. -/

def noBar : Nat := 0xFFFF

def setBarWord (s : State) (core idx x : Nat) : State :=
  setCore s core (writeScratchBytes (getCore s core) (8 * idx) (toBytes x 8))

/-- Counts `n` bytes into a barrier word (R195). -/
def countBar (x n : Nat) : Nat :=
  let pend := x % 2 ^ 56
  if n ≤ pend then x - n else x - pend + (if x.testBit 57 then 0 else 2 ^ 57)

/-- Poisons a barrier word. -/
def poisBar (x : Nat) : Nat := if x.testBit 57 then x else x + 2 ^ 57

def updBar (s : State) (core idx : Nat) (f : Nat → Nat) : State :=
  if idx = noBar then s else setBarWord s core idx (f (barWord (getCore s core) idx))

/-! Records. -/

/-- The 32 bytes of a completion record, its phase aside (Table 8.7). -/
def recBytes (status fcode eng tag bytes fhandle : Nat) (fc : List Nat) : List Byte :=
  toBytes (status % 256 + fcode % 256 * 2 ^ 8 + eng % 16 * 2 ^ 16) 4 ++ toBytes (tag % 65536) 4 ++
    toBytes (bytes % 2 ^ 44 + (if fcode = 0 then 0 else fhandle % 2 ^ 20) * 2 ^ 44) 8 ++
    (tab 4 fun i => toBytes (if fcode = 0 then 0 else fc.getD i 0) 4).flatten

/-- Puts a record in line for its ring. -/
def holdRec (s : State) (r : HeldRec) : State := { s with held := s.held ++ [r] }

/-- The entry of a completed copy is free; a copy that waits takes it. -/
def freeEntry (s : State) (key : Nat) : State :=
  let s := { s with copies := mdel s.copies key }
  let core := key / 4096
  match s.copies.find? fun e => e.1 / 4096 = core && 64 ≤ e.1 % 4096 with
  | some (k, x) =>
    let s := { s with copies := mput (mdel s.copies k) key x }
    match x.seq with
    | some q => modTask s core x.task fun p => updPend p q fun e => { e with eng := some key }
    | none => s
  | none => s

/-- A completion interrupt of a task becomes ready (R204); a waiting WAITM wakes (Table 10.3). That of a swapped-out task is kept until its
image is loaded (R381). -/
def raiseUi (s : State) (core task ring : Nat) : State :=
  match homeOf s core task with
  | some (.part i) =>
    let p := getPart s core i
    wakeAllWaitm (setPart s core i { p with uictl := p.uictl ||| (1#64 <<< (2 + ring % 8)) }) core i
  | some (.shadow k) =>
    match mget s.shadow k with
    | some x => { s with shadow := mput s.shadow k { x with uipend := x.uipend ||| (1#8 <<< (ring % 8)) } }
    | none => s
  | none => s

/-- What follows the writing, or the passing over, of a held record. -/
def recDone (s : State) (r : HeldRec) (written : Bool) : State :=
  let s := { s with held := s.held.erase r }
  let s := match r.ui with
    | some (core, task) => if written then raiseUi s core task r.ring else s
    | none => s
  match r.entry with
  | some key => freeEntry s key
  | none => s

/-- Counts a record towards the host's interrupt of its ring, and raises the interrupt that it completes (R202). Records written while
HIEN is 0 count too. -/
def signalHost (s : State) (q ring h : Nat) : State :=
  let old := (s.irqs.find? fun x => x.queue == q && x.ring == ring).getD { queue := q, ring := ring, waiting := 0, since := none }
  let rest := s.irqs.filter fun x => !(x.queue == q && x.ring == ring)
  if h.testBit 97 && max 1 (nbits h 128 16) ≤ old.waiting + 1 then { s with irqs := rest, raised := s.raised ++ [nbits h 160 11] }
  else { s with irqs := rest ++ [{ old with waiting := old.waiting + 1, since := some (old.since.getD s.uclock) }] }

/-- Whether a ring is full. -/
def ringFull (h : Nat) : Bool := (nbits h 0 32 + 2 ^ 32 - nbits h 32 32) % 2 ^ 32 == nbits h 64 17

/-- Tries to write a held record (R200, R202). -/
def writeRec (s : State) (r : HeldRec) : State :=
  let a := ringAddr s r.queue r.ring
  if a = 0 then recDone s r false
  else
    let s := touchRead s a 64
    let h := peekNat s a 64
    if !ringOk h then
      let s := if s.events.any fun e => e.code == 0x0A && e.loc == a then s
        else addEvent s { code := 0x0A, loc := a, detail := [r.queue, r.ring] }
      recDone s r false
    else if ringFull h then
      if h.testBit 96 then s else engineWrite s (a + 0x0C) [BitVec.ofNat 8 (nbits h 96 8 + 1)]
    else
      let k := nbits h 0 32
      let len := nbits h 64 17
      let at_ := a + 64 + 32 * (k % len)
      let first := (ofBytes (r.body.take 4)) + (if k / len % 2 = 0 then 2 ^ 31 else 0)
      let s := engineWrite s (at_ + 4) (r.body.drop 4)
      let s := engineWrite s at_ (toBytes first 4)
      let s := engineWrite s a (toBytes (k + 1) 4)
      recDone (signalHost s r.queue r.ring h) r true

def heldFor (s : State) (q ring : Nat) : Option HeldRec := s.held.find? fun r => r.queue == q && r.ring == ring

/-! The steward's event ring (R406). It counts as ring 0 of queue 1,024, which no queue descriptor has. -/

def eventQueue : Nat := 1024

/-- The fields of a bank pair: stack, channel, pseudo-channel and bank pair (R84), one byte each. -/
def pairBytes (b : Nat) : List Byte := toBytes (b / 1024) 1 ++ toBytes (b / 32 % 32) 1 ++ toBytes (b / 16 % 2) 1 ++ toBytes (b % 16) 1

/-- The fields of a home: those of its bank pair, and the row. -/
def homeBytes (chunk : Nat) : List Byte := pairBytes (bankPairOf chunk) ++ toBytes (nbits chunk 13 15) 2

/-- The location of a sector: its home with its number in the chunk, or the annex port; the host port is 4. -/
def sectorBytes (s : State) (sec : Nat) : List Byte :=
  let a := 256 * sec
  if a < hbmTop then homeBytes (sec / 8) ++ toBytes (sec % 8) 2
  else toBytes (if a < annexEnd then annexKey s a / 2 ^ 56 else 4) 8

/-- The 8 bytes of an event's location (R406): stack, channel, pseudo-channel, bank pair and row; or core and partition; or port. Where in
them each field lies the spec does not say (DESIGN CHOICE, log entry 135). -/
def EventRec.locBytes (s : State) (e : EventRec) : List Byte :=
  if [0x01, 0x02, 0x03].contains e.code then homeBytes e.loc ++ toBytes 0 2
  else if e.code = 0x04 then pairBytes e.loc ++ toBytes 0 4
  else if [0x05, 0x06, 0x07, 0x08, 0x09, 0x10].contains e.code then sectorBytes s e.loc
  else if e.code = 0x0A then sectorBytes s (e.loc / 256)
  else if e.code = 0x0B then toBytes (annexKey s e.loc / 2 ^ 56) 8
  else toBytes e.loc 8

/-- The 32 bytes of an event record, its phase aside: CODE, CATCLK, the location and the detail. -/
def EventRec.bytes (s : State) (e : EventRec) (clk : Nat) : List Byte :=
  toBytes e.code 4 ++ toBytes clk 4 ++ e.locBytes s ++ ((e.detail.flatMap fun d => toBytes d 8) ++ List.replicate 16 0).take 16

/-- An event as records of at most 16 bytes of detail; `n` bounds them. What a record does not hold goes on in the next. -/
def EventRec.split (e : EventRec) : Nat → List EventRec
  | 0 => [e]
  | n + 1 => if e.detail.length ≤ 2 then [e] else { e with detail := e.detail.take 2 } :: EventRec.split { e with detail := e.detail.drop 2 } n

/-- The event records of the part, in order. -/
def eventRecords (s : State) : List EventRec := s.events.flatMap fun e => e.split e.detail.length

/-- The next event record goes to the ring that the host has named, or marks it as full; a malformed ring takes none. -/
def writeEvent (s : State) : State :=
  match (eventRecords s)[s.eventsOut]? with
  | none => s
  | some e =>
    let a := s.eventRing
    if a = 0 then s
    else
      let s := touchRead s a 64
      let h := peekNat s a 64
      if !ringOk h then { s with eventsOut := s.eventsOut + 1 }
      else if ringFull h then
        if h.testBit 96 then s else engineWrite s (a + 0x0C) [BitVec.ofNat 8 (nbits h 96 8 + 1)]
      else
        let k := nbits h 0 32
        let len := nbits h 64 17
        let at_ := a + 64 + 32 * (k % len)
        let body := e.bytes s (s.uclock / 1500 % 2 ^ 32)
        let first := ofBytes (body.take 4) % 2 ^ 8 + (if k / len % 2 = 0 then 2 ^ 31 else 0)
        let s := engineWrite s (at_ + 4) (body.drop 4)
        let s := engineWrite s at_ (toBytes first 4)
        let s := engineWrite s a (toBytes (k + 1) 4)
        signalHost { s with eventsOut := s.eventsOut + 1 } eventQueue 0 (h - nbits h 160 11 * 2 ^ 160)

/-- The oldest record held for a ring is written, or marks the ring as full. -/
def ringStep (q ring : Nat) (s : State) : State :=
  if q = eventQueue then writeEvent s
  else
    match heldFor s q ring with
    | some r => writeRec s r
    | none => s

/-- COMPLETION_RECORD_WRITE (R202, R406). -/
def execCompletionRecordWrite (q ring : Nat) (s : State) : Out := event (ringStep q ring) s

/-- RING_CONS_ADVANCE (R202): software has changed CONS of a ring; a held record is written. -/
def execRingConsAdvance (q ring : Nat) (s : State) : Out := event (ringStep q ring) s

/-- The header of a ring: an event ring's interrupts go out on vector 0. -/
def ringHeader (s : State) (q ring : Nat) : Nat :=
  if q = eventQueue then
    let h := peekNat s s.eventRing 64
    h - nbits h 160 11 * 2 ^ 160
  else peekNat s (ringAddr s q ring) 64

/-- Whether a ring's interrupt is due (R202): with HIEN, HCOAL records have been written since the last one, or HTIME microseconds of the
1,500 MHz uncore have passed since the first that is not signalled. -/
def irqDue (s : State) (x : HostIrq) : Bool :=
  let h := ringHeader s x.queue x.ring
  let htime := nbits h 144 16
  h.testBit 97 && (max 1 (nbits h 128 16) ≤ x.waiting || x.since.any fun t => htime != 0 && t + 1500 * htime ≤ s.uclock)

/-- HOST_INTERRUPT_TIMER (R202, R406). -/
def execHostInterruptTimer (q ring : Nat) (s : State) : Out :=
  event (fun s =>
    match s.irqs.find? fun x => x.queue == q && x.ring == ring && irqDue s x with
      | some x =>
        let s := { s with irqs := s.irqs.erase x }
        { s with raised := s.raised ++ [nbits (ringHeader s q ring) 160 11] }
      | none => s) s

end Sys2Proof.Machine
end

