-- ==== Sys2Proof/Machine/Matrix.lean ====
section
/-! DEFINITION. The matrix engine: tile-store regions and their tags (R222 to R226, R314, R315), the decoding of
operands (R316), and the M instructions (R308 to R326, R333 to R335, R47, R48). -/

namespace Sys2Proof.Machine

/-! Tile-store regions. -/

/-- A region of the share: base line, rows, format, and whether it is ROW (else PLANE); one column group. -/
structure Region where
  base : Nat
  rows : Nat
  fmt : Nat
  row : Bool
  deriving DecidableEq, Repr

def Region.w (g : Region) : Nat := fmtWidth g.fmt
def Region.lines (g : Region) : Nat := g.rows * g.w
/-- Base line and lines of the SCALE region that follows an E2M1 region (R315). -/
def Region.scaleBase (g : Region) : Nat := g.base + g.rows * 4
def Region.scaleLines (g : Region) : Nat := if g.fmt = 5 then g.rows + 16 else 0

/-- Code of a row count in a layout tag (Table 9.5). -/
def rowsCode (r : Nat) : Nat := if r = 16 then 0 else if r = 32 then 1 else if r = 64 then 2 else 3

/-- A layout tag (Table 9.5). -/
def mkTag (kind fmt rows cg : Nat) (first : Bool) : W16 :=
  BitVec.ofNat 16 (kind + 4 * fmt + 64 * rowsCode rows + 256 * cg + if first then 512 else 0)

def Region.kind (g : Region) : Nat := if g.row then 2 else 1

/-- The first line of `n` from `base` that lies outside the share (R229). -/
def lineBad (p : Part) (base n : Nat) : Option Nat := if base + n ≤ p.tslen then none else some (max base p.tslen)

/-- The first line of a region, or of its scales, that lies outside the share. -/
def Region.outside (p : Part) (g : Region) : Option Nat :=
  match lineBad p g.base g.lines with
  | some l => some l
  | none => if g.fmt = 5 then lineBad p g.scaleBase g.scaleLines else none

/-- The line of the first granule of `n` lines from `base` whose tag is not the expected one (R226). -/
def tagBad (p : Part) (base n kind fmt rows : Nat) : Option Nat :=
  ((List.range ((n + 15) / 16)).find? fun i => tileTag p (base / 16 + i) != mkTag kind fmt rows 0 (i = 0)).map
    fun i => base + 16 * i

def Region.mistagged (p : Part) (g : Region) : Option Nat :=
  match tagBad p g.base g.lines g.kind g.fmt g.rows with
  | some l => some l
  | none => if g.fmt = 5 then tagBad p g.scaleBase g.scaleLines 3 5 g.rows else none

/-- A line as a unit of slot `unit` reads it: before the deadline of a write of another slot, the old line or the new one (R227,
R334). -/
def unitLine (s : State) (unit l : Nat) : W128 :=
  let p := cur s
  pickOld s (100000 + l) (tileLine p l) (oldsFor p unit ((mget p.tileWas l).getD []))

/-- A byte of the scratchpad as a unit of slot `unit` reads it: old or new by 16-byte units. -/
def unitByte (s : State) (unit o : Nat) : Byte :=
  let c := curCore s
  let u := o / 16
  match oldsFor (cur s) unit ((mget c.spWas u).getD []) with
  | [] => scratchByte c o
  | olds => BitVec.ofNat 8 ((pickOld s (5000 + u) (spUnitOf c u) olds).toNat / 2 ^ (8 * (o % 16)))

/-- The codes of row `i` of a region, 128 elements (R224, R314). -/
def Region.row_ (s : State) (unit : Nat) (g : Region) (i : Nat) : List Nat :=
  if g.row then
    let x := ofLines (tab g.w fun t => unitLine s unit (g.base + g.w * i + t))
    tab 128 fun k => elem x g.w k
  else
    let ls := tab g.w fun j => unitLine s unit (g.base + g.rows * j + i)
    tab 128 fun k => (List.zip (List.range g.w) ls).foldl (fun x jl => if jl.2.getLsbD k then x + 2 ^ jl.1 else x) 0
where
  ofLines : List W128 → Nat
    | [] => 0
    | l :: ls => l.toNat + 2 ^ 128 * ofLines ls

/-- Block scale of block `b` of row `i`, and band scale of row `i`, of an E2M1 region (R315). -/
def Region.blockScale (s : State) (unit : Nat) (g : Region) (i b : Nat) : Nat :=
  elem (unitLine s unit (g.scaleBase + i)).toNat 8 b
def Region.bandScale (s : State) (unit : Nat) (g : Region) (i : Nat) : Nat :=
  elem (unitLine s unit (g.scaleBase + g.rows)).toNat 16 (i / 64)

/-! FP4 (R28 to R31). -/

/-- E2M1 as a floating format; it has neither infinity nor NaN, which its users take care of. -/
def e2m1 : FFmt := { w := 4, f := 1, bias := 1, ieee := false }

/-- The value of an E2M1 code (R28). -/
def e2m1Value (x : Nat) : Num :=
  let neg := x.testBit 3
  let e := x / 2 % 4
  if e = 0 then .fin neg (x % 2) (-1) else .fin neg (2 + x % 2) ((e : Int) - 2)

/-- The value of an E3M5 code as `m * 2^e` (R29). -/
def e3m5Value (c : Nat) : Nat × Int :=
  if c / 32 % 8 = 0 then (c % 32, -8) else (32 + c % 32, ((c / 32 % 8 : Nat) : Int) - 9)

/-- A BF16 scale that is finite and above zero (R31), as `m * 2^e`. -/
def posScale (b : Nat) : Option (Nat × Int) :=
  match (ffmt 1).decode b with
  | .fin false m e => if m = 0 then none else some (m, e)
  | _ => none

/-- An element with its scales: its value, and whether reading it sets NV (R30, R31). -/
def fp4Value (code block band : Nat) : Num × Bool :=
  match posScale band with
  | none => (.nan, true)
  | some (bm, be) =>
    if block = 0xFF then (.nan, false)
    else
      let v := e3m5Value block
      ((numMul (e2m1Value code) (.fin false (v.1 * bm) (v.2 + be))).1, false)

/-- The values of row `i` of a region, with the NV of each read; `trunc` low bits of each code are taken as 0 (R316). -/
def Region.values (s : State) (unit : Nat) (g : Region) (trunc i : Nat) : List (Num × Bool) :=
  let codes := (g.row_ s unit i).map fun c => c / 2 ^ trunc * 2 ^ trunc
  if g.fmt = 5 then
    let band := g.bandScale s unit i
    let line := (unitLine s unit (g.scaleBase + i)).toNat
    (List.zip (List.range 128) codes).map fun kc => fp4Value kc.2 (elem line 8 (kc.1 / 8)) band
  else codes.map fun c => (fmtDecode g.fmt c, false)

/-! Format-table entries and matrix control registers (Tables 13.2, 13.3). -/

/-- A format-table entry. -/
structure FEntry where
  word : W64
  deriving DecidableEq, Repr

def FEntry.a (e : FEntry) : Nat := nbits e.word.toNat 0 4
def FEntry.b (e : FEntry) : Nat := nbits e.word.toNat 4 4
def FEntry.rows (e : FEntry) : Nat := 16 * 2 ^ nbits e.word.toNat 8 2
def FEntry.npl (e : FEntry) : Nat :=
  let n := nbits e.word.toNat 12 5
  if n = 0 then fmtWidth e.a else n
def FEntry.ofmt (e : FEntry) : Nat := nbits e.word.toNat 20 4
def FEntry.ornd (e : FEntry) : Nat := nbits e.word.toNat 24 3
def FEntry.oovp (e : FEntry) : Nat := nbits e.word.toNat 27 3
def FEntry.asc (e : FEntry) : Nat := nbits e.word.toNat 32 16
def FEntry.bsc (e : FEntry) : Nat := nbits e.word.toNat 48 16
/-- A pair of integer formats (Table 13.4). -/
def FEntry.isInt (e : FEntry) : Bool := 6 ≤ e.a
def FEntry.legal (e : FEntry) : Bool := entryLegal (e.word.setWidth 32)

/-- The entry that a loop counter selects, with its number. -/
def entryOf (s : State) (lcx : BitVec 2) : FEntry × Nat :=
  let n := (readLc s lcx).toNat % 16
  ({ word := (cur s).ft.toList.getD n 0 }, n)

/-- Whether the gate of a kind of syllable (field 0 to 3 of MCG) lets it perform (R318). -/
def gateOn (s : State) (field : Nat) : Bool :=
  let f := nbits (cur s).mcg.toNat (4 * field) 4
  f < 8 || (readG s (BitVec.ofNat 3 f)).getLsbD 0

/-- The bank that an ACC field names (R313). -/
def bankFor (p : Part) (a : BitVec 3) : Nat := nbits p.mcr.toNat (3 * a.toNat) 3

def bankRow (p : Part) (bank i : Nat) : VReg :=
  (mget p.acc (128 * bank + i)).getD (undef p.born (200000 + 128 * bank + i) 4096)

def putBankRow (p : Part) (bank i : Nat) (x : VReg) : Part := { p with acc := mput p.acc (128 * bank + i) x }

def putBankRows (p : Part) (bank i : Nat) : List VReg → Part
  | [] => p
  | x :: xs => putBankRows (putBankRow p bank i x) bank (i + 1) xs

/-- A field that names an unclaimed bank is illegal (R313). -/
def bankOk (s : State) (a : BitVec 3) : Bool := (cur s).accs.getLsbD a.toNat

/-! Sums (R47, R48). -/

/-- The exact sum of numbers. -/
def exactSum : List Num → Num
  | [] => .fin true 0 0
  | x :: xs => (numAdd .rne x (exactSum xs)).1

/-- The exact sum of the terms of a step, and whether it is invalid: an invalid product, or infinities of both signs among
the terms, whatever else they hold. -/
def stepSum (ts : List (Num × Bool)) : Num × Bool :=
  (exactSum (ts.map (·.1)),
   ts.any (·.2) || (ts.any (·.1 == .inf false) && ts.any (·.1 == .inf true)))

/-- The products of a cell in a step. -/
def products (as bs : List (Num × Bool)) : List (Num × Bool) :=
  (List.zip as bs).map fun ab =>
    let q := numMul ab.1.1 ab.2.1
    (q.1, q.2 || ab.1.2 || ab.2.2)

/-- One floating step of a cell (R47): its new code and its flags. An empty sum is +0. -/
def floatStep (cell : Nat) (ts : List (Num × Bool)) : Nat × Flags :=
  let r := if ts.isEmpty then (.fin false 0 0, false) else stepSum ts
  let c1 := (ffmt 0).encode r.1 .rne .inf
  let q := numAdd .rne ((ffmt 0).decode cell) ((ffmt 0).decode c1.code)
  let c2 := (ffmt 0).encode q.1 .rne .inf
  (c2.code, c1.flags ||| c2.flags ||| (if r.2 || q.2 then flagNV else 0))

/-- One integer step of a cell (R48). -/
def intStep (cell : Nat) (ts : List Int) : Nat × Flags :=
  let z := toSigned cell 32 + ts.foldl (· + ·) 0
  let c := max (-(2 ^ 31)) (min (2 ^ 31 - 1) z)
  (ofInt c 32, if c = z then 0 else flagOF)

def numInt (x : Num) : Int :=
  match x with
  | .fin neg m e => if neg then -((shl m e : Nat) : Int) else (shl m e : Nat)
  | _ => 0

/-- Multiplies operand values by a tensor scale, one that is not finite or not above zero making every product NaN (R316). -/
def tensorScale (sc : Nat) (x : Num × Bool) : Num × Bool :=
  match posScale sc with
  | none => (.nan, true)
  | some (m, e) => ((numMul x.1 (.fin false m e)).1, x.2)

/-- The four steps of a cell: `a` its row of A and `b` its column of B, as far as k goes. -/
def cellSteps (isInt : Bool) (a b : List (Num × Bool)) : Nat → Nat → Nat × Flags → Nat × Flags
  | 0, _, acc => acc
  | n + 1, q, acc =>
    let as := (a.drop (32 * q)).take 32
    let bs := (b.drop (32 * q)).take 32
    let r := if isInt then intStep acc.1 ((List.zip as bs).map fun x => numInt x.1.1 * numInt x.2.1)
      else floatStep acc.1 (products as bs)
    cellSteps isInt a b n (q + 1) (r.1, r.2 ||| acc.2)

/-- New contents of one row of the bank: columns below `vn` change. -/
def rowStep (isInt : Bool) (a : List (Num × Bool)) (cols : List (List (Num × Bool))) (vn : Nat) (old : VReg) :
    VReg × Flags :=
  let cells := (List.zip (List.range 128) cols).map fun jc =>
    let x := elem old.toNat 32 jc.1
    if jc.1 < vn then cellSteps isInt a jc.2 4 0 (x, 0) else (x, 0)
  (BitVec.ofNat 4096 (packElems 32 (cells.map (·.1))), cells.foldl (fun f c => f ||| c.2) 0)

/-- Column `j` of rows of values. -/
def column (rows : List (List (Num × Bool))) (j : Nat) : List (Num × Bool) := rows.map fun r => r.getD j (.nan, false)

/-- A result of a unit that has no register, by its latency, with its flags and the storage that it writes. -/
def unitResult (i : Instr) (lat : Nat) (fl : Flags) (ranges : List LocalRange) (s : State) : State :=
  setCur s (pushPend (cur s) { newPend i s lat with flags := fl, ranges := ranges, st := .engine })

/-- MSTEP (R317). -/
def mstepBody (f : MT) (s : State) : Except TrapReq State :=
  let i := Instr.mstep f
  let p := cur s
  let (e, n) := entryOf s f.lcx
  if !bankOk s f.acc then illegal i
  else if !gateOn s 0 then .ok s
  else if !e.legal then trapReq cMatrix (BitVec.ofNat 64 n)
  else
    let la := nbits p.mca.toNat 0 16 + 16 * nbits p.mca.toNat 16 8 * f.ta.toNat
    let lb := nbits p.mcb.toNat 0 16 + 16 * nbits p.mcb.toNat 16 8 * f.tb.toNat
    let ra : Region := { base := la, rows := e.rows, fmt := e.a, row := false }
    let rb : Region := { base := lb, rows := 128, fmt := e.b, row := (tileTag p (lb / 16)).toNat % 4 = 2 }
    match ra.outside p, rb.outside p with
    | some l, _ => localLine l
    | _, some l => localLine l
    | none, none =>
      match ra.mistagged p, rb.mistagged p with
      | some l, _ => trapReq cLayout (BitVec.ofNat 64 l)
      | _, some l => trapReq cLayout (BitVec.ofNat 64 l)
      | none, none =>
        let vm := min e.rows (128 - nbits p.mce.toNat 0 8)
        let vn := 128 - nbits p.mce.toNat 8 8
        let vk := 128 - nbits p.mce.toNat 16 8
        let scale (sc : Nat) (l : List (Num × Bool)) : List (Num × Bool) :=
          if e.isInt then l else l.map (tensorScale sc)
        let brows := tab vk fun k => scale e.bsc (rb.values s 4 0 k)
        let cols := tab 128 fun j => column brows j
        let bank := bankFor p f.acc
        let rows := tab vm fun i =>
          rowStep e.isInt ((scale e.asc (ra.values s 4 (fmtWidth e.a - e.npl) i)).take vk) cols vn (bankRow p bank i)
        let fl := rows.foldl (fun x r => x ||| r.2) 0
        let s := setCur s (putBankRows p bank 0 (rows.map (·.1)))
        .ok (unitResult i (8 * e.npl * (if e.isInt then 2 else 1) + 6) fl [] s)

def execMstep (f : MT) (s : State) : Out := runSyl (.mstep f) (mstepBody f) s

/-- MZERO (R320). -/
def mzeroBody (f : MT) (s : State) : Except TrapReq State :=
  if !bankOk s f.acc then illegal (.mzero f)
  else if !gateOn s 1 then .ok s
  else
    let p := cur s
    .ok (unitResult (.mzero f) 6 0 [] (setCur s (putBankRows p (bankFor p f.acc) 0 (List.replicate 128 0))))

def execMzero (f : MT) (s : State) : Out := runSyl (.mzero f) (mzeroBody f) s

/-- The first byte of `n` from `off` outside the partition's share (R229). -/
def shareBad (p : Part) (c : CoreSt) (off n : Nat) : Option Nat :=
  if rangeInShare p c off n then none
  else if off < p.spbase then some off
  else some (max off (min (p.spbase + p.splen) (scratchSize c)))

/-- Offset and swizzle mode of the scratchpad unit of MREAD and MWRITE (R321). -/
def mOffset (p : Part) (tb : BitVec 7) : Nat :=
  256 * (nbits p.mcs.toNat 0 13 + nbits p.mcs.toNat 15 8 * tb.toNat)
def mSwz (p : Part) : Nat := nbits p.mcs.toNat 13 2

/-- The 16-byte units of `n` bytes from `off`, as a swizzle mode places them. -/
def swzRanges (mode off n : Nat) : List LocalRange :=
  if mode = 0 then [{ tile := false, lo := off, n := n }]
  else tab (n / 16) fun i => { tile := false, lo := swizzle mode (off + 16 * i), n := 16 }

/-- Writes bytes at logical offsets through a swizzle mode. -/
def writeSwz (c : CoreSt) (mode off : Nat) : List Byte → CoreSt
  | [] => c
  | b :: bs => writeSwz (writeScratch c (swizzle mode off) b) mode (off + 1) bs

/-- MREAD (R321). -/
def mreadBody (f : MT) (s : State) : Except TrapReq State :=
  let i := Instr.mread f
  let p := cur s
  let (e, n) := entryOf s f.lcx
  if !bankOk s f.acc then illegal i
  else if !gateOn s 2 then .ok s
  else if !e.legal then trapReq cMatrix (BitVec.ofNat 64 n)
  else
    let g := f.ta.toNat % 8
    let w := fmtWidth e.ofmt
    let off := mOffset p f.tb
    match shareBad p (curCore s) off (256 * w) with
    | some o => localRange o
    | none =>
      let conv (x : Nat) : Conv :=
        convert (if e.isInt then numOfInt (toSigned x 32) else (ffmt 0).decode x) e.ofmt (rnd3 e.ornd p.fpctl)
          (ovp3 e.oovp p.fpctl)
      let rows := tab 16 fun r =>
        let x := (bankRow p (bankFor p f.acc) (16 * g + r)).toNat
        collect (tab 128 fun j => conv (elem x 32 j))
      if rows.any (·.trap) then .ok (overflowResult i 24 s)
      else
        let bytes := rows.flatMap fun r => toBytes (packElems w r.codes) (16 * w)
        let s := deferScratch s ((List.zip (List.range bytes.length) bytes).map fun q => (swizzle (mSwz p) (off + q.1), q.2))
        .ok (unitResult i 24 (rows.foldl (fun x r => x ||| r.flags) 0) (swzRanges (mSwz p) off (256 * w)) s)

def execMread (f : MT) (s : State) : Out := runSyl (.mread f) (mreadBody f) s

/-- MWRITE (R322). -/
def mwriteBody (f : MT) (s : State) : Except TrapReq State :=
  let i := Instr.mwrite f
  let p := cur s
  if !bankOk s f.acc then illegal i
  else if !gateOn s 3 then .ok s
  else
    let off := mOffset p f.tb
    match shareBad p (curCore s) off 8192 with
    | some o => localRange o
    | none =>
      let rows := tab 16 fun r =>
        BitVec.ofNat 4096 (ofBytes (tab 512 fun b => unitByte s 4 (swizzle (mSwz p) (off + 512 * r + b))))
      .ok (unitResult i 24 0 [] (setCur s (putBankRows p (bankFor p f.acc) (16 * (f.ta.toNat % 8)) rows)))

def execMwrite (f : MT) (s : State) : Out := runSyl (.mwrite f) (mwriteBody f) s

/-- MFMT (R323). -/
def execMfmt (f : MT) (s : State) : Out :=
  runSyl (.mfmt f) (fun s => .ok (result (.mfmt f) 1 [.ftLo (f.ta.setWidth 4) (f.x.getD 0)] 0 s)) s

/-- MSCALE (R323). -/
def execMscale (f : MT) (s : State) : Out :=
  runSyl (.mscale f) (fun s => .ok (result (.mscale f) 1 [.ftHi (f.ta.setWidth 4) (f.x.getD 0)] 0 s)) s

/-- MLOOP (R324). -/
def execMloop (f : MT) (s : State) : Out :=
  runSyl (.mloop f) (fun s => .ok (result (.mloop f) 1 [.mc f.ta.toNat (f.x.getD 0)] 0 s)) s

/-- MEDGE (R325). -/
def medgeBody (f : MT) (s : State) : Except TrapReq State :=
  match useS s (f.ta.setWidth 6) with
  | .error e => .error e
  | .ok x => .ok (result (.medge f) 1 [.edge f.tb.toNat (BitVec.ofNat 8 (min (x.toNat % 2 ^ 32) 128))] 0 s)

def execMedge (f : MT) (s : State) : Out := runSyl (.medge f) (medgeBody f) s

/-- The bank map after a rotation of `n` banks from `a` on (R326). -/
def rotateMap (m a n : Nat) : Nat :=
  packElems 3 (tab 8 fun k => if a ≤ k && k < a + n then elem m 3 (a + (k - a + 1) % n) else elem m 3 k) + m / 2 ^ 24 * 2 ^ 24

/-- MROT (R326). -/
def mrotBody (f : MT) (s : State) : Except TrapReq State :=
  let a := f.acc.toNat
  let n := f.ta.toNat % 8 + 1
  if !((List.range n).all fun k => (cur s).accs.getLsbD (a + k)) then illegal (.mrot f)
  else .ok (result (.mrot f) 1 [.mc 4 (BitVec.ofNat 32 (rotateMap (cur s).mcr.toNat a n))] 0 s)

def execMrot (f : MT) (s : State) : Out := runSyl (.mrot f) (mrotBody f) s

end Sys2Proof.Machine
end

