-- ==== Sys2Proof/Machine/Xform.lean ====
section
/-! DEFINITION. The transform unit (R327 to R335) and conversion to FP4 blocks (R45). -/

namespace Sys2Proof.Machine

/-- One converted block (R45): its block scale, its eight element codes, its flags, and the overflow trap. -/
structure Block where
  scale : Nat
  codes : List Nat
  flags : Flags
  trap : Bool
  deriving DecidableEq, Repr

def Block.void (fl : Flags) : Block := { scale := 0xFF, codes := List.replicate 8 0, flags := fl, trap := false }

/-- The greater of two magnitudes. -/
def magMax (a b : Nat × Int) : Nat × Int := if magLt a.1 a.2 b.1 b.2 then b else a

def isInfNum (x : Num) : Bool :=
  match x with
  | .inf _ => true
  | _ => false

/-- Magnitude of a finite value; 0 for the rest. -/
def magOf (x : Num) : Nat × Int :=
  match x with
  | .fin _ m e => (m, e)
  | _ => (0, 0)

/-- xi / d rounded to E2M1, at most 6, with the sign of its source; `d` = `n * 2^f` above zero. -/
def e2m1Round (mode : RMode) (x : Num) (n : Nat) (f : Int) : Nat :=
  match x with
  | .nan => 0
  | .inf neg => e2m1.signed neg 7
  | .fin neg m e =>
    match finDiv neg m e n f with
    | .fin _ qm qe =>
      let r := roundMag mode neg qm qe 2 e2m1.qmin
      e2m1.signed neg (min 7 (e2m1.magCode r.1 r.2))
    | _ => 0

/-- Conversion of eight values to one E2M1 block with a band scale given by its BF16 code (R45). -/
def blockConv (xs : List Num) (band : Nat) (mode : RMode) (pol : Policy) : Block :=
  match posScale band with
  | none => Block.void (flagNV ||| flagBV)
  | some (bm, be) =>
    if xs.any isNan then Block.void (flagNV ||| flagBV)
    else
      let a := xs.foldl (fun x y => magMax x (magOf y)) (0, 0)
      let tooBig := xs.any isInfNum || magLt (93 * bm) be a.1 a.2
      if a.1 = 0 && !tooBig then
        { scale := 0, codes := xs.map fun x => e2m1Round mode x 1 0, flags := 0, trap := false }
      else if tooBig then
        match pol with
        | .trap => { scale := 0, codes := [], flags := 0, trap := true }
        | .sat =>
          { scale := 0xFE, codes := xs.map fun x => e2m1Round mode x (31 * bm) (be - 1), flags := flagOF, trap := false }
        | _ => Block.void (flagOF ||| flagBV)
      else
        let fits (c : Nat) : Bool :=
          let v := e3m5Value c
          !magLt (6 * v.1 * bm) (v.2 + be) a.1 a.2
        let c := ((List.range 254).map (· + 1)).find? fits |>.getD 0xFE
        let v := e3m5Value c
        { scale := c, codes := xs.map fun x => e2m1Round mode x (v.1 * bm) (v.2 + be), flags := 0, trap := false }

/-- A tile to be written: its rows of codes, and for E2M1 the block scales of each row and the two band scales. -/
structure Tile where
  rows : List (List Nat)
  blocks : List (List Nat)
  bands : List Nat
  deriving DecidableEq, Repr

/-- The lines of a region with 128 rows (R224, R314), the SCALE region of an E2M1 one after them (R315). -/
def Tile.lines (t : Tile) (g : Region) : List W128 :=
  let plane (j : Nat) (r : List Nat) : W128 := BitVec.ofNat 128 (packElems 1 (r.map fun c => if c.testBit j then 1 else 0))
  let body :=
    if g.row then
      t.rows.flatMap fun r =>
        let x := packElems g.w r
        tab g.w fun k => BitVec.ofNat 128 (elem x 128 k)
    else (List.range g.w).flatMap fun j => t.rows.map (plane j)
  if g.fmt = 5 then
    body ++ t.blocks.map (fun b => BitVec.ofNat 128 (packElems 8 b)) ++ [BitVec.ofNat 128 (packElems 16 t.bands)] ++
      List.replicate 15 0
  else body

def putLines (m : TMap W128) (l : Nat) : List W128 → TMap W128
  | [] => m
  | x :: xs => putLines (mput m l x) (l + 1) xs

/-- Tags of the granules that `n` lines from `base` cover, whole or in part, written at issue (R225). -/
def putTags (m : TMap W16) (base n kind fmt rows cg : Nat) : TMap W16 :=
  (List.range ((base + n + 15) / 16 - base / 16)).foldl (fun m i => mput m (base / 16 + i) (mkTag kind fmt rows cg (i = 0))) m

def Region.tagAll (g : Region) (m : TMap W16) : TMap W16 :=
  let m := putTags m g.base g.lines g.kind g.fmt g.rows 0
  if g.fmt = 5 then putTags m g.scaleBase g.scaleLines 3 5 g.rows 0 else m

/-- Occupancy plus 8 (Table 13.1). -/
def xLat (a b : Nat) : Nat := 8 * max (fmtWidth a) (fmtWidth b) + (if a = 5 || b = 5 then 16 else 0) + 8

/-- An X syllable writes its destination: tags at issue, lines by its deadline; nothing but the tags on an overflow
under TRAP (R331, R333). -/
def xWrite (i : Instr) (lat : Nat) (g : Region) (t : Tile) (fl : Flags) (trap : Bool) (s : State) : State :=
  let p := cur s
  let s := setCur s { p with tags := g.tagAll p.tags }
  if trap then overflowResult i lat s
  else
    let w : Was := wasOf (cur s) (newPend i s lat)
    let p := keepLines (cur s) (some w) g.base (g.lines + g.scaleLines)
    let s := setCur s { p with tile := putLines p.tile g.base (t.lines g) }
    unitResult i lat fl [{ tile := true, lo := g.base, n := g.lines + g.scaleLines }] s

/-- A tile-store unit as a region of 128 rows. -/
def tileUnit (u : BitVec 7) (fmt : Nat) (row : Bool) : Region := { base := 256 * u.toNat, rows := 128, fmt := fmt, row := row }

/-- Offset and bytes of a scratchpad unit of a format (R327). -/
def spUnit (p : Part) (u : BitVec 7) : Nat := p.spbase + 4096 * u.toNat
def spBytes (fmt : Nat) : Nat := 2048 * fmtWidth fmt + if fmt = 5 then 2052 else 0

/-- The codes of the 128 rows of a scratchpad unit. -/
def spRows (s : State) (off fmt : Nat) : List (List Nat) :=
  let w := fmtWidth fmt
  tab 128 fun r =>
    let x := ofBytes (tab (16 * w) fun b => unitByte s 7 (off + 16 * w * r + b))
    tab 128 fun k => elem x w k

/-- The scales after the rows of an E2M1 scratchpad unit: block scales row by row, then the band scales (R186). -/
def spScales (s : State) (off : Nat) : List (List Nat) × List Nat :=
  let at_ (o : Nat) : Nat := (unitByte s 7 (off + 8192 + o)).toNat
  (tab 128 fun r => tab 16 fun b => at_ (16 * r + b), tab 2 fun a => at_ (2048 + 2 * a) + 256 * at_ (2049 + 2 * a))

/-- XPLANE (R329). -/
def xplaneBody (f : XT) (s : State) : Except TrapReq State :=
  let p := cur s
  let fmt := f.fmt.toNat
  let g := tileUnit f.d fmt false
  let off := spUnit p f.a
  match shareBad p (curCore s) off (spBytes fmt), g.outside p with
  | some o, _ => localRange o
  | _, some l => localLine l
  | none, none =>
    let sc := if fmt = 5 then spScales s off else ([], [])
    .ok (xWrite (.xplane f) (xLat fmt fmt) g { rows := spRows s off fmt, blocks := sc.1, bands := sc.2 } 0 false s)

def execXplane (f : XT) (s : State) : Out := runSyl (.xplane f) (xplaneBody f) s

/-- The rows of a region of 128 rows, with the scales of an E2M1 one. -/
def Region.tileOf (s : State) (g : Region) : Tile :=
  { rows := tab 128 fun i => g.row_ s 7 i
    blocks := if g.fmt = 5 then tab 128 fun i => tab 16 fun b => g.blockScale s 7 i b else []
    bands := if g.fmt = 5 then [g.bandScale s 7 0, g.bandScale s 7 64] else [] }

/-- The checks of XUNPL and XTRN on a PLANE source and a destination of the same format, in the order of R333. -/
def planeToSame (f : XT) (row : Bool) (s : State) (k : Region → Region → State) : Except TrapReq State :=
  let p := cur s
  let src := tileUnit f.a f.fmt.toNat false
  let dst := tileUnit f.d f.fmt.toNat row
  match src.outside p, dst.outside p with
  | some l, _ => localLine l
  | _, some l => localLine l
  | none, none =>
    match src.mistagged p with
    | some l => trapReq cLayout (BitVec.ofNat 64 l)
    | none => .ok (k src dst)

/-- XUNPL (R329). -/
def xunplBody (f : XT) (s : State) : Except TrapReq State :=
  planeToSame f true s fun src dst =>
    xWrite (.xunpl f) (xLat f.fmt.toNat f.fmt.toNat) dst (src.tileOf s) 0 false s

def execXunpl (f : XT) (s : State) : Out := runSyl (.xunpl f) (xunplBody f) s

/-- Rows and columns exchanged. -/
def transpose (rows : List (List Nat)) : List (List Nat) := tab 128 fun k => rows.map fun r => r.getD k 0

/-- XTRN (R330). -/
def xtrnBody (f : XT) (s : State) : Except TrapReq State :=
  planeToSame f false s fun src dst =>
    let t := src.tileOf s
    xWrite (.xtrn f) (xLat f.fmt.toNat f.fmt.toNat) dst { t with rows := transpose t.rows } 0 false s

def execXtrn (f : XT) (s : State) : Out := runSyl (.xtrn f) (xtrnBody f) s

/-- Groups of eight. -/
def eights (xs : List Num) : List (List Num) := tab 16 fun b => (xs.drop (8 * b)).take 8

/-- Rows of values quantised to E2M1 with the given band scales. -/
def quantise (rows : List (List Num)) (bands : List Nat) (mode : RMode) (pol : Policy) : Tile × Flags × Bool :=
  let bs := (List.zip (List.range 128) rows).map fun ir =>
    (eights ir.2).map fun x => blockConv x (bands.getD (ir.1 / 64) 0) mode pol
  ({ rows := bs.map fun r => r.flatMap (·.codes), blocks := bs.map fun r => r.map (·.scale), bands := bands },
   bs.foldl (fun f r => r.foldl (fun f b => f ||| b.flags) f) 0, bs.any fun r => r.any (·.trap))

/-- The element functions of XCVT, XEXP and XSCALE on a region whose first granule gives its kind and format, and is checked whole, FIRST
too, before everything else (R226, R331, R333). `op x fmt mode policy` converts one element. -/
def elementwise (i : Instr) (f : XT) (op : Num → Nat → RMode → Policy → Conv)
    (s : State) : Except TrapReq State :=
  let p := cur s
  let line := 256 * f.a.toNat
  if p.tslen ≤ line then localLine line
  else
    let tag := (tileTag p (line / 16)).toNat
    let kind := tag % 4
    let sf := tag / 4 % 16
    if !((kind = 1 || kind = 2) && fmtTile sf && tag / 64 % 4 = 3 && tag / 256 % 2 = 0 && tag / 512 % 2 = 1) then
      trapReq cLayout (BitVec.ofNat 64 line)
    else
      let fmt := f.fmt.toNat
      let src := tileUnit f.a sf (kind = 2)
      let dst := tileUnit f.d fmt (kind = 2)
      match src.outside p, dst.outside p with
      | some l, _ => localLine l
      | _, some l => localLine l
      | none, none =>
        match src.mistagged p with
        | some l => trapReq cLayout (BitVec.ofNat 64 l)
        | none =>
          let mode := rmodeOf (p.fpctl.toNat % 4)
          let pol := policyOf f.ovp.toNat
          let vals := tab 128 fun i => src.values s 7 0 i
          let nv : Flags := if vals.any fun r => r.any (·.2) then flagNV else 0
          let r : Tile × Flags × Bool :=
            if fmt = 5 then quantise (vals.map fun r => r.map (·.1)) [0x3F80, 0x3F80] mode pol
            else
              let rows := vals.map fun r => collect (r.map fun x => op x.1 fmt mode pol)
              ({ rows := rows.map (·.codes), blocks := [], bands := [] }, rows.foldl (fun x r => x ||| r.flags) 0,
               rows.any (·.trap))
          .ok (xWrite i (xLat sf fmt) dst r.1 (r.2.1 ||| nv) r.2.2 s)

/-- XCVT (R331). -/
def execXcvt (f : XT) (s : State) : Out :=
  runSyl (.xcvt f) (elementwise (.xcvt f) f (fun x t m o => convert x t m o)) s

/-- XEXP (R331). -/
def execXexp (f : XT) (s : State) : Out :=
  runSyl (.xexp f) (elementwise (.xexp f) f (fun x t m o => convert (numExp2 x) t m o)) s

/-- XSCALE (R331). -/
def execXscale (f : XT) (s : State) : Out :=
  let c := (ffmt 1).decode (f.x.getD 0).toNat
  runSyl (.xscale f) (elementwise (.xscale f) f (fun x t m o => roundFloat t m o (numMul x c))) s

/-- The band scale that XQNT computes (R332), as a BF16 code. -/
def bandScaleOf (rows : List (List Num)) : Nat :=
  let xs := rows.flatten.filter fun x => !isNan x
  let a := xs.foldl (fun x y => magMax x (magOf y)) (0, 0)
  if xs.any isInfNum || a.1 = 0 then 0x3F80
  else
    let n := (List.range 254).find? fun (i : Nat) => !magLt 93 ((i : Int) - 126) a.1 a.2
    128 * (n.getD 253 + 1)

/-- XQNT (R332). -/
def xqntBody (f : XT) (s : State) : Except TrapReq State :=
  let p := cur s
  let fmt := f.fmt.toNat
  let g := tileUnit f.d 5 false
  let off := spUnit p f.a
  match shareBad p (curCore s) off (spBytes fmt), g.outside p with
  | some o, _ => localRange o
  | _, some l => localLine l
  | none, none =>
    let rows := (spRows s off fmt).map fun r => r.map (fmtDecode fmt)
    let bands := match f.x with
      | some x => [x.toNat % 65536, x.toNat % 65536]
      | none => [bandScaleOf (rows.take 64), bandScaleOf (rows.drop 64)]
    let r := quantise rows bands (rmodeOf (p.fpctl.toNat % 4)) (policyOf f.ovp.toNat)
    .ok (xWrite (.xqnt f) (xLat fmt 5) g r.1 r.2.1 r.2.2 s)

def execXqnt (f : XT) (s : State) : Out := runSyl (.xqnt f) (xqntBody f) s

end Sys2Proof.Machine
end

