-- ==== Sys2Proof/Machine/Copy.lean ====
section
/-! DEFINITION. The copy engines: the tile copies with their checks, pieces and units, their faults and their ends
(R185 to R192, R195 to R199, R207, R208), and BARSET (R194). -/

namespace Sys2Proof.Machine

/-! The operand (Table 8.4). -/

def Copy.word (x : Copy) (i : Nat) : Nat := (x.opd.getD i 0).toNat
def Copy.handle (x : Copy) : Nat := nbits (x.word 0) 0 20
def Copy.cols (x : Copy) : Nat := nbits (x.word 0) 20 7 + 1
def Copy.rows (x : Copy) : Nat := nbits (x.word 0) 27 7 + 1
def Copy.ring (x : Copy) : Nat := nbits (x.word 0) 34 3
def Copy.recd (x : Copy) : Bool := (x.word 0).testBit 37
def Copy.uint (x : Copy) : Bool := (x.word 0).testBit 38
def Copy.bar (x : Copy) : Nat := nbits (x.word 0) 48 16
def Copy.loc (x : Copy) : Nat := nbits (x.word 3) 0 32
def Copy.dhandle (x : Copy) : Nat := nbits (x.word 3) 0 20
def Copy.pitchF (x : Copy) : Nat := nbits (x.word 3) 32 16
def Copy.tag (x : Copy) : Nat := nbits (x.word 3) 48 16
def Copy.det (x : Copy) : Bool := x.seq.isNone
/-- Coordinate of tile column `j` of row `r`. -/
def Copy.coord (x : Copy) (r j : Nat) : Coord :=
  { c0 := nbits (x.word 1) 0 32 + j, c1 := nbits (x.word 1) 32 32 + r, c2 := nbits (x.word 2) 0 32, c3 := nbits (x.word 2) 32 32 }

/-- The operand words after `n` re-issues (R185): C0 or C1 advances by STEP0, LOCAL by STEP1 but for OCOPY. -/
def stepOpd (op : Nat) (axis1 : Bool) (ext : Option W32) (n : Nat) (w : List W64) : List W64 :=
  let e := (ext.getD 0).toNat
  let add (x : W64) (lo : Nat) (d : Int) : W64 :=
    let old := nbits x.toNat lo 32
    BitVec.ofNat 64 (x.toNat - old * 2 ^ lo + ofInt ((old : Int) + d * n) 32 * 2 ^ lo)
  let w1 := add (w.getD 1 0) (if axis1 then 32 else 0) (toSigned (e % 65536) 16)
  let w3 := if op = 2 then w.getD 3 0 else add (w.getD 3 0) 0 (toSigned (e / 65536) 16)
  [w.getD 0 0, w1, w.getD 2 0, w3]

/-- The access of a copy to its object (Table 8.3). -/
def Copy.kind (x : Copy) : Kind :=
  if x.op = 5 then { cls := clsMatrix, rd := true, wr := false }
  else if x.op = 4 then { cls := clsCopy, rd := x.red, wr := true }
  else { cls := clsCopy, rd := true, wr := false }

/-- The records that a copy names: its object's, and for OCOPY the destination's. -/
def Copy.recs (s : State) (core : Nat) (x : Copy) : State × Except Nat (ObjRec × Option ObjRec) :=
  let (s, r) := recFor s core x.queue x.handle x.kind
  match r with
  | .error e => (s, .error e)
  | .ok r =>
    if x.op = 2 then
      let (s, d) := recFor s core x.queue x.dhandle { cls := clsCopy, rd := false, wr := true }
      match d with
      | .error e => (s, .error e)
      | .ok d => (s, .ok (r, some d))
    else (s, .ok (r, none))

/-- The shape of an object's record. -/
def ObjRec.shape (r : ObjRec) : Geo := { fmt := r.fmt, layout := r.layout, e0 := r.e0, e1 := r.e1, e2 := r.e2, e3 := r.e3 }

/-- A record with a shape. -/
def Geo.on (g : Geo) (r : ObjRec) : ObjRec :=
  { r with fmt := g.fmt, layout := g.layout, e0 := g.e0, e1 := g.e1, e2 := g.e2, e3 := g.e3 }

/-- A record of which only the shape counts. -/
def Geo.rec_ (g : Geo) : ObjRec := g.on (ObjRec.of 0)

/-- The record by which a copy places its local side and its pieces: that of its checks (R188). -/
def Copy.geo (x : Copy) (r : ObjRec) : ObjRec :=
  match x.shape with
  | some g => g.on r
  | none => r

/-- Whether FMT, LAYOUT or the extents of a record have changed since the checks of the copy: what its pieces then move is
undefined (R188). -/
def Copy.reshaped (x : Copy) (r : ObjRec) (d : Option ObjRec) : Bool :=
  x.shape.any (· != r.shape) || x.dshape.any fun g => d.any fun d => g != d.shape

/-- What a copy whose record cannot be read may yet turn out to be: an object of the widest elements that it can name, or one of
E2M1 with its scales. -/
def Copy.guesses (x : Copy) : List ObjRec := [if x.op = 5 then 1 else 12, 5].map fun f => { ObjRec.of 0 with fmt := f }

/-! Geometry. -/

def Copy.rowBytes (x : Copy) (w : Nat) : Nat := ceilDiv (x.cols * w) 8
def Copy.pitch (x : Copy) (w : Nat) : Nat := if x.pitchF = 0 then 16 * ceilDiv (x.rowBytes w) 16 else x.pitchF

/-- Bands of 64 rows that the tile touches (R186). -/
def Copy.bandLo (x : Copy) : Nat := (x.coord 0 0).c1 / 64
def Copy.bands (x : Copy) : Nat := (x.coord (x.rows - 1) 0).c1 / 64 + 1 - x.bandLo

/-- Offsets, from LOCAL, of the block scales and of the band scales of an E2M1 tile in the scratchpad (R186). -/
def Copy.blockAt (x : Copy) : Nat := x.pitch 4 * x.rows
def Copy.bandAt (x : Copy) : Nat := x.blockAt + x.cols / 8 * x.rows

/-- Bytes of the local side in the scratchpad, gaps included. -/
def Copy.localSpan (x : Copy) (r : ObjRec) : Nat :=
  if r.isE2M1 then x.bandAt + 2 * x.bands else x.pitch r.w * (x.rows - 1) + x.rowBytes r.w

/-- Rows of the region that TLOAD writes (R186). -/
def Copy.regionRows (x : Copy) : Nat := if x.rows ≤ 16 then 16 else if x.rows ≤ 32 then 32 else if x.rows ≤ 64 then 64 else 128

/-- The region of a TLOAD. -/
def Copy.region (x : Copy) (r : ObjRec) : Region := { base := x.loc, rows := x.regionRows, fmt := r.fmt, row := false }

/-- The status that the checks of R186 give, if any. -/
def Copy.status? (x : Copy) (r : ObjRec) (d : Option ObjRec) : Option Nat :=
  let c0 := (x.coord 0 0).c0
  let badE := r.isE2M1 && (c0 % 8 != 0 || x.cols % 8 != 0 || 128 < c0 % 128 + x.cols)
  let badO := match d with
    | some d => d.fmt != r.fmt
    | none => false
  let badR := x.red && (1 < r.fmt || r.isPlane)
  let badT := x.op == 5 && r.w != 4 && r.w != 8 && r.w != 16
  if badE || badO || badR || badT then some 3
  else if (x.op == 3 || x.op == 4) && x.pitchF != 0 && (x.pitchF % 16 != 0 || x.pitchF < x.rowBytes r.w) then some 6
  else none

/-- Whether the local side and the barrier word lie in the share (R187, R229). -/
def Copy.localOk (x : Copy) (p : Part) (c : CoreSt) (r : ObjRec) : Bool :=
  !x.barBad &&
  match x.op with
  | 2 => true
  | 5 => x.loc < 2 ^ 16 && ((x.region r).outside p).isNone
  | _ => Machine.localOk p c (BitVec.ofNat 64 x.loc) (x.localSpan r)

/-- The fragments of a row of `n` bytes from a logical offset as the swizzle mode places them. `fuel` bounds them. -/
def fragments (mode : Nat) : Nat → Nat → Nat → List LocalRange
  | 0, _, _ => []
  | fuel + 1, off, n =>
    if n = 0 then []
    else
      let k := min n (16 - off % 16)
      { tile := false, lo := swizzle mode off, n := k } :: fragments mode fuel (off + k) (n - k)

/-- The local bytes or lines that a bound copy writes, which its partition may read only from the deadline on (R190). -/
def Copy.ranges (x : Copy) (r : ObjRec) : List LocalRange :=
  let o := spOff (BitVec.ofNat 64 x.loc)
  let m := spSwz (BitVec.ofNat 64 x.loc)
  let part (off n : Nat) : List LocalRange := if m = 0 then [{ tile := false, lo := off, n := n }] else fragments m (n / 16 + 2) off n
  match x.op with
  | 3 =>
    ((List.range x.rows).flatMap fun i => part (o + x.pitch r.w * i) (x.rowBytes r.w)) ++
      if r.isE2M1 then part (o + x.blockAt) (x.cols / 8 * x.rows + 2 * x.bands) else []
  | 5 => [{ tile := true, lo := x.loc, n := (x.region r).lines + (x.region r).scaleLines }]
  | _ => []

/-! Pieces and footprints (R187, R191). -/

/-- The number of the piece of an element: its sub-tile's, or, where the number has no sub-tile, its place in the grid. -/
def pieceOf (r : ObjRec) (c : Coord) : Nat :=
  if r.layout = 0 then (if r.inShape c then r.subTile c else 2 ^ 64) else c.c1 / 64 * 2 ^ 32 + c.c0 / 64

/-- The elements of the tile, row by row. -/
def Copy.elems (x : Copy) : List (Nat × Nat) := (List.range x.rows).flatMap fun r => tab x.cols fun j => (r, j)

/-- The pieces of the tile in ascending order, with their first elements. -/
def Copy.pieceList (x : Copy) (r : ObjRec) : List Nat :=
  let firsts := x.elems.foldl (fun m e =>
    let k := pieceOf r (x.coord e.1 e.2)
    if (mget m k).isSome then m else mput m k (128 * e.1 + e.2)) ([] : TMap Nat)
  firsts.map fun e => 16384 * e.1 + e.2

/-- The number of a piece, and its first element. -/
def pieceNo (k : Nat) : Nat := k / 16384
def Copy.pieceFirst (x : Copy) (k : Nat) : List Nat :=
  let c := x.coord (k % 16384 / 128) (k % 128)
  [c.c0, c.c1, c.c2, c.c3]

/-- The elements of a piece. -/
def Copy.pieceElems (x : Copy) (r : ObjRec) (k : Nat) : List (Nat × Nat) :=
  x.elems.filter fun e => pieceOf r (x.coord e.1 e.2) = pieceNo k

/-- The sub-tiles of an object that the tile touches. -/
def Copy.subs (x : Copy) (r : ObjRec) : List Nat :=
  mkeys (x.elems.foldl
    (fun m e => if r.inShape (x.coord e.1 e.2) then mput m (r.subTile (x.coord e.1 e.2)) () else m) ([] : TMap Unit))

/-- The local side of a footprint (R191). -/
def Copy.localFoot (x : Copy) (r : ObjRec) : List Foot :=
  match x.op with
  | 2 => []
  | 5 => [{ handle := none, tile := true, lo := x.loc, n := (x.region r).lines + (x.region r).scaleLines, wr := true }]
  | _ => [{ handle := none, tile := false, lo := spOff (BitVec.ofNat 64 x.loc), n := x.localSpan r, wr := x.op == 3 }]

/-- The footprint of a copy (R191). -/
def Copy.footprint (x : Copy) (r : ObjRec) (d : Option ObjRec) : List Foot :=
  let obj (h : Nat) (r : ObjRec) (wr : Bool) : List Foot :=
    (x.subs r).map fun n => { handle := some h, tile := false, lo := n, n := 1, wr := wr }
  obj x.handle r (x.op == 4) ++ (match d with
    | some d => obj x.dhandle d true
    | none => []) ++ x.localFoot r

/-- The footprint of a copy whose record cannot be read yet: all of its objects, and the widest local side (log entry 114). -/
def Copy.wideFoot (x : Copy) : List Foot :=
  let obj (h : Nat) (wr : Bool) : Foot := { handle := some h, tile := false, lo := 0, n := 2 ^ 64, wr := wr }
  obj x.handle (x.op == 4) :: (if x.op = 2 then [obj x.dhandle true] else []) ++ x.guesses.flatMap x.localFoot

def Foot.meets (a b : Foot) : Bool :=
  (a.wr || b.wr) && a.handle == b.handle && a.tile == b.tile && a.lo < b.lo + b.n && b.lo < a.lo + a.n

/-- Whether a copy must wait for an older one of its partition (R191). -/
def copyBlocked (s : State) (key : Nat) (x : Copy) : Bool :=
  s.copies.any fun e => e.1 / 4096 == key / 4096 && (e.2.task == x.task || e.2.part == x.part) && e.2.num < x.num && !e.2.ended &&
    e.2.foot.any fun a => x.foot.any a.meets

/-- Changes the barrier word of a copy; one outside the share is left alone (R229). -/
def Copy.updBar (x : Copy) (s : State) (core : Nat) (f : Nat → Nat) : State := if x.barBad then s else Machine.updBar s core x.bar f

/-! Moving data. -/

/-- Bits `[n-1:0]` at a logical bit offset of the scratchpad, in whole bytes or within one. -/
def scratchBits (c : CoreSt) (mode off bo n : Nat) : Nat :=
  if n % 8 = 0 then ofBytes (tab (n / 8) fun i => scratchByte c (swizzle mode (off + bo / 8 + i)))
  else nbits (scratchByte c (swizzle mode (off + bo / 8))).toNat (bo % 8) n

def putScratchBits (c : CoreSt) (mode off bo n x : Nat) : CoreSt :=
  if n % 8 = 0 then writeSwz c mode (off + bo / 8) (toBytes x (n / 8))
  else
    let o := swizzle mode (off + bo / 8)
    let old := (scratchByte c o).toNat
    writeScratch c o (BitVec.ofNat 8 (old - nbits old (bo % 8) n * 2 ^ (bo % 8) + x % 2 ^ n * 2 ^ (bo % 8)))

/-- A field of a tile-store line. -/
def putLineBits (p : Part) (l lo n x : Nat) : Part :=
  let old := (tileLine p l).toNat
  { p with tile := mput p.tile l (BitVec.ofNat 128 (old - nbits old lo n * 2 ^ lo + x % 2 ^ n * 2 ^ lo)) }

def ElemAt.addrs (r : ObjRec) : ElemAt → List Nat
  | .pad => []
  | .at ba => elemAddrs r ba

/-- Bytes that an element of `w` bits in tile column `j` counts: those of its row, as the local side holds it, that begin in it
(log entry 112). -/
def elemCount (w j : Nat) : Nat := if w = 4 then 1 - j % 2 else w / 8

/-- The blocks of 2 KiB through which an element passes, with the bytes that each counts, and the run of stored bytes in it
(R187). A byte whose bits pass through several blocks counts in that of its bit 0. -/
def elemBlocks (r : ObjRec) (ba j : Nat) : List (Nat × Nat × Nat × Nat) :=
  if r.isPlane then
    tab r.w fun i =>
      let a := (ba + 16384 * i) / 8
      (a / 2048, (if i % 8 = 0 then min 1 (elemCount r.w j) else 0), a, 1)
  else
    let a := ba / 8
    let n := (ba % 8 + r.w + 7) / 8
    if a / 2048 = (a + n - 1) / 2048 then [(a / 2048, elemCount r.w j, a, n)]
    else tab n fun i => ((a + i) / 2048, 1, a + i, 1)

/-- The number of the unit that the pad bytes of a piece form. -/
def padUnit (p : Nat) : Nat := 2 ^ 80 + p

/-- Adds bytes to a unit; `cmpr` is the compressible flag with which they were written. -/
def addUnit (u : TMap CUnit) (key n : Nat) (fc : List Nat) (bad cmpr : Bool) (dst : List (Nat × Nat)) : TMap CUnit :=
  let old := (mget u key).getD { bytes := 0, fc := fc, bad := false, dst := [] }
  mput u key { old with bytes := old.bytes + n, bad := old.bad || bad, dst := old.dst ++ dst, cmpr := old.cmpr && cmpr }

def Coord.list (c : Coord) : List Nat := [c.c0, c.c1, c.c2, c.c3]

/-- An element of a piece, translated: its row and column, its place in the object, and in OCOPY's destination. -/
structure PieceElem where
  row : Nat
  col : Nat
  src : ElemAt
  dst : ElemAt
  deriving DecidableEq, Repr

/-- Whether `n` bytes from an address all lie in populated regions. -/
def bytesPopulated (s : State) (a n : Nat) : Bool := (tab n (a + ·)).all (populated s)

/-- Whether the scales of an element of an E2M1 object, at the bit address of its bit 0, lie in populated regions (the last step of
R116). -/
def scalesPopulated (s : State) (r : ObjRec) (c : Coord) : ElemAt → Bool
  | .pad => true
  | .at ba =>
    let base := (ba - r.bitOff c) / 8
    !r.isE2M1 || (bytesPopulated s (base + r.blockOff c) 1 && bytesPopulated s (base + r.bandOff c) 2)

/-- Translates an element that a copy moves, with its scales (R111, R116). -/
def xlateScaled (s : State) (r : ObjRec) (c : Coord) (wr : Bool) : State × Except Nat ElemAt :=
  let (s, a) := xlateElem s r c wr
  (s, match a with
    | .error e => .error e
    | .ok a => if scalesPopulated s r c a then .ok a else .error oBase)

/-- Translates the elements of a piece in order: the first fault, with its row and column, or all of them. -/
def xlatePiece (s : State) (x : Copy) (r : ObjRec) (d : Option ObjRec) :
    List (Nat × Nat) → State × Except (Nat × Nat × Nat) (List PieceElem)
  | [] => (s, .ok [])
  | (row, col) :: es =>
    let c := x.coord row col
    let (s, a) := xlateScaled s r c (x.op == 4)
    match a with
    | .error e => (s, .error (e, row, col))
    | .ok a =>
      let (s, b) := match d with
        | some d => xlateScaled s d c true
        | none => (s, .ok .pad)
      match b with
      | .error e => (s, .error (e, row, col))
      | .ok b =>
        let (s, l) := xlatePiece s x r d es
        match l with
        | .error e => (s, .error e)
        | .ok l => (s, .ok ({ row := row, col := col, src := a, dst := b } :: l))

/-- State of a move: the machine, the units of the copy, and the elements that a piece is to write, by their bit addresses. -/
structure Moving where
  s : State
  u : TMap CUnit
  w : List (Nat × Nat)
  deriving DecidableEq, Repr

/-- The code of an element as a copy reads it. -/
def ElemAt.read (s : State) (r : ObjRec) : ElemAt → Nat
  | .pad => r.padCode
  | .at ba => peekElem s r ba

/-- The units of an element in tile column `j` with what it wrote. A unit fails with its own stored bytes (R187). -/
def elemUnits (s : State) (u : TMap CUnit) (r : ObjRec) (p : Nat) (fc : List Nat) (j : Nat) (cmpr : Bool) (dst : List (Nat × Nat)) :
    ElemAt → TMap CUnit
  | .pad => addUnit u (padUnit p) (elemCount r.w j) fc false cmpr dst
  | .at ba => (elemBlocks r ba j).foldl (fun u b => addUnit u b.1 b.2.1 fc (poisonedAt s b.2.2.1 b.2.2.2) cmpr dst) u

/-- Places of an element of OCOPY's destination, as bit addresses. -/
def destPlaces (d : ObjRec) (ba : Nat) : List (Nat × Nat) :=
  if d.isPlane then tab d.w fun j => (ba + 16384 * j, 1) else [(ba, d.w)]

/-- The FP32 value of a reduction's element. -/
def redValue (r : ObjRec) (x : Nat) : W32 := BitVec.ofNat 32 (if r.fmt = 0 then x else x * 65536)

/-- The value of an element, which is free once its record's shape has changed (R188, log entry 113). -/
def Copy.value (x : Copy) (s : State) (r : ObjRec) (d : Option ObjRec) (row col w v : Nat) : Nat :=
  if x.reshaped r d then (Config.freeBits s.epoch (2 * 10 ^ 7 + 128 * row + col) w).toNat else v

/-- Moves one element. Its place in the scratchpad or in the tile store follows the record of the checks. -/
def Copy.moveElem (x : Copy) (core : Nat) (r : ObjRec) (d : Option ObjRec) (p : Nat) (m : Moving) (e : PieceElem) : Moving :=
  let g := x.geo r
  let fc := (x.coord e.row e.col).list
  let mode := spSwz (BitVec.ofNat 64 x.loc)
  let off := spOff (BitVec.ofNat 64 x.loc)
  let bo := 8 * x.pitch g.w * e.row + g.w * e.col
  let units (dst : List (Nat × Nat)) : TMap CUnit := elemUnits m.s m.u r p fc e.col ((d.getD r).cmpr) dst e.src
  match x.op with
  | 3 =>
    let v := x.value m.s r d e.row e.col g.w (e.src.read m.s r)
    { m with s := setCore m.s core (putScratchBits (getCore m.s core) mode off bo g.w v), u := units [(bo, g.w)] }
  | 5 =>
    let v := x.value m.s r d e.row e.col g.w (e.src.read m.s r)
    let t := x.region g
    let put (q : Part) : Part :=
      (List.range g.w).foldl (fun q j => putLineBits q (t.base + t.rows * j + e.row) e.col 1 (if v.testBit j then 1 else 0)) q
    { m with s := modTask m.s core x.task put, u := units (tab g.w fun j => (128 * (t.base + t.rows * j + e.row) + e.col, 1)) }
  | 4 =>
    match e.src with
    | .pad => m
    | .at ba =>
      let v := x.value m.s r d e.row e.col r.w (scratchBits (getCore m.s core) mode off bo g.w)
      if x.red && !x.reshaped r d then { m with s := reduceMem m.s (ba / 8) (r.fmt == 0) (redValue r v) .objects r.cmpr, u := units [] }
      else { m with w := m.w ++ [(ba, v)], u := units [] }
  | _ =>
    match d, e.dst with
    | some d, .at ba =>
      let v := x.value m.s r (some d) e.row e.col d.w (e.src.read m.s r)
      { m with w := m.w ++ [(ba, v)], u := units (destPlaces d ba) }
    | _, _ => m

/-! Scales of E2M1 tiles (R186, R111). -/

/-- A scale of a piece: its bytes, its place in the object and in OCOPY's destination, or pad; its place in the
scratchpad, in bytes from LOCAL, and in the tile store, as line and bit. -/
structure ScaleMove where
  n : Nat
  src : Option Nat
  pad : Nat
  dst : Option Nat
  sp : Nat
  line : Nat
  bit : Nat
  fc : List Nat
  deriving DecidableEq, Repr

/-- The block scales that go with the elements of a piece. -/
def Copy.blockMoves (x : Copy) (r : ObjRec) (d : Option ObjRec) (es : List PieceElem) : List ScaleMove :=
  (es.filter fun e => e.col % 8 = 0).map fun e =>
    let c := x.coord e.row e.col
    let place (r : ObjRec) : ElemAt → Option Nat
      | .pad => none
      | .at ba => some ((ba - r.bitOff c) / 8 + r.blockOff c)
    { n := 1, src := place r e.src, pad := nbits r.padv 8 8, dst := d.bind fun d => place d e.dst
      sp := x.blockAt + x.cols / 8 * e.row + e.col / 8
      line := (x.region r).scaleBase + e.row, bit := 8 * (e.col / 8), fc := c.list }

/-- Device address of the band scale of a band of 64 rows; none when its rows all lie outside the shape. Scales lie where their
pair of sub-tiles lies (R111): MOV says so whether or not the sub-tile is resident. -/
def bandAddr (s : State) (r : ObjRec) (c : Coord) (wr : Bool) : State × Option Nat :=
  let c' : Coord := { c with c0 := c.c0 / 128 * 128, c1 := c.c1 / 64 * 64 }
  if !r.inShape c' then (s, none)
  else if r.rbmp = 0 || r.state ≠ 1 then (s, some (r.base + r.bandOff c'))
  else
    let s := if wr then awaitCopying s r (r.subTile c') else s
    let (s, rm) := resMov s r (r.subTile c')
    (s, some ((if rm.any (·.2) then r.nbase else r.base) + r.bandOff c'))

/-- Whether a scale that is moved lies, on both sides, in populated regions (R116). -/
def ScaleMove.populated (s : State) (q : ScaleMove) : Bool :=
  q.src.all (bytesPopulated s · q.n) && q.dst.all (bytesPopulated s · q.n)

/-- The first row of the tile in its band `k`. -/
def Copy.bandRow (x : Copy) (k : Nat) : Nat := if k = 0 then 0 else 64 * (x.bandLo + k) - (x.coord 0 0).c1

/-- The band scales that go with a piece: those of the bands that it is the first to touch. -/
def Copy.bandMoves (x : Copy) (s : State) (r : ObjRec) (d : Option ObjRec) (p : Nat) : State × List ScaleMove :=
  (List.range x.bands).foldl (fun (acc : State × List ScaleMove) (k : Nat) =>
    let c := x.coord (x.bandRow k) 0
    if pieceOf r c ≠ pieceNo p then acc
    else
      let (s, a) := bandAddr acc.1 r c (x.op == 4)
      let (s, b) := match d with
        | some d => bandAddr s d c true
        | none => (s, none)
      (s, acc.2 ++ [{ n := 2, src := a, pad := nbits r.padv 16 16, dst := b, sp := x.bandAt + 2 * k
                      line := (x.region r).scaleBase + (x.region r).rows, bit := 16 * k, fc := c.list }])) (s, [])

/-- Moves one scale. -/
def Copy.moveScale (x : Copy) (core : Nat) (r : ObjRec) (d : Option ObjRec) (p : Nat) (m : Moving) (q : ScaleMove) : Moving :=
  let mode := spSwz (BitVec.ofNat 64 x.loc)
  let off := spOff (BitVec.ofNat 64 x.loc)
  let s := match q.src with
    | some a => if x.op = 4 then m.s else touchAll m.s [a]
    | none => m.s
  let v := x.value s r d (128 + q.line) q.sp (8 * q.n) (match q.src with
    | some a => if x.op = 4 then scratchBits (getCore s core) mode off (8 * q.sp) (8 * q.n) else peekNat s a q.n
    | none => q.pad)
  let unit (dst : List (Nat × Nat)) : TMap CUnit :=
    match q.src with
    | some a => addUnit m.u (a / 2048) q.n q.fc (poisonedAt s a q.n) (d.getD r).cmpr dst
    | none => addUnit m.u (padUnit p) q.n q.fc false (d.getD r).cmpr dst
  match x.op with
  | 3 =>
    { m with s := setCore s core (putScratchBits (getCore s core) mode off (8 * q.sp) (8 * q.n) v), u := unit [(8 * q.sp, 8 * q.n)] }
  | 5 =>
    { m with s := modTask s core x.task fun t => putLineBits t q.line q.bit (8 * q.n) v, u := unit [(128 * q.line + q.bit, 8 * q.n)] }
  | 4 =>
    match q.src with
    | none => m
    | some a => { m with s := writeMem s a (toBytes v q.n) .objects r.cmpr r.fmt, u := unit [] }
  | _ =>
    match q.dst with
    | none => m
    | some b => { m with s := writeMem s b (toBytes v q.n) .objects (d.getD r).cmpr (d.getD r).fmt, u := unit [(8 * b, 8 * q.n)] }

/-! Faults (R207, R208). -/

def putCopy (s : State) (key : Nat) (x : Copy) : State := { s with copies := mput s.copies key x }

/-- TADDR of a copy's fault: its handle and its entry. -/
def copyTaddr (x : Copy) (key : Nat) : W64 := BitVec.ofNat 64 (x.handle * 2 ^ 44 + key % 4096 % 64)

def cfcOf (fc : List Nat) : W64 × W64 :=
  (BitVec.ofNat 64 (fc.getD 0 0 % 2 ^ 32 + fc.getD 1 0 % 2 ^ 32 * 2 ^ 32),
   BitVec.ofNat 64 (fc.getD 2 0 % 2 ^ 32 + fc.getD 3 0 % 2 ^ 32 * 2 ^ 32))

/-- The fault report of a copy. -/
def copyReport (x : Copy) (key code : Nat) (fc : List Nat) (e : Option Pend) (pc : W32) : Report :=
  { copy := e.isNone, id := (e.map (·.seq)).getD key, level := (e.map (·.level)).getD 0, code := code, slot := x.slot
    op := x.op, pc := (e.map (·.pc)).getD pc, taddr := copyTaddr x key, cfc01 := (cfcOf fc).1, cfc23 := (cfcOf fc).2 }

/-- The bytes of a completion record of a copy, or of a collective, which runs as one. -/
def Copy.record (x : Copy) : List Byte := recBytes x.status x.fcode (if x.op = 0x12 then 6 else 1) x.tag x.counted x.fhandle x.fc

/-- A copy ends (R188, R189): a bound one writes its result; a detached one writes its record, or frees its entry. -/
def copyEnd (s : State) (key : Nat) (x : Copy) : State :=
  let core := key / 4096
  match x.seq with
  | some q =>
    let v := BitVec.ofNat 64 (x.status + x.counted * 2 ^ 32)
    let s := modTask s core x.task fun p => updPend p q fun e => { e.answer v .ready with eng := none }
    freeEntry (dropCache s core) key
  | none =>
    if x.recd then
      holdRec (putCopy s key { x with ended := true })
        { queue := x.queue, ring := x.ring, body := x.record, entry := some key
          ui := if x.uint then some (core, x.task) else none }
    else freeEntry s key

/-- A fault of a copy (R207): it is reported and the copy holds; without its task a detached copy ends with FAULTED and
poisons its barrier (R199, R208). -/
def copyFault (s : State) (key : Nat) (x : Copy) (code : Nat) (fc : List Nat) (whole : Bool) : State :=
  let core := key / 4096
  match x.seq, taskPart s core x.task with
  | some q, _ =>
    let s := modTask s core x.task fun p =>
      match p.pends.find? fun e => e.seq == q with
      | some e =>
        let r := copyReport x key code fc (some e) 0
        { updPend p q (fun e => { e with st := .fault code r.taddr r.cfc01 r.cfc23 }) with reports := p.reports ++ [r] }
      | none => p
    putCopy s key { x with holding := true, whole := whole, pcode := code, pfc := fc }
  | none, some p =>
    let r := copyReport x key code fc none p.at_.pc
    putCopy (modTask s core x.task fun p => { p with reports := p.reports ++ [r] }) key { x with holding := true, whole := whole, pcode := code, pfc := fc }
  | none, none =>
    let s := x.updBar s core poisBar
    copyEnd s key { x with status := 7, fcode := code, fhandle := x.handle, fc := fc }

/-! Progress. -/

/-- The zeros that TLOAD writes beside the tile (R186). What the pieces write keeps its value. -/
def Copy.zeroTile (x : Copy) (r : ObjRec) (p : Part) : Part :=
  let g := x.region r
  let keep (l cols n : Nat) (p : Part) : Part :=
    { p with tile := mput p.tile l (BitVec.ofNat 128 ((tileLine p l).toNat % 2 ^ (n * cols))) }
  let p := (List.range r.w).foldl
    (fun p j => (List.range g.rows).foldl (fun p i => keep (g.base + g.rows * j + i) (if i < x.rows then x.cols else 0) 1 p) p) p
  if !r.isE2M1 then p
  else
    let p := (List.range g.rows).foldl (fun p i => keep (g.scaleBase + i) (if i < x.rows then x.cols / 8 else 0) 8 p) p
    let p := keep (g.scaleBase + g.rows) x.bands 16 p
    (List.range 15).foldl (fun p i => keep (g.scaleBase + g.rows + 1 + i) 0 1 p) p

/-- A copy begins: its pieces are known, and so are the local bytes that a bound one writes. TLOAD writes its tags (R225). -/
def copyBegin (s : State) (key : Nat) (x : Copy) (r : ObjRec) (d : Option ObjRec) : State :=
  let g := x.geo r
  let s := modTask s (key / 4096) x.task fun p =>
    let p := if x.op = 5 then { p with tags := (x.region g).tagAll p.tags } else p
    match x.seq with
    | some q => updPend p q fun e => { e with ranges := x.ranges g }
    | none => p
  putCopy s key { x with pieces := some (x.pieceList g), foot := x.footprint r d }

/-- Whether no piece of a copy has been moved or skipped yet. -/
def Copy.untouched (x : Copy) : Bool :=
  match x.shape, x.pieces with
  | some g, some l => l.length == (x.pieceList g.rec_).length
  | _, _ => true

/-- The blocks that the pieces still to come may pass through. -/
def Copy.remaining (x : Copy) (r : ObjRec) (ps : List Nat) : List Nat :=
  let bases := if r.state = 1 then [r.base, r.nbase] else [r.base]
  let of (e : Nat × Nat) : List Nat :=
    let c := x.coord e.1 e.2
    if !r.inShape c then []
    else bases.flatMap fun b =>
      (elemBlocks r (8 * b + r.bitOff c) 0).map (·.1) ++
        if r.isE2M1 then [(b + r.blockOff c) / 2048, (b + r.bandOff c) / 2048] else []
  ps.flatMap fun p => (x.pieceElems (x.geo r) p).flatMap of

/-- Makes the bytes that a failed unit wrote undefined (R197). -/
def spoilUnit (s : State) (core : Nat) (x : Copy) (u : CUnit) : State :=
  let mode := spSwz (BitVec.ofNat 64 x.loc)
  let off := spOff (BitVec.ofNat 64 x.loc)
  u.dst.foldl (fun s q =>
    let v := (Config.freeBits s.epoch (10 ^ 7 + q.1) q.2).toNat
    match x.op with
    | 3 => setCore s core (putScratchBits (getCore s core) mode off q.1 q.2 v)
    | 5 => modTask s core x.task fun p => putLineBits p (q.1 / 128) (q.1 % 128) q.2 v
    | 2 => pokeBits s q.1 q.2 v .objects u.cmpr ((x.dshape.map (·.fmt)).getD 0)
    | _ => s) s

/-- The sectors of a block that fail their check values are reported (R197, R386). -/
def reportBlock (s : State) (blk : Nat) : State :=
  let bad := (List.range 8).filter fun i => sectorFails s (8 * blk + i)
  (if bad.isEmpty then [0] else bad).foldl (fun s i => addEvent s { code := 0x06, loc := 8 * blk + i, detail := [] }) s

/-- A unit of a copy is done (R195 to R197). -/
def countUnit (s : State) (key : Nat) (x : Copy) (blk : Nat) (u : CUnit) (failed : Bool) : State :=
  let core := key / 4096
  let x := { x with units := mdel x.units blk }
  if (u.bad || failed) && x.op != 4 && blk < 2 ^ 80 then
    let s := spoilUnit (reportBlock s blk) core x u
    let s := x.updBar s core poisBar
    putCopy s key { x with
      status := 4, fcode := 0x20, fhandle := x.handle, fc := if x.fcode = 0x20 then x.fc else u.fc }
  else
    putCopy (x.updBar s core (countBar · u.bytes)) key { x with counted := x.counted + u.bytes }

/-- The pending operation of a bound copy, as the writer of its local side; a detached one has no deadline. -/
def Copy.was (x : Copy) (p : Part) : Option Was := x.seq.bind fun q => (p.pends.find? fun e => e.seq == q).map (wasOf p)

/-- Keeps what the scratchpad units that a piece of OLOAD writes hold before it (R334). -/
def Copy.keepSpace (x : Copy) (s : State) (core : Nat) (g : ObjRec) (es : List PieceElem) : State :=
  if x.op ≠ 3 then s
  else
    let mode := spSwz (BitVec.ofNat 64 x.loc)
    let off := spOff (BitVec.ofNat 64 x.loc)
    let scales := if g.isE2M1 then tab (x.bandAt + 2 * x.bands - x.blockAt) fun i => x.blockAt + i else []
    let us := mkeys (((es.map fun e => (8 * x.pitch g.w * e.row + g.w * e.col) / 8) ++ scales).foldl (fun m o =>
      mput m (swizzle mode (off + o) / 16) ()) ([] : TMap Unit))
    let p := (taskPart s core x.task).getD Part.empty
    setCore s core (keepUnits (getCore s core) p (x.was p) us)

/-- Whether the scales of a piece are moved: all of its objects are of E2M1 still, as its checks found them (R7, R188). -/
def Copy.scaled (x : Copy) (r : ObjRec) (d : Option ObjRec) : Bool := (x.geo r).isE2M1 && r.isE2M1 && d.all (·.isE2M1)

/-- The host lines that a piece has written, with those of its scales, go out (R389). -/
def Copy.sent (x : Copy) (r : ObjRec) (d : Option ObjRec) (es : List PieceElem) (scales : List ScaleMove) : List Nat :=
  let bytes (a : Option Nat) (n : Nat) : List Nat := match a with
    | some a => tab n (a + ·)
    | none => []
  (es.flatMap fun e => match x.op, d with
    | 2, some d => e.dst.addrs d
    | 4, _ => e.src.addrs r
    | _, _ => []) ++
  scales.flatMap fun q => if x.op = 2 then bytes q.dst q.n else if x.op = 4 then bytes q.src q.n else []

/-- Moves a piece, or reports its fault. -/
def movePiece (s : State) (key : Nat) (x : Copy) (r : ObjRec) (d : Option ObjRec) (p : Nat) (ps : List Nat) : State :=
  let core := key / 4096
  let g := x.geo r
  let (s, es) := xlatePiece s x r d (x.pieceElems g p)
  match es with
  | .error (code, row, col) => copyFault s key x code (x.coord row col).list false
  | .ok es =>
    let (s, scales) := if x.scaled r d then
        let (s, bands) := x.bandMoves s r d p
        (s, x.blockMoves r d es ++ bands)
      else (s, [])
    match scales.find? fun q => !q.populated s with
    | some q => copyFault s key x oBase q.fc false
    | none =>
      let addrs := if x.op = 4 then [] else es.flatMap fun e => e.src.addrs r
      let s := x.keepSpace (touchAll s addrs) core g es
      let m := es.foldl (x.moveElem core r d p) { s := s, u := x.units, w := [] }
      let s := writeElems m.s (if x.op = 4 then r else d.getD r) .objects m.w
      let m := scales.foldl (x.moveScale core r d p) { m with s := s }
      putCopy (sendHost m.s (x.sent r d es scales)) key { x with pieces := some ps, units := m.u }

/-- Moves pieces of a TLOAD one after the other until one faults: its lines change whole (R227). -/
def moveTile (key : Nat) (r : ObjRec) : State → Copy → List Nat → State
  | s, _, [] => s
  | s, x, p :: ps =>
    let s := movePiece s key x r none p ps
    match mget s.copies key with
    | some y => if y.pieces = some ps then moveTile key r s y ps else s
    | none => s

/-- The pieces of a TLOAD, with the zeros beside the tile once a piece has been moved. -/
def loadTile (s : State) (key : Nat) (x : Copy) (r : ObjRec) (l : List Nat) : State :=
  let core := key / 4096
  let g := x.geo r
  let t := x.region g
  let s := modTask s core x.task fun p => keepLines p (x.was p) t.base (t.lines + t.scaleLines)
  let s := moveTile key r s x l
  if (mget s.copies key).any fun y => y.pieces = some l then s else modTask s core x.task (x.zeroTile g)

/-- Bytes that a piece counts when it is skipped (R196, R207): those that it would have counted. -/
def Copy.skipBytes (x : Copy) (r : ObjRec) (d : Option ObjRec) (p : Nat) : Nat :=
  let counts (c : Coord) : Bool :=
    match x.op with
    | 4 => r.inShape c
    | 2 => d.any (·.inShape c)
    | _ => true
  let es := (x.pieceElems r p).filter fun e => counts (x.coord e.1 e.2)
  let band (k : Nat) : Coord :=
    let c := x.coord (x.bandRow k) 0
    { c with c0 := c.c0 / 128 * 128, c1 := c.c1 / 64 * 64 }
  let scales :=
    if r.isE2M1 then
      (es.filter fun e => e.2 % 8 = 0).length +
        2 * ((List.range x.bands).filter fun (k : Nat) =>
          pieceOf r (x.coord (x.bandRow k) 0) = pieceNo p && counts (band k)).length
    else 0
  (es.map fun e => elemCount r.w e.2).foldl (· + ·) 0 + scales

/-- What a copy does next: it counts a unit that is whole, or moves its next piece, or begins, or ends. -/
def copyAdvance (s : State) (key : Nat) (x : Copy) (failed : Bool) : State :=
  let core := key / 4096
  match x.pieces, x.units with
  | some [], [] => copyEnd s key x
  | some [], (b, u) :: _ => countUnit s key x b u failed
  | ps, us =>
    let (s, rd) := x.recs s core
    match rd with
    | .error code =>
      match ps with
      | some (p :: _) =>
        if x.untouched then copyFault s key x code (x.coord 0 0).list true else copyFault s key x code (x.pieceFirst p) false
      | _ => copyFault s key x code (x.coord 0 0).list true
    | .ok (r, d) =>
      match (if x.shape.isSome then none else x.status? r d) with
      | some st =>
        -- the record could not be read before the copy was accepted: its checks come now
        copyEnd (if x.det then x.updBar s core poisBar else s) key { x with status := st }
      | none =>
        match ps with
        | none =>
          let known := x.shape.isSome
          let x := if known then x else { x with shape := some r.shape, dshape := d.map (·.shape) }
          let inside := match taskPart s core x.task with
            | some p => x.localOk p (getCore s core) (x.geo r)
            | none => known
          if inside then copyBegin s key x r d else copyFault s key x cLocalRange (x.coord 0 0).list true
        | some l =>
          match us.find? fun u => !(x.remaining r l).contains u.1 with
          | some u => countUnit s key x u.1 u.2 failed
          | none =>
            match l with
            | [] => s
            | p :: ps' => if x.op = 5 then loadTile s key x r l else movePiece s key x r d p ps'

/-- Whether a copy holds at a fault that no task is left to take. -/
def copyOrphan (s : State) (key : Nat) (x : Copy) : Bool := x.holding && (taskPart s (key / 4096) x.task).isNone

/-- The end of such a copy (R208): its barrier is poisoned (R199). -/
def endOrphan (s : State) (key : Nat) (x : Copy) : State :=
  let s := x.updBar s (key / 4096) poisBar
  match x.seq with
  | some _ => freeEntry s key
  | none => copyEnd s key { x with holding := false, status := 7, fcode := x.pcode, fhandle := x.handle, fc := x.pfc }

/-- Whether a task has been swapped out and does not run again yet. -/
def taskAway (s : State) (core task : Nat) : Bool :=
  match homeOf s core task with
  | some (.shadow _) => true
  | some (.part i) => (getPart s core i).ps == .placed
  | none => false

/-- Whether a tile-store load has been withdrawn from its engine, until its task runs again (R380). -/
def copyAway (s : State) (key : Nat) (x : Copy) : Bool := x.op == 5 && taskAway s (key / 4096) x.task

/-- Whether a copy can go on. -/
def copyReady (s : State) (key : Nat) (x : Copy) : Bool :=
  key % 4096 < 64 && !x.ended && x.op ≤ 5 &&
    (copyOrphan s key x || (!x.holding && !copyAway s key x && !copyBlocked s key x))

/-- The tile-store loads of a task are withdrawn (R380): a bound one writes its whole region again when its task runs again, and so does a
KVLDT, which translates anew. -/
def withdrawLoads (s : State) (core task : Nat) : State :=
  let mine (x : KvOp) : Bool := x.core == core && x.task == task && x.op == 7 && x.repair.isSome
  { s with
    copies := s.copies.map fun (e : Nat × Copy) =>
      if e.1 / 4096 = core && e.2.task = task && e.2.op = 5 && e.2.seq.isSome && !e.2.ended && !e.2.holding then
        (e.1, { e.2 with pieces := none, units := [], counted := 0, status := 0, fcode := 0, fc := [] })
      else e
    kvs := s.kvs.map fun (e : Nat × KvOp) => if mine e.2 then (e.1, { e.2 with repair := none }) else e
    fetches := s.fetches.filter fun e => !(mget s.kvs e.1).any mine }

/-- RPLACT at the return from a copy fault (R207): the held copy tries its piece again, or skips it. What it skips follows from the
record of its checks, or from the one that now stands. -/
def resumeCopy (s : State) (key : Nat) (skip : Bool) : State :=
  match mget s.copies key with
  | none => s
  | some x =>
    let x := { x with holding := false }
    let core := key / 4096
    if !skip then putCopy s key { x with whole := false }
    else
      let (s, rd) : State × Option (ObjRec × Option ObjRec) := match x.shape with
        | some g => (s, some (g.rec_, x.dshape.map (·.rec_)))
        | none =>
          let (s, rd) := x.recs s core
          (s, match rd with
            | .ok q => some q
            | .error _ => none)
      match rd with
      | none =>
        -- no record has ever been read: everything is skipped, and the bytes counted are not stated
        let n := Config.freeNat s.epoch 900
        putCopy (x.updBar s core (countBar · n)) key
          { x with pieces := some [], counted := x.counted + n, status := 5, whole := false }
      | some (r, d) =>
        let all := x.pieces.getD (x.pieceList r)
        let (gone, rest) := if x.whole then (all, []) else (all.take 1, all.drop 1)
        let n := (gone.map (x.skipBytes r d)).foldl (· + ·) 0
        putCopy (x.updBar s core (countBar · n)) key
          { x with pieces := some rest, shape := some r.shape, dshape := d.map (·.shape), counted := x.counted + n, status := 5, whole := false }

/-! Issue. -/

/-- The lowest free entry of a core, from `lo` on. -/
def freeKey (s : State) (core lo n : Nat) : Option Nat :=
  ((List.range n).find? fun (i : Nat) => (mget s.copies (4096 * core + lo + i)).isNone).map fun i => 4096 * core + lo + i

/-- Enters a bound copy: it waits for a free entry where there is none. -/
def enterBound (i : Instr) (lat : Nat) (d : BitVec 6) (x : Copy) (ranges : List LocalRange) (s : State) : State × Nat :=
  let core := s.iss.core
  let key := ((freeKey s core 0 64).orElse fun _ => freeKey s core 64 4032).getD (4096 * core + 4095)
  let seq := (cur s).nextSeq
  let s := setCur s (pushPend (cur s)
    { newPend i s lat with st := .engine, dst := some (d, shadowed (cur s) d), ranges := ranges, eng := some key })
  (putCopy { s with nextId := s.nextId + 1 } key { x with seq := some seq, num := s.nextId }, key)

/-- A tile copy as its syllable gives it. -/
def newCopy (op : Nat) (opd : List W64) (red : Bool) (s : State) : Copy :=
  let bar := nbits (opd.getD 0 0).toNat 48 16
  { num := 0, op := op, slot := s.iss.slot, part := s.iss.part, task := (cur s).entered, seq := none, queue := (cur s).queue
    scope := s.iss.scope.toNat, opd := opd, red := red, shape := none, dshape := none
    barBad := bar != noBar && !rangeInShare (cur s) (curCore s) (8 * bar) 8, pieces := none, foot := [], units := []
    counted := 0, status := 0, fcode := 0, fhandle := 0, fc := [], holding := false, whole := false
    pcode := 0, pfc := [], ended := false }

/-- A result of a C-slot operation. -/
def cqResult (i : Instr) (f : CQ) (x : Nat) (s : State) : State :=
  resultEng i (lat7 f.lat) [sDest s f.d (BitVec.ofNat 64 x) false] s

/-- The status with which a detached operation is turned away, if any (R189): its barrier is not armed, or no entry of
the core is free. A barrier word outside the share is a range fault instead. -/
def refuses (s : State) (bar : Nat) : Option Nat :=
  let c := curCore s
  if bar ≠ noBar && rangeInShare (cur s) c (8 * bar) 8 && !(barWord c bar).testBit 56 then some 2
  else if (freeKey s s.iss.core 0 64).isNone then some 1
  else none

/-- Issue of a tile copy (R185 to R189). -/
def copyBody (i : Instr) (f : CQ) (op : Nat) (s : State) : Except TrapReq State :=
  match captured s (capturedRegs i) with
  | .error e => .error e
  | .ok (caps, n) =>
    let det := f.sh.getLsbD 0
    let core := s.iss.core
    let x := newCopy op (stepOpd op (f.sh.getLsbD 2) f.x n caps) (f.sh.getLsbD 1) s
    let (s, rd) := x.recs s core
    let st := match rd with
      | .ok (r, d) => x.status? r d
      | .error _ => none
    let st := match st with
      | some c => some c
      | none => if det then refuses s x.bar else none
    match st with
    | some c => .ok (cqResult i f c s)
    | none =>
      let (x, ranges, fault) : Copy × List LocalRange × Option Nat := match rd with
        | .error e => ({ x with foot := x.wideFoot }, x.guesses.flatMap x.ranges, some e)
        | .ok (r, d) =>
          let y := { x with shape := some r.shape, dshape := d.map (·.shape), foot := x.footprint r d }
          if x.localOk (cur s) (curCore s) r then (y, x.ranges r, none) else (y, [], some cLocalRange)
      let (s, key) :=
        if det then
          let key := (freeKey s core 0 64).getD (4096 * core)
          (putCopy (cqResult i f 0 { s with nextId := s.nextId + 1 }) key { x with num := s.nextId }, key)
        else enterBound i (lat7 f.lat) f.d x ranges s
      .ok (match fault, mget s.copies key with
        | some code, some x => copyFault s key x code (x.coord 0 0).list true
        | _, _ => s)

def execOcopy (f : CQ) (s : State) : Out := runSyl (.ocopy f) (copyBody (.ocopy f) f 2) s
def execOload (f : CQ) (s : State) : Out := runSyl (.oload f) (copyBody (.oload f) f 3) s
def execOstore (f : CQ) (s : State) : Out := runSyl (.ostore f) (copyBody (.ostore f) f 4) s
def execTload (f : CQ) (s : State) : Out := runSyl (.tload f) (copyBody (.tload f) f 5) s

/-- BARSET (R194). The word is written with the writes of the issue (R236); until the deadline the partition may not rely on it
(R19). An entry whose record is still held is in flight too (R189, R202). -/
def barsetBody (f : CQ) (s : State) : Except TrapReq State :=
  let i := Instr.barset f
  match useS s f.a, useS s (f.a + 1) with
  | .error e, _ => .error e
  | _, .error e => .error e
  | .ok a, .ok b =>
    let idx := a.toNat % 65536
    let core := s.iss.core
    if idx = noBar then illegal i
    else if !rangeInShare (cur s) (curCore s) (8 * idx) 8 then
      .ok (faultResult i (lat7 f.lat) cLocalRange (BitVec.ofNat 64 (8 * idx)) 0 0 s)
    else if s.copies.any fun e => e.1 / 4096 == core && e.2.bar == idx then .ok (cqResult i f 0x0C s)
    else
      let bs := toBytes (b.toNat % 2 ^ 56 + 2 ^ 56) 8
      let s := deferScratch s ((List.zip (List.range 8) bs).map fun q => (8 * idx + q.1, q.2))
      .ok (setCur s (pushPend (cur s) { newPend i s (lat7 f.lat) with
        writes := [sDest s f.d 0 false], st := .engine, ranges := [{ tile := false, lo := 8 * idx, n := 8 }] }))

def execBarset (f : CQ) (s : State) : Out := runSyl (.barset f) (barsetBody f) s

end Sys2Proof.Machine
end

