-- ==== Sys2Proof/Machine/MemSide.lean ====
section
/-! DEFINITION. The events of the memory side: requests to the layout unit (R91, R92), reductions and merge commands
(R95, R96), the capture region (R98, R99), scrub and retirement (R100, R101), and the age of core-cache lines (R239). -/

namespace Sys2Proof.Machine

/-! The layout unit. -/

/-- The coordinates of a request, in the order in which the object's layout places them (R91): row by row, under column-major column
by column, and under the tiled layouts tile by tile, each tile row by row. -/
def reqCoords (t : TileReq) (r : ObjRec) : List Coord :=
  let at_ (i j : Nat) : Coord := { c0 := t.c0 + j, c1 := t.c1 + i, c2 := t.c2, c3 := t.c3 }
  if r.layout = 2 then (List.range t.cols).flatMap fun j => tab t.rows fun i => at_ i j
  else if r.layout < 2 then (List.range t.rows).flatMap fun i => tab t.cols fun j => at_ i j
  else
    let key (i j : Nat) : Nat :=
      ((((t.c1 + i) / 128 - t.c1 / 128) * 2 ^ 32 + ((t.c0 + j) / 128 - t.c0 / 128)) * 128 + (t.c1 + i) % 128) * 128 + (t.c0 + j) % 128
    (((List.range t.rows).flatMap fun i => tab t.cols fun j => (key i j, at_ i j)).foldl
      (fun m e => mput m e.1 e.2) ([] : TMap Coord)).map (·.2)

def reqRec (t : TileReq) (s : State) : State × Option ObjRec :=
  let (s, r) := findRec s ioDie (tabOf s t.q) t.handle
  match r with
  | .ok r => (s, some r)
  | .error _ => (s, none)

/-- The first element outside the shape of an object under FAULT. -/
def shapeFault (r : ObjRec) (cs : List Coord) : Option Coord := if r.pad then none else cs.find? fun c => !r.inShape c

/-- Where the layout unit finds an element: by the address that the layout code gives, under NBASE once its sub-tile has moved. It
asks for no residency (R91). -/
def placeElem (s : State) (r : ObjRec) (c : Coord) (wr : Bool) : State × ElemAt :=
  if !r.inShape c then (s, .pad)
  else if r.rbmp = 0 || r.state ≠ 1 then (s, .at (8 * r.base + r.bitOff c))
  else
    let s := if wr then awaitCopying s r (r.subTile c) else s
    let (s, rm) := resMov s r (r.subTile c)
    (s, .at (8 * (if rm.any (·.2) then r.nbase else r.base) + r.bitOff c))

/-- The elements of a request, placed in order. -/
def placeAll (s : State) (r : ObjRec) (wr : Bool) : List Coord → State × List ElemAt
  | [] => (s, [])
  | c :: cs =>
    let (s, e) := placeElem s r c wr
    let (s, l) := placeAll s r wr cs
    (s, e :: l)

/-- Whether all elements lie in HBM, which alone a layout unit serves (R83, R91). -/
def layoutHbm (r : ObjRec) (es : List ElemAt) : Bool := (es.flatMap (ElemAt.addrs r)).all (· < hbmTop)

/-- The stored byte from which each delivered byte comes; none for pad, and for bytes put together from several (R91). -/
def sourceBytes (r : ObjRec) : List ElemAt → List (Option Nat)
  | [] => []
  | e :: es =>
    if r.isPlane then List.replicate (ceilDiv (r.w * (es.length + 1)) 8) none
    else if r.w = 4 then
      match e, es with
      | .at a, .at b :: es => (if a % 8 = 0 && b = a + 4 then some (a / 8) else none) :: sourceBytes r es
      | _, _ :: es => none :: sourceBytes r es
      | _, [] => [none]
    else
      (match e with
        | .at a => tab (r.w / 8) fun i => some (a / 8 + i)
        | .pad => List.replicate (r.w / 8) none) ++ sourceBytes r es

/-- The logical sector that a delivered sector takes whole. -/
def wholeSector (src : List (Option Nat)) : Option Nat :=
  match src with
  | some a :: _ => if a % 256 = 0 && src == tab 256 fun i => some (a + i) then some (a / 256) else none
  | _ => none

/-- The check value of a delivered sector: the stored one for a sector taken whole, else that of its bytes; of a short last sector,
of the bytes delivered (log entry 116). -/
def deliveredCv (s : State) (bs : List Byte) (src : List (Option Nat)) : W32 :=
  match wholeSector src with
  | some k => (metaOf s (k / 8)).cv.getD (k % 8) 0
  | none => crc32c bs

/-- Delivers a tile in sectors: bytes, check values, and whether a sector holds an element of one that failed. -/
def deliver (r : ObjRec) (es : List ElemAt) (s : State) : State :=
  let n := ceilDiv (r.w * es.length) 8
  let bs := toBytes (packElems r.w (es.map (ElemAt.read s r))) n
  let src := sourceBytes r es
  let failing (e : ElemAt) : Bool := match e with
    | .pad => false
    | .at ba => elemPoison s r ba
  let k := ceilDiv n 256
  let out : LayoutOut :=
    { data := bs, cvs := tab k fun i => deliveredCv s ((bs.drop (256 * i)).take 256) ((src.drop (256 * i)).take 256)
      bad := tab k fun i => (((es.drop (2048 * i / r.w)).take (ceilDiv (2048 * (i + 1)) r.w - 2048 * i / r.w))).any failing
      fault := none }
  { s with layoutOut := some out }

/-- The end of a request with the shape fault. -/
def shapeEnd (c : Coord) (s : State) : State := { s with layoutOut := some { data := [], cvs := [], bad := [], fault := some c.list } }

/-- LAYOUT_READ (R91). -/
def layoutReadStep (t : TileReq) (s : State) : State :=
  let (s, r) := reqRec t s
  match r with
  | none => s
  | some r =>
    let cs := reqCoords t r
    match shapeFault r cs with
    | some c => shapeEnd c s
    | none =>
      let (s, es) := placeAll s r false cs
      if layoutHbm r es then deliver r es (touchAll s (es.flatMap (ElemAt.addrs r))) else s

def execLayoutRead (t : TileReq) (s : State) : Out := event (layoutReadStep t) s

/-- The sectors of incoming data that do not agree with the check values they came with (R94, R198). -/
def cvMismatch (data : List Byte) (cvs : List W32) : List Nat :=
  (List.range cvs.length).filter fun i => crc32c ((data.drop (256 * i)).take 256) != cvs.getD i 0

/-- LAYOUT_WRITE (R92): bytes outside the shape are discarded under PAD; under FAULT nothing is written. The bytes go to the
write-combining region together. Data from outside the device comes with check values (`cvs`), and none of it is accepted where one
disagrees (R94, R198). -/
def layoutWriteStep (t : TileReq) (cls : TrafficClass) (data : List Byte) (cvs : List W32) (s : State) : State :=
  let (s, r) := reqRec t s
  match r with
  | none => s
  | some r =>
    let cs := reqCoords t r
    match shapeFault r cs with
    | some c => shapeEnd c s
    | none =>
      let bad := cvMismatch data cvs
      let (s, es) := placeAll s r true cs
      if !layoutHbm r es then s
      else if !bad.isEmpty then
        let src := sourceBytes r es
        let sec (i : Nat) : Nat := ((src.drop (256 * i)).findSome? id).getD 0 / 256
        bad.foldl (fun s i => addEvent s { code := 0x06, loc := sec i, detail := [] })
          { s with layoutOut := some { data := [], cvs := [], bad := tab cvs.length bad.contains, fault := none } }
      else
        let x := ofBytes data
        writeElems s r cls ((List.zip (List.range es.length) es).filterMap fun q => match q.2 with
          | .at ba => some (ba, elem x r.w q.1)
          | .pad => none)

def execLayoutWrite (t : TileReq) (cls : TrafficClass) (data : TileData) (s : State) : Out :=
  event (layoutWriteStep t cls data.bytes data.cvs) s

/-! Reductions and merges. -/

/-- MEMORY_SIDE_REDUCTION (R96): of a naturally aligned element of HBM, through a destination object with a compressible flag (R87). -/
def execMemorySideReduction (addr : Nat) (f32 : Bool) (x : W32) (t : Traffic) (s : State) : Out :=
  event (fun s => if addr + redWidth f32 ≤ hbmTop && addr % redWidth f32 = 0 then reduceMem s addr f32 x t.cls t.cmpr else s) s

/-- IO_DIE_REDUCTION (R96): of an element of the annex or of host memory. -/
def execIoDieReduction (addr : Nat) (f32 : Bool) (x : W32) (s : State) : Out :=
  event (fun s => if hbmTop ≤ addr && addr % redWidth f32 = 0 && populated s addr then reduceIo s addr f32 x else s) s

/-- STEWARD_MERGE_COMMAND (R95). -/
def execStewardMergeCommand (chunks : List Nat) (s : State) : Out := event (fun s => chunks.foldl mergeChunk s) s

/-! Capture. -/

/-- Entries of one stack's capture region. -/
def captureEntries : Nat := 2048

/-- Marks sectors of a chunk as failing their check values. -/
def poisonSectors (s : State) (c : Nat) (sec : BitVec 8) : State :=
  { s with pois := ((List.range 8).filter fun i => sec.getLsbD i).foldl (fun p i => mput p (8 * c + i) true) s.pois }

/-- Releases a capture entry (R99): a written one is stored back, which takes a while; any other is dropped, and the home is
read again as scrub has left it. -/
def releaseCapture (s : State) (c : Nat) (e : Capture) : State :=
  if e.dirty then { s with capture := mput s.capture c { e with storing := true } }
  else poisonSectors { s with capture := mdel s.capture c } c e.home

/-- The least recently accessed of some entries. -/
def oldestCapture : TMap Capture → Option (Nat × Capture)
  | [] => none
  | x :: xs =>
    match oldestCapture xs with
    | none => some x
    | some y => if x.2.used ≤ y.2.used then some x else some y

/-- An entry that changes nothing. -/
def WcEntry.idle (s : State) : WcEntry := { cls := .objects, used := s.epoch, data := [], bad := [], red := [], raw := false, fmts := [] }

/-- The chunk moves into a capture entry (R98 part 2): it is read and verified, and its write-combining entry is merged into the
capture entry, which has then been written. -/
def enterCapture (s : State) (c : Nat) : State :=
  let w := mget s.wc c
  let x := w.getD (WcEntry.idle s)
  let s := trackRow (applyEntry s c x) c
  { s with capture := mput s.capture c { dirty := w.isSome, used := s.clock, storing := false, raw := x.raw, fmts := x.fmts, home := 0 } }

/-- CHUNK_CAPTURE (R98): a home whose counter has reached ACT_CAP moves to the capture region; the targeted refresh
changes no state. With no entry free the least recently accessed one is released, and the capture waits while that is stored back
(R99). -/
def captureStep (c : Nat) (s : State) : State :=
  if !s.capDue.contains c then s
  else if (mget s.capture c).isSome then { s with capDue := s.capDue.erase c }
  else
    let mine := s.capture.filter fun e => stackOf e.1 == stackOf c
    let idle := mine.filter fun e => !e.2.storing
    if mine.length < captureEntries then enterCapture { s with capDue := s.capDue.erase c } c
    else if idle.length < mine.length then s
    else
      match oldestCapture idle with
      | some (v, e) =>
        let s := releaseCapture s v e
        if e.dirty then s else enterCapture { s with capDue := s.capDue.erase c } c
      | none => s

def execChunkCapture (c : Nat) (s : State) : Out := event (captureStep c) s

/-- CAPTURE_STORE_BACK_DONE (R99). -/
def execCaptureStoreBackDone (c : Nat) (s : State) : Out := event (fun s => awaitStore s c) s

/-- REFRESH_WINDOW_END (R98, R99): the trackers clear, and entries idle for the whole window are released. A capture that is due
stays due. -/
def refreshStep (s : State) : State :=
  let s' := { s with tracker := [], winClock := s.clock }
  s.capture.foldl (fun t e => if e.2.used < s.winClock && !e.2.storing then releaseCapture t e.1 e.2 else t) s'

def execRefreshWindowEnd (s : State) : Out := event refreshStep s

/-! Scrub and retirement. -/

/-- Spare row pairs of a bank pair that are free at first: the spec does not give their number. -/
def spareRows (bankPair : Nat) : Nat := Config.freeNat 0 (10 ^ 6 + bankPair)

/-- The spare row pair that the next home of a bank pair to be retired takes. -/
def spareFor (s : State) (b : Nat) : Option Nat :=
  let used := (mget s.spares b).getD 0
  if used < spareRows b then some used else none

/-- Begins the retirement of a home (R101): it is copied to a spare row pair, or there is none left, which is reported
once, at the first retirement that finds none (DESIGN CHOICE, log entry 126). -/
def retireHome (s : State) (c : Nat) : State :=
  if (mget s.retiring c).isSome then s
  else
    let b := bankPairOf c
    match spareFor s b with
    | some k => trackRow { s with retiring := mput s.retiring c k, hot := mdel s.hot c, spares := mput s.spares b (k + 1) } c
    | none =>
      if s.events.any fun e => e.code == 0x04 && e.loc == b then s
      else addEvent s { code := 0x04, loc := b, detail := [] }

/-- What the report of a retirement says of the row remap table: the spare row pair at which the home will stand, if one is left
and it is not on its way already. -/
def remapDetail (s : State) (c : Nat) : List Nat :=
  if (mget s.retiring c).isSome then [] else (spareFor s (bankPairOf c)).toList

/-- The pseudo-channel of a chunk (R84). -/
def pseudoOf (c : Nat) : Nat := bankPairOf c / 16

/-- The home of a pseudo-channel's list with the lowest score. -/
def coldest : TMap HotHome → Option (Nat × Nat)
  | [] => none
  | x :: xs =>
    match coldest xs with
    | none => some (x.1, x.2.score)
    | some y => if x.2.score ≤ y.2 then some (x.1, x.2.score) else some y

/-- A corrected error was found in a home (R100, R101). -/
def correctedHome (s : State) (c : Nat) : State :=
  let s := match mget s.hot c with
    | some _ => s
    | none =>
      let mine := s.hot.filter fun (e : Nat × HotHome) => pseudoOf e.1 == pseudoOf c
      let hot := if mine.length < 64 then s.hot else
        match coldest mine with
        | some (v, _) => mdel s.hot v
        | none => s.hot
      addEvent { s with hot := mput hot c { score := 0, corrected := false } } { code := 0x01, loc := c, detail := [] }
  let h := (mget s.hot c).getD { score := 0, corrected := false }
  -- the 16 stand in place of the 1 (log entry 115)
  let score := h.score + if h.corrected then 16 else 1
  let s := { s with hot := mput s.hot c { score := score, corrected := true } }
  if score < 32 then s
  else
    let d := remapDetail s c
    let s := retireHome s c
    -- a home retired by its score is reported as such, with the score and its place in the remap table
    if d.isEmpty then s else addEvent s { code := 0x03, loc := c, detail := score :: d }

/-- The sectors that an uncorrectable error touches are poisoned: those of the home, and not the copy of a captured chunk. -/
def scrubPoison (s : State) (c : Nat) (sec : BitVec 8) : State :=
  match mget s.capture c with
  | some e => { s with capture := mput s.capture c { e with home := e.home ||| sec } }
  | none => poisonSectors s c sec

/-- PATROL_SCRUB (R100, R101): what scrub, or the ECC of any read, finds in a home. The copy of a captured chunk is not
touched. -/
def scrubHome (c : Nat) (ecc : Ecc) (s : State) : State :=
  let s := trackRow s c
  match ecc with
  | .clean => s
  | .corrected => correctedHome s c
  | .uncorrectable sec =>
    retireHome (addEvent (scrubPoison s c sec) { code := 0x02, loc := c, detail := sec.toNat :: remapDetail s c }) c

/-- What scrub finds in the metadata record of a chunk. The hot list and retirement are of homes only: a corrected error is written
back and leaves nothing behind, an uncorrectable one poisons the sectors whose check values it touches (log entry 117). -/
def scrubMeta (c : Nat) (ecc : Ecc) (s : State) : State :=
  match ecc with
  | .uncorrectable sec => addEvent (scrubPoison s c sec) { code := 0x02, loc := c, detail := [sec.toNat] }
  | _ => s

def execPatrolScrub (row : ScrubRow) (ecc : Ecc) (s : State) : Out :=
  event (match row with
    | .home c => scrubHome c ecc
    | .metadata c => scrubMeta c ecc) s

/-- RETIREMENT_COPY_DONE (R101): the home stands on the spare row pair that it has taken, as the row remap table says. -/
def retiredStep (c : Nat) (s : State) : State :=
  match mget s.retiring c with
  | some k => { s with retiring := mdel s.retiring c, remap := mput s.remap c k }
  | none => s

def execRetirementCopyDone (c : Nat) (s : State) : Out := event (retiredStep c) s

/-- SCRUB_PERIOD_END (R101): every score halves, and a new scrub pass begins. -/
def execScrubPeriodEnd (s : State) : Out :=
  event (fun s =>
    let cool (e : Nat × HotHome) : Nat × HotHome := (e.1, { score := e.2.score / 2, corrected := false })
    { s with hot := s.hot.map cool }) s

/-- CORE_CACHE_LINE_EXPIRY (R239): a line is dropped 65,536 core clocks after its fill. -/
def expiryStep (core line : Nat) (s : State) : State :=
  let c := getCore s core
  match mget c.cache line with
  | some l => if l.filled + 65536 ≤ s.clock then setCore s core { c with cache := mdel c.cache line } else s
  | none => s

def execCoreCacheLineExpiry (core line : Nat) (s : State) : Out := event (expiryStep core line) s

end Sys2Proof.Machine
end

