-- ==== Sys2Proof/Machine/Queue.lean ====
section
/-! DEFINITION. Queues of packets (R177 to R181, R209, R210), CWAIT (R203), the invalidation of object records (R123) and
the relocation engine (R119 to R121, R124). -/

namespace Sys2Proof.Machine

/-! Queues. -/

/-- The fields of a queue header of 64 bytes (Table 8.1). -/
def qClaim (h : Nat) : Nat := nbits h 0 64
def qLimit (h : Nat) : Nat := nbits h 64 64
def qSize (h : Nat) : Nat := nbits h 128 32
def qCons (h : Nat) : Nat := nbits h 192 64

/-- The rules of R177 for a queue header. -/
def queueOk (h : Nat) : Bool :=
  nbits h 160 32 == 0 && nbits h 256 256 == 0 && 2 ≤ qSize h && qSize h ≤ 65536 && 2 ^ Nat.log2 (qSize h) == qSize h

/-- PH(k) of a ring of `size` slots (R180). -/
def phaseOf (k size : Nat) : Bool := k / size % 2 == 0

/-- Object address of slot `k`. -/
def slotAddr (q : W64) (k size : Nat) : W64 := objAddr (q.toNat / 2 ^ 44) (q.toNat % 2 ^ 44 + 64 + 64 * (k % size))

/-- The operands of QPUSH and QPOLL: the queue and the packet's place in the scratchpad, or the result fault. -/
def queueArgs (i : Instr) (f : CQ) (s : State) : Except TrapReq (Except State (W64 × W64)) :=
  match useS s f.a, useS s (f.a + 1) with
  | .error e, _ => .error e
  | _, .error e => .error e
  | .ok q, .ok b =>
    let b := BitVec.ofNat 64 (b.toNat % 2 ^ 32)
    if q.toNat % 64 ≠ 0 then .ok (.error (objResult i (lat7 f.lat) { code := oAlign, taddr := q } s))
    else if b.toNat % 64 ≠ 0 || !localOk (cur s) (curCore s) b 64 then
      .ok (.error (faultResult i (lat7 f.lat) cLocalRange (BitVec.ofNat 64 (spOff b)) 0 0 s))
    else .ok (.ok (q, b))

/-- The access of QPUSH and QPOLL to a header. -/
def queueKind : Kind := { cls := clsCopy, rd := true, wr := true }

/-- The line write of QPUSH in its own bundle issue: translated now, written with the writes of the issue (R236). -/
def pushNow (i : Instr) (f : CQ) (slotAddr : W64) (pkt : List Byte) (res : W64) (s : State) : State :=
  let (s, r) := xlateAl s s.iss.core (cur s).queue slotAddr 64 64 { cls := clsCopy, rd := true, wr := true }
  match r with
  | .error e => objResult i (lat7 f.lat) e s
  | .ok (r, l) => resultEng i (lat7 f.lat) [sDest s f.d res false] (deferCells s false r l pkt)

/-- QPUSH (R209): the claim at once, as an atomic; the packet when the earlier accesses of the partition have performed. -/
def qpushBody (f : CQ) (s : State) : Except TrapReq State :=
  let i := Instr.qpush f
  match queueArgs i f s with
  | .error e => .error e
  | .ok (.error t) => .ok t
  | .ok (.ok (q, b)) =>
    let (s, r) := xlateAl s s.iss.core (cur s).queue q 64 64 queueKind
    .ok (match r with
      | .error e => objResult i (lat7 f.lat) e s
      | .ok (r, l) =>
        let (s, h) := atomCells s s.iss.core l
        if !queueOk h || !soundAt s l then cqResult i f 0x0D s
        else
          let k := qClaim h
          let size := qSize h
          if size ≤ (k + 2 ^ 64 - qLimit h) % 2 ^ 64 then cqResult i f 1 s
          else
            let s := deferCells s true r (l.take 8) (toBytes (k + 1) 8)
            let x := ofBytes (localBytes s s.iss.core (cur s) b 64)
            let ph := if phaseOf k size then 2 ^ 31 else 0
            let pkt := toBytes (x - nbits x 31 1 * 2 ^ 31 + ph) 64
            let res := BitVec.ofNat 64 (k % 2 ^ 32 * 2 ^ 32)
            if drained (cur s) (cur s).nextSeq then pushNow i f (slotAddr q k size) pkt res s
            else waitPend i (lat7 f.lat) (some f.d) (.rel (cur s).nextSeq (.qpush (slotAddr q k size) pkt res)) s)

def execQpush (f : CQ) (s : State) : Out := runSyl (.qpush f) (qpushBody f) s

/-- An acquire at the scope of the bundle (R243). -/
def acquireHere (s : State) : State := if s.iss.scope = 0 then s else dropCache s s.iss.core

/-- QPOLL (R210): one atomic update of the header, and an acquire whatever it finds. A packet that fails its check values is not
delivered: its bytes are undefined, and the result is poisoned (log entry 108). -/
def qpollBody (f : CQ) (s : State) : Except TrapReq State :=
  let i := Instr.qpoll f
  match queueArgs i f s with
  | .error e => .error e
  | .ok (.error t) => .ok t
  | .ok (.ok (q, b)) =>
    let (s, r) := xlateAl s s.iss.core (cur s).queue q 64 64 queueKind
    .ok (match r with
      | .error e => objResult i (lat7 f.lat) e s
      | .ok (r, l) =>
        let (s, h) := atomCells s s.iss.core l
        if !queueOk h || !soundAt s l then cqResult i f 0x0D (acquireHere s)
        else
          let c := qCons h
          let size := qSize h
          let (s, r2) := xlateAl s s.iss.core (cur s).queue (slotAddr q c size) 64 64 { cls := clsCopy, rd := true, wr := false }
          match r2 with
          | .error e => objResult i (lat7 f.lat) e s
          | .ok (_, l2) =>
            let (s, x) := atomCells s s.iss.core l2
            let bad := !soundAt s l2
            if x.testBit 31 != phaseOf c size then cqResult i f 8 (acquireHere s)
            else
              let s := deferCells s true r ((l.drop 24).take 8) (toBytes (c + 1) 8)
              let s := deferCells s true r ((l.drop 8).take 8) (toBytes (c + 1) 8)
              let mode := spSwz b
              let off := spOff b
              let bs := if bad then tab 64 fun j => Config.freeBits s.epoch (860 + j) 8 else toBytes x 64
              let s := deferScratch s ((List.zip (List.range 64) bs).map fun q => (swizzle mode (off + q.1), q.2))
              let s := acquireHere s
              setCur s (pushPend (cur s) { newPend i s (lat7 f.lat) with
                writes := [sDest s f.d (BitVec.ofNat 64 (c % 2 ^ 32 * 2 ^ 32)) bad], st := .engine
                ranges := fragments mode 5 off 64 }))

def execQpoll (f : CQ) (s : State) : Out := runSyl (.qpoll f) (qpollBody f) s

/-! CWAIT. -/

/-- CWAIT (R203). -/
def cwaitBody (f : CQ) (s : State) : Except TrapReq State :=
  let i := Instr.cwait f
  match useS s f.a, useS s (f.a + 1) with
  | .error e, _ => .error e
  | _, .error e => .error e
  | .ok a, .ok b =>
    let t := b.toNat % 2 ^ 32
    let limit := if t = 0 then none else some (s.clock + t)
    if f.sh = 0 then
      let idx := a.toNat % 65536
      if !rangeInShare (cur s) (curCore s) (8 * idx) 8 then
        .ok (faultResult i (lat7 f.lat) cLocalRange (BitVec.ofNat 64 (8 * idx)) 0 0 s)
      else .ok (pollLast (waitPend i (lat7 f.lat) (some f.d) (.cwaitBar idx limit) s))
    else
      let k : W32 := BitVec.ofNat 32 (a.toNat / 2 ^ 32)
      .ok (pollLast (waitPend i (lat7 f.lat) (some f.d) (.cwaitRing (a.toNat % 8) k limit) s))

def execCwait (f : CQ) (s : State) : Out := runSyl (.cwait f) (cwaitBody f) s

/-- CWAIT_TIMEOUT (R203): the timeout of a CWAIT runs out. A PROD that fails its check values comes with poison (R14). -/
def execCwaitTimeout (core part seq : Nat) (s : State) : Out :=
  event (fun s =>
    match livePend s core part seq with
      | some e =>
        match e.st with
        | .wait (.cwaitBar _ (some t)) => if t ≤ s.clock then answerPend s core part seq 2 else s
        | .wait (.cwaitRing r _ (some t)) =>
          if t ≤ s.clock then
            let a := ringAddr s (getPart s core part).queue r
            let prod := peekNat s a 4
            answerPend s core part seq (BitVec.ofNat 64 (2 + prod * 2 ^ 32)) (poisonedAt s a 4)
          else s
        | _ => s
      | none => s) s

/-- WAITM_WAKE (R245): a wake event of Table 10.3, or a spurious one. -/
def execWaitmWake (core part seq : Nat) (s : State) : Out :=
  event (fun s =>
    match livePend s core part seq with
      | some e => wakeWaitm s core part e
      | none => s) s

/-- WAITM_TIMEOUT (R245, R277): the timeout of a WAITM runs out. -/
def execWaitmTimeout (core part seq : Nat) (s : State) : Out :=
  event (fun s =>
    match livePend s core part seq with
      | some e =>
        match e.st with
        | .wait (.waitm _ _ _ (some t)) => if t ≤ s.clock then wakeWaitm s core part e else s
        | _ => s
      | none => s) s

/-! Object records. -/

/-- The cores that a scope code spans (Table 1.1): CORE, QUAD, DIE, DEV. -/
def scopeCores (core scope : Nat) : List Nat :=
  (List.range 128).filter fun c =>
    match scope with
    | 0 => c == core
    | 1 => c / 4 == core / 4
    | 2 => c / 64 == core / 64
    | _ => true

/-- Drops the records of one handle of a handle table, or of all of them, from a core's cache. -/
def olcDrop (s : State) (core ctx : Nat) (h : Option Nat) : State :=
  match mget s.cores core with
  | some c => setCore s core { c with olc := c.olc.filter fun e => !(e.ctx == ctx && h.all (· == e.handle)) }
  | none => s

/-- Drops the records of an object from every cache of the device. -/
def olcDropAll (s : State) (ctx h : Nat) : State :=
  (List.range 129).foldl (fun s c => olcDrop s c ctx (some h)) s

/-- Whether an operation has been translated and has still to perform. -/
def translated (e : Pend) : Bool :=
  match e.st with
  | .wait (.rel _ (.atomic _)) => true
  | .wait (.waitm _ _ _ _) => true
  | _ => false

/-- The accesses that were translated with a record of a CTXID, of one handle or of any, and have still to perform in the partitions of
some cores, resident or swapped out. -/
def inFlightOps (s : State) (cores : List Nat) (ctx : Nat) (h : Option Nat) : List (Nat × Nat × Nat) :=
  let with_ (e : Pend) : Bool := translated e && e.obj.any fun o => o.1 == ctx && h.all (· == o.2)
  let of (c : Nat) (p : Part) : List (Nat × Nat × Nat) := (p.pends.filter with_).map fun e => (c, p.entered, e.seq)
  cores.flatMap fun c =>
    ((List.range 17).flatMap fun (i : Nat) => of c (getPart s c i)) ++ (s.shadow.filter fun e => e.2.core == c).flatMap fun e => of c e.2.ctx

/-- OLCINV (R123). -/
def olcinvBody (f : CQ) (s : State) : Except TrapReq State :=
  match useS s f.a with
  | .error e => .error e
  | .ok a =>
    let core := s.iss.core
    let t := tabOf s (cur s).queue
    let h := a.toNat % 2 ^ 20
    let all := a.toNat.testBit 63
    let cores := scopeCores core f.sh.toNat ++ (if f.sh.toNat = 3 then [ioDie] else [])
    let s := cores.foldl (fun s c => olcDrop s c t.ctx (if all then none else some h)) s
    let rec_ := if all || h = 0 || t.tlen ≤ h then none else some (t.tbase + 64 * h)
    let ops := inFlightOps s (scopeCores core f.sh.toNat) t.ctx (if all then none else some h)
    -- the stores of its own bundle have been translated and perform at the end of the issue
    let s := waitPend (.olcinv f) (lat7 f.lat) (some f.d) (.olcinv ops rec_) s
    .ok (if s.iss.writes.isEmpty then pollLast s else s)

def execOlcinv (f : CQ) (s : State) : Out := runSyl (.olcinv f) (olcinvBody f) s

/-! Relocation. -/

/-- Bytes from the base to the end of the object's footprint, its scale area included. The gaps between its rows count as part of it
(DESIGN CHOICE, log entry 129). -/
def ObjRec.footSpan (r : ObjRec) : Nat :=
  if r.isE2M1 then max r.elemSpan (256 * r.scoff + 2304 * (r.tc * ceilDiv r.e1 128 * r.e2)) else r.elemSpan

/-- Whether `n` bytes from an address lie in one populated region of Table 5.1. -/
def oneRegion (s : State) (a n : Nat) : Bool :=
  if n = 0 then true
  else if a < hbmTop then a + n ≤ hbmTop
  else if annexBase ≤ a && a < annexEnd then
    a + n ≤ annexEnd && (List.range ((a + n - 1) / 0x10000000 + 1 - a / 0x10000000)).all fun (i : Nat) =>
      populated s (a / 0x10000000 * 0x10000000 + i * 0x10000000)
  else hostBase ≤ a && a + n ≤ hostEnd && s.hostMaps.any fun m => m.1 ≤ a - hostBase && a - hostBase + n ≤ m.2

/-- Writes the fields that a relocation changes in a record: NBASE and STATE. -/
def writeMoving (s : State) (a nbase state : Nat) : State :=
  let s := engineWrite s (a + 8) (toBytes nbase 6)
  let old := peekNat s (a + 49) 1
  engineWrite s (a + 49) [BitVec.ofNat 8 (old - nbits old 3 2 * 8 + state * 8)]

/-- The bytes of a bitmap (R115). -/
def ObjRec.bitmapLen (r : ObjRec) : Nat := ceilDiv r.nsub 4

/-- Whether a byte of a bitmap fails its check values, as a read finds it, with merging (R94); each sector that does is reported
(R419). -/
def bitmapFails (s : State) (r : ObjRec) : State × Bool :=
  let s := touchRead s r.rbmp r.bitmapLen
  let secs := (tab ((r.rbmp + r.bitmapLen + 255) / 256 - r.rbmp / 256) fun i => r.rbmp / 256 + i).filter (sectorFails s)
  (secs.foldl (fun s k => addEvent s { code := 0x10, loc := k, detail := [] }) s, !secs.isEmpty)

/-- Writes MOV = 0 in every pair of a bitmap. -/
def clearMov (s : State) (r : ObjRec) : State :=
  (List.range r.bitmapLen).foldl (fun s (i : Nat) =>
    let s := touchRead s (r.rbmp + i) 1
    engineWrite s (r.rbmp + i) [BitVec.ofNat 8 (peekNat s (r.rbmp + i) 1) &&& 0x55]) s

/-- The status of a RELOC request for a record that keeps the rules (R124): the footprints are whole spans, gaps included (log entry
129). -/
def relocStatus (s : State) (r : ObjRec) (dst : Nat) : Nat :=
  let n := r.footSpan
  if r.state ≠ 0 then 1
  else if r.rbmp = 0 then 2
  else if dst % r.align ≠ 0 || !oneRegion s dst n || (dst < r.base + n && r.base < dst + n) then 3
  else if 32 ≤ s.relocs.length then 4
  else 0

/-- The record of a relocation (R119, R127), with a status and an outcome; what it names of a copy is not stated. Bits copied that are not
whole bytes are rounded down (DESIGN CHOICE, log entry 129). -/
def relocRecord (s : State) (x : Reloc) (st fcode : Nat) : State :=
  holdRec s
    { queue := x.queue, ring := x.ring
      body := recBytes st fcode 5 (Config.freeBits s.epoch 850 16).toNat (x.moved / 8) (if fcode = 0 then 0 else x.handle) []
      entry := none, ui := none }

/-- A relocation whose record or bitmap fails its check values ends with outcome DAMAGED in its record (R419); the object stays as
it is (log entry 109). -/
def relocDamaged (s : State) (slot : Nat) (x : Reloc) : State := relocRecord { s with relocs := mdel s.relocs slot } x 0x13 0

/-- What a request for a relocation comes to: its status, or its fault. An accepted one is entered, and by the record that it is accepted
with it is carried out. -/
def relocStep (s : State) (core q h dst ring : Nat) : State × Except Nat Nat :=
  let t := tabOf s q
  if !t.relocok then (s, .error oPerm)
  else
    let (s, r) := findRec s core t h
    match r with
    | .error c => (s, .error c)
    | .ok r =>
      let st := relocStatus s r dst
      if st ≠ 0 then (s, .ok st)
      else
        let (s, l) := recLine s core t h
        let slot := ((List.range 32).find? fun (k : Nat) => (mget s.relocs k).isNone).getD 0
        let x : Reloc := { queue := q, handle := h, line := BitVec.ofNat 512 (l.getD 0), rbmp := r.rbmp, nbase := dst, ring := ring
                           next := 0, copying := false, total := r.nsub, moved := 0 }
        let (s, bad) := bitmapFails s r
        if bad then (relocDamaged s slot x, .ok 0)
        else
          let s := olcDropAll (writeMoving (clearMov s r) (t.tbase + 64 * h) dst 1) t.ctx h
          ({ s with relocs := mput s.relocs slot x }, .ok 0)

/-- The relocation engine answers a RELOC (R124). Its object faults report the handle, with LOFS 0: sA holds no object address (log
entry 110). -/
def relocRun (s : State) (x : KvOp) (id : Nat) : State :=
  let h := x.word 0 % 2 ^ 20
  match relocStep s x.core x.queue h (x.word 1 % 2 ^ 48) x.sh with
  | (s, .error c) => opFail s x id c (objAddr h 0)
  | (s, .ok st) => opDone s x id (BitVec.ofNat 64 st) []

/-- RELOC (R124): the request goes to the engine. -/
def relocBody (f : CQ) (s : State) : Except TrapReq State :=
  match useS s f.a, useS s (f.a + 1) with
  | .error e, _ => .error e
  | _, .error e => .error e
  | .ok a, .ok b => .ok (submitOp (.reloc f) f [a, b] 0 [] s)

def execReloc (f : CQ) (s : State) : Out := runSyl (.reloc f) (relocBody f) s

/-- Whether a write translated to an address of a range has still to perform: a release atomic. -/
def writePending (s : State) (hits : Nat → Nat → Bool) : Bool :=
  let hit (p : Part) : Bool := p.pends.any fun e => match e.st with
    | .wait (.rel _ (.atomic a)) => hits a.addr a.n
    | _ => false
  s.parts.any (fun e => hit e.2) || s.shadow.any fun e => hit e.2.ctx

/-- Whether an access translated to the old location of a relocation has still to perform. -/
def oldPending (s : State) (base n : Nat) : Bool := writePending s fun a k => base < a + k && a < base + n

/-- Whether a write translated to the old location of a unit has still to perform (R119 step 2). -/
def unitPending (s : State) (r : ObjRec) (n : Nat) : Bool :=
  writePending s fun a k => (r.unitOf n).any fun m => (r.subCoords m).any fun c =>
    (elemRuns r (8 * r.base + r.bitOff c)).any fun q => a < q.1 + q.2 && q.1 < a + k

/-- Wakes the monitors on the old location: WAITM may wake at any time (Table 10.3). -/
def wakeOld (s : State) (base n : Nat) : State :=
  s.parts.foldl (fun s e =>
    e.2.pends.foldl (fun s x => match x.st with
      | .wait (.waitm cells _ _ _) =>
        if (linesOf cells).any fun l => base < 64 * l + 64 && 64 * l < base + n then wakeWaitm s (e.1 / 32) (e.1 % 32) x else s
      | _ => s) s) s

/-- The record of a relocation's object, read with verification: none when its line fails its check values (R419), else the one that
the engine works by (R119, R8). -/
def relocRec (s : State) (x : Reloc) : State × Option ObjRec :=
  let a := (tabOf s x.queue).tbase + 64 * x.handle
  let s := touchRead s a 64
  if poisonedAt s a 64 then (addEvent s { code := 0x10, loc := a / 256, detail := [] }, none) else (s, some x.obj)

/-- RELOC_SUBTILE_COPY (R119 step 2): the next sub-tile is marked COPYING, once the writes translated to its old location have
performed (log entry 103), or the marked one is copied. -/
def subtileStep (slot : Nat) (s : State) : State :=
  match mget s.relocs slot with
  | none => s
  | some x =>
    match relocRec s x with
    | (s, none) => relocDamaged s slot x
    | (s, some r) =>
      if x.total ≤ x.next then s
      else if x.copying then
        let s := relocAdvance s slot x
        if (mget s.relocs slot).any (·.copying) then relocDamaged s slot x else s
      else if unitPending s r x.next then s
      else { s with relocs := mput s.relocs slot { x with copying := true } }

def execRelocSubtileCopy (slot : Nat) (s : State) : Out := event (subtileStep slot) s

/-- RELOC_FINISH (R119 steps 3 and 4, R121): every access under BASE has performed, and the monitors on the old location have
been woken. -/
def relocFinish (slot : Nat) (s : State) : State :=
  match mget s.relocs slot with
  | none => s
  | some x =>
    match relocRec s x with
    | (s, none) => relocDamaged s slot x
    | (s, some r) =>
      if x.next < x.total || oldPending s r.base r.footSpan then s
      else
        let s := wakeOld s r.base r.footSpan
        match bitmapFails s r with
        | (s, true) => relocDamaged s slot x
        | (s, false) =>
          let t := tabOf s x.queue
          let a := t.tbase + 64 * x.handle
          let s := writeMoving (engineWrite s a (toBytes x.nbase 6 ++ toBytes (r.gen + 1) 2)) a 0 0
          let s := olcDropAll (clearMov s r) t.ctx x.handle
          relocRecord { s with relocs := mdel s.relocs slot } x 0 0

def execRelocFinish (slot : Nat) (s : State) : Out := event (relocFinish slot) s

end Sys2Proof.Machine
end

