-- ==== Sys2Proof/Machine/Kv.lean ====
section
/-! DEFINITION. The key-value address space (R125 to R143): its descriptor and records, the walker's lookaside cache, the
translation, and KVLD, KVLDT and KVAPP with their faults. -/

namespace Sys2Proof.Machine

/-- A KV space (Table 6.1). -/
structure KvSpace where
  seqbase : Nat
  nodebase : Nat
  folbase : Nat
  seqlen : Nat
  nodelen : Nat
  follen : Nat
  nlayer : Nat
  nkvh : Nat
  hdc : Nat
  kfmt : Nat
  ctx : Nat
  ok : Bool
  deriving DecidableEq, Repr

def inHbm (a al : Nat) : Bool := a % al == 0 && a < hbmTop

def KvSpace.of (x : Nat) : KvSpace :=
  let k : KvSpace :=
    { seqbase := nbits x 0 48, nodebase := nbits x 64 48, folbase := nbits x 128 48, seqlen := nbits x 192 20
      nodelen := nbits x 224 32, follen := nbits x 256 32, nlayer := nbits x 288 8 + 1, nkvh := nbits x 296 6 + 1
      hdc := nbits x 302 2, kfmt := nbits x 304 4, ctx := nbits x 320 12, ok := true }
  { k with ok := inHbm k.seqbase 64 && inHbm k.nodebase 64 && inHbm k.folbase 64 && 1 ≤ k.seqlen && 1 ≤ k.nodelen &&
      1 ≤ k.follen && k.nlayer ≤ 240 && k.hdc ≤ 2 && ((1 ≤ k.kfmt && k.kfmt ≤ 4) || k.kfmt == 6) &&
      nbits x 48 16 == 0 && nbits x 112 16 == 0 && nbits x 176 16 == 0 && nbits x 212 12 == 0 && nbits x 308 12 == 0 &&
      nbits x 332 180 == 0 }

def KvSpace.hdim (k : KvSpace) : Nat := 64 * 2 ^ k.hdc
def KvSpace.w (k : KvSpace) : Nat := fmtWidth k.kfmt
/-- Bytes of one row of one head (R126). -/
def KvSpace.rb (k : KvSpace) : Nat := k.hdim * k.w / 8
/-- Logical size of a folio. -/
def KvSpace.fsz (k : KvSpace) : Nat := 128 * k.nkvh * k.rb
/-- Stride of the node table. -/
def KvSpace.nstride (k : KvSpace) : Nat := 64 * ceilDiv (64 + 4 * k.nlayer) 64

def KvSpace.seqAddr (k : KvSpace) (h : Nat) : Nat := k.seqbase + 64 * h
def KvSpace.nodeAddr (k : KvSpace) (n : Nat) : Nat := k.nodebase + k.nstride * n
def KvSpace.folAddr (k : KvSpace) (f : Nat) : Nat := k.folbase + 64 * f
def KvSpace.refAddr (k : KvSpace) (n layer : Nat) : Nat := k.nodeAddr n + 0x40 + 4 * layer

/-- Reads `n` bytes of a record of the engines, verified (R419): none, with an event, when a sector fails. -/
def readRecord (s : State) (a n : Nat) : State × Option Nat :=
  if hbmTop < a + n then (s, none)
  else
    let s := touchRead s a n
    if poisonedAt s a n then (addEvent s { code := 0x10, loc := a / 256, detail := [] }, none)
    else (s, some (peekNat s a n))

/-- The KV space of a queue; none when it has none or its descriptor may not be used. -/
def kvSpaceOf (s : State) (q : Nat) : State × Option KvSpace :=
  let a := peekNat s (queueAddr s q + 0x18) 6
  if a = 0 then (s, none)
  else
    let (s, x) := readRecord s a 64
    (s, x.bind fun x => if (KvSpace.of x).ok then some (KvSpace.of x) else none)

/-! The lookaside cache (R136). -/

/-- The 64-byte line of a KV record as a walker uses it: cached, for as long as the cache keeps it, or read. Where the two
differ, the walker takes either, and may take the old one again later: only a flush drops it. -/
def kvLine (s : State) (core ctx line : Nat) : State × Option Nat :=
  let c := getCore s core
  let a := 64 * line
  let now := BitVec.ofNat 512 (peekNat s a 64)
  let hit := match c.kvlc.find? fun e => e.ctx == ctx && e.addr == line with
    | some e => if e.line != now && Config.freeBool s.epoch (2000 + line) then none else some e.line.toNat
    | none => none
  match hit with
  | some l => (s, some l)
  | none =>
    let (s, x) := readRecord s a 64
    match x with
    | none => (s, none)
    | some x =>
      let c := getCore s core
      if c.kvlc.any fun e => e.ctx == ctx && e.addr == line then (s, some x) else
      let others := c.kvlc.filter fun e => !(e.ctx == ctx && e.addr == line)
      let kept := if others.length < 672 then others else others.drop 1
      (setCore s core { c with kvlc := kept ++ [{ ctx := ctx, addr := line, line := BitVec.ofNat 512 x }] }, some x)

/-- A field of `n` bytes within one line. -/
def kvField (s : State) (core ctx a n : Nat) : State × Option Nat :=
  let (s, l) := kvLine s core ctx (a / 64)
  (s, l.map fun l => nbits l (8 * (a % 64)) (8 * n))

/-- Drops from a core's lookaside cache what `f` names. -/
def kvlcDrop (s : State) (core : Nat) (f : KvlcEntry → Bool) : State :=
  match mget s.cores core with
  | some c => setCore s core { c with kvlc := c.kvlc.filter fun e => !f e }
  | none => s

def kvlcDropAll (s : State) (f : KvlcEntry → Bool) : State := (List.range 128).foldl (fun s c => kvlcDrop s c f) s

/-- A write of an engine to a KV record, in a traffic class: every walker's old line goes (R136). -/
def kvWriteIn (cls : TrafficClass) (s : State) (a : Nat) (bs : List Byte) : State :=
  let s := writeMem s a bs cls false 0
  kvlcDropAll s fun e => a < 64 * e.addr + 64 && 64 * e.addr < a + bs.length

/-- A write of an engine to a KV record on its own behalf (log entry 102). -/
def kvWrite (s : State) (a : Nat) (bs : List Byte) : State := kvWriteIn .objects s a bs

/-! Records. -/

/-- A sequence record (Table 6.2). -/
structure SeqRec where
  fprint : Nat
  len : Nat
  npath : Nat
  path : Nat
  tail : Nat
  v : Bool
  rclass : Nat
  nsid : Nat
  rsv : Bool
  deriving DecidableEq, Repr

def SeqRec.of (x : Nat) : SeqRec :=
  { fprint := nbits x 0 64, len := nbits x 64 32, npath := nbits x 96 32, path := nbits x 128 48, tail := nbits x 192 32
    v := x.testBit 224, rclass := nbits x 225 2, nsid := nbits x 240 16
    rsv := nbits x 176 16 != 0 || nbits x 227 13 != 0 || nbits x 256 256 != 0 }

/-- The rules of R128 and R129. -/
def SeqRec.ok (r : SeqRec) (k : KvSpace) : Bool :=
  !r.rsv && 64 * r.npath ≤ r.len && r.len ≤ 64 * r.npath + 64 && r.len ≤ 2 ^ 30 && 1 ≤ r.tail && r.tail < k.nodelen &&
  r.path % 8 == 0 && r.path + 8 * r.npath ≤ hbmTop

/-- A folio header (Table 6.4). -/
structure FolHdr where
  dbase : Nat
  surv : Nat
  fstate : Nat
  tier : Nat
  rclass : Nat
  appnxt : Nat
  loans : Nat
  lastrel : Nat
  digest : Nat
  deriving DecidableEq, Repr

def FolHdr.of (x : Nat) : FolHdr :=
  { dbase := nbits x 0 48, surv := nbits x 64 64, fstate := nbits x 128 3, tier := nbits x 132 2, rclass := nbits x 136 2
    appnxt := nbits x 144 7, loans := nbits x 160 32, lastrel := nbits x 192 32, digest := nbits x 256 256 }

/-- The word of a header at 0x10. -/
def FolHdr.word (h : FolHdr) : Nat := h.fstate + h.tier * 2 ^ 4 + h.rclass * 2 ^ 8 + h.appnxt * 2 ^ 16

/-- The bytes of a folio header. -/
def FolHdr.bytes (h : FolHdr) : List Byte :=
  toBytes h.dbase 8 ++ toBytes h.surv 8 ++ toBytes h.word 4 ++ toBytes h.loans 4 ++ toBytes h.lastrel 4 ++ toBytes 0 4 ++
    toBytes h.digest 32

/-- Whether a folio header keeps its reserved bits and codes (Table 6.4). -/
def folOk (x : Nat) : Bool :=
  nbits x 48 16 == 0 && nbits x 128 3 ≤ 4 && nbits x 131 1 == 0 && nbits x 134 2 == 0 && nbits x 138 6 == 0 &&
  nbits x 151 9 == 0 && nbits x 224 32 == 0

def fOpen : Nat := 0
def fSealed : Nat := 1
def fRecalling : Nat := 2
def fAbsent : Nat := 3
def fDamaged : Nat := 4

/-- Packed slot of an offset (R132). -/
def slotOf (surv o : Nat) : Nat := popc surv o

/-- Fault codes of Table 6.5. -/
def kvInvalid : Nat := 0x10
def kvCoord : Nat := 0x11
def kvRange : Nat := 0x12
def kvNoloan : Nat := 0x13
def kvAbsent : Nat := 0x14
def kvDamaged : Nat := 0x15

/-- The sequence record of a handle (the first checks of R134). -/
def seqOf (s : State) (core : Nat) (k : KvSpace) (h : Nat) : State × Except Nat SeqRec :=
  if h = 0 || k.seqlen ≤ h then (s, .error kvInvalid)
  else
    let (s, x) := kvField s core k.ctx (k.seqAddr h) 64
    match x with
    | none => (s, .error kvInvalid)
    | some x =>
      let r := SeqRec.of x
      (s, if r.v && r.ok k then .ok r else .error kvInvalid)

/-- What a translation gives: the sequence record, the folio with its header, and the number and the index of the node. -/
structure KvAt where
  seq : SeqRec
  fol : Nat
  hdr : FolHdr
  num : Nat
  node : Nat
  deriving DecidableEq, Repr

/-- What a load goes on from, whatever becomes of the records meanwhile (R137). -/
def KvAt.held (a : KvAt) : KvHeld :=
  { fol := a.fol, num := a.num, node := a.node, dbase := a.hdr.dbase, surv := a.hdr.surv, len := a.seq.len }

/-- The folio header of a layer of a node; a malformed one is not acted on (R4). -/
def folioOf (s : State) (core : Nat) (k : KvSpace) (nd layer : Nat) : State × Except Nat (Nat × FolHdr) :=
  if nd = 0 || k.nodelen ≤ nd then (s, .error kvInvalid)
  else
    let (s, f) := kvField s core k.ctx (k.refAddr nd layer) 4
    match f with
    | none => (s, .error kvInvalid)
    | some f =>
      if k.follen ≤ f then (s, .error kvInvalid)
      else if f = 0 then (s, .error kvAbsent)
      else
        let (s, x) := kvField s core k.ctx (k.folAddr f) 64
        (s, match x with
          | none => .error kvInvalid
          | some x => if folOk x then .ok (f, FolHdr.of x) else .error kvInvalid)

/-- KvXlate (R134). -/
def kvXlate (s : State) (core : Nat) (k : KvSpace) (h layer head pos : Nat) : State × Except Nat KvAt :=
  let (s, r) := seqOf s core k h
  match r with
  | .error e => (s, .error e)
  | .ok sr =>
    if k.nlayer ≤ layer || k.nkvh ≤ head then (s, .error kvCoord)
    else if sr.len ≤ pos then (s, .error kvRange)
    else
      let i := pos / 64
      let (s, nd) : State × Except Nat Nat :=
        if i < sr.npath then
          let (s, pe) := kvField s core k.ctx (sr.path + 8 * i) 8
          (s, match pe with
            | none => .error kvInvalid
            | some pe =>
              if 2 ^ 33 ≤ pe then .error kvInvalid else if pe.testBit 32 then .ok (pe % 2 ^ 32) else .error kvNoloan)
        else (s, .ok sr.tail)
      match nd with
      | .error e => (s, .error e)
      | .ok nd =>
        let (s, f) := folioOf s core k nd layer
        match f with
        | .error e => (s, .error e)
        | .ok (f, fh) =>
          if fh.fstate = fDamaged then (s, .error kvDamaged)
          else if fh.fstate = fRecalling || fh.fstate = fAbsent || 2 ≤ fh.tier then (s, .error kvAbsent)
          else (s, .ok { seq := sr, fol := f, hdr := fh, num := nd, node := i })

/-! Rows (R133). -/

/-- Address of the bits of plane `j` of the key of a slot: HDIM / 8 bytes. -/
def KvSpace.keyAddr (k : KvSpace) (dbase head slot j : Nat) : Nat :=
  dbase + 64 * k.rb * head + 8 * k.hdim * j + k.hdim / 8 * slot

/-- Address of the value row of a slot. -/
def KvSpace.valAddr (k : KvSpace) (dbase head slot : Nat) : Nat := dbase + 64 * k.rb * (k.nkvh + head) + k.rb * slot

/-- The stored ranges of a row: start and length. -/
def KvSpace.rowRanges (k : KvSpace) (isV : Bool) (dbase head slot : Nat) : List (Nat × Nat) :=
  if isV then [(k.valAddr dbase head slot, k.rb)] else tab k.w fun j => (k.keyAddr dbase head slot j, k.hdim / 8)

/-- The element codes of a row. -/
def KvSpace.rowCodes (k : KvSpace) (s : State) (isV : Bool) (dbase head slot : Nat) : List Nat :=
  if isV then
    let x := peekNat s (k.valAddr dbase head slot) k.rb
    tab k.hdim fun d => elem x k.w d
  else
    let ps := tab k.w fun j => peekNat s (k.keyAddr dbase head slot j) (k.hdim / 8)
    tab k.hdim fun d => (List.zip (List.range k.w) ps).foldl (fun x jp => if jp.2.testBit d then x + 2 ^ jp.1 else x) 0

/-- Writes a row of codes at a slot. -/
def KvSpace.putRow (k : KvSpace) (s : State) (isV : Bool) (dbase head slot : Nat) (codes : List Nat) : State :=
  if isV then writeMem s (k.valAddr dbase head slot) (toBytes (packElems k.w codes) k.rb) .folios true k.kfmt
  else
    (List.range k.w).foldl (fun s j =>
      let bits := codes.map fun c => if c.testBit j then 1 else 0
      writeMem s (k.keyAddr dbase head slot j) (toBytes (packElems 1 bits) (k.hdim / 8)) .folios true k.kfmt) s

/-! Operations. -/

def KvOp.seqH (x : KvOp) : Nat := nbits (x.word 0) 0 20
def KvOp.pos (x : KvOp) : Nat := nbits (x.word 1) 0 32
def KvOp.head (x : KvOp) : Nat := if x.op = 8 then 0 else nbits (x.word 1) 32 6
def KvOp.layer (x : KvOp) : Nat := nbits (x.word 1) 48 8
def KvOp.ofs (x : KvOp) : Nat := nbits (x.word 2) 0 32
def KvOp.pitchF (x : KvOp) : Nat := nbits (x.word 3) 0 16
def KvOp.mofs (x : KvOp) : Nat := nbits (x.word 3) 32 32
def KvOp.n (x : KvOp) : Nat :=
  match x.sh / 2 with
  | 0 => 1 | 1 => 16 | 2 => 32 | _ => 64
def KvOp.isV (x : KvOp) : Bool := x.sh % 2 == 1
def KvOp.noMask (x : KvOp) : Bool := x.mofs == 0xFFFFFFFF
/-- Operand of the mask word: a sum, which does not wrap (R138). -/
def KvOp.maskOp (x : KvOp) : Nat := x.mofs + 8 * x.c

/-- TADDR of a KV fault (R135). -/
def KvOp.taddr (x : KvOp) (pos : Nat) : W64 :=
  BitVec.ofNat 64 (x.seqH * 2 ^ 44 + x.layer * 2 ^ 36 + x.head * 2 ^ 30 + pos % 2 ^ 30)

/-- What a KV operation comes to. -/
inductive KvRes where
  | done (x : W64) (ranges : List LocalRange)
  | fault (code : Nat) (taddr : W64)
  | repair (h : KvHeld)
  deriving DecidableEq, Repr

/-- Rows of the tile-store region of KVLDT, and its column groups (R139). -/
def KvOp.regionRows (x : KvOp) : Nat := if x.n ≤ 16 then 16 else x.n
def KvSpace.cg (k : KvSpace) : Nat := if k.hdc = 2 then 2 else 1
def KvOp.regionLines (x : KvOp) (k : KvSpace) : Nat := x.regionRows * k.cg * k.w

/-- Pitch of the rows of KVLD. -/
def KvOp.pitch (x : KvOp) (k : KvSpace) : Nat := if x.pitchF = 0 then k.rb else x.pitchF

/-- A scratchpad offset operand of a KV instruction, whose SWZ is ignored (R219). -/
def kvOff (x : Nat) : Nat := x % 2 ^ 21

/-- The first local byte or line outside the share (R138, R229), of the mask word. -/
def KvOp.maskBad (x : KvOp) (p : Part) (c : CoreSt) : Option W64 :=
  if x.noMask then none
  else if x.maskOp < 2 ^ 32 && spOk (BitVec.ofNat 64 x.maskOp) && rangeInShare p c (kvOff x.maskOp) 8 then none
  else some (BitVec.ofNat 64 (((shareBad p c (kvOff x.maskOp) 8).getD (kvOff x.maskOp)) % 2 ^ 21))

/-- The same of the rows, destination or source, in their order. Where the KV space cannot be read, so much of them counts as is
certain: the first byte of each row whose place is known, and the lines of a region with one plane and one column group. -/
def KvOp.rowsBad (x : KvOp) (p : Part) (c : CoreSt) (k : Option KvSpace) : Option W64 :=
  let at_ (o : Nat) : W64 := BitVec.ofNat 64 (o % 2 ^ 21)
  let rows (l : List (Nat × Nat)) : Option W64 :=
    if !spOk (BitVec.ofNat 64 x.ofs) then some (at_ (kvOff x.ofs))
    else (l.findSome? fun r => shareBad p c r.1 r.2).map at_
  let pitch := match k with
    | some k => x.pitch k
    | none => x.pitchF
  match x.op with
  | 6 => rows (tab (if pitch = 0 then 1 else x.n) fun i => (kvOff x.ofs + pitch * i, (k.map KvSpace.rb).getD 1))
  | 7 =>
    if 2 ^ 16 ≤ x.ofs then some (BitVec.ofNat 64 (x.ofs % 2 ^ 16 + 2 ^ 63))
    else (lineBad p x.ofs ((k.map x.regionLines).getD x.regionRows)).map fun l => BitVec.ofNat 64 (l % 2 ^ 16 + 2 ^ 63)
  | _ => rows [(kvOff x.ofs, (k.map fun k => 2 * k.nkvh * k.rb * x.n).getD 1)]

/-- Whether the stored bytes of a row fail their check values. -/
def rowPoison (s : State) (rs : List (Nat × Nat)) : Bool := rs.any fun r => poisonedAt s r.1 r.2

/-- The lines of the region that KVLDT writes (R139, R224). -/
def regionLinesOf (k : KvSpace) (R : Nat) (rows : List (List Nat)) : List W128 :=
  (List.range k.w).flatMap fun j => (List.range k.cg).flatMap fun g =>
    tab R fun i =>
      let codes := (rows.getD i []).drop (128 * g) |>.take 128
      BitVec.ofNat 128 (packElems 1 (codes.map fun c => if c.testBit j then 1 else 0))

/-- The 16-byte units of the scratchpad that `n` bytes from `lo` meet. -/
def unitsOf (lo n : Nat) : List Nat := (List.range ((lo % 16 + n + 15) / 16)).map (lo / 16 + ·)

/-- The pending operation of a KV operation, as the writer of its local side. -/
def KvOp.was (x : KvOp) (p : Part) : Option Was := (p.pends.find? fun e => e.seq == x.seq).map (wasOf p)

/-- Writes bytes of the scratchpad for a KV operation: what their units held is kept (R334). -/
def KvOp.putBytes (x : KvOp) (s : State) (lo : Nat) (bs : List Byte) : State :=
  let p := (taskPart s x.core x.task).getD Part.empty
  setCore s x.core (writeScratchBytes (keepUnits (getCore s x.core) p (x.was p) (unitsOf lo bs.length)) lo bs)

/-- Writes the mask word of an operation. -/
def KvOp.putMask (x : KvOp) (s : State) (m : W64) : State :=
  if x.noMask then s else x.putBytes s (kvOff x.maskOp) (toBytes m.toNat 8)

def KvOp.maskRange (x : KvOp) : List LocalRange :=
  if x.noMask then [] else [{ tile := false, lo := kvOff x.maskOp, n := 8 }]

/-- The local bytes or lines of the rows of a load. -/
def KvOp.rowsRange (x : KvOp) (k : KvSpace) : List LocalRange :=
  match x.op with
  | 6 => tab x.n fun i => { tile := false, lo := kvOff x.ofs + x.pitch k * i, n := k.rb }
  | 7 => [{ tile := true, lo := x.ofs, n := x.regionLines k }]
  | _ => []

/-- What an operation may still write before its deadline (R19, R138). A load whose KV space cannot be read may yet be any: the rows
of the widest. -/
def KvOp.openRanges (x : KvOp) (k : Option KvSpace) : List LocalRange :=
  x.rowsRange (k.getD { KvSpace.of 0 with hdc := 2, kfmt := 1 }) ++ x.maskRange

/-- A folio becomes DAMAGED, with APPNXT and DIGEST 0 (R131, R142). -/
def damageFolio (s : State) (k : KvSpace) (f : Nat) : State :=
  let a := k.folAddr f + 0x10
  let old := peekNat s a 4
  let s := kvWrite s a (toBytes (old - old % 8 - nbits old 16 7 * 2 ^ 16 + fDamaged) 4)
  let s := kvWrite s (k.folAddr f + 0x20) (toBytes 0 32)
  addEvent s { code := 0x08, loc := k.folAddr f / 256, detail := [] }

/-- Whether position `i` of a load is in the folio translated, and its slot (R132, R139). -/
def KvOp.live (x : KvOp) (h : KvHeld) (i : Nat) : Bool := x.pos + i < h.len && h.surv.testBit ((x.pos + i) % 64)
def KvOp.slotAt (x : KvOp) (h : KvHeld) (i : Nat) : Nat := slotOf h.surv ((x.pos + i) % 64)

/-- The stored bytes of the rows of a load. -/
def KvOp.source (x : KvOp) (k : KvSpace) (h : KvHeld) : List (Nat × Nat) :=
  (List.range x.n).flatMap fun i => if x.live h i then k.rowRanges x.isV h.dbase x.head (x.slotAt h i) else []

/-- A load completes from the folio that it translated: the rows, then the mask word (R137, R139). The region of KVLDT stands at the line
that OFS names, and every granule that it meets is tagged, though the line be no multiple of 16 (DESIGN CHOICE, log entry 132). -/
def kvGive (s : State) (x : KvOp) (k : KvSpace) (h : KvHeld) : State × KvRes :=
  let n := x.n
  let rows := tab n fun i => if x.live h i then k.rowCodes s x.isV h.dbase x.head (x.slotAt h i) else []
  let m := BitVec.ofNat 64 ((List.range n).foldl (fun m i => if x.live h i then m + 2 ^ i else m) 0)
  let s := if x.op = 6 then
      (List.zip (List.range n) rows).foldl (fun s ir =>
        x.putBytes s (kvOff x.ofs + x.pitch k * ir.1) (toBytes (packElems k.w ir.2) k.rb)) s
    else
      let lines := regionLinesOf k x.regionRows rows
      modTask s x.core x.task fun p =>
        let p := keepLines p (x.was p) x.ofs lines.length
        { p with tags := putTags p.tags x.ofs (x.regionLines k) 1 k.kfmt x.regionRows (k.cg - 1)
                 tile := putLines p.tile x.ofs lines }
  (x.putMask s m, .done m (x.rowsRange k ++ x.maskRange))

/-- KVLD and KVLDT (R139). The test of MOFS comes with those of the positions and the pitch, before the translation (DESIGN CHOICE, log
entry 132). -/
def kvLoad (s : State) (x : KvOp) (k : KvSpace) : State × KvRes :=
  let bad (c : Nat) : KvRes := .fault c (x.taddr x.pos)
  if 64 < x.pos % 64 + x.n then (s, bad kvCoord)
  else if x.op = 6 && (x.pitch k < k.rb || x.pitch k % 16 ≠ 0) then (s, bad kvCoord)
  else if !x.noMask && x.mofs % 8 ≠ 0 then (s, bad kvCoord)
  else
    let (s, r) := kvXlate s x.core k x.seqH x.layer x.head x.pos
    match r with
    | .error e => (s, .fault e (x.taddr (if e = kvDamaged then 64 * (x.pos / 64) else x.pos)))
    | .ok a =>
      let rs := x.source k a.held
      let s := touchAll s (rs.flatMap fun r => [r.1, r.1 + r.2 - 1])
      if rowPoison s rs then
        if a.hdr.fstate = fSealed then (s, .repair a.held)
        else (damageFolio s k a.fol, .fault kvDamaged (x.taddr (64 * a.node)))
      else kvGive s x k a.held

/-- The elements of a source row of KVAPP, as the partition may read them (R19). -/
def appRow (s : State) (x : KvOp) (p : Part) (k : KvSpace) (o : Nat) : List Nat :=
  let byte (o : Nat) : Byte :=
    if localPending p false o then Config.freeBits s.epoch (5000 + o) 8 else scratchByte (getCore s x.core) o
  let v := ofBytes (tab k.rb fun b => byte (o + b))
  tab k.hdim fun d => elem v k.w d

/-- KVAPP (R140). The tests of MOFS and of the node's end come with those of the coordinates, after the sequence's; a tail folio number
or header that breaks its rules is KV_INVALID before any status (DESIGN CHOICE, log entry 132). -/
def kvAppend (s : State) (x : KvOp) (p : Part) (k : KvSpace) : State × KvRes :=
  let n := x.n
  let bad (c : Nat) : KvRes := .fault c (x.taddr x.pos)
  let (s, r) := seqOf s x.core k x.seqH
  match r with
  | .error e => (s, bad e)
  | .ok sr =>
    if k.nlayer ≤ x.layer || 64 < x.pos % 64 + n || (!x.noMask && x.mofs % 8 ≠ 0) then (s, bad kvCoord)
    else
      let t := 64 * sr.npath
      let (s, f) := folioOf s x.core k sr.tail x.layer
      let finish (s : State) (st : Nat) : State × KvRes :=
        (x.putMask s (BitVec.ofNat 64 st), .done (BitVec.ofNat 64 st) x.maskRange)
      match f with
      | .error e => if e = kvInvalid then (s, bad e) else if t + 64 < x.pos + n then finish s 2 else finish s 3
      | .ok (f, fh) =>
        if t + 64 < x.pos + n then finish s 2
        else if fh.fstate ≠ fOpen then finish s 3
        else if x.pos < t + fh.appnxt then finish s 1
        else
          let row (i h : Nat) (isV : Bool) (s : State) (slot : Nat) : State :=
            let o := kvOff x.ofs + 2 * k.nkvh * k.rb * i + (if isV then k.nkvh * k.rb else 0) + k.rb * h
            k.putRow s isV fh.dbase h slot (appRow s x p k o)
          let (s, surv) := (List.range n).foldl (fun (acc : State × Nat) i =>
            let slot := popc acc.2 64
            ((List.range k.nkvh).foldl (fun s h => row i h true (row i h false s slot) slot) acc.1, acc.2 ||| 2 ^ (x.pos + i - t)))
            (s, fh.surv)
          let s := kvWriteIn .folios s (k.folAddr f) (({ fh with surv := surv, appnxt := x.pos + n - t } : FolHdr).bytes.take 20)
          let s := if x.layer = 0 then kvWriteIn .folios s (k.seqAddr x.seqH + 8) (toBytes (max sr.len (x.pos + n)) 4) else s
          finish (dropCache s x.core) 0

/-- Why the local side of a KV operation breaks R229: the mask word comes before the rows (DESIGN CHOICE, log entry 132). -/
def KvOp.localBad (x : KvOp) (p : Part) (c : CoreSt) (k : Option KvSpace) : Option W64 :=
  (x.maskBad p c).orElse fun _ => x.rowsBad p c k

/-- A KV operation of a task, as its partition stands: a range fault comes before every KV fault (R138). -/
def kvRun (s : State) (x : KvOp) (p : Part) : State × Option KvSpace × KvRes :=
  let (s, k) := kvSpaceOf s x.queue
  match x.localBad p (getCore s x.core) k with
  | some o => (s, k, .fault cLocalRange o)
  | none =>
    match k with
    | none => (s, none, .fault kvInvalid (x.taddr x.pos))
    | some k =>
      let (s, r) := if x.op = 8 then kvAppend s x p k else kvLoad s x k
      (s, some k, r)

/-- Carries a KV operation into its pending operation: its result has come, or its fault or its repair is on its way, with all that it
may still write. A range fault writes none of it. The fault of a task that a kill has ended is gone with it (R378). -/
def kvEnter (s : State) (x : KvOp) (id : Nat) (k : Option KvSpace) (r : KvRes) : State :=
  let wait (ranges : List LocalRange) (s : State) : State :=
    modTask s x.core x.task fun p => updPend p x.seq fun e => { e with st := .engine, eng := some (kvKey id), ranges := ranges }
  match r with
  | .done v ranges => opDone s x id v ranges
  | .fault code taddr =>
    if (taskPart s x.core x.task).isNone then { s with kvs := mdel s.kvs id }
    else
      wait (if code = cLocalRange then [] else x.openRanges k)
        { s with kvs := mput s.kvs id { x with fault := some (code, taddr), repair := none } }
  | .repair h => wait (x.openRanges k) { s with kvs := mput s.kvs id { x with fault := none, repair := some h } }

/-- The walker carries out a KV operation, or carries it out again (R141). -/
def kvSubmit (s : State) (x : KvOp) (id : Nat) : State :=
  match ownerPart s x.core x.task with
  | none => { s with kvs := mdel s.kvs id }
  | some p =>
    let (s, k, r) := kvRun s x p
    kvEnter s x id k r

/-- The operand words of a KV operation after `n` re-issues (R138): POS advances by STEP0, OFS by STEP1. -/
def stepKv (ext : Option W32) (n : Nat) (w : List W64) : List W64 :=
  let e := (ext.getD 0).toNat
  let add (x : W64) (d : Int) : W64 :=
    let old := nbits x.toNat 0 32
    BitVec.ofNat 64 (x.toNat - old + ofInt ((old : Int) + d * n) 32)
  [w.getD 0 0, add (w.getD 1 0) (toSigned (e % 65536) 16), add (w.getD 2 0) (toSigned (e / 65536) 16), w.getD 3 0]

/-- The local storage that a KV operation may write before its deadline, as far as its issue knows it. -/
def kvRanges (s : State) (op : Nat) (f : CQ) (opd : List W64) (c : Nat) : List LocalRange :=
  let p := cur s
  let x : KvOp := { core := s.iss.core, task := p.entered, seq := p.nextSeq, queue := p.queue, op := op, sh := f.sh.toNat, opd := opd, c := c
                    fault := none, repair := none }
  let k := (kvSpaceOf s p.queue).2
  if (x.localBad p (curCore s) k).isSome then [] else x.openRanges k

/-- Issue of a KV operation (R138): the walker takes it with its operands as captured and stepped. -/
def kvBody (i : Instr) (f : CQ) (s : State) : Except TrapReq State :=
  match captured s (capturedRegs i) with
  | .error e => .error e
  | .ok (caps, n) => .ok (submitOp i f (stepKv f.x n caps) n (kvRanges s (opOf i) f (stepKv f.x n caps) n) s)

def execKvld (f : CQ) (s : State) : Out := runSyl (.kvld f) (kvBody (.kvld f) f) s
def execKvldt (f : CQ) (s : State) : Out := runSyl (.kvldt f) (kvBody (.kvldt f) f) s
def execKvapp (f : CQ) (s : State) : Out := runSyl (.kvapp f) (kvBody (.kvapp f) f) s

/-- Reports the fault of a KV operation (R141). -/
def kvReport (s : State) (id : Nat) (x : KvOp) : State :=
  match x.fault with
  | none => s
  | some (code, taddr) => opFault { s with kvs := mput s.kvs id { x with fault := none } } x code taddr true

/-- KV_FAULT_REPORT (R135, R141). -/
def execKvFaultReport (core part seq : Nat) (s : State) : Out :=
  event (fun s =>
    match (findPend s core part seq).bind kvIdOf with
      | some id =>
        match mget s.kvs id with
        | some x => kvReport s id x
        | none => s
      | none => s) s

/-- RPLACT at the return from a KV fault (R141, R207): the operation is with the walker again, or skipped with 0 in sD and in the
mask word. -/
def resumeKv (s : State) (id : Nat) (skip : Bool) : State :=
  match mget s.kvs id with
  | none => s
  | some x =>
    if !skip then { s with kvs := mput s.kvs id { x with fault := none, repair := none } }
    else
      let inside := (taskPart s x.core x.task).any fun p => (x.maskBad p (getCore s x.core)).isNone
      if inside then kvEnter (x.putMask s 0) x id none (.done 0 x.maskRange) else kvEnter s x id none (.done 0 [])

end Sys2Proof.Machine
end

