-- ==== Sys2Proof/Machine/Launch.lean ====
section
/-! DEFINITION. Launch records (R346 to R349), task headers and images (R350), and the room of a core for the tasks of a
gang (R214 to R216, R230, R352). -/

namespace Sys2Proof.Machine

/-! The launch record (Table 14.7), as the number that its 128 bytes hold. -/

def lrNlev (x : Nat) : Nat := nbits x 8 3 + 1
def lrDepth (x : Nat) : Nat := nbits x 11 3
def lrKeep (x : Nat) : Bool := x.testBit 14
def lrKids (x : Nat) : Nat := nbits x 16 8
def lrCbase (x : Nat) : Nat := nbits x 32 7
def lrFab (x : Nat) : Nat := nbits x 48 10
def lrImage (x : Nat) : Nat := nbits x 64 48
def lrImofs (x : Nat) : Nat := nbits x 128 14
def lrSpb (x : Nat) : Nat := 4096 * nbits x 192 10
def lrSpl (x : Nat) : Nat := 4096 * nbits x 208 10
def lrFmask (x : Nat) : Nat := nbits x 256 64
def lrFval (x : Nat) : Nat := nbits x 320 16

/-- The pool boundaries that a record states; none when it keeps the core's values (R215). -/
def lrBounds (x : Nat) : Option (Nat × Nat × Nat) :=
  let p (lo : Nat) : Nat := 0x10000 * nbits x lo 6
  if p 160 = 0 && p 168 = 0 && p 176 = 0 then none else some (p 160, p 168, p 176)

/-- A level of a launch. -/
structure Level where
  ext : Nat
  dom : Nat
  sc : Nat
  deriving DecidableEq, Repr

def lrLevel (x l : Nat) : Level :=
  { ext := nbits x (384 + 32 * l) 16, dom := nbits x (400 + 32 * l) 3, sc := nbits x (403 + 32 * l) 3 }
def lrLevels (x : Nat) : List Level := tab (lrNlev x) (lrLevel x)

def prod (l : List Nat) : Nat := l.foldl (· * ·) 1

/-- N_X: the product of the extents bound to a domain (R347). -/
def domCount (lv : List Level) (d : Nat) : Nat := prod ((lv.filter fun v => v.dom = d).map (·.ext))

def domFab : Nat := 0
def domDie : Nat := 2
def domQuad : Nat := 3
def domCore : Nat := 4
def domPart : Nat := 5

/-- The least scope that the levels from one on need (R348). -/
def needScope (lv : List Level) : Nat :=
  let has (d : Nat) : Bool := lv.any fun v => v.dom == d && 1 < v.ext
  if has domFab then 5 else if has domDie then 3 else if has domQuad then 2 else if has domCore then 1 else 0

/-- The rules of Table 14.7, R347 and R348. `area` is STEWARD_AREA. -/
def launchOk (area x : Nat) : Bool :=
  let z (lo n : Nat) : Bool := nbits x lo n == 0
  let lv := lrLevels x
  let n := domCount lv
  let die := lrCbase x / 64
  let quad := lrCbase x / 4 % 16
  let core := lrCbase x % 4
  let reserved := z 15 1 && z 24 8 && z 39 9 && z 58 6 && z 112 16 && z 142 18 && z 166 2 && z 174 2 && z 182 10 &&
    z 202 6 && z 218 6 && z 336 48 && z 640 384
  let levels := (List.range 8).all fun l =>
    let v := lrLevel x l
    if l < lrNlev x then
      1 ≤ v.ext && v.dom ≤ 5 && v.sc ≤ 5 && z (406 + 32 * l) 10 && needScope (lv.drop l) ≤ v.sc
    else z (384 + 32 * l) 32
  let bars := (List.range 8).all fun b =>
    let f := nbits x (224 + 4 * b) 4
    f < 8 || (f % 8 < lrNlev x && (lv.drop (f % 8)).all fun v => v.dom != domFab || v.ext ≤ 1)
  let bounds := match lrBounds x with
    | none => lrSpb x + lrSpl x ≤ 0x200000 - area
    | some (b1, b2, b3) => b1 ≤ 0x100000 && b1 ≤ b2 && b2 ≤ b3 && b3 ≤ 0x200000 - area && lrSpb x + lrSpl x ≤ b2 - b1
  nbits x 0 8 == 1 && reserved && levels && bars && bounds && hbmField (nbits x 64 64) true &&
  (if lrDepth x = 0 then lrKids x == 0 else 1 ≤ lrKids x) && lrSpl x ≤ 4096 * 512 &&
  n 1 == 1 && n domDie ≤ 2 && n domQuad ≤ 16 && n domCore ≤ 4 && n domPart ≤ 16 && n domFab ≤ 1024 && lrFab x < n domFab &&
  die + n domDie ≤ 2 && quad + n domQuad ≤ 16 && core + n domCore ≤ 4

/-- The cores of a launch on this chip (R347). -/
def launchCores (x : Nat) : List Nat :=
  let lv := lrLevels x
  (List.range (domCount lv domDie)).flatMap fun d => (List.range (domCount lv domQuad)).flatMap fun q =>
    tab (domCount lv domCore) fun c => lrCbase x + 64 * d + 4 * q + c

/-- Tasks on each core. -/
def launchParts (x : Nat) : Nat := domCount (lrLevels x) domPart

/-- The index of a task in a domain: the FAB index is this chip's. -/
def domIdx (x core part d : Nat) : Nat :=
  let o := core - lrCbase x
  match d with
  | 0 => lrFab x
  | 2 => o / 64
  | 3 => o / 4 % 16
  | 4 => o % 4
  | 5 => part
  | _ => 0

/-- COORDl of the task on a core with an index among its tasks (R349). -/
def coordOf (x core part l : Nat) : W64 :=
  if lrNlev x ≤ l then 0
  else
    let lv := lrLevels x
    let v := lrLevel x l
    let digit := domIdx x core part v.dom / domCount (lv.drop (l + 1)) v.dom % v.ext
    BitVec.ofNat 64 (digit + v.ext * 2 ^ 16 + v.dom * 2 ^ 32 + v.sc * 2 ^ 35)

/-! The task header (Table 14.9), as the number that its 64 bytes hold. -/

def thRole (h : Nat) : Nat := nbits h 8 2
def thSlots (h : Nat) : Nat := nbits h 16 8
def thAccs (h : Nat) : Nat := nbits h 24 8
def thW (h : Nat) : Nat := 8 * nbits h 32 5
def thTslen (h : Nat) : Nat := 256 * nbits h 48 8
def thSegmax (h : Nat) : Nat := nbits h 64 10
def thFirsty (h : Nat) : Nat := nbits h 96 32
def thImlen (h : Nat) : Nat := nbits h 128 32
def thEntry (h : Nat) : Nat := nbits h 160 32
def thTrap (h : Nat) : Nat := nbits h 192 25
def thTv (h : Nat) : Bool := h.testBit 223
def thFtmask (h : Nat) : Nat := nbits h 224 16

/-- A relative bundle address has its reserved bits 0 (R72). -/
def relOk (a : Nat) : Bool := nbits a 14 2 == 0 && a < 2 ^ 25

/-- The rules of Table 14.9. -/
def headerOk (h : Nat) : Bool :=
  let z (lo n : Nat) : Bool := nbits h lo n == 0
  nbits h 0 8 == 1 && thRole h ≤ 2 && z 10 6 && thSlots h != 0 &&
  (!((thSlots h).testBit 6 || (thSlots h).testBit 2 || (thSlots h).testBit 1) || (thSlots h).testBit 7) &&
  1 ≤ nbits h 32 5 && nbits h 32 5 ≤ 16 && z 37 11 && nbits h 48 8 ≤ 128 && z 56 8 && 1 ≤ thSegmax h && thSegmax h ≤ 512 &&
  z 74 22 && thImlen h % 16 == 0 && 16 ≤ thImlen h && thImlen h ≤ 262144 && relOk (thEntry h) && relOk (thTrap h) && z 217 6 &&
  z 240 16 && z 256 256

/-- Format-table entries that the image gives, in ascending order. -/
def thFmts (h : Nat) : List Nat := (List.range 16).filter fun i => (thFtmask h).testBit i

/-- Bytes of the header and its format-table entries. -/
def headBytes (h : Nat) : Nat := 64 + 8 * (thFmts h).length
/-- Bytes before the segment area. -/
def areaOff (h : Nat) : Nat := 16 * ceilDiv (headBytes h) 16

/-- A format-table entry has its reserved fields 0 (Table 13.2). -/
def ftOk (x : Nat) : Bool := nbits x 10 2 == 0 && nbits x 17 3 == 0 && nbits x 30 2 == 0

/-- The chain of segments from one on is valid in the segment area (R74): the segments found by their next links. `fuel`
bounds them. -/
def chainOk (c : CoreSt) (segmax : Nat) : Nat → List Nat → Nat → Bool
  | 0, _, _ => true
  | fuel + 1, seen, off =>
    if seen.contains off then true
    else
      let g := startSeg c off segmax
      g.valid && match g.next with
        | none => true
        | some o => chainOk c segmax fuel (off :: seen) o

/-- Puts words into an instruction memory. -/
def putImem (m : TMap W32) (i : Nat) : List W32 → TMap W32
  | [] => m
  | w :: ws => putImem (if w = 0 then mdel m i else mput m i w) (i + 1) ws

/-- 32-bit words of bytes. `n` bounds them. -/
def wordsOf : Nat → List Byte → List W32
  | 0, _ => []
  | n + 1, bs => BitVec.ofNat 32 (ofBytes (bs.take 4)) :: wordsOf n (bs.drop 4)

/-- The segment area of an image at an address. -/
def areaWords (s : State) (image h : Nat) : List W32 := wordsOf (thImlen h / 4) (peekBytes s (image + areaOff h) (thImlen h))

/-- What stands in an image's segment area: the offsets of its segments and those of what may be its bucket tables (R268). -/
structure Area where
  segs : List Nat
  tabs : List Nat
  deriving DecidableEq, Repr

/-- The segments and bucket tables that follow one another in an image's segment area, `n` units of 16 bytes, from unit `off` on; none
where something else stands there, such as an invalid segment (R74). Units of zeros hold neither. `fuel` bounds the units. -/
def areaScan (c : CoreSt) (segmax n : Nat) : Nat → Nat → Option Area
  | 0, _ => some ⟨[], []⟩
  | fuel + 1, off =>
    if n ≤ off then some ⟨[], []⟩
    else if (List.range 4).all fun i => imemWord c (4 * off + i) == 0 then areaScan c segmax n fuel (off + 1)
    else
      let units := ceilDiv ((imemWord c (4 * off)).toNat % 65536) 4
      let tab := bucketWords c off
      if (startSeg c off segmax).valid && off + units ≤ n then
        (areaScan c segmax n fuel (off + units)).map fun a => { a with segs := off :: a.segs }
      else if bucketOk off tab && off + tab.length / 4 ≤ n then
        (areaScan c segmax n fuel (off + tab.length / 4)).map fun a => { a with tabs := off :: a.tabs }
      else none

/-- The offsets of the bucket tables that the BKSELs of a segment name (R268). -/
def tablesOf (c : CoreSt) (segmax off : Nat) : List Nat :=
  let g := startSeg c off segmax
  ((parseBundles g.rest.length g.rest).getD []).filterMap fun b =>
    if b.sOp = 0x30 then ((b.sylAt 1).bind (·.ext)).bind fun t => bucketOff (BitVec.ofNat 32 off) t else none

/-- Whether a segment area holds valid segments and the bucket tables that they name, and nothing else. -/
def areaOk (c : CoreSt) (segmax n : Nat) : Bool :=
  match areaScan c segmax n n 0 with
  | none => false
  | some a => a.tabs.all fun o => a.segs.any fun g => (tablesOf c segmax g).contains o

/-- The checks of R350: an image is good at an instruction-memory offset. Its segments are those that stand in its area one after
another, with those on the chains from ENTRY and TRAPENT (log entry 66). -/
def imageOk (s : State) (image imofs h : Nat) : Bool :=
  let c : CoreSt := { CoreSt.empty with imem := putImem [] 0 (areaWords s image h) }
  let from_ (a : Nat) : Bool := 16 * nbits a 0 14 < thImlen h && chainOk c (thSegmax h) 16384 [] (nbits a 0 14)
  headerOk h && ((List.range (thFmts h).length).all fun i => ftOk (peekNat s (image + 64 + 8 * i) 8)) &&
  16 * imofs + thImlen h ≤ 262144 && image + areaOff h + thImlen h ≤ hbmTop && areaOk c (thSegmax h) (thImlen h / 16) && from_ (thEntry h) && (!thTv h || from_ (thTrap h))

/-! Room on a core. -/

/-- The resident user tasks of a core. -/
def residents (s : State) (core : Nat) : List Part :=
  ((List.range 16).map fun (i : Nat) => getPart s core i).filter fun p => p.ps != .free

/-- The free user partitions of a core, in ascending order. -/
def freeParts (s : State) (core : Nat) : List Nat := (List.range 16).filter fun (i : Nat) => (getPart s core i).ps == .free

/-- The lowest base at which `len` units fit beside the used ranges (base, length). -/
def firstFit (size len : Nat) (used : List (Nat × Nat)) : Option Nat :=
  let free (b : Nat) : Bool := b + len ≤ size && used.all fun u => u.2 = 0 || b + len ≤ u.1 || u.1 + u.2 ≤ b
  let cands := (0 :: used.map fun u => u.1 + u.2).filter free
  if len = 0 then some 0 else cands.foldl (fun m b => some (min (m.getD b) b)) none

/-- Bases for `n` ranges of the same length, in turn. -/
def fitMany (size len : Nat) : Nat → List (Nat × Nat) → Option (List Nat)
  | 0, _ => some []
  | n + 1, used =>
    match firstFit size len used with
    | none => none
    | some b => (fitMany size len n ((b, len) :: used)).map (b :: ·)

/-- What tasks of one shape need of a core: window registers, tile-store lines, banks, SEGMAX. -/
structure Shape where
  w : Nat
  tslen : Nat
  accs : BitVec 8
  segmax : Nat
  deriving DecidableEq, Repr

def thShape (h : Nat) : Shape := { w := thW h, tslen := thTslen h, accs := BitVec.ofNat 8 (thAccs h), segmax := thSegmax h }

def sumOf (l : List Nat) : Nat := l.foldl (· + ·) 0

/-- R230 for `n` tasks of a shape beside resident tasks, with the register-window region `b1`: the bases of their windows
and tile-store shares. -/
def fitTasks (rs : List Part) (b1 n : Nat) (h : Shape) : Option (List Nat × List Nat) :=
  if 16 < rs.length + n || 8 < sumOf (rs.map fun p => popc p.accs.toNat 8) + n * popc h.accs.toNat 8 ||
     512 < sumOf (rs.map (·.segmax)) + n * h.segmax then none
  else
    match fitMany b1 (512 * h.w) n (rs.map fun p => (p.wbase, 512 * p.wregs)),
          fitMany 65536 h.tslen n (rs.map fun p => (p.tsbase, p.tslen)) with
    | some ws, some ts => some (ws, ts)
    | _, _ => none

def boundsOf (c : CoreSt) : Nat × Nat × Nat := (c.b1, c.b2, c.b3)

/-- Whether a resident task holds what tasks of a shape lack beside the resident tasks `rs` (R356): each kind of resource by itself. -/
def holdsLacking (rs : List Part) (b1 n : Nat) (h : Shape) (t : Part) : Bool :=
  16 < rs.length + n ||
  (8 < sumOf (rs.map fun p => popc p.accs.toNat 8) + n * popc h.accs.toNat 8 && t.accs != 0) ||
  (512 < sumOf (rs.map (·.segmax)) + n * h.segmax && t.segmax != 0) ||
  ((fitMany b1 (512 * h.w) n (rs.map fun p => (p.wbase, 512 * p.wregs))).isNone && t.wregs != 0) ||
  ((fitMany 65536 h.tslen n (rs.map fun p => (p.tsbase, p.tslen))).isNone && t.tslen != 0)

/-- Whether a core may change its boundaries (R216): no user task, no copy in flight that names its local storage, and no pending result.
A task in the shadow store is not held by the core: the gang that waits bars its return (R357) and is placed all the same (R363, log entry
69). A KVLDT of it waits for its return, and a fault for its handler: neither is under way. -/
def coreQuiet (s : State) (core : Nat) : Bool :=
  (residents s core).isEmpty && (s.copies.all fun e => e.1 / 4096 != core || (e.2.op = 2 && e.2.bar == noBar)) &&
  s.kvs.all fun e => e.2.core != core || e.2.op == 7 || e.2.fault.isSome

end Sys2Proof.Machine
end

