-- ==== Sys2Proof/Machine/Packets.lean ====
section
/-! DEFINITION. The command processor's queues and packets (R338 to R345, R182, R183, R355): fetching, dependences, the issue
of every packet type, command graphs, and retirement (R354). -/

namespace Sys2Proof.Machine

/-! Queue descriptors (Table 14.2). -/

/-- A queue descriptor keeps the rules of its table. -/
def descOk (x : Nat) : Bool :=
  let z (lo n : Nat) : Bool := nbits x lo n == 0
  z 240 16 && z 304 16 && z 329 7 && nbits x 336 8 == 1 && z 344 40 && z 917 11 && z 960 64 &&
  (nbits x 256 48 == 0 || nbits x 192 48 != 0) &&
  nbits x 192 48 < hbmTop && nbits x 256 48 < hbmTop &&
  ((List.range 8).all fun r => z (384 + 64 * r + 48) 16 && nbits x (384 + 64 * r) 6 == 0 && nbits x (384 + 64 * r) 48 < hbmTop) &&
  -- the handle-table descriptor of Table 5.2
  nbits x 64 6 == 0 && z 112 16 && nbits x 64 48 < hbmTop && z 149 11 && 1 ≤ nbits x 128 21 && nbits x 128 21 ≤ 2 ^ 20 && z 173 19

def descOf (s : State) (q : Nat) : Nat := peekNat s (queueAddr s q) 128
def rankOfQueue (s : State) (q : Nat) : Nat := peekNat s (queueAddr s q + 0x28) 1

def QueueSt.none : QueueSt := { base := 0, retired := [], lastRead := 0, stopped := [], visited := 0, fw := 0 }
def queueSt (s : State) (q : Nat) : QueueSt := (mget s.queues q).getD QueueSt.none
def setQueue (s : State) (q : Nat) (x : QueueSt) : State := { s with queues := mput s.queues q x }

/-- Whether a queue is enabled and its descriptor well-formed (R338). -/
def enabled (s : State) (q : Nat) : Bool :=
  let x := descOf s q
  !s.recovery && q < 1024 && x.testBit 328 && descOk x

/-- Whether the command processor serves a queue: enabled, and not stopped (R339). -/
def served (s : State) (q : Nat) : Bool :=
  enabled s q && nbits (descOf s q) 896 8 == 0 && (queueSt s q).stopped.isEmpty

/-- Whether a packet, or the graph that it runs, is what stands stopped (R339): what stopped is the packet, or a node of the graph that
has not issued. -/
def standsStopped (s : State) (q id : Nat) : Bool :=
  (queueSt s q).stopped.any fun i => i == id || (mget s.pkts i).any fun p => p.graph == some id && p.st == .fetched

/-- The queue header through the queue's own handle table: its logical bytes and its value; none when it cannot be served. -/
def queueHead (s : State) (q : Nat) : State × Option (ObjRec × List LByte × Nat) :=
  let qa : W64 := BitVec.ofNat 64 (nbits (descOf s q) 0 64)
  let (s, r) := xlateAl s ioDie q qa 64 64 queueKind
  match r with
  | .error _ => (s, none)
  | .ok (r, l) =>
    let (s, h) := readCells s l
    (s, if queueOk h then some (r, l, h) else none)

/-- The 64 bytes of slot `k`; none when they do not translate. -/
def slotWords (s : State) (q k size : Nat) : State × Option Nat :=
  let qa : W64 := BitVec.ofNat 64 (nbits (descOf s q) 0 64)
  let (s, r) := xlateAl s ioDie q (slotAddr qa k size) 64 64 { cls := clsCopy, rd := true, wr := false }
  match r with
  | .error _ => (s, none)
  | .ok (_, l) =>
    let (s, x) := readCells s l
    (s, some x)

/-! Packets. -/

def Pkt.value (p : Pkt) : Nat := ofBytes (p.words.flatMap fun w => toBytes w.toNat 4)
def Pkt.type (p : Pkt) : Nat := pktType p.value
/-- A packet of the ring of its queue. -/
def Pkt.isRing (p : Pkt) : Bool := p.graph.isNone && p.parent.isNone

def pktWords (x : Nat) : List W32 := tab 16 fun i => BitVec.ofNat 32 (nbits x (32 * i) 32)

def ringPkt (s : State) (q k : Nat) : Option (Nat × Pkt) :=
  s.pkts.find? fun e => e.2.isRing && e.2.queue == q && e.2.k == k

/-- The address of a packet's job card; 0 for none. A COND has no card: the field is its CMP. -/
def cardAddr (x : Nat) : Nat := if pktType x = 3 || pktType x = 5 then 0 else pktCard x

/-- The rules of Table 8.2 for one entry. -/
def cardEntryOk (e : Nat) : Bool :=
  match e % 4 with
  | 0 => e == 0
  | 1 => true
  | 2 => nbits e 22 42 == 0
  | _ => false

/-- Reads a job card (R182): its entries, none for a packet without one, or the fault of a card that is malformed or names an
object that does not translate. -/
def readCard (s : State) (q a : Nat) : State × Except Nat (List W64) :=
  if a = 0 then (s, .ok [])
  else
    let (s, x) := readRecord s a 64
    match x with
    | none => (s, .error 0)
    | some x =>
      let es := tab 8 fun i => nbits x (64 * i) 64
      if !es.all cardEntryOk then (s, .error 0)
      else
        let (s, bad) := es.foldl (fun (acc : State × Option Nat) e =>
          if e % 4 ≠ 1 || acc.2.isSome then acc
          else
            let (s, r) := findRec acc.1 ioDie (tabOf acc.1 q) (nbits e 2 20)
            (s, match r with
              | .ok _ => none
              | .error c => some c)) (s, none)
        (s, match bad with
          | some c => .error c
          | none => .ok (es.map fun e => BitVec.ofNat 64 e))

/-- Whether two entries overlap (R183). -/
def entriesMeet (a b : Nat) : Bool :=
  let lo (e : Nat) : Nat := nbits e 22 22
  let hi (e : Nat) : Nat := if nbits e 44 20 = 0 then 2 ^ 64 else lo e + nbits e 44 20
  a % 4 == b % 4 && a % 4 != 0 && nbits a 2 20 == nbits b 2 20 && (a % 4 != 1 || (lo a < hi b && lo b < hi a))

/-- Whether a packet depends on an earlier one with these job cards (R183). -/
def cardsMeet (i j : List W64) : Bool :=
  if i.isEmpty || j.isEmpty then true
  else
    let meet (x y : List W64) : Bool := x.any fun a => y.any fun b => entriesMeet a.toNat b.toNat
    meet (i.drop 4) (j.take 4) || meet (i.take 4) (j.drop 4) || meet (i.drop 4) (j.drop 4)

/-- Whether every packet on which a packet depends has retired (R183, R345, R362). -/
def depsDone (s : State) (p : Pkt) : Bool :=
  if p.isRing then
    let qs := queueSt s p.queue
    (List.range (p.k - qs.base)).all fun i =>
      qs.retired.contains (qs.base + i) ||
        match ringPkt s p.queue (qs.base + i) with
        | some (_, x) => !cardsMeet x.card p.card
        | none => false
  else
    s.pkts.all fun e =>
      !(e.2.graph == p.graph && e.2.parent == p.parent && e.2.queue == p.queue && e.2.k < p.k) || !cardsMeet e.2.card p.card

def putPkt (s : State) (id : Nat) (p : Pkt) : State := { s with pkts := mput s.pkts id p }

/-- The indices of a window that have retired pass out of it at its old end. `fuel` bounds them. -/
def slideBase : Nat → QueueSt → QueueSt
  | 0, x => x
  | n + 1, x =>
    if x.retired.contains x.base then slideBase n { x with base := x.base + 1, retired := x.retired.erase x.base } else x

/-- A packet retires: it leaves, and those that depend on it may issue. -/
def retirePkt (s : State) (id : Nat) (p : Pkt) : State :=
  let s := { s with pkts := mdel s.pkts id }
  if p.isRing then
    let x := queueSt s p.queue
    setQueue s p.queue (slideBase 17 { x with retired := p.k :: x.retired })
  else s

/-! Fetching. -/

/-- The first index from `k` on whose slot has still to be read for the last time. `fuel` bounds the window. -/
def lastReadFrom (s : State) (q : Nat) : Nat → Nat → Nat
  | 0, k => k
  | n + 1, k =>
    let qs := queueSt s q
    let read := k < qs.base || qs.retired.contains k ||
      match ringPkt s q k with
      | some (_, p) => p.st != .fetched
      | none => false
    if read then lastReadFrom s q n (k + 1) else k

/-- Releases the slots that have had their last read: CONS and LIMIT in one update of the header (R341, R179). -/
def releaseSlots (s : State) (q : Nat) : State :=
  let qs := queueSt s q
  let k := lastReadFrom s q 17 qs.lastRead
  if k = qs.lastRead then s
  else
    let s := setQueue s q { qs with lastRead := k }
    let (s, h) := queueHead s q
    match h with
    | none => s
    | some (r, l, _) =>
      let s := writeCells s r ((l.drop 24).take 8) (toBytes k 8)
      writeCells s r ((l.drop 8).take 8) (toBytes k 8)

/-- A stop at a ring index that holds no packet. -/
def stopRing (s : State) (q k code : Nat) (cause : List Nat) : State := stopQueue s q code k 0 0 cause

/-- A written slot is copied with its job card (R341, R342), or stops the queue. -/
def fetchSlot (s : State) (q k x : Nat) : State :=
  if !pktOk x || pktType x = 3 then stopRing s q k 0x02 []
  else
    let (s, c) := readCard s q (cardAddr x)
    match c with
    | .error e => stopRing s q k 0x05 [e]
    | .ok card =>
      let p : Pkt := { queue := q, k := k, words := pktWords x, card := card, st := .fetched, graph := none, node := 0
                       parent := none, gang := none, run := none }
      let s := match ringPkt s q k with
        | some (id, _) => { s with pkts := mdel s.pkts id }
        | none => s
      putPkt { s with nextId := s.nextId + 1 } s.nextId p

/-- PACKET_FETCH (R341): the command processor reads a slot of the window. -/
def fetchStep (q k : Nat) (s : State) : State :=
  let qs := queueSt s q
  if !served s q || (mget s.queues q).isNone || k < qs.base || qs.base + 16 ≤ k || qs.retired.contains k ||
     (ringPkt s q k).isSome then s
  else
    let (s, h) := queueHead s q
    match h with
    | none => stopRing s q k 0x01 []
    | some (_, _, h) =>
      if qs.lastRead + qSize h ≤ k then s
      else
        let (s, x) := slotWords s q k (qSize h)
        match x with
        | none => stopRing s q k 0x01 []
        | some x => if pktPhase x == phaseOf k (qSize h) then fetchSlot s q k x else s

def execPacketFetch (q k : Nat) (s : State) : Out := event (fetchStep q k) s

/-- The newest firmware image that serves a queue, or the last one staged where none is served yet (R383). -/
def newestFw (s : State) : Nat := if s.queues.isEmpty then s.fws.length else s.queues.foldl (fun m e => max m e.2.fw) 0

/-- QUEUE_VISIT (R341): a queue that is served comes under the command processor's eye; its window begins at CONS. -/
def visitStep (q : Nat) (s : State) : State :=
  if !served s q then s
  else
    let (s, h) := queueHead s q
    let s := setQueue s q { (mget s.queues q).getD { QueueSt.none with fw := newestFw s } with visited := s.uclock }
    match h with
    | none => stopRing s q (queueSt s q).base 0x01 []
    | some (_, _, h) =>
      let qs := queueSt s q
      -- a queue with nothing in its window follows CONS
      if qs.retired.isEmpty && qs.base = qs.lastRead && !(s.pkts.any fun e => e.2.isRing && e.2.queue == q) then
        setQueue s q { qs with base := qCons h, lastRead := qCons h }
      else s

def execQueueVisit (q : Nat) (s : State) : Out := event (visitStep q) s

/-- The words and the card of a graph node as the array holds them now, or the stop code with its cause. -/
def readNode (s : State) (q a : Nat) : State × Except (Nat × List Nat) (List W32 × List W64) :=
  if hbmTop < a + 64 then (s, .error (0x07, []))
  else
    let s := touchRead s a 64
    let x := peekNat s a 64
    if pktType x = 2 || pktPhase x then (s, .error (0x07, []))
    else if !pktOk x then (s, .error (0x02, []))
    else
      let (s, c) := readCard s q (cardAddr x)
      (s, match c with
        | .error e => .error (0x05, [e])
        | .ok card => .ok (pktWords x, card))

/-- The graph of a node: the packet that runs it. -/
def graphOf (s : State) (p : Pkt) : Option (Nat × Graph) :=
  match p.graph with
  | none => none
  | some g =>
    match mget s.pkts g with
    | none => none
    | some gp => gp.run.map fun r => (g, r)

def setRun (s : State) (g : Nat) (r : Graph) : State :=
  match mget s.pkts g with
  | some gp => putPkt s g { gp with run := some r }
  | none => s

/-- A packet or node at which a queue stood stopped, where it has not issued, is read again whole: a packet of the ring is to be
fetched anew. One that has issued goes on (R339). -/
def rereadItem (q : Nat) (s : State) (id : Nat) : State :=
  match mget s.pkts id with
  | none => s
  | some p =>
    if p.st != .fetched then s
    else if p.isRing then { s with pkts := mdel s.pkts id }
    else
      match graphOf s p with
      | none => s
      | some (_, r) =>
        let (s, n) := readNode s q (r.base + 64 * p.node)
        match n with
        | .error (c, e) => stopAt s q id c e
        | .ok (ws, card) => putPkt s id { p with words := ws, card := card }

/-- QUEUE_RESUME (R339): software has written QERR := 0, and the queue resumes at all that it stands stopped at. -/
def resumeQueue (q : Nat) (s : State) : State :=
  let qs := queueSt s q
  if qs.stopped.isEmpty || peekNat s (queueAddr s q + 0x70) 1 ≠ 0 then s
  else qs.stopped.foldl (rereadItem q) (setQueue s q { qs with stopped := [] })

def execQueueResume (q : Nat) (s : State) : Out := event (resumeQueue q) s

/-! Issue. -/

/-- Whether the command processor may act on a packet: a packet of the ring while its queue is served; a node of an issued GRAPH or a child
of an issued LAUNCH, which go on to retirement, also while another packet has stopped the queue (R339). -/
def goesOn (s : State) (id : Nat) (p : Pkt) : Bool :=
  if p.isRing then served s p.queue
  else enabled s p.queue && !standsStopped s p.queue id && !p.graph.any (standsStopped s p.queue)

/-- Whether a packet may issue. -/
def mayIssue (s : State) (id : Nat) (p : Pkt) : Bool := p.st == .fetched && goesOn s id p && depsDone s p

/-- The read of word 0 before an issue (R341): whether the packet may go on, or has been put back or read again. -/
def rereadSlot (s : State) (id : Nat) (p : Pkt) : State × Bool :=
  if !p.isRing then (s, true)
  else
    let (s, h) := queueHead s p.queue
    match h with
    | none => (stopAt s p.queue id 0x01 [], false)
    | some (_, _, h) =>
      let (s, x) := slotWords s p.queue p.k (qSize h)
      match x with
      | none => (stopAt s p.queue id 0x01 [], false)
      | some x =>
        if pktPhase x != phaseOf p.k (qSize h) then ({ s with pkts := mdel s.pkts id }, false)
        else if nbits x 0 32 != nbits p.value 0 32 then (fetchSlot s p.queue p.k x, false)
        else (s, true)

/-- The GRAPH packet of a node that issues is RUNNING (Table 14.6). -/
def graphRuns (s : State) (p : Pkt) : State :=
  match p.graph with
  | none => s
  | some g =>
    match mget s.pkts g with
    | some gp => if gp.st == .issued then putPkt s g { gp with st := .running } else s
    | none => s

/-- Issues a packet: `go` acts, once the last read has been made and the slot released. -/
def issuePkt (s : State) (id : Nat) (p : Pkt) (go : State → State) : State :=
  let (s, ok) := rereadSlot s id p
  if ok then releaseSlots (go (graphRuns s p)) p.queue else s

/-- A step of a packet of a type that may issue. -/
def packetStep (id type : Nat) (f : State → Pkt → State) (s : State) : Out :=
  event (fun s => match mget s.pkts id with
    | some p => if p.type = type && mayIssue s id p then f s p else s
    | none => s) s

/-- PKT_NOP (R342). -/
def execPktNop (id : Nat) (s : State) : Out := packetStep id 0 (fun s p => issuePkt s id p fun s => retirePkt s id p) s

/-- PKT_WRITE (R343): as a release at SC, since every packet it depends on has retired. -/
def writePkt (id : Nat) (s : State) (p : Pkt) : State :=
  let x := p.value
  let (s, r) := xlateAl s ioDie p.queue (BitVec.ofNat 64 (pktAddr x + nbits x 112 16 * 2 ^ 48)) 8 8 { cls := clsCopy, rd := false, wr := true }
  match r with
  | .error f => stopAt s p.queue id 0x05 [f.code, f.taddr.toNat]
  | .ok (r, l) => issuePkt s id p fun s => retirePkt (writeCells s r l (toBytes (nbits x 192 64) 8)) id p

def execPktWrite (id : Nat) (s : State) : Out := packetStep id 4 (writePkt id) s

/-- The KV loads that were translated in a KV space and wait for a replica (R137, R142). -/
def heldLoads (s : State) (ctx : Nat) : List (Nat × Nat × Nat) :=
  (s.kvs.filter fun e => e.2.repair.isSome && (kvSpaceOf s e.2.queue).2.any fun k => k.ctx == ctx).map fun e => (e.2.core, e.2.task, e.2.seq)

/-- Whether an operation that a FLUSH waits for has still to perform. -/
def opLeft (s : State) (u : Nat × Nat × Nat) : Bool :=
  pendLeft s u.1 u.2.1 u.2.2 ||
    s.kvs.any fun e => e.2.core == u.1 && e.2.task == u.2.1 && e.2.seq == u.2.2 && e.2.repair.isSome

/-- PKT_FLUSH (R344, R136): the entries go at once; it retires when what was translated with them has performed. -/
def flushPkt (id : Nat) (s : State) (p : Pkt) : State :=
  let x := p.value
  issuePkt s id p fun s =>
    let ctx := (tabOf s p.queue).ctx
    let ops := if x.testBit 64 then inFlightOps s (List.range 128) ctx none else []
    let s := if x.testBit 64 then (List.range 129).foldl (fun s c => olcDrop s c ctx none) s else s
    let (s, kv) := if x.testBit 65 then
        let (s, k) := kvSpaceOf s p.queue
        match k with
        | some k => (kvlcDropAll s fun e => e.ctx == k.ctx, heldLoads s k.ctx)
        | none => (s, [])
      else (s, [])
    putPkt s id { p with st := .issued, ops := ops ++ kv }

def execPktFlush (id : Nat) (s : State) : Out := packetStep id 5 (flushPkt id) s

/-! Command graphs (R345). -/

/-- The nodes of a graph that have not retired. -/
def nodesOf (s : State) (g : Nat) : List (Nat × Pkt) := s.pkts.filter fun e => e.2.graph == some g

/-- The next node of a running graph is fetched, in execution order; behind a COND it waits. -/
def fetchNode (s : State) (id : Nat) (p : Pkt) (r : Graph) : State :=
  let live := nodesOf s id
  let oldest := live.foldl (fun m e => min m e.2.k) r.execs
  if !enabled s p.queue || standsStopped s p.queue id || r.nnode ≤ r.ptr || oldest + 16 ≤ r.execs || live.any fun e => e.2.type = 3 then s
  else
    let (s, n) := readNode s p.queue (r.base + 64 * r.ptr)
    match n with
    | .error (c, e) => stopQueue s p.queue c ((mget s.pkts (rootPkt s 32 id)).map (·.k) |>.getD 0) r.ptr id e
    | .ok (ws, card) =>
      let x : Pkt := { queue := p.queue, k := r.execs, words := ws, card := card, st := .fetched, graph := some id
                       node := r.ptr, parent := none, gang := none, run := none }
      let s := putPkt { s with nextId := s.nextId + 1 } s.nextId x
      let ptr := if x.type = 3 then r.ptr else r.ptr + 1
      setRun s id { r with ptr := ptr, execs := r.execs + 1 }

/-- PKT_GRAPH (R345): the packet issues, and then each of its nodes is fetched. -/
def graphStep (id : Nat) (s : State) : State :=
  match mget s.pkts id with
  | none => s
  | some p =>
    if p.type ≠ 2 then s
    else
      match p.run with
      | some r => fetchNode s id p r
      | none =>
        if !mayIssue s id p then s
        else
          let r : Graph := { base := pktAddr p.value, nnode := nbits p.value 192 13, ptr := 0, taken := [], execs := 0 }
          issuePkt s id p fun s => putPkt s id { p with st := .issued, run := some r }

def execPktGraph (id : Nat) (s : State) : Out := event (graphStep id) s

/-- PKT_COND (R345): once every node before it has retired, it reads its word and moves the node pointer. -/
def condPkt (id : Nat) (s : State) (p : Pkt) : State :=
  let x := p.value
  let (s, r) := xlateAl s ioDie p.queue (BitVec.ofNat 64 (nbits x 64 64)) 8 8 { cls := clsCopy, rd := true, wr := false }
  match r with
  | .error f => stopAt s p.queue id 0x05 [f.code, f.taddr.toNat]
  | .ok (_, l) =>
    let (s, w) := readCells (graphRuns s p) l
    match graphOf s p with
    | none => s
    | some (g, r) =>
      let n := (mget r.taken p.node).getD 0
      let r := if condHolds (nbits x 192 4) 64 w (nbits x 128 64) && n < nbits x 224 32 then
          { r with taken := mput r.taken p.node (n + 1), ptr := nbits x 208 12 }
        else { r with ptr := p.node + 1 }
      setRun (retirePkt s id p) g r

def execPktCond (id : Nat) (s : State) : Out := packetStep id 3 (condPkt id) s

/-! Launches. -/

/-- The child launches of a gang that have not retired. -/
def childrenOf (s : State) (g : Nat) : List (Nat × Pkt) := s.pkts.filter fun e => e.2.parent == some g

/-- A malformed child is dropped, and the parent's queue stops (R362). -/
def dropChild (s : State) (id : Nat) (p : Pkt) (code : Nat) (cause : List Nat) : State :=
  match p.parent with
  | none => stopAt s p.queue id code cause
  | some g =>
    match mget s.gangs g with
    | none => { s with pkts := mdel s.pkts id }
    | some gg =>
      let s := { s with pkts := mdel s.pkts id, gangs := mput s.gangs g { gg with kidsUsed := gg.kidsUsed - 1 } }
      stopAt s p.queue gg.pkt code cause

/-- Whether a gang could be placed on an empty part (R352). Where the record keeps the boundaries, any that R214 allows count, since
another launch may state them (R215): some must leave room for the windows and the scratchpad share at once. -/
def placeable (s : State) (x : Nat) (h : Shape) : Bool :=
  let up (n : Nat) : Nat := 0x10000 * ceilDiv n 0x10000
  let room := match lrBounds x with
    | some b => (fitTasks [] b.1 (launchParts x) h).isSome
    | none => (fitTasks [] 0x100000 (launchParts x) h).isSome &&
        up (512 * h.w * launchParts x) + up (lrSpb x + lrSpl x) ≤ 0x200000 - s.limits.stewardArea
  lrKids x ≤ s.limits.pooln && room

/-- PKT_LAUNCH (R346): the record and the image are checked, the packet issues, and its gang is a candidate for placement. -/
def launchPkt (id : Nat) (s : State) (p : Pkt) : State :=
  let a := pktAddr p.value
  let s := touchRead s a 128
  let x := peekNat s a 128
  if hbmTop < a + 128 || !launchOk s.limits.stewardArea x then dropChild s id p 0x03 []
  else
    let im := lrImage x
    let s := touchRead s im 64
    let h := peekNat s im 64
    let s := touchRead s im (areaOff h + (if headerOk h then thImlen h else 0))
    if !imageOk s im (lrImofs x) h then dropChild s id p 0x04 []
    else if !placeable s x (thShape h) then dropChild s id p 0x06 []
    else
      let depth := match p.parent.bind (mget s.gangs ·) with
        | some g => min (lrDepth x) (g.depth - 1)
        | none => lrDepth x
      let g : Gang :=
        { pkt := id, queue := p.queue, parent := p.parent, rec_ := toBytes x 128, header := peekBytes s im (headBytes h)
          depth := depth, kids := if depth = 0 then 0 else lrKids x, kidsUsed := 0, placed := false, released := false
          tasks := [], numbers := [], live := (launchCores x).length * launchParts x, bars := [], waits := s.uclock, closed := none, holds := [] }
      issuePkt s id p fun s =>
        let gid := s.nextId
        putPkt { s with nextId := gid + 1, gangs := mput s.gangs gid g } id { p with st := .issued, gang := some gid }

/-- Whether a child's job card has still to be read. -/
def cardDue (p : Pkt) : Bool := p.parent.isSome && p.card.isEmpty && p.type == 1 && cardAddr p.value != 0

/-- Reads the job card of a child launch. -/
def childCard (id : Nat) (s : State) (p : Pkt) : State :=
  let (s, c) := readCard s p.queue (cardAddr p.value)
  match c with
  | .error e => dropChild s id p 0x05 [e]
  | .ok card => putPkt s id { p with card := card }

def launchStep (id : Nat) (s : State) : Out :=
  match mget s.pkts id with
  | some p => if cardDue p then event (fun s => childCard id s p) s else packetStep id 1 (launchPkt id) s
  | none => event (fun s => s) s

def execPktLaunch (id : Nat) (s : State) : Out := launchStep id s

/-- Whether results of the tasks of a gang are still to be written (R354): those of bound copies, and of other operations with the engines,
of a task that was killed. -/
def resultsLeft (s : State) (g : Gang) : Bool :=
  s.copies.any (fun e => !e.2.det && g.numbers.contains e.2.task) || s.kvs.any fun e => g.numbers.contains e.2.task

/-- PACKET_RETIRE (R342, R344, R345, R354). -/
def retireStep (id : Nat) (s : State) : State :=
  match mget s.pkts id with
  | none => s
  | some p =>
    match p.type with
    | 1 =>
      match p.gang with
      | none => s
      | some g =>
        match mget s.gangs g with
        | none => s
        | some gg =>
          if !gg.released || gg.live != 0 then s
          else if !(childrenOf s g).isEmpty || resultsLeft s gg then putPkt s id { p with st := .ended }
          else retirePkt { s with gangs := mdel s.gangs g } id p
    | 2 =>
      match p.run with
      | some r =>
        if !(r.nnode ≤ r.ptr) then s
        else if (nodesOf s id).isEmpty then retirePkt s id p
        else putPkt s id { p with st := .ended }
      | none => s
    | 5 => if p.st == .issued && !p.ops.any (opLeft s) then retirePkt s id p else s
    | _ => s

def execPacketRetire (id : Nat) (s : State) : Out := event (retireStep id) s

end Sys2Proof.Machine
end

