-- ==== Sys2Proof/Machine/Gangs.lean ====
section
/-! DEFINITION. Queue arbitration, the placement and the release of gangs, boundary changes and slices (R215, R216, R347 to
R349, R352 to R357). -/

namespace Sys2Proof.Machine

/-! Candidates (R355). -/

def Gang.lrec (g : Gang) : Nat := ofBytes g.rec_
def Gang.head (g : Gang) : Nat := ofBytes (g.header.take 64)
def Gang.cores (g : Gang) : List Nat := launchCores g.lrec

/-- A gang that waits for placement. -/
def Gang.waiting (g : Gang) : Bool := !g.placed

/-- The boundaries under which a gang runs on a core. -/
def Gang.boundsOn (g : Gang) (c : CoreSt) : Nat × Nat × Nat := (lrBounds g.lrec).getD (boundsOf c)

/-- Whether a gang waits for a boundary change of a core (R216). -/
def Gang.wantsChange (g : Gang) (c : CoreSt) : Bool := g.boundsOn c != boundsOf c

/-- Whether other closed cores, or resources held for another candidate, bar a gang from a core (R356, R357). -/
def barred (s : State) (gid : Nat) (g : Gang) (core : Nat) : Bool :=
  (g.closed.isNone && !g.holds.contains core && s.shadow.any fun e => e.2.held && e.2.core == core) ||
  s.gangs.any fun e =>
    e.1 != gid && e.2.waiting && e.2.cores.contains core &&
    ((match e.2.closed, g.closed with
      | some t, some u => t < u || (t == u && e.1 < gid)
      | some _, none => true
      | none, _ => false) || (e.2.holds.contains core && !g.holds.contains core && g.closed.isNone))

/-- Whether closed cores or held resources bar a swapped-out task, by its place in the shadow store, from its core (R356,
R357). -/
def barredTask (s : State) (key core : Nat) : Bool :=
  (s.shadow.any fun e => e.1 != key && e.2.held && e.2.core == core) ||
  s.gangs.any fun e => e.2.waiting && e.2.cores.contains core && (e.2.closed.isSome || e.2.holds.contains core)

/-- Whether another waiting gang, wherever its cores, closed them before a gang did (R357): that one is placed first. -/
def closedBefore (s : State) (gid : Nat) (g : Gang) : Bool :=
  g.closed.any fun u => s.gangs.any fun e => e.1 != gid && e.2.waiting && e.2.closed.any fun t => t < u || (t == u && e.1 < gid)

/-- Pool slots in use (R352, R354, R362): those reserved for running gangs, and those that children not yet placed hold. -/
def poolUsed (s : State) : Nat :=
  sumOf (s.gangs.map fun e => if !e.2.placed then 0 else if e.2.live = 0 then e.2.kidsUsed else e.2.kids)

/-- The bases of the tasks of a gang on a core, where R230 and R352 let them be placed. -/
def roomOn (s : State) (g : Gang) (core : Nat) : Option (List Nat × List Nat) :=
  let c := getCore s core
  if g.wantsChange c || scratchSize c < lrSpb g.lrec + lrSpl g.lrec then none
  else fitTasks (residents s core) c.b1 (launchParts g.lrec) (thShape g.head)

/-- Whether a gang may be placed now (R352, R357). -/
def canPlace (s : State) (gid : Nat) (g : Gang) : Bool :=
  g.waiting && (g.cores.all fun c => (roomOn s g c).isSome && !barred s gid g c) && !closedBefore s gid g && poolUsed s + g.kids ≤ s.limits.pooln

/-- A candidate: its queue's rank and number, its class within the queue (0 swapped-out task, 1 child, 2 ring), its order in
claim order, its stated run, the gang, and the cores and pool slots that it needs. -/
structure Cand where
  rank : Nat
  queue : Nat
  cls : Nat
  order : Nat
  run : Nat
  gang : Option Nat
  cores : List Nat
  kids : Nat
  deriving DecidableEq, Repr

/-- The candidate that a waiting gang is. -/
def gangCand (s : State) (gid : Nat) (g : Gang) : Cand :=
  let k := ((mget s.pkts (rootPkt s 32 g.pkt)).map (·.k)).getD 0
  let sub := ((mget s.pkts g.pkt).map (·.k)).getD 0
  { rank := rankOfQueue s g.queue, queue := g.queue, cls := if g.parent.isSome then 1 else 2
    order := if g.parent.isSome then sub else k * 2 ^ 64 + sub, run := thFirsty g.head, gang := some gid
    cores := g.cores, kids := g.kids }

/-- The candidate that a swapped-out task is; its order is that of its number. -/
def taskCand (s : State) (x : SavedCtx) : Cand :=
  { rank := rankOfQueue s x.ctx.queue, queue := x.ctx.queue, cls := 0, order := x.ctx.entered, run := x.ctx.nexty, gang := none
    cores := [x.core], kids := 0 }

/-- The shape of a saved task. -/
def ctxShape (p : Part) : Shape := { w := p.wregs, tslen := p.tslen, accs := p.accs, segmax := p.segmax }

/-- Whether its core has no room for a swapped-out task. -/
def taskLacksRoom (s : State) (x : SavedCtx) : Bool :=
  (fitTasks (residents s x.core) (getCore s x.core).b1 1 (ctxShape x.ctx)).isNone

/-- Whether a task swapped out at a yield could be placed on its core now. One that was forced out is the steward's (R356). -/
def canReturn (s : State) (key : Nat) (x : SavedCtx) : Bool := !x.forced && !barredTask s key x.core && !taskLacksRoom s x

/-- The candidates that could be placed now. -/
def candidates (s : State) : List Cand :=
  ((s.shadow.filter fun e => canReturn s e.1 e.2).map fun e => taskCand s e.2) ++
    ((s.gangs.filter fun e => canPlace s e.1 e.2).map fun e => gangCand s e.1 e.2)

/-- The candidates among which the choice falls when room for one frees that wants these cores and this many pool slots (R355): those that
want one of its cores, or of the pool slots what it would not leave. A candidate elsewhere has no claim. -/
def rivals (s : State) (cores : List Nat) (kids : Nat) : List Cand :=
  (candidates s).filter fun c => c.cores.any cores.contains || s.limits.pooln < poolUsed s + kids + c.kids

/-- Core clocks left in the present slice (R355). -/
def sliceLeft (s : State) : Nat := (s.slice + 1) * s.limits.slice - s.clock

/-- Whether a stated run fits. -/
def runFits (s : State) (run : Nat) : Bool := run != 0 && run ≤ sliceLeft s

/-- Whether candidate `a` comes before `b`: a fitting one first, then by rank, queue, class and order. -/
def candBefore (s : State) (a b : Cand) : Bool :=
  let fa := runFits s a.run
  let fb := runFits s b.run
  if fa != fb then fa
  else if a.rank != b.rank then b.rank < a.rank
  else if a.queue != b.queue then a.queue < b.queue
  else if a.cls != b.cls then a.cls < b.cls
  else a.order < b.order

/-- The candidate that the command processor chooses. -/
def chosen (s : State) : List Cand → Option Cand
  | [] => none
  | x :: xs =>
    match chosen s xs with
    | none => some x
    | some y => if candBefore s y x then some y else some x

/-- Whether the choice falls on a task swapped out at a yield, by its place in the shadow store (R355). -/
def returnDue (s : State) (key : Nat) (x : SavedCtx) : Bool :=
  canReturn s key x && chosen s (rivals s [x.core] 0) == some (taskCand s x)

/-! Placement (R352). -/

/-- A placed task: it holds its resources; its registers come with the release. -/
def placedTask (g gid : Nat) (q : Nat) (h : Nat) (lrec : Nat) (wb tb : Nat) (old : Part) : Part :=
  { Part.empty with
    ps := .placed, lastIssue := old.lastIssue, single := old.single, debugged := old.debugged, gang := some gid, queue := q
    role := thRole h, slots := BitVec.ofNat 8 (thSlots h), accs := BitVec.ofNat 8 (thAccs h), wregs := thW h, tslen := thTslen h
    segmax := thSegmax h, wbase := wb, tsbase := tb, spbase := lrSpb lrec, splen := lrSpl lrec, entered := g }

/-- Places the tasks of a gang on one core: the lowest free partitions, in the order of the tasks. -/
def placeCore (s : State) (gid : Nat) (g : Gang) (core : Nat) : State × List (Nat × Nat) :=
  match roomOn s g core with
  | none => (s, [])
  | some (ws, ts) =>
    let spots := List.zip (List.range (launchParts g.lrec)) (List.zip (freeParts s core) (List.zip ws ts))
    spots.foldl (fun (acc : State × List (Nat × Nat)) (x : Nat × Nat × Nat × Nat) =>
      let part := x.2.1
      let p := placedTask 0 gid g.queue g.head g.lrec x.2.2.1 x.2.2.2 (getPart acc.1 core part)
      (setPart acc.1 core part p, acc.2 ++ [(partKey core part, x.1)])) (s, [])

/-- Whether a gang may be placed, and the choice among those with a claim falls on it (R352, R355). -/
def placeDue (s : State) (gid : Nat) (g : Gang) : Bool := canPlace s gid g && ((chosen s (rivals s g.cores g.kids)).bind (·.gang)) == some gid

/-- GANG_PLACE (R352, R355): the whole gang in one step, where the command processor chooses it. -/
def placeStep (gid : Nat) (s : State) : State :=
  match mget s.gangs gid with
  | none => s
  | some g =>
    if placeDue s gid g then
      let (s, ts) := g.cores.foldl (fun (acc : State × List (Nat × Nat)) c =>
        let (s, l) := placeCore acc.1 gid g c
        (s, acc.2 ++ l)) (s, [])
      let s := { s with gangs := mput s.gangs gid { g with placed := true, tasks := ts, closed := none, holds := [] } }
      match g.parent.bind fun p => (mget s.gangs p).map fun x => (p, x) with
      | some (p, x) => { s with gangs := mput s.gangs p { x with kidsUsed := x.kidsUsed - 1 } }
      | none => s
    else s

def execGangPlace (gid : Nat) (s : State) : Out := event (placeStep gid) s

/-! Release (R353). -/

/-- An absolute bundle address (R350): IMOFS is added to the SEG field. -/
def absAddr (imofs a : Nat) : W32 := mkAddr (nbits a 0 14 + imofs) (nbits a 16 9)

/-- The format table at task start (R310): the entries of the image, and the default. -/
def startFt (g : Gang) : Vector W64 16 :=
  (List.zip (List.range 16) (thFmts g.head)).foldl
    (fun v x => v.set (x.2 % 16) (BitVec.ofNat 64 (ofBytes ((g.header.drop (64 + 8 * x.1)).take 8))) (Nat.mod_lt _ (by decide)))
    (Vector.replicate 16 0x3F803F8000000000)

/-- The scalar registers at task start: ARG0 to ARG3 in s1 to s4 (Table 14.10). -/
def startS (pkt : Nat) : Vector W64 64 :=
  (List.range 4).foldl
    (fun v i => v.set ((i + 1) % 64) (BitVec.ofNat 64 (nbits pkt (192 + 64 * i) 64)) (Nat.mod_lt _ (by decide)))
    (Vector.replicate 64 0)

/-- The context of a task at its start (Table 14.10). `idx` is its index among the gang's tasks of its core. -/
def startTask (s : State) (g : Gang) (pkt core idx : Nat) (p : Part) : Part :=
  let x := g.lrec
  let h := g.head
  { Part.empty with
    ps := .ready, lastIssue := p.lastIssue, single := p.single, debugged := p.debugged, gang := p.gang, queue := p.queue, role := p.role
    slots := p.slots, accs := p.accs, wregs := p.wregs, tslen := p.tslen, segmax := p.segmax, wbase := p.wbase, tsbase := p.tsbase
    spbase := p.spbase, splen := p.splen, born := s.epoch + 1, entered := s.nextId, s := startS pkt, ft := startFt g
    coord := Vector.ofFn fun (l : Fin 8) => coordOf x core idx l.val
    tvec := if thTv h then absAddr (lrImofs x) (thTrap h) else 0x80000000
    at_ := Point.start (absAddr (lrImofs x) (thEntry h)) }

/-- Steps 2, 3 and 5 of the release on one core: the image, the flags, the core cache. -/
def readyCore (g : Gang) (s : State) (core : Nat) : State :=
  let x := g.lrec
  let s :=
    if lrKeep x then s
    else
      let c := getCore s core
      setCore s core { c with imem := putImem c.imem (4 * lrImofs x) (areaWords s (lrImage x) g.head) }
  let s := (List.range 64).foldl (fun s f => if (lrFmask x).testBit f then setFlag s core f (lrFval x) else s) s
  dropCache s core

/-- GANG_RELEASE (R353): every task of the gang on this chip becomes ready on one core clock. -/
def releaseStep (gid : Nat) (s : State) : State :=
  match mget s.gangs gid with
  | none => s
  | some g =>
    if !g.placed || g.released then s
    else
      let s := if lrKeep g.lrec then s else touchRead s (lrImage g.lrec) (areaOff g.head + thImlen g.head)
      let s := g.cores.foldl (readyCore g) s
      let pkt := ((mget s.pkts g.pkt).map Pkt.value).getD 0
      let s := g.tasks.foldl (fun s t =>
        let core := t.1 / 32
        let p := startTask s g pkt core t.2 (getPart s core (t.1 % 32))
        { setPart s core (t.1 % 32) p with nextId := s.nextId + 1 }) s
      let ids := tab g.tasks.length fun i => s.nextId - g.tasks.length + i
      let s := { s with gangs := mput s.gangs gid { g with released := true, numbers := ids } }
      match mget s.pkts g.pkt with
      | some p => putPkt s g.pkt { p with st := .running }
      | none => s

def execGangRelease (gid : Nat) (s : State) : Out := event (releaseStep gid) s

/-! Closing, boundaries, slices. -/

/-- Whether a waiting gang closes its cores now (R357). -/
def closeDue (s : State) (g : Gang) : Bool :=
  g.waiting && g.closed.isNone && (g.waits + s.limits.gangWait ≤ s.uclock || g.cores.any fun c => g.wantsChange (getCore s c))

/-- GANG_CLOSE (R357). -/
def closeStep (gid : Nat) (s : State) : State :=
  match mget s.gangs gid with
  | some g => if closeDue s g then { s with gangs := mput s.gangs gid { g with closed := some s.uclock } } else s
  | none => s

def execGangClose (gid : Nat) (s : State) : Out := event (closeStep gid) s

/-- Whether a gang's boundary change of a core may be made now (R216): the core is quiet, and no gang that closed before
waits for it. -/
def changeDue (s : State) (gid : Nat) (g : Gang) (core : Nat) : Bool :=
  g.waiting && g.closed.isSome && g.cores.contains core && g.wantsChange (getCore s core) && coreQuiet s core && !barred s gid g core

/-- POOL_BOUNDARY_CHANGE (R216): one step; the core cache is empty and the scratchpad undefined after it. -/
def boundsStep (core b1 b2 b3 : Nat) (s : State) : State :=
  if s.gangs.any fun e => changeDue s e.1 e.2 core && lrBounds e.2.lrec == some (b1, b2, b3) then
    setCore s core { getCore s core with b1 := b1, b2 := b2, b3 := b3, cache := [], scratch := [], spWas := [], bepoch := s.epoch + 1 }
  else s

def execPoolBoundaryChange (core b1 b2 b3 : Nat) (s : State) : Out :=
  event (boundsStep core b1 b2 b3) s

/-- SLICE_START (R355): slices are counted from reset. -/
def execSliceStart (s : State) : Out := event (fun s => { s with slice := s.clock / s.limits.slice }) s

/-! Swaps at yield points (R356). -/

/-- Bytes of a context's image in the shadow store (R382). -/
def imageLen (p : Part) : Nat :=
  4096 * ceilDiv (16384 + 512 * p.wregs + 65536 * popc p.accs.toNat 8 + 16 * p.tslen + p.tslen / 8) 4096

/-- Whether the shadow store of a core's die has room for an image. -/
def shadowRoom (s : State) (core len : Nat) : Bool :=
  sumOf ((s.shadow.filter fun e => e.2.core / 64 == core / 64).map fun e => e.2.len) + len ≤ 32 * 2 ^ 20

/-- The candidates of queues of a higher rank that wait for resources which a resident task holds (R356). -/
def waitersAbove (s : State) (core part : Nat) : List Cand :=
  let t := getPart s core part
  let c := getCore s core
  let above (q : Nat) : Bool := rankOfQueue s t.queue < rankOfQueue s q
  let lacks (n : Nat) (h : Shape) : Bool := holdsLacking (residents s core) c.b1 n h t
  ((s.shadow.filter fun e => !e.2.forced && e.2.core == core && above e.2.ctx.queue && lacks 1 (ctxShape e.2.ctx)).map fun e =>
      taskCand s e.2) ++
    ((s.gangs.filter fun e =>
        e.2.waiting && e.2.cores.contains core && above e.2.queue && lacks (launchParts e.2.lrec) (thShape e.2.head) &&
        !e.2.wantsChange c).map fun e => gangCand s e.1 e.2)

/-- The candidate for which a task at a yield point is swapped out, where its next run does not fit (R356). -/
def yieldsTo (s : State) (core part : Nat) : Option Cand :=
  let p := getPart s core part
  if !p.atYield || runFits s p.nexty || !shadowRoom s core (imageLen p) then none else chosen s (waitersAbove s core part)

/-- What a task frees on a core is held for a candidate. -/
def holdFor (s : State) (core : Nat) (c : Cand) : State :=
  match c.gang with
  | some gid =>
    match mget s.gangs gid with
    | some g => { s with gangs := mput s.gangs gid { g with holds := g.holds ++ [core] } }
    | none => s
  | none => { s with shadow := s.shadow.map fun e => (e.1, { e.2 with held := e.2.held || e.2.ctx.entered == c.order }) }

/-- The decision at a yield point: the task is to be pre-empted, and what it frees is held for the candidate. -/
def yieldSwap (s : State) (core part : Nat) : State :=
  let p := getPart s core part
  match yieldsTo s core part with
  | none => setPart s core part { p with atYield := false }
  | some c => holdFor (setPart s core part { p with atYield := false, preempt := some (p.preempt.getD false) }) core c

end Sys2Proof.Machine
end

