-- ==== Sys2Proof/Machine/Image.lean ====
section
/-! DEFINITION. Saved contexts as bytes (R382, R383): the image that a context in the shadow store makes, what a debugger reads and writes
of it (R407), the checks of CTXLD, and the context that a rewritten image gives. -/

namespace Sys2Proof.Machine

/-! The image (Table 15.6). -/

/-- A value as `n` numbers of 8 bits. -/
def words (n : Nat) (xs : List Nat) : List Byte := xs.flatMap (toBytes · n)

/-- A list of bytes with zeros after it, `n` in all. -/
def padTo (n : Nat) (bs : List Byte) : List Byte := bs ++ List.replicate (n - bs.length) 0

/-- Offset 0x0000 to 0x003F, the CRC taken as 0. -/
def imageHead (x : SavedCtx) : List Byte :=
  let p := x.ctx
  words 4 [0x4C535843, x.lver, x.len, x.core + x.part * 2 ^ 8 + p.role * 2 ^ 16,
    p.slots.toNat + p.accs.toNat * 2 ^ 8 + p.wregs / 8 * 2 ^ 16, p.tslen / 256 + p.segmax * 2 ^ 16,
    p.queue + (if x.forced then 2 ^ 16 else 0), 0] ++ padTo 32 (toBytes p.tc 8)

/-- The special registers of Table 9.6 that have no place of their own in Table 15.6, 8 bytes each in the order of that table, which R382
does not state (DESIGN CHOICE, log entry 66). -/
def imageSpecials (p : Part) : List Nat :=
  [p.fpctl.toNat, p.uivec.toNat, p.uictl.toNat, p.rplact.toNat, p.cfc01.toNat, p.cfc23.toNat] ++ p.coord.toList.map (·.toNat) ++
    [p.spbase, p.splen, p.tslen]

/-- What a register write carries. -/
def RegWrite.content (w : RegWrite) : List Nat :=
  match w with
  | .s r sh x b => [0, r.toNat, if sh then 1 else 0, x.toNat, if b then 1 else 0]
  | .v r x b => [1, r.toNat, x.toNat, if b then 1 else 0]
  | .p r x => [2, r.toNat, x.toNat]
  | .g r x => [3, r.toNat, x.toNat]
  | .lc r x => [4, r.toNat, x.toNat]
  | .sr n x => [5, n.toNat, x.toNat]
  | .ftLo n x => [6, n.toNat, x.toNat]
  | .ftHi n x => [7, n.toNat, x.toNat]
  | .mc n x => [8, n, x.toNat]
  | .edge d x => [9, d, x.toNat]

/-- What a late-write entry holds: its operation, its kind (Table 15.3), and what it is to write. -/
def Pend.content (e : Pend) : List Nat :=
  let kind := match e.st with
    | .ready => [0]
    | .engine => [1]
    | .wait _ => [2]
    | .fault c a _ _ => [3, c, a.toNat]
    | .replay => [4]
  [e.seq, e.op, e.slot, e.due] ++ kind ++ e.writes.flatMap RegWrite.content

/-- What the trap banks hold. -/
def TrapBank.content (b : TrapBank) : List Nat :=
  [b.tsw.toNat, b.tcause.toNat, b.taddr.toNat, b.tpc.toNat, b.tc, b.at_.pc.toNat, b.at_.slot]

def trapContent (p : Part) : List Nat :=
  [p.level, p.tsw.toNat, p.tcause.toNat, p.taddr.toNat, p.tpc.toNat] ++ (p.bank1.map TrapBank.content).getD [] ++
    (p.bank2.map TrapBank.content).getD []

/-- What the sticky register of a slot holds. -/
def stickyContent (k : Option Sticky) : List Nat :=
  match k with
  | some k => [(wordOf k.instr).toNat, k.cnt] ++ k.cap.map (·.toNat)
  | none => []

/-- What stands at 0x0840: the repeat count, the pending transfer, the monitor, the handler's state and the vector poison bits. -/
def pointContent (p : Part) : List Nat :=
  [p.at_.pc.toNat, p.at_.slot, (p.at_.rep.map (· + 1)).getD 0, (p.at_.xfer.map fun x => 1 + x.left).getD 0, (p.monitor.map (· + 1)).getD 0,
    (p.ui.map fun u => 1 + u.pc.toNat).getD 0, p.vp.toNat]

/-- An area whose inner form Table 15.6 leaves open: bytes that its content fixes, and that nothing else does (free values). -/
def openArea (site n : Nat) (content : List Nat) : List Byte := tab n fun i => Config.areaByte (site :: content) i

/-- Offset 0x0040 to 0x0880. -/
def imageRegs (p : Part) : List Byte :=
  padTo 592 (words 8 (p.s.toList.map (·.toNat)) ++ words 8 (p.sh.toList.map (·.toNat)) ++ toBytes (p.sp.toNat + p.shp.toNat * 2 ^ 64) 9) ++
  words 16 (p.p.toList.map (·.toNat)) ++ words 16 (p.g.toList.map (·.toNat)) ++ words 4 (p.lc.toList.map (·.toNat)) ++
  words 8 (p.ft.toList.map (·.toNat)) ++ words 4 ([p.mca, p.mcb, p.mcs, p.mcg, p.mce, p.mcr].map (·.toNat)) ++ toBytes (loopst p) 8 ++
  padTo 256 (words 8 (imageSpecials p)) ++ openArea 0 256 (trapContent p) ++
  (List.range 8).flatMap (fun i => openArea (1 + i) 48 (stickyContent ((p.at_.sticky.toList).getD i none))) ++ openArea 9 64 (pointContent p)

/-- Offset 0x0880 to 0x3FFF: 64 late-write entries, 20 values, and reserved bytes. -/
def imageLate (p : Part) : List Byte :=
  padTo 2048 (p.pends.flatMap fun e => openArea 10 32 e.content) ++
    padTo 10240 ((p.pends.filter (·.vec)).flatMap fun e => openArea 11 512 e.content) ++ List.replicate 1920 0

/-- The register window, the claimed banks, the tile-store share and its tags. -/
def imageBody (p : Part) : List Byte :=
  (List.range p.wregs).flatMap (fun r => toBytes (regV p (BitVec.ofNat 7 r)).1.toNat 512) ++
  ((List.range 8).filter fun a => p.accs.getLsbD a).flatMap (fun a => (List.range 128).flatMap fun i => toBytes (bankRow p a i).toNat 512) ++
  (List.range p.tslen).flatMap (fun l => toBytes (tileLine p l).toNat 16) ++
  (List.range (p.tslen / 16)).flatMap fun g => toBytes (tileTag p g).toNat 2

/-- The CRC-32C of an image: its own field taken as 0, the late-write area left out. -/
def imageCrc (bs : List Byte) : W32 :=
  crc32c (bs.take 0x3C ++ List.replicate 4 0 ++ (bs.drop 0x40).take 0x840 ++ bs.drop 0x3880)

/-- The image that CTXSV writes. -/
def savedImage (x : SavedCtx) : List Byte :=
  let bs := padTo x.len (imageHead x ++ imageRegs x.ctx ++ imageLate x.ctx ++ imageBody x.ctx)
  bs.take 0x3C ++ toBytes (imageCrc bs).toNat 4 ++ bs.drop 0x40

/-- The bytes of an image as it stands: those that a debugger has written, in the place of the saved ones. -/
def imageBytes (x : SavedCtx) : List Byte := (savedImage x).zipIdx.map fun e => (mget x.patch e.2).getD e.1

/-! The checks of CTXLD (R383). -/

/-- The value of `n` bytes of an image at an offset. -/
def field (bs : List Byte) (o n : Nat) : Nat := ofBytes ((bs.drop o).take n)

/-- The geometry that a header gives, in the place of a context's own. -/
def headGeometry (bs : List Byte) (p : Part) : Part :=
  { p with
    role := nbits (field bs 0x0C 4) 16 2, slots := BitVec.ofNat 8 (field bs 0x10 1), accs := BitVec.ofNat 8 (field bs 0x11 1)
    wregs := 8 * nbits (field bs 0x10 4) 16 5, tslen := 256 * field bs 0x14 1, segmax := nbits (field bs 0x14 4) 16 10
    queue := nbits (field bs 0x18 4) 0 10 }

/-- The reserved bytes and bits of Table 15.6 are 0. -/
def imageReserved (bs : List Byte) : Bool :=
  nbits (field bs 4 4) 16 16 == 0 && nbits (field bs 0x0C 4) 7 1 == 0 && nbits (field bs 0x0C 4) 12 4 == 0 && nbits (field bs 0x0C 4) 18 14 == 0 &&
  nbits (field bs 0x10 4) 21 11 == 0 && nbits (field bs 0x14 4) 8 8 == 0 && nbits (field bs 0x14 4) 26 6 == 0 &&
  nbits (field bs 0x18 4) 10 6 == 0 && nbits (field bs 0x18 4) 18 14 == 0 && field bs 0x1C 4 == 0 && field bs 0x28 20 == 0 &&
  field bs 0x3880 1920 == 0

/-- Whether the late-write entries verify. Where an entry, or a value, has been rewritten, the spec does not place its CRC in its 32 bytes:
whether it agrees is a free value. -/
def entriesOk (s : State) (x : SavedCtx) : Bool :=
  x.patch.all fun e => !(0x880 ≤ e.1 && e.1 < 0x3880) || (savedImage x)[e.1]? == some e.2 || Config.freeBool s.epoch (813 * 2 ^ 20 + e.1)

/-- Whether an image passes its check on a core (R383). The one that CTXSV wrote does. -/
def imageGood (s : State) (x : SavedCtx) (core : Nat) : Bool :=
  x.patch.isEmpty ||
    let bs := imageBytes x
    let lmin := field bs 5 1
    field bs 0 4 == 0x4C535843 && field bs 4 1 == 1 && field bs 8 4 == bs.length && field bs 8 4 == imageLen (headGeometry bs x.ctx) &&
    nbits (field bs 0x0C 4) 0 7 == core && field bs 0x3C 4 == (imageCrc bs).toNat && entriesOk s x && (lmin != 0 || imageReserved bs)

/-! The context of a rewritten image. -/

/-- `n` values of `w` bytes each. -/
def fieldVec (bs : List Byte) (o w n bits : Nat) : Vector (BitVec bits) n := Vector.ofFn fun i => BitVec.ofNat bits (field bs (o + w * i.val) w)

/-- Whether a byte of an area has been rewritten with another value. -/
def rewritten (x : SavedCtx) (lo n : Nat) : Bool :=
  x.patch.any fun e => lo ≤ e.1 && e.1 < lo + n && (savedImage x)[e.1]? != some e.2

/-- The registers of a rewritten image (Table 15.6). Reserved bits of FPCTL, UICTL and RPLACT read 0, as they do after MTSR. -/
def imageToRegs (bs : List Byte) (p : Part) : Part :=
  let sr (i : Nat) : Nat := field bs (0x4C0 + 8 * i) 8
  let le (i : Nat) : BitVec 3 := BitVec.ofNat 3 (field bs (0x4B8 + i) 1)
  { p with
    tc := field bs 0x20 8, s := fieldVec bs 0x40 8 64 64, sh := fieldVec bs 0x240 8 8 64, sp := BitVec.ofNat 64 (field bs 0x280 8)
    shp := BitVec.ofNat 8 (field bs 0x288 1), p := fieldVec bs 0x290 16 16 128, g := fieldVec bs 0x390 16 8 128
    lc := fieldVec bs 0x410 4 4 32, ft := fieldVec bs 0x420 8 16 64, mca := BitVec.ofNat 32 (field bs 0x4A0 4)
    mcb := BitVec.ofNat 32 (field bs 0x4A4 4), mcs := BitVec.ofNat 32 (field bs 0x4A8 4), mcg := BitVec.ofNat 32 (field bs 0x4AC 4)
    mce := BitVec.ofNat 32 (field bs 0x4B0 4), mcr := BitVec.ofNat 32 (field bs 0x4B4 4), le := #v[le 0, le 1, le 2, le 3]
    fpctl := BitVec.ofNat 64 (sr 0) &&& 0x70F, uivec := BitVec.ofNat 32 (sr 1), uictl := BitVec.ofNat 64 (sr 2) &&& 0x3FF
    rplact := BitVec.ofNat 64 (sr 3 % 4)
    cfc01 := BitVec.ofNat 64 (sr 4), cfc23 := BitVec.ofNat 64 (sr 5), coord := fieldVec bs 0x4F0 8 8 64, spbase := sr 14, splen := sr 15 }

/-- The window, the banks, the share and its tags of a rewritten image. -/
def imageToBody (bs : List Byte) (p : Part) : Part :=
  let banks := (List.range 8).filter fun a => p.accs.getLsbD a
  let ob := 0x4000 + 512 * p.wregs
  let ot := ob + 65536 * banks.length
  let og := ot + 16 * p.tslen
  { p with
    v := tab p.wregs fun r => (r, BitVec.ofNat 4096 (field bs (0x4000 + 512 * r) 512))
    acc := banks.zipIdx.flatMap fun a => tab 128 fun i => (128 * a.1 + i, BitVec.ofNat 4096 (field bs (ob + 65536 * a.2 + 512 * i) 512))
    tile := tab p.tslen fun l => (l, BitVec.ofNat 128 (field bs (ot + 16 * l) 16)), tileWas := []
    tags := tab (p.tslen / 16) fun g => (g, BitVec.ofNat 16 (field bs (og + 2 * g) 2)) }

/-- The context that an image gives. Where the bytes of the trap banks have been rewritten, their registers are free values, since the form
of that area is not stated; in the other areas of no stated form, a write changes nothing (DESIGN CHOICE, log entry 66). -/
def ctxOf (s : State) (x : SavedCtx) : Part :=
  if x.patch.isEmpty then x.ctx
  else
    let bs := imageBytes x
    let p := imageToBody bs (imageToRegs bs (headGeometry bs x.ctx))
    if rewritten x 0x5C0 256 then
      { p with
        tsw := Config.freeBits s.epoch 814 64, tcause := Config.freeBits s.epoch 815 64, taddr := Config.freeBits s.epoch 817 64
        tpc := Config.freeBits s.epoch 818 32 }
    else p

/-! The debugger (R407). -/

/-- The image of the shadow store of a core's die that a byte lies in, with its offset in it. -/
def imageAt (s : State) (core o : Nat) : Option (Nat × SavedCtx × Nat) :=
  let k := core / 64 * 8192 + o / 4096
  (s.shadow.find? fun e => e.1 ≤ k && k < e.1 + e.2.len / 4096).map fun e => (e.1, e.2, 4096 * (k - e.1) + o % 4096)

/-- The debugger writes a byte of the shadow store: one of an image of a partition that it holds. -/
def debugWrite (core : Nat) (s : State) (e : Byte × Nat) : State :=
  match imageAt s core e.2 with
  | some (k, x, o) => if x.ctx.debugged then { s with shadow := mput s.shadow k { x with patch := mput x.patch o e.1 } } else s
  | none => s

/-- A byte of the shadow store, where no image lies a free value. -/
def debugByte (s : State) (core o : Nat) : Byte :=
  match imageAt s core o with
  | some (_, x, i) => (imageBytes x).getD i 0
  | none => Config.freeBits s.epoch (819 * 2 ^ 32 + o) 8

/-- A request of the debugger about a core: to hold a partition, to read bytes of the die's shadow store, or to write them. -/
def debugStep (core : Nat) (r : DebugReq) (s : State) : State :=
  if s.recovery then s
  else
    match r with
    | .hold part => if part < 16 then setPart s core part { getPart s core part with single := true, debugged := true } else s
    | .read o n => { s with hostOut := some (.data (tab n fun i => debugByte s core (o + i))) }
    | .write o bs => (bs.zipIdx o).foldl (debugWrite core) s

end Sys2Proof.Machine
end

