-- ==== Sys2Proof/Machine/Return.lean ====
section
/-! DEFINITION. The returns from handlers (R281, R374, R376, R205) and the transfer of contexts to and from the shadow store
(R282, R380 to R383). -/

namespace Sys2Proof.Machine

/-! RETT and UIRET. -/

/-- The point at which RETT goes on (R374, R281): the saved one at slot SRES, or the bundle that a write of TPC has named. -/
def rettPoint (s : State) (p : Part) (b : TrapBank) : Point :=
  if b.repc then landAt { b.at_ with slot := p.tsw.toNat % 8 } p.tpc (Config.freeBits s.epoch 79 32) 0x51
  else { b.at_ with slot := p.tsw.toNat % 8 }

/-- The partition after RETT: what entry saved is restored; the bank of the first trap comes back from a nested one (R376). -/
def rettPart (s : State) (p : Part) (b : TrapBank) : Part :=
  let p := endEarly p (·.level == p.level)
  let q := { p with
    level := p.level - 1, tc := b.tc, at_ := rettPoint s p b, bank1 := p.bank2, bank2 := none, stepped := p.single, bucket := none }
  match p.bank2 with
  | some c => { q with tsw := c.tsw, tcause := c.tcause, taddr := c.taddr, tpc := c.tpc }
  | none => q

/-- RPLACT is applied to a replay entry (R207, R141). -/
def replay (core part : Nat) (skip : Bool) (s : State) (e : Pend) : State :=
  let s := setPart s core part (updPend (getPart s core part) e.seq fun e => { e with st := .engine })
  match e.eng with
  | none => s
  | some key => if 2 ^ 24 ≤ key then resumeKv s (key - 2 ^ 24) skip else resumeCopy s key skip

/-- The detached copies of a task that hold at a fault that has been taken. -/
def heldCopies (s : State) (core : Nat) (p : Part) : List Nat :=
  (s.copies.filter fun e =>
    e.1 / 4096 == core && e.2.task == p.entered && e.2.det && e.2.holding &&
    !(p.reports.any fun r => r.copy && r.id == e.1)).map (·.1)

/-- RETT applies RPLACT to every replay entry of the level to which it returns. -/
def replayAll (s : State) (core part : Nat) : State :=
  let p := getPart s core part
  let skip := p.rplact == 1
  let s := (p.pends.filter fun e => e.level == p.level && e.st == .replay).foldl (replay core part skip) s
  if p.level = 0 then (heldCopies s core p).foldl (fun s k => resumeCopy s k skip) s else s

/-- RETT in a trap handler. -/
def rettStep (s : State) : State :=
  let s := applyWrites s
  let p := cur s
  match p.bank1 with
  | none => closeIssue s
  | some b => closeIssue (replayAll (setCur s (rettPart s p b)) s.iss.core s.iss.part)

/-- ILLEGAL_SYLLABLE of an instruction that may not run here. -/
def illegalHere (i : Instr) (s : State) : Out :=
  event (fun s => preciseTrap i { code := cIllegal, taddr := (wordOf i).setWidth 64, commits := false } s) s

/-- RETT (R281). Its wait has been made before its bundle. -/
def execRett (s : State) : Out := if (cur s).level = 0 then illegalHere .rett s else event rettStep s

/-- UIRET in a user-level completion handler. -/
def uiretStep (s : State) : State :=
  let s := applyWrites s
  let p := cur s
  let back := p.ui.getD p.at_
  closeIssue (setCur s { p with
    tc := p.tc + 1, at_ := back, ui := none, uictl := p.uictl &&& ~~~2#64, stepped := p.single, bucket := none })

/-- UIRET (R281). -/
def execUiret (s : State) : Out := if (cur s).ui.isNone then illegalHere .uiret s else event uiretStep s

/-! CTXSV and CTXLD. -/

/-- The place of an image in the shadow stores: the die's 32 MiB in pages of 4,096 bytes. -/
def shadowKey (core off : Nat) : Nat := core / 64 * 8192 + off / 4096

/-- Whether two images in the shadow stores share a page. -/
def imagesMeet (k n : Nat) (e : Nat × SavedCtx) : Bool := e.1 < k + n / 4096 && k < e.1 + e.2.len / 4096

/-- The save of a stopped partition (R380): what stood in the store at its place is gone, and its resources are free. -/
def saveCtx (s : State) (core part off lver : Nat) : State :=
  let p := getPart s core part
  let s := withdrawLoads s core p.entered
  let len := imageLen p
  let k := shadowKey core off
  let x : SavedCtx := { core := core, part := part, lver := lver, len := len, forced := p.preempt.getD true, held := false, uipend := 0
                        ctx := { p with ps := .swapped, preempt := none, cur := none, nxt := none, bucket := none } }
  let s := { s with shadow := mput (s.shadow.filter fun e => !imagesMeet k len e) k x }
  setPart s core part { Part.empty with lastIssue := p.lastIssue, single := p.single, debugged := p.debugged }

/-- The status of CTXSV (R282). -/
def ctxsvStatus (s : State) (part lver : Nat) : Nat :=
  if (getPart s s.iss.core part).ps != .stopped then 1 else if lver ≠ 1 then 2 else 0

/-- A result that waits for the end of a transfer. -/
def ctxResult (i : Instr) (d : BitVec 6) (st : W64) (s : State) : State := resultEng i 1 [sDest s d st false] s

/-- CTXSV. An offset that is no multiple of 4,096, or an image that passes the end of the store, breaks its obligation: nothing is
saved, and the status is not stated. -/
def ctxsvBody (f : SA) (s : State) : Except TrapReq State :=
  let i := Instr.ctxsv f
  if !(cur s).steward then illegal i
  else
    match useS s f.a, useS s f.b with
    | .error e, _ => .error e
    | _, .error e => .error e
    | .ok a, .ok b =>
      let off := a.toNat % 2 ^ 25
      let part := b.toNat % 16
      let lver := b.toNat / 256 % 256
      let st := ctxsvStatus s part lver
      if st ≠ 0 then .ok (ctxResult i f.d (BitVec.ofNat 64 st) s)
      else if off % 4096 ≠ 0 || 2 ^ 25 < off + imageLen (getPart s s.iss.core part) then
        .ok (ctxResult i f.d (Config.freeBits s.epoch 811 64) s)
      else .ok (ctxResult i f.d 0 (saveCtx s s.iss.core part off lver))

def execCtxsv (f : SA) (s : State) : Out := runSyl (.ctxsv f) (ctxsvBody f) s

/-- The context goes into a free partition at bases that the core chooses, and is PLACED (R380, R231), with the completion interrupts that
have become ready meanwhile (R381). -/
def loadCtx (s : State) (core part k : Nat) (x : SavedCtx) (wb tb : Nat) : State :=
  let q := getPart s core part
  let p := ctxOf s x
  let p := { p with ps := .placed, wbase := wb, tsbase := tb, lastIssue := q.lastIssue, single := q.single, debugged := q.debugged
                    uictl := p.uictl ||| (x.uipend.setWidth 64 <<< 2) }
  setPart { s with shadow := mdel s.shadow k } core part p

/-- CTXLD. The image must be one that the issuing core saved. A closed core, and one whose room is held for another or goes to another
candidate, has nothing free for it (R355 to R357). -/
def ctxldBody (f : SA) (s : State) : Except TrapReq State :=
  let i := Instr.ctxld f
  if !(cur s).steward then illegal i
  else
    match useS s f.a, useS s f.b with
    | .error e, _ => .error e
    | _, .error e => .error e
    | .ok a, .ok b =>
      let core := s.iss.core
      let off := a.toNat % 2 ^ 25
      let part := b.toNat % 16
      let res (n : Nat) (s : State) : Except TrapReq State := .ok (ctxResult i f.d (BitVec.ofNat 64 n) s)
      if off % 4096 ≠ 0 then .ok (ctxResult i f.d (Config.freeBits s.epoch 812 64) s)
      else if (getPart s core part).ps != .free then res 1 s
      else if b.toNat / 256 % 256 ≠ 1 then res 2 s
      else
        let k := shadowKey core off
        match mget s.shadow k with
        | none => res 4 (addEvent s { code := 0x0E, loc := partKey core part, detail := [off] })
        | some x =>
          if x.core ≠ core || x.lver ≠ 1 || !imageGood s x core then res 4 (addEvent s { code := 0x0E, loc := partKey core part, detail := [off] })
          else if barredTask s k core || !(x.forced || returnDue s k x) then res 3 s
          else
            match fitTasks (residents s core) (getCore s core).b1 1 (ctxShape (ctxOf s x)) with
            | some (wb :: _, tb :: _) => res 0 (loadCtx s core part k x wb tb)
            | _ => res 3 s

def execCtxld (f : SA) (s : State) : Out := runSyl (.ctxld f) (ctxldBody f) s

/-! The swaps of queue arbitration (R355, R356): the steward moves these contexts of its own accord (log entry 66). -/

/-- The lowest place in the shadow store of a core's die where an image fits. -/
def shadowPlace (s : State) (core len : Nat) : Option Nat :=
  ((List.range 8192).find? fun o => 4096 * o + len ≤ 2 ^ 25 && !s.shadow.any (imagesMeet (shadowKey core 0 + o) len)).map (4096 * ·)

/-- Whether a partition stands stopped for a swap at a yield point. -/
def yieldStopped (p : Part) : Bool := p.ps == .stopped && p.preempt == some false

/-- The context of a task that was stopped at a yield point goes to the shadow store. -/
def swapOut (core part : Nat) (s : State) : State :=
  let p := getPart s core part
  if !yieldStopped p then s
  else
    match shadowPlace s core (imageLen p) with
    | some off => saveCtx s core part off 1
    | none => s

/-- A task swapped out at a yield is placed where the choice falls on it, in the lowest free partition of the core it left, and goes on. -/
def swapIn (core key : Nat) (s : State) : State :=
  match mget s.shadow key with
  | none => s
  | some x =>
    if x.core ≠ core || !returnDue s key x || !imageGood s x core then s
    else
      match freeParts s core, fitTasks (residents s core) (getCore s core).b1 1 (ctxShape (ctxOf s x)) with
      | part :: _, some (wb :: _, tb :: _) =>
        let s := loadCtx s core part key x wb tb
        setPart s core part { getPart s core part with ps := .ready, age := 0 }
      | _, _ => s

end Sys2Proof.Machine
end

