-- ==== Sys2Proof/Machine/CatDesc.lean ====
section
/-! DEFINITION. The catalogue descriptor, its rings and its pool (R144, R145, R164), namespace keys and shelfmarks (R146,
R147), node records (R130), and the catalogue table with its probes (R148, R149). -/

namespace Sys2Proof.Machine

/-- CATCLK (R151): microseconds of the 1,500 MHz uncore since reset. -/
def catClk (s : State) : Nat := s.uclock / 1500 % 2 ^ 32

/-- A catalogue descriptor (Table 7.1). -/
structure CatDesc where
  catbase : Nat
  clog2 : Nat
  fabon : Bool
  pbase : Nat
  pcount : Nat
  pfree : Nat
  relbase : Nat
  rellen : Nat
  implen : Nat
  impbase : Nat
  nchip : Nat
  chipno : Nat
  ok : Bool
  deriving DecidableEq, Repr

def pow2in (n lo hi : Nat) : Bool := lo ≤ n && n ≤ hi && 2 ^ Nat.log2 n == n

def CatDesc.of (x : Nat) : CatDesc :=
  let c : CatDesc :=
    { catbase := nbits x 0 48, clog2 := nbits x 48 6, fabon := x.testBit 54, pbase := nbits x 64 48, pcount := nbits x 128 32
      pfree := nbits x 192 48, relbase := nbits x 256 48, rellen := nbits x 320 17, implen := nbits x 352 17
      impbase := nbits x 384 48, nchip := nbits x 448 11, chipno := nbits x 464 10, ok := true }
  { c with ok :=
      c.catbase % 64 == 0 && c.catbase < hbmTop && 10 ≤ c.clog2 && c.clog2 ≤ 28 && nbits x 55 9 == 0 &&
      c.pbase % 2048 == 0 && c.pbase < hbmTop && nbits x 112 16 == 0 && 1 ≤ c.pcount && nbits x 160 32 == 0 &&
      c.pfree % 8 == 0 && c.pfree < hbmTop && nbits x 240 16 == 0 && c.relbase % 64 == 0 && c.relbase < hbmTop &&
      nbits x 304 16 == 0 && pow2in c.rellen 16 65536 && nbits x 337 15 == 0 && (c.implen == 0 || pow2in c.implen 16 65536) &&
      nbits x 369 15 == 0 && (if c.implen = 0 then c.impbase == 0 else c.impbase % 64 == 0 && c.impbase < hbmTop) &&
      nbits x 432 16 == 0 && 1 ≤ c.nchip && c.nchip ≤ 1024 && nbits x 459 5 == 0 && c.chipno < c.nchip && nbits x 474 38 == 0 }

/-- The catalogue descriptor of a queue; none when it has none or it may not be used. -/
def catOf (s : State) (q : Nat) : State × Option CatDesc :=
  let a := peekNat s (queueAddr s q + 0x20) 6
  if a = 0 then (s, none)
  else
    let (s, x) := readRecord s a 64
    (s, x.bind fun x => if (CatDesc.of x).ok then some (CatDesc.of x) else none)

/-- The KV space and the catalogue of a queue, both of which a catalogue operation needs. -/
def spacesOf (s : State) (q : Nat) : State × Option (KvSpace × CatDesc) :=
  let (s, k) := kvSpaceOf s q
  let (s, c) := catOf s q
  (s, match k, c with
    | some k, some c => some (k, c)
    | _, _ => none)

/-! Nodes. -/

/-- A node record (Table 6.3) without its folio numbers. -/
structure NodeRec where
  sm : Nat
  parent : Nat
  nstate : Nat
  tokens : Nat
  fprint : Nat
  nsid : Nat
  deriving DecidableEq, Repr

def NodeRec.of (x : Nat) : NodeRec :=
  { sm := nbits x 0 128, parent := nbits x 128 32, nstate := nbits x 160 2, tokens := nbits x 192 48, fprint := nbits x 256 64
    nsid := nbits x 320 16 }

/-- Whether a node record keeps its reserved bits and codes (Table 6.3). -/
def nodeOk (x : Nat) : Bool := nbits x 161 31 == 0 && nbits x 240 16 == 0 && nbits x 336 176 == 0

/-- The node record with a number: none when the number names no node, or its record is malformed (R4) or fails its check values
(R419). -/
def nodeRec (s : State) (k : KvSpace) (n : Nat) : State × Option NodeRec :=
  if n = 0 || k.nodelen ≤ n then (s, none)
  else
    let (s, x) := readRecord s (k.nodeAddr n) 64
    (s, x.bind fun x => if nodeOk x then some (NodeRec.of x) else none)

/-- The folio number of a layer of a node; none when it fails its check values. -/
def folioRef (s : State) (k : KvSpace) (n layer : Nat) : State × Option Nat := readRecord s (k.refAddr n layer) 4

/-- The folio header with a number: none when the number names none, or the header is malformed (R4) or fails its check values
(R419). -/
def folRec (s : State) (k : KvSpace) (f : Nat) : State × Option FolHdr :=
  if f = 0 || k.follen ≤ f then (s, none)
  else
    let (s, x) := readRecord s (k.folAddr f) 64
    (s, x.bind fun x => if folOk x then some (FolHdr.of x) else none)

/-- The folio number of a layer of a node as memory holds it. -/
def folioNo (s : State) (k : KvSpace) (n layer : Nat) : Nat := peekNat s (k.refAddr n layer) 4

/-- A folio header as memory holds it. -/
def folHdr (s : State) (k : KvSpace) (f : Nat) : FolHdr := FolHdr.of (peekNat s (k.folAddr f) 64)

def putFolHdr (s : State) (k : KvSpace) (f : Nat) (h : FolHdr) : State := kvWrite s (k.folAddr f) h.bytes

/-- Writes the fields of a sealed node's record (R157, R165). -/
def putNode (s : State) (k : KvSpace) (n : Nat) (r : NodeRec) : State :=
  let s := kvWrite s (k.nodeAddr n) (toBytes r.sm 16 ++ toBytes r.parent 4 ++ toBytes r.nstate 4)
  kvWrite s (k.nodeAddr n + 0x20) (toBytes r.fprint 8 ++ toBytes r.nsid 2)

/-- The 64 token identifiers of a node. -/
def tokensAt (s : State) (a : Nat) : List Nat := tab 64 fun i => peekNat s (a + 4 * i) 4

/-! Names. -/

/-- The namespace key of an NSID (R146). -/
def nskeyOf (s : State) (nsid : Nat) : Option (List Byte) := if 4096 ≤ nsid then none else mget s.nskeys nsid

/-- The shelfmark of a node (R147), as a 128-bit number. -/
def shelfmarkOf (key : List Byte) (parent fprint : Nat) (tokens : List Nat) : Nat :=
  ofBytes ((blake3Keyed key (toBytes parent 16 ++ toBytes fprint 8 ++ tokens.flatMap fun t => toBytes t 4)).take 16)

/-- The home chip of a shelfmark (R162). -/
def homeChip (c : CatDesc) (sm : Nat) : Nat := nbits sm 0 10 % c.nchip

/-! Rings and pool. -/

/-- The header of a release or import ring, read with verification: PROD and CONS, where its reserved bytes are 0 (R4, R164, R419). -/
def ringHead (s : State) (a : Nat) : State × Option (Nat × Nat) :=
  let (s, x) := readRecord s a 16
  (s, x.bind fun x => if nbits x 96 32 = 0 then some (nbits x 0 32, nbits x 32 32) else none)

/-- A release record (R164). A malformed ring takes none: the item stays unreferenced. -/
def release (s : State) (c : CatDesc) (kind num : Nat) : State :=
  let (s, h) := ringHead s c.relbase
  match h with
  | none => s
  | some (prod, cons) =>
    if (prod + 2 ^ 32 - cons) % 2 ^ 32 = c.rellen then
      engineWrite s (c.relbase + 8) (toBytes (peekNat s (c.relbase + 8) 4 + 1) 4)
    else
      let s := engineWrite s (c.relbase + 16 + 16 * (prod % c.rellen)) (toBytes kind 4 ++ toBytes num 4 ++ toBytes 0 8)
      engineWrite s c.relbase (toBytes (prod + 1) 4)

/-- Bytes of a pool block (R145). -/
def KvSpace.bsz (k : KvSpace) : Nat := 2048 * ceilDiv k.fsz 2048

/-- The lowest free block of the pool. `n` blocks are left to look at. -/
def findBlock (s : State) (c : CatDesc) : Nat → Nat → Option Nat
  | 0, _ => none
  | n + 1, b => if (peek s (c.pfree + b / 8)).getLsbD (b % 8) then some b else findBlock s c n (b + 1)

def setFree (s : State) (c : CatDesc) (b : Nat) (free : Bool) : State :=
  let a := c.pfree + b / 8
  let s := touchRead s a 1
  engineWrite s a [setBit (peek s a) (b % 8) free]

/-- Takes the lowest free block: its address. -/
def takeBlock (s : State) (k : KvSpace) (c : CatDesc) : State × Option Nat :=
  match findBlock s c c.pcount 0 with
  | none => (s, none)
  | some b => (setFree s c b false, some (c.pbase + k.bsz * b))

/-- Frees the pool block at an address. -/
def freeBlock (s : State) (k : KvSpace) (c : CatDesc) (a : Nat) : State :=
  if c.pbase ≤ a && (a - c.pbase) / k.bsz < c.pcount then setFree s c ((a - c.pbase) / k.bsz) true else s

/-- Blocks of a pool that are not free (R154). -/
def stacksUsed (s : State) (c : CatDesc) : Nat :=
  ((List.range c.pcount).filter fun b => !(peek s (c.pfree + b / 8)).getLsbD (b % 8)).length

/-! The spaces of the device. -/

/-- The address of a queue's KV-space descriptor, which names the space. -/
def kvName (s : State) (q : Nat) : Nat := peekNat s (queueAddr s q + 0x18) 6

/-- The KV spaces of the device, each with its catalogue and the first queue that names it. -/
def spaces (s : State) : List (Nat × KvSpace × CatDesc) :=
  if s.qtab = 0 then []
  else
    (List.range 1024).foldl (fun l q =>
      if kvName s q = 0 || l.any fun p => kvName s p.1 == kvName s q then l
      else match (spacesOf s q).2 with
        | some x => l ++ [(q, x)]
        | none => l) []

/-- The block pools of the device (R145), each once. -/
def pools (s : State) : List CatDesc :=
  (spaces s).foldl (fun l x => if l.any fun c => c.pfree == x.2.2.pfree then l else l ++ [x.2.2]) []

/-! The catalogue table. -/

/-- A catalogue entry (Table 7.3). -/
structure CatEntry where
  sm : Nat
  node : Nat
  estate : Nat
  dstate : Nat
  nsid : Nat
  fprint : Nat
  hold : List Nat
  home : Nat
  deriving DecidableEq, Repr

def CatEntry.of (x : Nat) : CatEntry :=
  { sm := nbits x 0 128, node := nbits x 128 32, estate := nbits x 160 2, dstate := nbits x 162 2, nsid := nbits x 176 16
    fprint := nbits x 192 64, hold := tab 6 fun i => nbits x (256 + 16 * i) 16, home := nbits x 352 10 }

def CatEntry.bytes (e : CatEntry) : List Byte :=
  toBytes e.sm 16 ++ toBytes e.node 4 ++ toBytes (e.estate + 4 * e.dstate) 2 ++ toBytes e.nsid 2 ++ toBytes e.fprint 8 ++
    e.hold.flatMap (fun h => toBytes h 2) ++ toBytes e.home 4 ++ toBytes 0 16

/-- Whether a catalogue entry keeps its reserved bits and codes (Table 7.3). -/
def entryOk (x : Nat) : Bool :=
  nbits x 160 2 ≤ 2 && nbits x 162 2 ≤ 2 && nbits x 164 12 == 0 && (List.range 6).all (fun i => nbits x (266 + 16 * i) 5 == 0) &&
  nbits x 362 150 == 0

def eEmpty : Nat := 0
def eLive : Nat := 1
def eGone : Nat := 2

/-- The entries that a probe visits (R149), with their addresses: at most 32, up to and with the first EMPTY one. A record that is
malformed (R4) or fails its check values ends the probe: the second component is then false. -/
def visitEntries (c : CatDesc) (i0 : Nat) : Nat → Nat → State → State × Bool × List (Nat × CatEntry)
  | 0, _, s => (s, true, [])
  | n + 1, i, s =>
    let a := c.catbase + 64 * ((i0 + i) % 2 ^ c.clog2)
    let (s, x) := readRecord s a 64
    match x with
    | none => (s, false, [])
    | some x =>
      if !entryOk x then (s, false, []) else
      let e := CatEntry.of x
      if e.estate = eEmpty then (s, true, [(a, e)])
      else
        let (s, ok, l) := visitEntries c i0 n (i + 1) s
        (s, ok, (a, e) :: l)

def visits (s : State) (c : CatDesc) (sm : Nat) : State × Bool × List (Nat × CatEntry) :=
  visitEntries c (nbits sm 32 c.clog2) 32 0 s

/-- Whether the sealed node of an entry is the one that a probe looks for (R149). -/
def nodeMatches (s : State) (tokens : List Nat) (parent : Nat) (n : NodeRec) : Bool :=
  n.nstate == 1 && tokensAt s n.tokens == tokens && n.parent == parent

/-- The first entry of those visited that matches (R149): its node. A LIVE entry of the name whose node number is out of range, or
whose node record is malformed or fails its check values, ends the probe: none in the first place. -/
def matchEntries (k : KvSpace) (sm nsid fp : Nat) (tokens : List Nat) (parent : Nat) :
    List (Nat × CatEntry) → State → State × Option (Option Nat)
  | [], s => (s, some none)
  | e :: es, s =>
    if e.2.estate == eLive && e.2.sm == sm && e.2.nsid == nsid && e.2.fprint == fp then
      let (s, n) := nodeRec s k e.2.node
      match n with
      | none => (s, none)
      | some n => if nodeMatches s tokens parent n then (s, some (some e.2.node)) else matchEntries k sm nsid fp tokens parent es s
    else matchEntries k sm nsid fp tokens parent es s

/-- A probe (R149): the matching node; none in the first place when a record has failed. -/
def probe (s : State) (k : KvSpace) (c : CatDesc) (sm nsid fp : Nat) (tokens : List Nat) (parent : Nat) : State × Option (Option Nat) :=
  let (s, ok, l) := visits s c sm
  if !ok then (s, none) else matchEntries k sm nsid fp tokens parent l s

/-- Inserts an entry: false when the probe finds none to take (UNLISTED). -/
def insertEntry (s : State) (c : CatDesc) (e : CatEntry) : State × Bool :=
  let (s, _, l) := visits s c e.sm
  match l.find? fun x => x.2.estate = eEmpty || x.2.estate = eGone with
  | some (a, _) => (engineWrite s a e.bytes, true)
  | none => (s, false)

/-- The LIVE entry of a shelfmark in state HOME, with its address. -/
def homeEntry (s : State) (c : CatDesc) (sm : Nat) : State × Option (Nat × CatEntry) :=
  let (s, _, l) := visits s c sm
  (s, l.find? fun x => x.2.estate = eLive && x.2.sm = sm && x.2.dstate = 1)

end Sys2Proof.Machine
end

