-- ==== Sys2Proof/Machine/Chunks.lean ====
section
/-! DEFINITION. The stored forms of a chunk (R85 to R89), and the Spalyn Folio Image: its building and its checks (R158, R167 to
R169). -/

namespace Sys2Proof.Machine

/-! Stored forms. -/

def pad256 (bs : List Byte) : List Byte := bs ++ List.replicate (256 * ceilDiv bs.length 256 - bs.length) 0

/-- The value of the bits that `f` marks, bit `i` for index `i`. -/
def maskOf (n : Nat) (f : Nat → Bool) : Nat := (List.range n).foldl (fun m i => if f i then m + 2 ^ i else m) 0

/-- ZERO-WORD (R88): the presence mask and the nonzero words. -/
def zeroWordForm (bs : List Byte) : List Byte :=
  let ws := tab 512 fun i => (bs.drop (4 * i)).take 4
  toBytes (maskOf 512 fun i => ofBytes (ws.getD i []) != 0) 64 ++ (ws.filter fun w => ofBytes w != 0).flatten

/-- Plane `j` of a chunk of elements of `w` bits. -/
def planeOf (w j x : Nat) : Nat := maskOf (16384 / w) fun i => x.testBit (i * w + j)

/-- PLANE (R89): the descriptor and the stored planes. -/
def planeForm (w : Nat) (bs : List Byte) : List Byte :=
  let x := ofBytes bs
  let ps := tab w fun j => planeOf w j x
  let full := 2 ^ (16384 / w) - 1
  let d := (List.zip (List.range w) ps).foldl (fun d p => d + (if p.2 = 0 then 1 else if p.2 = full then 2 else 0) * 4 ^ p.1) 0
  toBytes d 4 ++ (ps.filter fun p => p != 0 && p != full).flatMap fun p => toBytes p (2048 / w)

/-- The stored sectors of a chunk under a header (Table 4.2). -/
def storedForm (hdr : Nat) (bs : List Byte) : List Byte :=
  if hdr.testBit 0 then bs
  else if nbits hdr 1 2 = 1 then pad256 (zeroWordForm bs)
  else pad256 (planeForm (if hdr.testBit 3 then 16 else 8) bs)

/-- Puts words back in the places that a presence mask marks, from index `i` on; `n` words are left. -/
def spreadWords (mask : Nat) : Nat → Nat → List Byte → List Byte
  | 0, _, _ => []
  | n + 1, i, bs =>
    if mask.testBit i then bs.take 4 ++ spreadWords mask n (i + 1) (bs.drop 4) else toBytes 0 4 ++ spreadWords mask n (i + 1) bs

/-- Reads the planes from plane `j` on; `n` are left. None for a plane field 11. -/
def readPlanes (w d : Nat) : Nat → Nat → List Byte → Option (List Nat)
  | 0, _, _ => some []
  | n + 1, j, bs =>
    match nbits d (2 * j) 2 with
    | 0 => (readPlanes w d n (j + 1) (bs.drop (2048 / w))).map (ofBytes (bs.take (2048 / w)) :: ·)
    | 1 => (readPlanes w d n (j + 1) bs).map (0 :: ·)
    | 2 => (readPlanes w d n (j + 1) bs).map ((2 ^ (16384 / w) - 1) :: ·)
    | _ => none

/-- The 2,048 bytes that stored sectors expand to; none where the decoder treats the chunk as failing (R89). -/
def expandForm (hdr : Nat) (bs : List Byte) : Option (List Byte) :=
  if hdr.testBit 0 then some (bs.take 2048)
  else if nbits hdr 1 2 = 1 then some (spreadWords (ofBytes (bs.take 64)) 512 0 (bs.drop 64))
  else if nbits hdr 1 2 = 2 then
    let w := if hdr.testBit 3 then 16 else 8
    let d := ofBytes (bs.take 4)
    if w = 8 && 2 ^ 16 ≤ d then none
    else
      (readPlanes w d w 0 (bs.drop 4)).map fun ps =>
        let x := (List.range (16384 / w)).foldl (fun x i =>
          x + maskOf w (fun j => (ps.getD j 0).testBit i) * 2 ^ (i * w)) 0
        toBytes x 2048
  else none

/-- The 40 bytes of a metadata record (Table 4.1), its POIS bits 0. -/
def ChunkMeta.bytes (m : ChunkMeta) : List Byte := toBytes (m.hdr.toNat % 256) 4 ++ toBytes 0 4 ++ m.cv.flatMap fun c => toBytes c.toNat 4

/-! Seal digests. -/

/-- The seal digest of a folio's data (R158). -/
def sealDigest (k : KvSpace) (data : List Byte) (surv : Nat) : Nat := ofBytes (blake3 (data.take k.fsz ++ toBytes surv 8))

/-! Images. -/

def KvSpace.nchunk (k : KvSpace) : Nat := k.bsz / 2048
/-- HDRLEN (Table 7.7). -/
def KvSpace.hdrLen (k : KvSpace) : Nat := 4096 * ceilDiv (0x64 + 48 * k.nchunk) 4096

/-- What an image says of its folio. -/
structure ImgKey where
  sm : Nat
  fprint : Nat
  layer : Nat
  rclass : Nat
  nsid : Nat
  surv : Nat
  digest : Nat
  deriving DecidableEq, Repr

/-- The header bytes of an image before its CRC. -/
def imgHead (k : KvSpace) (i : ImgKey) (cdir : List Byte) (datalen : Nat) : List Byte :=
  let h := toBytes 0x4D494653 4 ++ toBytes 1 4 ++ toBytes k.hdrLen 4 ++ toBytes k.nchunk 4 ++ toBytes i.sm 16 ++ toBytes i.fprint 8 ++
    toBytes (i.layer + (k.nkvh - 1) * 2 ^ 8 + k.hdc * 2 ^ 14 + k.kfmt * 2 ^ 16 + i.rclass * 2 ^ 20) 4 ++ toBytes i.nsid 4 ++
    toBytes i.surv 8 ++ toBytes datalen 4 ++ toBytes 0 4 ++ toBytes i.digest 32 ++ cdir
  h ++ List.replicate (k.hdrLen - 4 - h.length) 0

/-- The chunk directory and the chunk area of the chunks from `c` on; `n` are left, `ofs` sectors stand before. -/
def imgChunks (s : State) : Nat → Nat → Nat → List Byte × List Byte
  | 0, _, _ => ([], [])
  | n + 1, c, ofs =>
    let m := metaOf s c
    let st := storedForm m.hdr.toNat (bytesAt s.mem (2048 * c) 2048)
    let (dir, area) := imgChunks s n (c + 1) (ofs + st.length / 256)
    (toBytes ofs 4 ++ toBytes 0 4 ++ m.bytes ++ dir, st ++ area)

/-- The image of a folio whose data stands in HBM: its header and its chunk area (R167). -/
def buildImage (s : State) (k : KvSpace) (i : ImgKey) (dbase : Nat) : List Byte × List Byte :=
  let (dir, area) := imgChunks s k.nchunk (dbase / 2048) 0
  let h := imgHead k i dir area.length
  (h ++ toBytes (crc32c h).toNat 4, area)

/-- Stored bytes of the chunks that an image's directory lists; `n` are left. -/
def dirStored (dir : List Byte) : Nat → Nat
  | 0 => 0
  | n + 1 => 256 * (nbits (ofBytes ((dir.drop (48 * n + 8)).take 4)) 4 3 + 1) + dirStored dir n

/-- What the checks of R169 make of an image. -/
inductive ImgRes where
  | version
  | bad
  | ok (data : List Byte) (stored : Nat)
  deriving DecidableEq, Repr

/-- Reads the chunks of an image that the directory lists, verified (R169 step 4); `n` are left, from number `c` on. -/
def readChunks (dir area : List Byte) (strict : Bool) : Nat → Nat → Option (List Byte)
  | 0, _ => some []
  | n + 1, c =>
    let e := (dir.drop (48 * c)).take 48
    let hdr := ofBytes ((e.drop 8).take 4)
    let st := (area.drop (256 * ofBytes (e.take 4))).take (256 * (nbits hdr 4 3 + 1))
    let resv := strict && (ofBytes ((e.drop 4).take 4) != 0 || ofBytes ((e.drop 12).take 4) != 0 || hdr.testBit 7 || 2 ^ 8 ≤ hdr)
    match expandForm hdr st with
    | none => none
    | some bs =>
      let good := (List.range 8).all fun i =>
        (crc32c ((bs.drop (256 * i)).take 256)).toNat == ofBytes ((e.drop (16 + 4 * i)).take 4)
      if resv || !good || st.length != 256 * (nbits hdr 4 3 + 1) then none
      else (readChunks dir area strict n (c + 1)).map (bs ++ ·)

/-- The checks of R169, in their order. -/
def checkImage (k : KvSpace) (i : ImgKey) (img : List Byte) : ImgRes :=
  let f (o n : Nat) : Nat := ofBytes ((img.drop o).take n)
  let strict := f 6 2 == 0
  let hl := k.hdrLen
  let geom := f 0x28 4 % 2 ^ 20 == i.layer + (k.nkvh - 1) * 2 ^ 8 + k.hdc * 2 ^ 14 + k.kfmt * 2 ^ 16
  let reserved := 2 ^ 22 ≤ f 0x28 4 || f 0x2E 2 != 0 || f 0x3C 4 != 0 || f (0x60 + 48 * k.nchunk) (hl - 4 - 0x60 - 48 * k.nchunk) != 0
  if f 0 4 ≠ 0x4D494653 || f 4 2 ≠ 1 then .version
  else if f 8 4 ≠ hl || f (hl - 4) 4 ≠ (crc32c (img.take (hl - 4))).toNat then .bad
  else if f 0x10 16 ≠ i.sm || !geom || f 0x0C 4 ≠ k.nchunk || f 0x30 8 ≠ i.surv || f 0x40 32 ≠ i.digest || (strict && reserved) then .bad
  else
    match readChunks (img.drop 0x60) (img.drop hl) strict k.nchunk 0 with
    | none => .bad
    | some data => if sealDigest k data i.surv = i.digest then .ok data (dirStored (img.drop 0x60) k.nchunk) else .bad

end Sys2Proof.Machine
end

