-- ==== Sys2Proof/Machine/Steward.lean ====
section
/-! DEFINITION. Expansions that reach a partition (R75, R268), what the steward does to one (R378, R379, R385,
R407), its services (R405), and the activation of a firmware image (R383, R403). -/

namespace Sys2Proof.Machine

/-- SEGMENT_EXPAND (R75). -/
def expandStep (core part : Nat) (s : State) : State :=
  let p := getPart s core part
  if expandable p then setPart s core part (expandOne (getCore s core) p) else s

def execSegmentExpand (core part : Nat) (s : State) : Out := event (expandStep core part) s

/-- The table that the next bundle's BKSEL names. -/
def bucketNamed (p : Part) : Option Nat :=
  match (bundleAt p).bind fun b => if b.sOp = 0x30 then (b.sylAt 1).bind (·.ext) else none with
  | some t => bucketOff p.at_.pc t
  | none => none

/-- BUCKET_TABLE_READ (R268): the table is read before the BKSEL bundle issues. -/
def bucketStep (core part : Nat) (s : State) : State :=
  let p := getPart s core part
  match bucketNamed p with
  | some o => setPart s core part { p with bucket := some (o, bucketWords (getCore s core) o) }
  | none => s

def execBucketTableRead (core part : Nat) (s : State) : Out := event (bucketStep core part) s

/-! The steward's control of a partition. -/

/-- PREEMPT_REQUEST (R379): the stop is taken at a bundle boundary. -/
def preemptStep (core part : Nat) (s : State) : State :=
  let p := getPart s core part
  if isActive p && part < 16 then setPart s core part { p with preempt := some true } else s

/-- From 32 on, `part` names a partition stopped at a yield point, 32 more than its number, whose context leaves (R356). -/
def execPreemptRequest (core part : Nat) (s : State) : Out :=
  event (if part < 32 then preemptStep core part else swapOut core (part - 32)) s

/-- PARTITION_RESUME (R371, R380): a stopped task, or one that CTXLD has placed, goes on where it stopped. A pre-emption that came
within a bundle has not been taken by the stop, and stays pending (R377). -/
def resumeStep (core part : Nat) (s : State) : State :=
  let p := getPart s core part
  if p.ps == .stopped || (p.ps == .placed && p.entered != 0) then
    setPart s core part { p with ps := .ready, age := 0, preempt := if p.at_.slot = 0 then none else p.preempt }
  else s

/-- From 32 on, `part` names a task in the shadow store, 32 more than its key, that the command processor places (R355). -/
def execPartitionResume (core part : Nat) (s : State) : Out :=
  event (if part < 32 then resumeStep core part else swapIn core (part - 32)) s

/-- SINGLE_STEP_SET (R385). -/
def execSingleStepSet (core part : Nat) (on : Bool) (s : State) : Out :=
  event (fun s => if part < 16 then setPart s core part { getPart s core part with single := on } else s) s

/-- The cause of a kill that the steward commands, as its report carries it (R378, R386): the spec gives it no number, so it is a free
value (log entry 134). -/
def killCause (s : State) : Nat := Config.freeNat s.epoch 816 % 256

/-- A kill of a swapped-out task: its context is gone (R378). -/
def killAway (s : State) (core key : Nat) (x : SavedCtx) : State :=
  let s := killReports s x.ctx { code := 0x0C, loc := partKey core x.part, detail := [killCause s] }
  countEnd (keepOps { s with shadow := mdel s.shadow key } core x.ctx) x.ctx.gang

/-- TASK_KILL (R378), of the task in a partition, or of one that is swapped out. -/
def killStep (core no : Nat) (s : State) : State :=
  if no < 16 then
    let ps := (getPart s core no).ps
    if ps != .free && ps != .ending then killTask s core no [killCause s] else s
  else
    match mget s.shadow (no - 32) with
    | some x => if 32 ≤ no && x.core = core then killAway s core (no - 32) x else s
    | none => s

def execTaskKill (core part : Nat) (s : State) : Out := event (killStep core part) s

/-- DEBUG_HOLD (R407), a service of the mailbox, which in recovery takes nothing but a record (R401): single-step is set, and BREAKPOINT
goes to the debugger, which then reads and writes the context through its image. -/
def execDebugHold (core : Nat) (req : DebugReq) (s : State) : Out := event (debugStep core req) s

/-- An event record of the firmware: the spec gives the range of its codes, 0x80 to 0xFF, and not the code (R406). -/
def fwEvent (s : State) (what loc : Nat) (detail : List Nat) : State :=
  addEvent s { code := 0x80 + Config.freeNat 0 (700 + what) % 128, loc := loc, detail := detail }

/-! Services (Table 16.7). -/

/-- A service answers a waiting SVC, its task swapped out or not: as an acquire at DEV. -/
def answerSvc (core part seq : Nat) (f : State → Nat → W64 → State × Option W64) (s : State) : State :=
  match findPend s core part seq with
  | some e =>
    match e.st with
    | .wait (.answer n arg) =>
      match f s n.toNat arg with
      | (s, some x) => dropCache (atPlace s core part fun i s => answerPend s core i seq x) core
      | (s, none) => s
    | _ => s
  | none => s

/-- The firmware image that serves a queue: none for the image of reset, whose version the spec does not give. -/
def fwOf (s : State) (q : Nat) : Option FwImage := if (queueSt s q).fw = 0 then none else s.fws[(queueSt s q).fw - 1]?

/-- FWVER: the version of the image active for the queue. -/
def fwver (s : State) (q : Nat) : W64 :=
  match fwOf s q with
  | some f => BitVec.ofNat 64 (f.major % 65536 + f.minor % 65536 * 65536)
  | none => (Config.freeBits 0 820 32).setWidth 64

/-- DIRHOME: the home chip in the queue's catalogue; not stated for a queue without one. -/
def dirhome (s : State) (q : Nat) (arg : W64) : State × W64 :=
  let (s, c) := catOf s q
  match c with
  | some c => (s, BitVec.ofNat 64 (homeChip c arg.toNat))
  | none => (s, Config.freeBits s.epoch 821 64)

/-- The steward's answer to a service number (R280, R405). -/
def service (q loc : Nat) (s : State) (n : Nat) (arg : W64) : State × W64 :=
  match n with
  | 0 => (s, fwver s q)
  | 1 => (s, BitVec.ofNat 64 (catClk s))
  | 2 => dirhome s q arg
  | 3 => (addEvent s { code := 0x80, loc := loc, detail := [arg.toNat] }, 0)
  | _ => (s, BitVec.allOnes 64)

/-- One service, answered only where the request is for it. -/
def svcStep (ok : Nat → Bool) (core part seq : Nat) (s : State) : State :=
  let q := (placePart s core part).queue
  answerSvc core part seq (fun s n arg =>
    if ok n then ((service q (partKey core part) s n arg).1, some (service q (partKey core part) s n arg).2) else (s, none)) s

def execSvcFwver (core part seq : Nat) (s : State) : Out := event (svcStep (· == 0) core part seq) s
def execSvcCatclk (core part seq : Nat) (s : State) : Out := event (svcStep (· == 1) core part seq) s
def execSvcDirhome (core part seq : Nat) (s : State) : Out := event (svcStep (· == 2) core part seq) s
def execSvcEvent (core part seq : Nat) (s : State) : Out := event (svcStep (· == 3) core part seq) s
def execSvcUnknown (core part seq : Nat) (s : State) : Out := event (svcStep (4 ≤ ·) core part seq) s

/-- SVC_ANSWER (R280): the steward's answer comes; only the one that the service gives is an answer. -/
def svcAnswerStep (core part seq : Nat) (x : W64) (s : State) : State :=
  let q := (placePart s core part).queue
  answerSvc core part seq (fun s n arg =>
    if (service q (partKey core part) s n arg).2 = x then ((service q (partKey core part) s n arg).1, some x) else (s, none)) s

def execSvcAnswer (core part seq : Nat) (answer : W64) (s : State) : Out := event (svcAnswerStep core part seq answer) s

/-! Firmware. -/

/-- Whether an image lists every layout of a queue's swapped-out tasks. -/
def layoutsListed (s : State) (q : Nat) (f : FwImage) : Bool :=
  s.shadow.all fun e => e.2.ctx.queue != q || f.layouts.contains e.2.lver

/-- FIRMWARE_ACTIVATION (R383): the newest staged image becomes active for a queue; at most two are active at once. -/
def activateStep (q : Nat) (s : State) : State :=
  match s.fws.getLast? with
  | none => s
  | some f =>
    let n := s.fws.length
    let others := (s.queues.filter fun e => e.1 != q).map fun e => e.2.fw
    if layoutsListed s q f && ((n :: others).eraseDups).length ≤ 2 then setQueue s q { queueSt s q with fw := n } else s

def execFirmwareActivation (q : Nat) (s : State) : Out := event (activateStep q) s

end Sys2Proof.Machine
end

