-- ==== Sys2Proof/Machine/Link.lean ====
section
/-! DEFINITION. Itkoril: its messages, its connections and their loss (R396 to R399). What a message carries beyond Tables 16.3 and
16.4 is the model's own layout (log entry 30). -/

namespace Sys2Proof.Machine

/-- A message (Table 16.3). -/
structure Itk where
  vmaj : Nat
  vmin : Nat
  type : Nat
  cls : Nat
  src : Nat
  dst : Nat
  seq : Nat
  ack : Nat
  qg : Nat
  opnd : Nat
  payload : List Byte
  deriving DecidableEq, Repr

/-- The message that bytes hold, of any version: none where the header breaks its table. -/
def Itk.parse (bs : List Byte) : Option Itk :=
  let h := ofBytes (bs.take 32)
  let m : Itk :=
    { vmaj := nbits h 0 8, vmin := nbits h 8 8, type := nbits h 16 8, cls := nbits h 24 2, src := nbits h 32 10, dst := nbits h 48 10
      seq := nbits h 64 32, ack := nbits h 96 32, qg := nbits h 160 32, opnd := nbits h 192 64, payload := bs.drop 32 }
  let rsv := nbits h 26 6 != 0 || nbits h 42 6 != 0 || nbits h 58 6 != 0 || nbits h 144 16 != 0
  if 32 ≤ bs.length && bs.length ≤ 9216 && !(m.vmaj == 1 && m.vmin == 0 && rsv) && m.payload.length == nbits h 128 16 then some m
  else none

/-- A message of the version that this part accepts: major 1 (Table 16.5). -/
def Itk.of (bs : List Byte) : Option Itk := (Itk.parse bs).filter fun m => m.vmaj == 1

/-- The bytes of a frame that leaves (Table 16.3): version 1.0. -/
def Wire.bytes (w : Wire) : List Byte :=
  let f := w.frame
  toBytes (1 + f.type * 2 ^ 16 + f.cls * 2 ^ 24) 4 ++ toBytes (w.src + f.dst * 2 ^ 16) 4 ++ toBytes f.seq 4 ++ toBytes w.ack 4 ++
    toBytes f.payload.length 4 ++ toBytes f.qg 4 ++ toBytes f.opnd 8 ++ f.payload

/-! Sectors. -/

/-- Data as sectors of 256 bytes, each with its check value; `n` bounds them. -/
def sectorsOf : Nat → List Byte → List Byte
  | 0, _ => []
  | n + 1, bs =>
    if bs.isEmpty then []
    else
      let sec := pad256 (bs.take 256)
      sec ++ toBytes (crc32c sec).toNat 4 ++ sectorsOf n (bs.drop 256)

/-- The data of sectors; none where a check value fails, or where they are no sectors. -/
def ofSectors : Nat → List Byte → Option (List Byte)
  | 0, bs => if bs.isEmpty then some [] else none
  | n + 1, bs =>
    if bs.isEmpty then some []
    else
      let sec := bs.take 256
      if bs.length < 260 || ofBytes ((bs.drop 256).take 4) ≠ (crc32c sec).toNat then none
      else (ofSectors n (bs.drop 260)).map (sec ++ ·)

/-- A payload of data: the count of its bytes, and its sectors, at most 16. -/
def dataPayload (bs : List Byte) : List Byte := toBytes bs.length 4 ++ sectorsOf 16 bs
def payloadData (p : List Byte) : Option (List Byte) := (ofSectors 16 (p.drop 4)).map fun d => d.take (ofBytes (p.take 4))

/-- The types whose payload is data. -/
def carriesData (type : Nat) : Bool := type == 0x14 || type == 0x21 || type == 0x22 || type == 0x31

/-! Connections. -/

def connKey (chip cls : Nat) : Nat := chip * 4 + cls

def Conn.fresh (now : Nat) : Conn :=
  { up := false, lost := false, vmin := 0, next := 0, expect := 0, sent := [], later := [], told := false, heard := now, sentAt := now }

def helloFrame (chip cls : Nat) : Frame :=
  { type := 1, cls := cls, dst := chip, seq := 0, qg := 0, opnd := 0, payload := toBytes 1 1 ++ toBytes 1 1 ++ toBytes 0 1 }

/-- Whether a port of a role carries a class (R396): 0 FOLIO, 1 COLLECTIVE, 2 MIXED. -/
def portCarries (role cls : Nat) : Bool :=
  match role with
  | 0 => cls != 2
  | 1 => cls == 2
  | _ => true

/-- The role that the module record gives a port (Table 16.6). -/
def portRole (s : State) (n : Nat) : Nat := nbits s.limits.portRole (2 * n) 2

/-- The ports that carry a class, of the eight (R396). -/
def portsOf (s : State) (cls : Nat) : List Nat := (List.range 8).filter fun n => portCarries (portRole s n) cls

/-- Whether one of them carries it. -/
def carried (s : State) (cls : Nat) : Bool := !(portsOf s cls).isEmpty

/-- The number of this chip (R144), which its catalogues name; without one a free value. -/
def chipOf (s : State) : Nat :=
  match spaces s with
  | x :: _ => x.2.2.chipno
  | [] => Config.freeNat 0 837 % 1024

/-- A frame as it leaves: from a port that carries its class, of several a free choice; to the UDP port of the module record; with the
number expected on its connection; class 2 on a MIXED port on its own priority and queue (R396, R397). -/
def onWire (s : State) (f : Frame) : Wire :=
  let ps := portsOf s f.cls
  let n := ps.getD (Config.freeNat s.epoch (838 + f.seq) % ps.length) 0
  { frame := f, src := chipOf s, ack := ((mget s.conns (connKey f.dst f.cls)).map (·.expect)).getD 0, port := n, udp := s.limits.itkPort
    own := f.cls == 2 && portRole s n == 2 }

/-- Frames leave on the ports that carry their class; without one they do not leave (log entry 125). -/
def emit (s : State) (cls : Nat) (fs : List Frame) : State :=
  if carried s cls then { s with outbox := s.outbox ++ fs.map (onWire s) } else s

/-- Sends what the window of 256 frames lets out. -/
def pump (s : State) (key : Nat) (c : Conn) : State :=
  let n := if c.up then min c.later.length (256 - c.sent.length) else 0
  let out := (List.zip (List.range n) (c.later.take n)).map fun x => { x.2 with seq := (c.next + x.1) % 2 ^ 32 }
  let c' := { c with next := (c.next + n) % 2 ^ 32, sent := c.sent ++ out, later := c.later.drop n
                     sentAt := if c.sent.isEmpty then s.uclock else c.sentAt }
  emit { s with conns := mput s.conns key c' } (key % 4) out

/-- Begins a connection: HELLO is its first frame. -/
def openConn (s : State) (chip cls : Nat) : State :=
  let h := helloFrame chip cls
  emit { s with conns := mput s.conns (connKey chip cls) { Conn.fresh s.uclock with next := 1, sent := [h] } } cls [h]

/-- Sends a message: a lost peer is unreachable, and nothing goes to it. -/
def sendMsg (s : State) (chip cls type qg opnd : Nat) (payload : List Byte) : State :=
  let key := connKey chip cls
  let s := if (mget s.conns key).isNone then openConn s chip cls else s
  match mget s.conns key with
  | some c =>
    if c.lost then s
    else pump s key { c with
      later := c.later ++ [{ type := type, cls := cls, dst := chip, seq := 0, qg := qg, opnd := opnd, payload := payload }] }
  | none => s

/-- Whether a chip is known to be unreachable in a class. -/
def unreachable (s : State) (chip cls : Nat) : Bool := (mget s.conns (connKey chip cls)).any (·.lost)

/-- An acknowledgement: it takes no number of its own, and stands at the one to be sent next. -/
def ackFrame (s : State) (chip cls : Nat) : Frame :=
  { type := 2, cls := cls, dst := chip, seq := ((mget s.conns (connKey chip cls)).map (·.next)).getD 0, qg := 0, opnd := 0, payload := [] }

def sendAck (s : State) (chip cls : Nat) : State := emit s cls [ackFrame s chip cls]

/-- ACK acknowledges every frame before it. -/
def takeAck (c : Conn) (ack now : Nat) : Conn :=
  let left := c.sent.filter fun f => 2 ^ 31 ≤ (f.seq + 2 ^ 32 - ack + 2 ^ 31) % 2 ^ 32
  if left.length < c.sent.length then { c with sent := left, sentAt := now } else c

/-- A frame arrives on an open connection, on a port that carries its class: its acknowledgement counts; in its turn, and with sectors that verify, it is
delivered to `act`, and it is acknowledged. -/
def receive (type chip : Nat) (bs : List Byte) (act : Itk → State → State) (s : State) : State :=
  match Itk.of bs with
  | none => s
  | some m =>
    let key := connKey chip m.cls
    if m.type ≠ type || m.src ≠ chip || !carried s m.cls then s
    else
      match mget s.conns key with
      | none => s
      | some c =>
        if c.lost || !c.up then s
        else
          let c := { takeAck c m.ack s.uclock with heard := s.uclock }
          let s := pump s key c
          if type = 2 then s
          else if m.seq ≠ c.expect then sendAck s chip m.cls
          else if carriesData type && (payloadData m.payload).isNone then s
          else
            let e := (c.expect + 1) % 2 ^ 32
            let s := match mget s.conns key with
              | some c => { s with conns := mput s.conns key { c with expect := e } }
              | none => s
            act m (sendAck s chip m.cls)

/-- A connection is refused, or a peer is silent: it is unreachable. -/
def loseConn (s : State) (key : Nat) : State :=
  let c := (mget s.conns key).getD (Conn.fresh s.uclock)
  { s with conns := mput s.conns key { c with up := false, lost := true, sent := [], later := [] } }

/-- A peer is unreachable: in every class. -/
def losePeer (s : State) (chip : Nat) : State := (tab 4 (connKey chip)).foldl loseConn s

/-- ITK_HELLO (R399): the highest common major version, and the lower minor of it. Each payload holds the range of majors and the
minor of each; the header may be of any version. -/
def helloStep (chip : Nat) (bs : List Byte) (s : State) : State :=
  match Itk.parse bs with
  | none => s
  | some m =>
    if m.type ≠ 1 || m.src ≠ chip || !carried s m.cls then s
    else
      let key := connKey chip m.cls
      let lo := ofBytes (m.payload.take 1)
      let hi := ofBytes ((m.payload.drop 1).take 1)
      if 1 < lo || hi < 1 then fwEvent (losePeer s chip) 1 chip [lo, hi]
      else
        let minor := ofBytes ((m.payload.drop (3 - lo)).take 1)
        let s := if (mget s.conns key).any fun c => !c.lost then s else openConn s chip m.cls
        match mget s.conns key with
        | none => s
        | some c =>
          -- a HELLO that is sent again opens nothing
          if c.up then sendAck s chip m.cls
          else
            let c := { takeAck c m.ack s.uclock with up := true, vmin := min 0 minor, expect := (m.seq + 1) % 2 ^ 32, heard := s.uclock }
            sendAck (pump s key c) chip m.cls

def execItkHello (chip : Nat) (msg : List Byte) (s : State) : Out := event (helloStep chip msg) s

/-- ITK_ACK (R398). -/
def execItkAck (chip : Nat) (msg : List Byte) (s : State) : Out := event (receive 2 chip msg fun _ s => s) s

/-- The types of Table 16.4. -/
def knownTypes : List Nat := [0x01, 0x02, 0x10, 0x11, 0x12, 0x13, 0x14, 0x15, 0x16, 0x20, 0x21, 0x22, 0x23, 0x30, 0x31]

/-- A frame of another type is reported once for its connection. -/
def unknownStep (m : Itk) (s : State) : State :=
  match mget s.conns (connKey m.src m.cls) with
  | some c =>
    if c.told then s
    else fwEvent { s with conns := mput s.conns (connKey m.src m.cls) { c with told := true } } 2 m.src [m.type]
  | none => s

/-- ITK_UNKNOWN_TYPE (R397). -/
def execItkUnknownType (chip : Nat) (msg : List Byte) (s : State) : Out :=
  event (fun s => match Itk.of msg with
    | some m => if knownTypes.contains m.type then s else receive m.type chip msg unknownStep s
    | none => s) s

/-- The other chips of the fabric, as the catalogues with FABON name them (R144): the scale-out ports open connections with them (R409,
log entry 30). -/
def fabricChips (s : State) : List Nat :=
  ((spaces s).flatMap fun x => if x.2.2.fabon then (List.range x.2.2.nchip).filter (· != x.2.2.chipno) else []).eraseDups

/-- Whether a connection with a chip of the fabric is still to be opened. -/
def unopened (s : State) (chip : Nat) : Bool :=
  (List.range 4).any fun cls => carried s cls && (mget s.conns (connKey chip cls)).isNone

/-- ITK_RETRANSMIT_TIMEOUT (R398): the frames of the chip's connections whose oldest has stood unacknowledged for 64 µs are sent
again, all of them, in order. The first frame of all is the HELLO with which the ports open a connection (R409). -/
def resendStep (chip : Nat) (s : State) : State :=
  (List.range 4).foldl (fun s cls =>
    match mget s.conns (connKey chip cls) with
    | some c =>
      if c.sent.isEmpty || s.uclock < c.sentAt + 64 * 1500 then s
      else emit { s with conns := mput s.conns (connKey chip cls) { c with sentAt := s.uclock } } cls c.sent
    | none => if carried s cls && (fabricChips s).contains chip then openConn s chip cls else s) s

def execItkRetransmitTimeout (chip : Nat) (_msg : List Byte) (s : State) : Out := event (resendStep chip) s

end Sys2Proof.Machine
end

