-- ==== Sys2Proof/Machine/Catalogue.lean ====
section
/-! DEFINITION. The catalogue instructions (R170 to R176), loans (R151), the directory's registrations (R162), and the results that the
engines bring (R18, R138, R170). -/

namespace Sys2Proof.Machine

def catInvalid : Nat := 0x18
def catNskey : Nat := 0x19

/-- TADDR of a KV fault of a catalogue instruction: the sequence as R135 places it; the fields that the operation has not are not
stated. -/
def catKvTaddr (s : State) (h : Nat) : W64 :=
  BitVec.ofNat 64 (h % 2 ^ 20 * 2 ^ 44 + (Config.freeBits s.epoch 830 44).toNat)

/-- The fault of a catalogue instruction, `a` the value of sA (Table 15.2). -/
def catFault (i : Instr) (f : CQ) (code h : Nat) (a : W64) (s : State) : State :=
  faultResult i (lat7 f.lat) code (if code < 0x18 then catKvTaddr s h else a) 0 0 s

/-! Checked reads. -/

/-- The sequence record of a handle, read by the catalogue engine (R134, R419). -/
def catSeq (s : State) (k : KvSpace) (h : Nat) : State × Except Nat SeqRec :=
  if h = 0 || k.seqlen ≤ h then (s, .error kvInvalid)
  else
    let (s, x) := readRecord s (k.seqAddr h) 64
    (s, match x with
      | none => .error catInvalid
      | some x => if (SeqRec.of x).v && (SeqRec.of x).ok k then .ok (SeqRec.of x) else .error kvInvalid)

/-- Why the KV space of a queue may not be used: its descriptor fails its check values (R419), or it is malformed or not there. -/
def kvFail (s : State) (q : Nat) : Nat :=
  let a := peekNat s (queueAddr s q + 0x18) 6
  if a ≠ 0 && a + 64 ≤ hbmTop && poisonedAt s a 64 then catInvalid else kvInvalid

/-- What every catalogue operation on a sequence needs. -/
structure CatAt where
  k : KvSpace
  c : CatDesc
  sr : SeqRec
  deriving DecidableEq, Repr

/-- The checks of R134 on a sequence, and of the catalogue descriptor (R144). -/
def catPre (s : State) (q h : Nat) : State × Except Nat CatAt :=
  let (s, k) := kvSpaceOf s q
  match k with
  | none => (s, .error (kvFail s q))
  | some k =>
    let (s, r) := catSeq s k h
    match r with
    | .error e => (s, .error e)
    | .ok sr =>
      let (s, c) := catOf s q
      (s, match c with
        | none => .error catInvalid
        | some c => .ok { k := k, c := c, sr := sr })

/-- The node with a number, read with verification. -/
def catNode (s : State) (k : KvSpace) (n : Nat) : State × Except Nat NodeRec :=
  let (s, r) := nodeRec s k n
  (s, match r with
    | some r => .ok r
    | none => .error catInvalid)

/-- The folio of each layer of a node, with its header: none where the node names no folio. -/
def layersFrom (s : State) (k : KvSpace) (n : Nat) : Nat → Nat → State × Except Nat (List (Option (Nat × FolHdr)))
  | 0, _ => (s, .ok [])
  | m + 1, l =>
    let (s, f) := readRecord s (k.refAddr n l) 4
    match f with
    | none => (s, .error catInvalid)
    | some 0 =>
      let (s, r) := layersFrom s k n m (l + 1)
      (s, r.map (none :: ·))
    | some f =>
      if k.follen ≤ f then (s, .error kvInvalid)
      else
        let (s, x) := readRecord s (k.folAddr f) 64
        match x with
        | none => (s, .error catInvalid)
        | some x =>
          if !folOk x then (s, .error kvInvalid) else
          let (s, r) := layersFrom s k n m (l + 1)
          (s, r.map (some (f, FolHdr.of x) :: ·))

def layersOf (s : State) (k : KvSpace) (n : Nat) : State × Except Nat (List (Option (Nat × FolHdr))) := layersFrom s k n k.nlayer 0

/-- The node of path entry `i`; a malformed entry is not acted on (R4, R129). -/
def pathNode (s : State) (sr : SeqRec) (i : Nat) : State × Except Nat Nat :=
  let (s, x) := readRecord s (sr.path + 8 * i) 8
  (s, match x with
    | none => .error catInvalid
    | some x => if 2 ^ 33 ≤ x then .error kvInvalid else .ok (x % 2 ^ 32))

/-- The last path node of a sequence; 0 for none. -/
def lastNode (s : State) (sr : SeqRec) : State × Except Nat Nat := if sr.npath = 0 then (s, .ok 0) else pathNode s sr (sr.npath - 1)

/-! Operations under way. -/

/-- Whether the engines hold 256 operations by record. -/
def catFull (s : State) : Bool := 256 ≤ (s.catOps.filter fun e => e.2.kind < 3).length

/-- Whether a SEAL of a sequence is in progress, or an UNLOAN that was taken before the operation `id` (R172, R174). -/
def sealing (s : State) (q h id : Nat) : Bool :=
  s.catOps.any (fun e => e.2.kind == 0 && e.2.seqH == h && kvName s e.2.queue == kvName s q) ||
    s.kvs.any fun e => e.1 < id && e.2.op == 0x0C && e.2.seqH == h && kvName s e.2.queue == kvName s q

/-- Enters an accepted operation. -/
def enterCat (s : State) (x : CatOp) : State := { s with catOps := mput s.catOps s.nextId x, nextId := s.nextId + 1 }

def newCatOp (s : State) (kind ring seqH : Nat) (args : List Nat) (key : List Byte) : CatOp :=
  { kind := kind, queue := (cur s).queue, ring := ring, seqH := seqH, args := args, key := key, step := 0, parent := 0, bytes := 0
    status := 0, fault := none, awaited := none, block := none }

/-- TAG of a record of an operation that has none in its operand is not stated. -/
def noTag (s : State) : Nat := (Config.freeBits s.epoch 850 16).toNat

/-! Loans (R151). -/

def loanMark : Nat := 0xFFFFFFFF
def loanTop : Nat := 0xFFFFFFFE

/-- Takes a loan on a folio as its header stands: its outcome where the swap fails. -/
def takeLoan (s : State) (k : KvSpace) (f : Nat) : State × Option Nat :=
  let h := folHdr s k f
  if h.loans = loanTop then (s, some 0x0B)
  else if h.loans = loanMark || (h.fstate ≠ fSealed && h.fstate ≠ fAbsent) then (s, some 0x05)
  else (putFolHdr s k f { h with loans := h.loans + 1 }, none)

/-- Releases a loan. -/
def dropLoan (s : State) (k : KvSpace) (f : Nat) : State :=
  let h := folHdr s k f
  if h.loans = 0 || h.loans = loanMark then addEvent s { code := 0x09, loc := k.folAddr f / 256, detail := [] }
  else putFolHdr s k f { h with loans := h.loans - 1, lastrel := catClk s }

/-- Layers whose folio is not in the stacks or the reading room. -/
def lowLayers (ls : List (Option (Nat × FolHdr))) : Nat :=
  (ls.filter fun l => match l with
    | some (_, h) => h.fstate = fAbsent || 2 ≤ h.tier
    | none => true).length

/-! Registrations (R162). -/

/-- The first invalid holder field takes the chip, unless it is listed already. -/
def listHolder (hold : List Nat) (chip : Nat) : List Nat :=
  if hold.any fun h => h.testBit 15 && h % 1024 == chip then hold
  else
    match (List.range 6).find? fun i => !(hold.getD i 0).testBit 15 with
    | some i => hold.set i (chip % 1024 + 2 ^ 15)
    | none => hold

/-- Changes the holders in the HOME entry of a shelfmark. -/
def setHolders (s : State) (c : CatDesc) (sm : Nat) (f : List Nat → List Nat) : State :=
  let (s, e) := homeEntry s c sm
  match e with
  | some (a, e) => engineWrite s a ({ e with hold := f e.hold } : CatEntry).bytes
  | none => s

/-- The payload of a directory message: the shelfmark's high half. -/
def smHigh (sm : Nat) : List Byte := toBytes (sm / 2 ^ 64) 8

/-- Registers this chip as a holder with the home. -/
def registerHolder (s : State) (q : Nat) (c : CatDesc) (sm : Nat) : State :=
  if !c.fabon then s
  else if homeChip c sm = c.chipno then setHolders s c sm (listHolder · c.chipno)
  else sendMsg s (homeChip c sm) 0 0x10 q (sm % 2 ^ 64) (smHigh sm)

/-- DSTATE of a new entry (R161). -/
def dstateOf (c : CatDesc) (sm : Nat) : Nat := if !c.fabon then 0 else if homeChip c sm = c.chipno then 1 else 2

/-! LOAN (R173). -/

/-- Takes a loan on every layer from `l` on: the first layer that fails, with its outcome. -/
def loanLayers (s : State) (k : KvSpace) : List (Option (Nat × FolHdr)) → Nat → State × Option (Nat × Nat)
  | [], _ => (s, none)
  | x :: xs, l =>
    match x with
    | none => (s, some (l, 0x05))
    | some (f, _) =>
      let (s, e) := takeLoan s k f
      match e with
      | some st => (s, some (l, st))
      | none => loanLayers s k xs (l + 1)

/-- Whether a LIVE entry that a probe visits names a node for a sequence. -/
def namesNode (s : State) (c : CatDesc) (sm n : Nat) (sr : SeqRec) : State × Except Nat Bool :=
  let (s, ok, l) := visits s c sm
  if !ok then (s, .error catInvalid)
  else (s, .ok (l.any fun e => e.2.estate == eLive && e.2.sm == sm && e.2.node == n && e.2.nsid == sr.nsid && e.2.fprint == sr.fprint))

/-- LOAN of a sealed node with the shelfmark given, from the check of its parent on. -/
def loanOnto (s : State) (x : CatAt) (h n sm parent : Nat) : State × Except Nat Nat :=
  let (s, pn) := lastNode s x.sr
  match pn with
  | .error e => (s, .error e)
  | .ok pn =>
    if parent ≠ pn then (s, .ok 0x06)
    else
      let (s, named) := namesNode s x.c sm n x.sr
      match named with
      | .error e => (s, .error e)
      | .ok false => (s, .ok 0x0A)
      | .ok true =>
        let (s, ls) := layersOf s x.k n
        match ls with
        | .error e => (s, .error e)
        | .ok ls =>
          let (t, bad) := loanLayers s x.k ls 0
          match bad with
          | some (l, st) => (s, .ok (st + l * 2 ^ 8))
          | none =>
            let t := kvWrite t (x.sr.path + 8 * x.sr.npath) (toBytes (n + 2 ^ 32) 8)
            let t := kvWrite t (x.k.seqAddr h + 8) (toBytes (64 * (x.sr.npath + 1)) 4 ++ toBytes (x.sr.npath + 1) 4)
            (t, .ok (lowLayers ls * 2 ^ 16))

/-- The result word of LOAN, or its fault. -/
def loanStep (s : State) (q h n sm : Nat) : State × Except Nat Nat :=
  let (s, r) := catPre s q h
  match r with
  | .error e => (s, .error e)
  | .ok x =>
    if n = 0 || x.k.nodelen ≤ n then (s, .error catInvalid)
    else if x.sr.len ≠ 64 * x.sr.npath then (s, .ok 0x07)
    else
      let (s, nr) := catNode s x.k n
      match nr with
      | .error e => (s, .error e)
      | .ok nr =>
        if nr.nstate ≠ 1 then (s, .ok 0x08)
        else if nr.sm ≠ sm then (s, .ok 0x09)
        else loanOnto s x h n sm nr.parent

/-- The end of an operation of the catalogue engine that completes at its deadline: its result word, or its fault. -/
def catDone (s : State) (x : KvOp) (id : Nat) (r : Except Nat Nat) : State :=
  match r with
  | .error e => opFail s x id e (if e < 0x18 then catKvTaddr s x.seqH else x.opd.getD 0 0)
  | .ok v => opDone (dropCache s x.core) x id (BitVec.ofNat 64 v) []

/-- The catalogue engine carries out a LOAN. -/
def loanRun (s : State) (x : KvOp) (id : Nat) : State :=
  let (s, r) := loanStep s x.queue x.seqH (x.word 1 % 2 ^ 32) (x.word 2 + x.word 3 * 2 ^ 64)
  catDone s x id r

/-- LOAN (R173): the request goes to the catalogue engine. -/
def loanBody (f : CQ) (s : State) : Except TrapReq State :=
  match useS s f.a, useS s (f.a + 1), useS s (f.a + 2), useS s (f.a + 3) with
  | .error e, _, _, _ => .error e
  | _, .error e, _, _ => .error e
  | _, _, .error e, _ => .error e
  | _, _, _, .error e => .error e
  | .ok a, .ok b, .ok lo, .ok hi => .ok (submitOp (.loan f) f [a, b, lo, hi] 0 [] s)

def execLoan (f : CQ) (s : State) : Out := runSyl (.loan f) (loanBody f) s

/-! UNLOAN (R174). -/

/-- Path entries with their nodes' folios, from `i` down; `n` are left. -/
def pathLayers (s : State) (x : CatAt) : Nat → Nat → State × Except Nat (List (Nat × List (Option (Nat × FolHdr))))
  | 0, _ => (s, .ok [])
  | m + 1, i =>
    let (s, n) := pathNode s x.sr i
    match n with
    | .error e => (s, .error e)
    | .ok n =>
      if n = 0 || x.k.nodelen ≤ n then (s, .error catInvalid)
      else
        let (s, nr) := catNode s x.k n
        match nr with
        | .error e => (s, .error e)
        | .ok _ =>
          let (s, ls) := layersOf s x.k n
          match ls with
          | .error e => (s, .error e)
          | .ok ls =>
            let (s, r) := pathLayers s x m (i - 1)
            (s, r.map ((i, ls) :: ·))

/-- Gives back an entry's loans, and writes the entry as 0. -/
def giveBack (x : CatAt) (s : State) (e : Nat × List (Option (Nat × FolHdr))) : State :=
  let s := e.2.foldl (fun s l => match l with
    | some (f, _) => dropLoan s x.k f
    | none => s) s
  kvWrite s (x.sr.path + 8 * e.1) (toBytes 0 8)

/-- The tail is empty again; under mode retire it is released with its folios. -/
def clearTail (x : CatAt) (retire : Bool) (s : State) (ls : List (Option (Nat × FolHdr))) : State :=
  ls.foldl (fun s l => match l with
    | some (f, _) =>
      let h := folHdr s x.k f
      let s := putFolHdr s x.k f { h with surv := 0, appnxt := 0 }
      if retire then release (freeBlock s x.k x.c h.dbase) x.c 2 f else s
    | none => s) s

/-- The result word of UNLOAN, or its fault. Every record that it goes through is checked before any state changes (R4, R170). -/
def unloanStep (s : State) (q h kk : Nat) (retire : Bool) (id : Nat) : State × Except Nat Nat :=
  let (s, r) := catPre s q h
  match r with
  | .error e => (s, .error e)
  | .ok x =>
    if catFull s || sealing s q h id then (s, .ok 0x01)
    else if x.sr.npath < kk || (retire && kk ≠ 0) then (s, .ok 0x1B)
    else
      let n := x.sr.npath - kk
      let (s, es) := pathLayers s x n (x.sr.npath - 1)
      let (s, nr) := catNode s x.k x.sr.tail
      let (s, tl) := layersOf s x.k x.sr.tail
      match es, nr, tl with
      | .error e, _, _ => (s, .error e)
      | _, .error e, _ => (s, .error e)
      | _, _, .error e => (s, .error e)
      | .ok es, .ok _, .ok tl =>
        let s := es.foldl (giveBack x) s
        let s := kvWrite s (x.k.seqAddr h + 8) (toBytes (64 * kk) 4 ++ toBytes kk 4)
        let s := if retire then
            let a := x.k.seqAddr h + 0x1C
            kvWrite s a [BitVec.ofNat 8 ((peekNat s a 1) / 2 * 2)]
          else s
        let s := clearTail x retire s tl
        let s := if retire then release s x.c 1 x.sr.tail else s
        (s, .ok (n * 2 ^ 32))

/-- The catalogue engine carries out an UNLOAN. -/
def unloanRun (s : State) (x : KvOp) (id : Nat) : State :=
  let (s, r) := unloanStep s x.queue x.seqH (x.word 1 % 2 ^ 32) (x.sh == 1) id
  catDone s x id r

/-- UNLOAN (R174): the request goes to the catalogue engine. -/
def unloanBody (f : CQ) (s : State) : Except TrapReq State :=
  match useS s f.a, useS s (f.a + 1) with
  | .error e, _ => .error e
  | _, .error e => .error e
  | .ok a, .ok b => .ok (submitOp (.unloan f) f [a, b] 0 [] s)

def execUnloan (f : CQ) (s : State) : Out := runSyl (.unloan f) (unloanBody f) s

/-! SEAL (R172). -/

/-- A folio that a tail or a spare may hold. -/
def openFolio (l : Option (Nat × FolHdr)) : Bool := l.any fun e => e.2.fstate == fOpen
def spareFolio (l : Option (Nat × FolHdr)) : Bool :=
  l.any fun e => e.2.fstate == fOpen && e.2.appnxt == 0 && e.2.surv == 0 && e.2.loans == 0

/-- The rule of R172 for a spare node. -/
def spareOk (s : State) (k : KvSpace) (n : Nat) : State × Except Nat Bool :=
  if n = 0 || k.nodelen ≤ n then (s, .ok false)
  else
    let (s, r) := catNode s k n
    match r with
    | .error e => (s, .error e)
    | .ok r =>
      if r.nstate ≠ 0 || r.tokens = 0 then (s, .ok false)
      else
        let (s, ls) := layersOf s k n
        (s, match ls with
          | .ok ls => .ok (ls.all spareFolio)
          | .error e => if e = kvInvalid then .ok false else .error e)

/-- The status of SEAL with the key that it will use, or its fault. -/
def sealStatus (s : State) (q h sp : Nat) : State × Except Nat (Nat × List Byte) :=
  let (s, r) := catPre s q h
  match r with
  | .error e => (s, .error e)
  | .ok x =>
    match nskeyOf s x.sr.nsid with
    | none => (s, .error catNskey)
    | some key =>
      if catFull s || sealing s q h s.nextId then (s, .ok (0x01, key))
      else if x.sr.len ≠ 64 * x.sr.npath + 64 then (s, .ok (0x02, key))
      else
        let (s, tl) := layersOf s x.k x.sr.tail
        match tl with
        | .error e => (s, .error e)
        | .ok tl =>
          if !tl.all openFolio then (s, .ok (0x03, key))
          else
            let (s, ok) := spareOk s x.k sp
            (s, ok.map fun ok => (if ok then 0 else 0x04, key))

def sealBody (f : CQ) (s : State) : Except TrapReq State :=
  let i := Instr.seal f
  match useS s f.a, useS s (f.a + 1) with
  | .error e, _ => .error e
  | _, .error e => .error e
  | .ok a, .ok b =>
    let h := a.toNat % 2 ^ 20
    let sp := b.toNat % 2 ^ 32
    let (s, r) := sealStatus s (cur s).queue h sp
    .ok (match r with
      | .error e => catFault i f e h a s
      | .ok (st, key) =>
        let s := if st = 0 then enterCat s (newCatOp s 0 f.sh.toNat h [sp] key) else s
        cqResult i f st s)

def execSeal (f : CQ) (s : State) : Out := runSyl (.seal f) (sealBody f) s

/-! CATLOOK (R175). -/

/-- The last path node and the key of a lookup, or its fault. -/
def lookStart (s : State) (q h : Nat) : State × Except Nat (CatAt × Nat × List Byte) :=
  let (s, r) := catPre s q h
  match r with
  | .error e => (s, .error e)
  | .ok x =>
    match nskeyOf s x.sr.nsid with
    | none => (s, .error catNskey)
    | some key =>
      let (s, p) := lastNode s x.sr
      (s, match p with
        | .error e => .error e
        | .ok p => if x.k.nodelen ≤ p then .error catInvalid else .ok (x, p, key))

/-- The checks of an object access of CATLOOK: it faults as R116 gives, and waits for nothing. -/
def lookCheck (s : State) (core q : Nat) (oaddr : W64) (n : Nat) (k : Kind) : State × Option ObjFault :=
  let (s, r) := recFor s core q (oaddr.toNat / 2 ^ 44) k
  match r with
  | .error c => (s, some { code := c, taddr := oaddr })
  | .ok r =>
    let (s, l) := logicalBytes s r (oaddr.toNat / 2 ^ 44) (oaddr.toNat % 2 ^ 44) false n
    (s, match l with
      | .error e => some e
      | .ok _ => none)

/-- Both object accesses of a lookup of up to `n` nodes, checked before it is accepted (R170, R175). -/
def lookObjects (s : State) (tok out : W64) (n : Nat) : State × Option ObjFault :=
  if n = 0 then (s, none)
  else
    let (s, e) := lookCheck s s.iss.core (cur s).queue tok (256 * n) { cls := clsCopy, rd := true, wr := false }
    match e with
    | some e => (s, some e)
    | none => lookCheck s s.iss.core (cur s).queue out (24 * n) { cls := clsCopy, rd := false, wr := true }

def catlookBody (f : CQ) (s : State) : Except TrapReq State :=
  let i := Instr.catlook f
  match useS s f.a, useS s (f.a + 1), useS s (f.a + 2), useS s (f.a + 3) with
  | .error e, _, _, _ => .error e
  | _, .error e, _, _ => .error e
  | _, _, .error e, _ => .error e
  | _, _, _, .error e => .error e
  | .ok a, .ok tok, .ok n, .ok out =>
    let h := a.toNat % 2 ^ 20
    let (s, r) := lookStart s (cur s).queue h
    .ok (match r with
      | .error e => catFault i f e h a s
      | .ok (x, p, key) =>
        let (s, bad) := lookObjects s tok out (n.toNat % 2 ^ 32 / 64)
        match bad with
        | some e => faultResult i (lat7 f.lat) e.code e.taddr 0 0 s
        | none =>
          if catFull s then cqResult i f 0x01 s
          else
            let args := [tok.toNat, n.toNat % 2 ^ 32, nbits n.toNat 32 1, out.toNat, x.sr.fprint, x.sr.nsid]
            cqResult i f 0 (enterCat s { newCatOp s 1 f.sh.toNat h args key with parent := p }))

def execCatlook (f : CQ) (s : State) : Out := runSyl (.catlook f) (catlookBody f) s

/-! PROMOTE (R176). -/

/-- The status of PROMOTE, or its fault. -/
def promoteStatus (s : State) (q n last : Nat) : State × Except Nat Nat :=
  let (s, k) := kvSpaceOf s q
  match k with
  | none => (s, .error (kvFail s q))
  | some k =>
    let (s, c) := catOf s q
    if c.isNone then (s, .error catInvalid)
    else
      let (s, r) := catNode s k n
      (s, match r with
        | .error e => .error e
        | .ok r =>
          if k.nlayer ≤ last then .error kvCoord
          else if catFull s then .ok 0x01
          else if r.nstate ≠ 1 then .ok 0x08
          else .ok 0)

def promoteBody (f : CQ) (s : State) : Except TrapReq State :=
  let i := Instr.promote f
  match useS s f.a with
  | .error e => .error e
  | .ok a =>
    let x := a.toNat
    let n := nbits x 0 32
    let lfirst := nbits x 32 8
    let (s, r) := promoteStatus s (cur s).queue n (lfirst + nbits x 40 8)
    .ok (match r with
      | .error e => catFault i f e (Config.freeBits s.epoch 831 20).toNat a s
      | .ok st =>
        let args := [n, lfirst, nbits x 40 8, nbits x 51 1, f.sh.toNat]
        let s := if st = 0 then enterCat s (newCatOp s 2 (nbits x 48 3) 0 args []) else s
        cqResult i f st s)

def execPromote (f : CQ) (s : State) : Out := runSyl (.promote f) (promoteBody f) s

/-! The engines' turn. -/

/-- An operation that its engine has still to carry out is carried out: one that waits for its fault to be reported, for a replica, or
for its swapped-out task to run again (R380) is not. -/
def opStep (s : State) (id : Nat) : State :=
  match mget s.kvs id with
  | none => s
  | some x =>
    if x.fault.isSome || x.repair.isSome || (x.op = 7 && taskAway s x.core x.task) then s
    else
      match x.op with
      | 0x0B => loanRun s x id
      | 0x0C => unloanRun s x id
      | 0x14 => relocRun s x id
      | _ => kvSubmit s x id

/-- RESULT_WRITE (R18, R370): the result of an operation has come from its engine; it is written by its deadline, or stands in
its late-write entry until the partition goes on. -/
def resultStep (core part seq : Nat) (s : State) : State :=
  match findPend s core part seq with
  | some e =>
    if e.st ≠ .engine then s
    else
      match e.eng, kvIdOf e with
      | none, _ => atPlace s core part fun i s => endPend s core i seq
      | some _, some id => opStep s id
      | some _, none => s
  | none =>
    -- a kill has discarded the result of an operation that its engine still carries out (R378)
    match s.kvs.find? fun e => e.2.core == core && e.2.seq == seq && e.2.task == (getPart s core part).entered && (getPart s core part).ps == .ending with
    | some e => opStep s e.1
    | none => s

def execResultWrite (core part seq : Nat) (s : State) : Out := event (resultStep core part seq) s

end Sys2Proof.Machine
end

