-- ==== Sys2Proof/Machine/Circulation.lean ====
section
/-! DEFINITION. Tiers and image space (R153, R154, R160, R167), sources of a folio (R142, R163), recalls and demotion passes (R154 to
R156, R168, R395), and promotions (R161). -/

namespace Sys2Proof.Machine

/-! Tiers. -/

/-- The height of a tier: reading room, stacks, annex, repository from above. -/
def tierUp (t : Nat) : Nat :=
  match t with
  | 1 => 3 | 0 => 2 | 2 => 1 | _ => 0

def attached (s : State) (t : Nat) : Bool :=
  match t with
  | 2 => !s.annexMap.isEmpty
  | 3 => !s.nvmeQs.isEmpty
  | _ => true

/-- Where a demotion goes: a tier, or nowhere. -/
inductive Dest where
  | tier (t : Nat)
  | dropped
  | never
  deriving DecidableEq, Repr

/-- The next stop below a tier (Table 7.4), every tier attached. -/
def nextDown (cls tier : Nat) : Dest :=
  match cls, tier with
  | 3, _ => .never
  | _, 1 => .tier 0
  | 0, _ => .dropped
  | 1, 0 => .tier 2
  | 1, _ => .dropped
  | _, 0 => .tier 2
  | _, 2 => .tier 3
  | _, _ => .never

/-- The destination of a demotion: a tier that is not attached is skipped (R153). `fuel` bounds the stops. -/
def destOf (s : State) (cls : Nat) : Nat → Nat → Dest
  | 0, _ => .never
  | n + 1, tier =>
    match nextDown cls tier with
    | .tier t => if attached s t then .tier t else destOf s cls n t
    | d => d

/-- Whether a tier lies below another on the path of a class (R176). -/
def onPath (cls tier target : Nat) : Bool :=
  (match cls with
    | 0 => target == 0
    | 1 => target == 0 || target == 2
    | 2 => target != 1
    | _ => false) && tierUp target < tierUp tier

/-- The watermarks and the capacity of the reading room, which the steward sets (R154, R160): their values are its own. -/
def highMark (t : Nat) : Nat := Config.freeNat 0 (100000 + 2 * t)
def lowMark (t : Nat) : Nat := Config.freeNat 0 (100001 + 2 * t)
def roomLines : Nat := Config.freeNat 0 100010

/-! Images. -/

/-- The key of an image: its tier and its DBASE. -/
def imageKey (tier dbase : Nat) : Nat := tier * 2 ^ 60 + dbase

def freeImage (s : State) (tier dbase : Nat) : State := { s with images := mdel s.images (imageKey tier dbase) }

/-- The first and last byte after an image, in bytes of its tier's space. -/
def imageSpan (tier dbase len : Nat) : Nat × Nat :=
  if tier = 2 then (dbase, dbase + len)
  else (dbase / 2 ^ 40 * 2 ^ 60 + dbase % 2 ^ 40 * 4096, dbase / 2 ^ 40 * 2 ^ 60 + dbase % 2 ^ 40 * 4096 + len)

/-- Whether image space is free of other images. -/
def spaceFree (s : State) (tier dbase len : Nat) : Bool :=
  s.images.all fun e =>
    e.1 / 2 ^ 60 != tier ||
      let a := imageSpan tier dbase len
      let b := imageSpan tier (e.1 % 2 ^ 60) e.2
      a.2 ≤ b.1 || b.2 ≤ a.1

/-- Whether every granule of some bytes of the annex window is populated. -/
def annexHolds (s : State) (a n : Nat) : Bool :=
  annexBase ≤ a && a + n ≤ annexEnd &&
    (List.range ((a + n - 1) / 0x10000000 + 1 - a / 0x10000000)).all fun (i : Nat) => populated s ((a / 0x10000000 + i) * 0x10000000)

/-- Whether an image may stand at a place. -/
def mayPlace (s : State) (tier len p : Nat) : Bool :=
  (if tier = 2 then p % 4096 == 0 && annexHolds s p len
    else p < 2 ^ 48 && p / 2 ^ 40 < 32 && s.nvmeQs.any fun e => e.1 / 16 == p / 2 ^ 40) && spaceFree s tier p len

/-- Places that a first-fit search looks at: the beginnings of the space and the ends of the images. -/
def placesOf (s : State) (tier : Nat) : List Nat :=
  let ends := (s.images.filter fun e => e.1 / 2 ^ 60 == tier).map fun e => (e.1 % 2 ^ 60, e.2)
  if tier = 2 then s.annexMap.map (fun e => annexBase + 0x10000000 * e.1) ++ ends.map fun e => 4096 * ceilDiv (e.1 + e.2) 4096
  else s.nvmeQs.map (fun e => e.1 / 16 * 2 ^ 40) ++ ends.map fun e => e.1 + ceilDiv e.2 4096

/-- The steward's place for an image: its free choice; where that does not serve, the first place that does. -/
def placeImage (s : State) (tier len : Nat) : Option Nat :=
  let p := Config.freeNat s.epoch (860 + tier)
  if mayPlace s tier len p then some p else (placesOf s tier).find? (mayPlace s tier len)

/-- Frees the storage that a folio has left behind (R155): its pool block, or its image space. -/
def freeStorage (s : State) (k : KvSpace) (c : CatDesc) (h : FolHdr) : State :=
  if h.fstate = fAbsent then s else if 2 ≤ h.tier then freeImage s h.tier h.dbase else freeBlock s k c h.dbase

/-! Occupancy and candidates (R154). -/

/-- A folio with its KV space, a queue that names that, and the node and the layer that name the folio. -/
structure FolioAt where
  queue : Nat
  k : KvSpace
  node : Nat
  layer : Nat
  fol : Nat
  sm : Nat
  hdr : FolHdr
  deriving DecidableEq, Repr

/-- The folio of a layer of a sealed node, where the records that lead to it are sound. -/
def folioAt (s : State) (q : Nat) (k : KvSpace) (n : Nat) (r : NodeRec) (l : Nat) : Option FolioAt :=
  (folioRef s k n l).2.bind fun f => (folRec s k f).2.map fun h => { queue := q, k := k, node := n, layer := l, fol := f, sm := r.sm, hdr := h }

/-- Every folio that a sealed node of a KV space names. A malformed record, or one that fails its check values, is passed over. -/
def sealedFolios (s : State) (q : Nat) (k : KvSpace) : List FolioAt :=
  (List.range k.nodelen).flatMap fun n =>
    match (nodeRec s k n).2 with
    | some r => if r.nstate ≠ 1 then [] else (List.range k.nlayer).filterMap (folioAt s q k n r)
    | none => []

/-- Every folio that a sealed node of the device names. -/
def allFolios (s : State) : List FolioAt := (spaces s).flatMap fun x => sealedFolios s x.1 x.2.1

def KvSpace.folLines (k : KvSpace) : Nat := ceilDiv k.fsz 64

/-- Lines that the reading room holds: one set of reserved ways for all KV spaces (R160). -/
def roomUsed (s : State) : Nat :=
  sumOf (((allFolios s).filter fun x => x.hdr.tier == 1 && (x.hdr.fstate == fSealed || x.hdr.fstate == fRecalling)).map fun x =>
    x.k.folLines)

/-- The occupancy of a tier of the device. -/
def occupancy (s : State) (t : Nat) : Nat :=
  match t with
  | 0 => sumOf ((pools s).map (stacksUsed s))
  | 1 => roomUsed s
  | _ => sumOf ((s.images.filter fun e => e.1 / 2 ^ 60 == t).map (·.2))

/-- The header of the folio of a recall. -/
def Recall.hdr (s : State) (r : Recall) : Option (KvSpace × FolHdr) := (kvSpaceOf s r.queue).2.map fun k => (k, folHdr s k r.fol)

/-- The recalls under way from a tier: the KV space and the folio header of each. -/
def recallsFrom (s : State) (t : Nat) : List (KvSpace × FolHdr) :=
  (s.recalls.filterMap fun e => if e.2.up.isSome then none else e.2.hdr s).filter fun x => x.2.tier == t

/-- What a folio holds of its tier. -/
def holding (s : State) (k : KvSpace) (h : FolHdr) : Nat :=
  match h.tier with
  | 0 => 1
  | 1 => k.folLines
  | t => (mget s.images (imageKey t h.dbase)).getD 0

/-- The occupancy once the recalls under way are done. -/
def leftAfter (s : State) (t : Nat) : Nat := occupancy s t - sumOf ((recallsFrom s t).map fun x => holding s x.1 x.2)

/-- The key of the demotion order. -/
def FolioAt.key (x : FolioAt) (now : Nat) : List Nat :=
  [x.hdr.rclass, 2 ^ 32 - (now + 2 ^ 32 - x.hdr.lastrel) % 2 ^ 32, x.sm, x.layer]

def listLt : List Nat → List Nat → Bool
  | a :: as, b :: bs => if a = b then listLt as bs else a < b
  | [], _ :: _ => true
  | _, [] => false

/-- Puts a candidate into its place. -/
def insertCand (now : Nat) (x : FolioAt) : List FolioAt → List FolioAt
  | [] => [x]
  | y :: ys => if listLt (x.key now) (y.key now) then x :: y :: ys else y :: insertCand now x ys

/-- The candidates of a tier in the order of R154. -/
def candidatesOf (s : State) (t : Nat) : List FolioAt :=
  let ok (x : FolioAt) : Bool :=
    x.hdr.fstate == fSealed && x.hdr.loans == 0 && x.hdr.tier == t && x.hdr.rclass != 3 && destOf s x.hdr.rclass 4 t != .never
  ((allFolios s).filter ok).foldl (fun l x => insertCand (catClk s) x l) []

/-! Recalls (R155). -/

/-- The number of a destination in a recall: the tier, or 1 for dropped. -/
def destNo (d : Dest) : Nat :=
  match d with
  | .tier t => t
  | _ => 1

/-- Commits a recall: LOANS 0 and FSTATE SEALED become the marker and RECALLING. -/
def commitRecall (s : State) (x : FolioAt) (dest : Nat) : State :=
  let s := putFolHdr s x.k x.fol { x.hdr with loans := loanMark, fstate := fRecalling }
  let r : Recall := { queue := x.queue, node := x.node, layer := x.layer, fol := x.fol, dest := dest, place := 0, len := 0, stage := 0
                      image := [], up := none }
  { s with recalls := mput s.recalls s.nextId r, nextId := s.nextId + 1 }

/-- Demotes candidates of a list until the occupancy is at or below the low watermark. -/
def passOver (s : State) (t : Nat) : List FolioAt → State
  | [] => s
  | x :: xs =>
    if leftAfter s t ≤ lowMark t then s else passOver (commitRecall s x (destNo (destOf s x.hdr.rclass 4 t))) t xs

/-- A demotion pass of a tier. -/
def demote (s : State) (t : Nat) : State := passOver s t (candidatesOf s t)

/-- Whether a pass of a tier is due: its occupancy, with the recalls under way counted off, is above the high watermark, and there is a
candidate. -/
def passDue (s : State) (t : Nat) : Bool := !(candidatesOf s t).isEmpty && highMark t < leftAfter s t

/-- DEMOTION_PASS (R154): the occupancy of a tier has risen above the high watermark. A tier is the whole device's, whichever
catalogue `cat` the pass begins with. -/
def passStep (t : Nat) (s : State) : State := if passDue s t then demote s t else s

def execDemotionPass (_cat tier : Nat) (s : State) : Out := event (passStep tier) s

/-! The end of an operation by record, and of a layer of a promotion. -/

/-- Writes the record of an operation (R171). -/
def catEnd (s : State) (id : Nat) (x : CatOp) : State :=
  let s := { s with catOps := mdel s.catOps id, fetches := mdel s.fetches id }
  if x.kind = 3 then s
  else
    let eng := if x.kind = 2 then 4 else 3
    let body := match x.fault with
      | some (code, h, lofs) => recBytes x.status code eng (noTag s) x.bytes h [lofs % 2 ^ 32, lofs / 2 ^ 32, 0, 0]
      | none => recBytes x.status 0 eng (noTag s) x.bytes 0 []
    holdRec s { queue := x.queue, ring := x.ring, body := body, entry := none, ui := none }

def putCat (s : State) (id : Nat) (x : CatOp) : State := { s with catOps := mput s.catOps id x }

/-- A layer of a promotion is done: the lowest failing layer names the outcome. -/
def layerDone (s : State) (id : Nat) (x : CatOp) (st bytes : Nat) : State :=
  let y := { x with step := x.step + 1, status := if x.status = 0 then st else x.status, bytes := x.bytes + bytes, awaited := none
                    block := none }
  let s := { s with fetches := mdel s.fetches id }
  if x.args.getD 2 0 < y.step then catEnd s id y else putCat s id y

/-- A requested demotion is over: its operation goes on. -/
def recallOver (s : State) (rid st bytes : Nat) : State :=
  let s := { s with recalls := mdel s.recalls rid }
  match s.catOps.find? fun e => e.2.awaited == some rid with
  | some (id, x) => layerDone s id x st bytes
  | none => s

/-! The move of a recall's data. -/

/-- Stored bytes of the chunks of a folio in HBM. -/
def storedBytes (s : State) (k : KvSpace) (dbase : Nat) : Nat :=
  sumOf (tab k.nchunk fun i => 256 * (nbits (metaOf s (dbase / 2048 + i)).hdr.toNat 4 3 + 1))

/-- The header of an image with the folio's recall class as it now stands (R159, Table 7.7). -/
def withClass (h : List Byte) (cls : Nat) : List Byte :=
  let w := ofBytes ((h.drop 0x28).take 4)
  if nbits w 20 2 = cls then h
  else
    let g := h.take 0x28 ++ toBytes (w - nbits w 20 2 * 2 ^ 20 + cls * 2 ^ 20) 4 ++ (h.drop 0x2C).take (h.length - 0x30)
    g ++ toBytes (crc32c g).toNat 4

/-- The image that a recall writes: that of data in HBM, or the one in the annex; none when its data is poisoned. -/
def recallImage (s : State) (k : KvSpace) (r : Recall) (n : NodeRec) (h : FolHdr) : State × Option (List Byte × List Byte) :=
  if h.tier = 2 then
    let len := (mget s.images (imageKey 2 h.dbase)).getD (k.hdrLen + k.bsz)
    let s := touchRead s h.dbase len
    let bs := peekBytes s h.dbase len
    (s, if poisonedAt s h.dbase len then none else some (withClass (bs.take k.hdrLen) h.rclass, bs.drop k.hdrLen))
  else
    let s := touchRead s h.dbase k.bsz
    let i : ImgKey := { sm := n.sm, fprint := n.fprint, layer := r.layer, rclass := h.rclass, nsid := n.nsid, surv := h.surv, digest := h.digest }
    (s, if poisonedAt s h.dbase k.fsz then none else some (buildImage s k i h.dbase))

/-- Whether a requested operation waits for a recall. -/
def requested (s : State) (rid : Nat) : Bool := s.catOps.any fun e => e.2.awaited == some rid

/-- The space of an image that is not to stand is free again. -/
def dropImage (s : State) (r : Recall) : State := if r.len = 0 then s else freeImage s r.dest r.place

/-- A recall whose KV space or catalogue cannot be used any more: it is over, and a requested demotion has its one record (R127). -/
def loseRecall (s : State) (rid : Nat) (r : Recall) : State := recallOver (dropImage s r) rid 0x13 0

/-- A recall whose folio header fails its check values, or is malformed: it ends with DAMAGED, and what it has taken is free again (R4,
R419). -/
def failRecall (s : State) (rid : Nat) (r : Recall) (k : KvSpace) (c : CatDesc) : State :=
  match r.up with
  | some b => loseRecall (freeBlock s k c b) rid r
  | none => loseRecall s rid r

/-- An undone recall: the folio keeps its tier and DBASE; a pass goes on with the candidates after it (R155, R395). A move up that
fails gives its block back. The status of a requested move that is undone is not stated. -/
def undoRecall (s : State) (rid : Nat) (r : Recall) (k : KvSpace) (c : CatDesc) : State :=
  let st := Config.freeNat s.epoch 870 % 256
  let (s, h) := folRec s k r.fol
  match h, r.up with
  | none, _ => failRecall s rid r k c
  | some _, some b => recallOver (dropImage (freeBlock s k c b) r) rid st 0
  | some h, none =>
    let s := dropImage (putFolHdr s k r.fol { h with fstate := fSealed, loans := 0 }) r
    if requested s rid then recallOver s rid st 0
    else
      let s := recallOver s rid 0 0
      let l := (candidatesOf s h.tier).dropWhile fun x => !(x.fol == r.fol && kvName s x.queue == kvName s r.queue)
      passOver s h.tier (l.drop 1)

/-- The header line names the new place, and the old storage is free. A move up keeps the loans, and takes SURV from the image. -/
def landImage (s : State) (rid : Nat) (r : Recall) (k : KvSpace) (c : CatDesc) : State :=
  let bytes := r.len - k.hdrLen
  let (s, h) := folRec s k r.fol
  match h, r.up with
  | none, _ => failRecall s rid r k c
  | some h, some b =>
    let surv := ofBytes ((r.image.drop 0x30).take 8)
    let s := putFolHdr s k r.fol { h with fstate := fSealed, tier := r.dest, dbase := r.place, surv := surv }
    recallOver (freeStorage (freeBlock s k c b) k c h) rid 0 bytes
  | some h, none =>
    let s := putFolHdr s k r.fol { h with fstate := fSealed, loans := 0, tier := r.dest, dbase := r.place }
    recallOver (freeStorage s k c { h with fstate := fSealed }) rid 0 bytes

/-- Issues an NVM Express command. -/
def nvmeIssue (s : State) (kind place bytes owner : Nat) (data : List Byte) : State :=
  let x : NvmeCmd := { kind := kind, drive := place / 2 ^ 40, block := place % 2 ^ 40, bytes := bytes, data := data, owner := owner, since := s.uclock }
  { s with nvme := mput s.nvme s.nextId x, nextId := s.nextId + 1 }

def pad4096 (bs : List Byte) : List Byte := bs ++ List.replicate (4096 * ceilDiv bs.length 4096 - bs.length) 0

/-- An image is written, the chunk area first (R168). -/
def startMove (s : State) (rid : Nat) (r : Recall) (k : KvSpace) (c : CatDesc) (img : List Byte × List Byte) : State :=
  let len := img.1.length + img.2.length
  match placeImage s r.dest len with
  | none => undoRecall s rid r k c
  | some p =>
    let s := { s with images := mput s.images (imageKey r.dest p) len }
    let r := { r with place := p, len := len, stage := 1, image := img.1 }
    if r.dest = 2 then
      let s := writeMem s (p + img.1.length) img.2 .folios false 0
      landImage (writeMem s p img.1 .folios false 0) rid r k c
    else
      nvmeIssue { s with recalls := mput s.recalls rid r } 1 (p + img.1.length / 4096) img.2.length rid (pad4096 img.2)

/-- Whether a KV load that has passed translation is still to perform on a folio (R137): one whose repair is under way. -/
def loadHeld (s : State) (q fol : Nat) : Bool :=
  s.kvs.any fun e => kvName s e.2.queue == kvName s q && e.2.repair.any fun h => h.fol == fol

/-- RECALL_DATA_MOVE (R155, R168): the data of a committed recall goes where it is to go. -/
def moveStep (rid : Nat) (s : State) : State :=
  match mget s.recalls rid with
  | none => s
  | some r =>
    if r.stage ≠ 0 || r.up.isSome || loadHeld s r.queue r.fol then s
    else
      let (s, x) := spacesOf s r.queue
      match x with
      | none => loseRecall s rid r
      | some (k, c) =>
        let (s, h) := folRec s k r.fol
        match h with
        | none => failRecall s rid r k c
        | some h =>
          match r.dest with
          | 0 => recallOver (putFolHdr s k r.fol { h with fstate := fSealed, loans := 0, tier := 0 }) rid 0 0
          | 1 =>
            let s := putFolHdr s k r.fol { h with fstate := fAbsent, loans := 0, dbase := 0 }
            recallOver (freeStorage s k c h) rid 0 0
          | _ =>
            let (s, n) := nodeRec s k r.node
            let (s, img) := recallImage s k r (n.getD (NodeRec.of 0)) h
            match n, img with
            | some _, some img => startMove s rid r k c img
            | _, _ =>
              let s := putFolHdr s k r.fol { h with fstate := fDamaged, loans := 0, appnxt := 0, digest := 0 }
              recallOver (addEvent s { code := 0x08, loc := k.folAddr r.fol / 256, detail := [] }) rid 0x13 0

def execRecallDataMove (id : Nat) (s : State) : Out := event (moveStep id) s

/-- A Write or Flush of an image completes (R168, R395). -/
def recallWrote (s : State) (rid : Nat) (ok : Bool) : State :=
  match mget s.recalls rid with
  | none => s
  | some r =>
    let (s, x) := spacesOf s r.queue
    match x with
    | none => loseRecall s rid r
    | some (k, c) =>
      if !ok then undoRecall s rid r k c
      else
        let next := { s with recalls := mput s.recalls rid { r with stage := r.stage + 1 } }
        match r.stage with
        | 1 => nvmeIssue next 1 r.place r.image.length rid r.image
        | 2 => nvmeIssue next 2 r.place 0 rid []
        | _ => landImage s rid r k c

/-! Sources (R142, R163). -/

/-- Asks the next holder; none left means no source. `n` bounds the holders. -/
def askNext : Nat → State → Nat → State
  | 0, s, _ => s
  | n + 1, s, id =>
    match mget s.fetches id with
    | none => s
    | some x =>
      match x.holders with
      | none => s
      | some [] => { s with fetches := mput s.fetches id { x with asked := none, failed := true } }
      | some (h :: hs) =>
        let x := { x with holders := some hs, asked := some h, data := [], full := false }
        let s := { s with fetches := mput s.fetches id x }
        if unreachable s h 1 then askNext n s id
        else sendMsg s h 1 0x13 x.queue (x.sm % 2 ^ 64) (smHigh x.sm ++ toBytes (x.layer.getD 0xFFFF) 2)

/-- The chips that valid holder fields name, but for this one. -/
def holderChips (hold : List Nat) (self : Nat) : List Nat :=
  ((hold.filter fun h => h.testBit 15).map (· % 1024)).filter (· != self)

/-- Begins the search for a source: the home's list is read first. -/
def startFetch (s : State) (id q : Nat) (c : CatDesc) (sm : Nat) (layer : Option Nat) : State :=
  let x : Fetch := { queue := q, sm := sm, layer := layer, holders := none, asked := none, data := [], full := false, failed := false, repo := false }
  let home := homeChip c sm
  if !c.fabon then { s with fetches := mput s.fetches id { x with failed := true } }
  else if home = c.chipno then
    let (s, e) := homeEntry s c sm
    let hold := match e with
      | some (_, e) => holderChips e.hold c.chipno
      | none => []
    askNext 8 { s with fetches := mput s.fetches id { x with holders := some hold } } id
  else if unreachable s home 0 then { s with fetches := mput s.fetches id { x with failed := true } }
  else sendMsg { s with fetches := mput s.fetches id { x with asked := some home } } home 0 0x11 q (sm % 2 ^ 64) (smHigh sm)

/-- The folio that a fabric source has sent, where it verifies: its data and SURV. -/
def fabricData (k : KvSpace) (digest : Nat) (bs : List Byte) : Option (List Byte × Nat) :=
  let surv := ofBytes ((bs.drop k.fsz).take 8)
  if bs.length = k.fsz + 8 && sealDigest k bs surv = digest then some (bs.take k.fsz, surv) else none

/-! Promotions (R161, R176). -/

/-- Whether `n` more lines go into the reading room, which first makes room (R160). `fuel` bounds the candidates. -/
def roomFor (s : State) (n : Nat) : Nat → State × Bool
  | 0 => (s, false)
  | fuel + 1 =>
    if roomUsed s + n ≤ roomLines then (s, true)
    else
      match candidatesOf s 1 with
      | [] => (s, false)
      | x :: _ => roomFor (putFolHdr s x.k x.fol { x.hdr with tier := 0 }) n fuel

/-- The end of a layer whose folio stands in the stacks: it goes on to the reading room where that is asked for. -/
def shelve (s : State) (id : Nat) (x : CatOp) (k : KvSpace) (f bytes : Nat) : State :=
  if x.args.getD 4 0 ≠ 1 then layerDone s id x 0 bytes
  else
    let (s, ok) := roomFor s k.folLines ((candidatesOf s 1).length + 1)
    if ok then layerDone (putFolHdr s k f { folHdr s k f with tier := 1 }) id x 0 bytes else layerDone s id x 0x15 bytes

/-- Bytes that a move between the stacks and the reading room counts as moved: not stated whether any. -/
def roomBytes (s : State) (k : KvSpace) (h : FolHdr) : Nat :=
  if Config.freeBool s.epoch 871 then storedBytes s k h.dbase else 0

/-- A layer ends with its block given back. -/
def giveUp (s : State) (id : Nat) (x : CatOp) (k : KvSpace) (c : CatDesc) (st : Nat) : State :=
  let s := match x.block with
    | some b => freeBlock s k c b
    | none => s
  layerDone s id x st 0

/-- Verified data of a folio goes up to the annex or the repository (R176): from the block, as the image that R168 writes. The
folio keeps its loans. Where the tier has no space for the image, the layer ends as without a block. -/
def raise (s : State) (id : Nat) (x : CatOp) (k : KvSpace) (c : CatDesc) (n : NodeRec) (f block surv : Nat) : State :=
  let h := folHdr s k f
  let i : ImgKey := { sm := n.sm, fprint := n.fprint, layer := x.args.getD 1 0 + x.step, rclass := h.rclass, nsid := n.nsid
                      surv := surv, digest := h.digest }
  let s := touchRead s block k.bsz
  let img := buildImage s k i block
  let target := x.args.getD 4 0
  match placeImage s target (img.1.length + img.2.length) with
  | none => giveUp s id x k c 0x19
  | some _ =>
    let rid := s.nextId
    let r : Recall := { queue := x.queue, node := x.args.getD 0 0, layer := i.layer, fol := f, dest := target, place := 0, len := 0
                        stage := 0, image := [], up := some block }
    let s := { s with catOps := mput s.catOps id { x with awaited := some rid }, fetches := mdel s.fetches id, nextId := rid + 1 }
    startMove s rid r k c img

/-- Steps 2 to 6 of a promotion with verified data: the block is filled, the header names it, the source is free, and this chip is a
holder. `moved` is the size of the source image's chunks; data from another chip counts as it is stored here (log entry 71). Data
that comes from a drive or another chip is stored as compressible with the KV format, as an append stores it (DESIGN CHOICE, log entry
128). -/
def landData (s : State) (id : Nat) (x : CatOp) (k : KvSpace) (c : CatDesc) (n : NodeRec) (f block surv : Nat) (data : List Byte)
    (moved : Option Nat) : State :=
  let h := folHdr s k f
  let s := writeMem s block data .folios true k.kfmt
  if 2 ≤ x.args.getD 4 0 then raise s id x k c n f block surv else
  let s := putFolHdr s k f { h with dbase := block, tier := 0, fstate := fSealed, surv := surv }
  let s := if h.fstate = fAbsent then s else freeImage s h.tier h.dbase
  let s := registerHolder s x.queue c n.sm
  let s := touchRead s block k.bsz
  shelve s id x k f (moved.getD (storedBytes s k block))

/-- No replica repairs an image that fails: the folio is damaged (R142), and the promotion has no source (R163). -/
def promoDamaged (s : State) (id : Nat) (x : CatOp) (k : KvSpace) (c : CatDesc) (f : Nat) : State :=
  giveUp (damageFolio s k f) id x k c 0x14

/-- What becomes of an image that has been read. -/
def useImage (s : State) (id : Nat) (x : CatOp) (k : KvSpace) (c : CatDesc) (n : NodeRec) (f layer block : Nat) (img : List Byte)
    (good : Bool) : State :=
  let h := folHdr s k f
  let i : ImgKey := { sm := n.sm, fprint := n.fprint, layer := layer, rclass := h.rclass, nsid := n.nsid, surv := h.surv, digest := h.digest }
  match checkImage k i img with
  | .version => giveUp s id x k c 0x1A
  | .bad => startFetch s id x.queue c n.sm (some layer)
  | .ok data m => if good then landData s id x k c n f block h.surv data (some m) else startFetch s id x.queue c n.sm (some layer)

/-- A promotion reads its source. -/
def readSource (s : State) (id : Nat) (x : CatOp) (k : KvSpace) (c : CatDesc) (n : NodeRec) (f layer block : Nat) : State :=
  let h := folHdr s k f
  let len := (mget s.images (imageKey h.tier h.dbase)).getD (k.hdrLen + k.bsz)
  if h.fstate = fAbsent then startFetch s id x.queue c n.sm (some layer)
  else if h.tier = 2 then
    if !annexHolds s h.dbase len then startFetch s id x.queue c n.sm (some layer)
    else
      let s := touchRead s h.dbase len
      useImage s id x k c n f layer block (peekBytes s h.dbase len) (!poisonedAt s h.dbase len)
  else if 32 ≤ h.dbase / 2 ^ 40 || !attached s 3 then giveUp s id x k c 0x14
  else
    let y : Fetch := { queue := x.queue, sm := n.sm, layer := some layer, holders := some [], asked := none, data := [], full := false
                       failed := false, repo := true }
    nvmeIssue { s with fetches := mput s.fetches id y } 0 h.dbase len id []

/-- A promotion with its source under way. -/
def sourceStep (s : State) (id : Nat) (x : CatOp) (y : Fetch) (k : KvSpace) (c : CatDesc) (n : NodeRec) (f layer : Nat) : State :=
  let h := folHdr s k f
  let block := x.block.getD 0
  if y.failed then
    if y.repo then startFetch s id x.queue c n.sm (some layer)
    else if h.fstate = fAbsent then giveUp s id x k c 0x14
    else promoDamaged s id x k c f
  else if !y.full then s
  else if y.repo then useImage s id x k c n f layer block y.data true
  else
    match fabricData k h.digest y.data with
    | some (data, surv) => landData s id x k c n f block surv data none
    | none => askNext 8 s id

/-- A promotion needs a pool block: after a demotion pass of the stacks there may still be none (R161). -/
def needBlock (s : State) (id : Nat) (x : CatOp) (k : KvSpace) (c : CatDesc) (n : NodeRec) (f layer : Nat) : State :=
  let (s, b) := takeBlock s k c
  match b with
  | some b => readSource (putCat s id { x with block := some b }) id { x with block := some b } k c n f layer b
  | none =>
    if x.awaited = some 0 && (recallsFrom s 0).isEmpty then layerDone s id x 0x19 0
    else if x.awaited = some 0 then s
    else putCat (demote s 0) id { x with awaited := some 0 }

/-- A requested demotion (R176). -/
def demoteLayer (s : State) (id : Nat) (x : CatOp) (k : KvSpace) (n : NodeRec) (f layer target : Nat) : State :=
  let h := folHdr s k f
  if h.loans ≠ 0 then layerDone s id x 0x18 0
  else if !attached s target || !onPath h.rclass h.tier target then layerDone s id x 0x17 0
  else
    let rid := s.nextId
    let s := commitRecall s { queue := x.queue, k := k, node := x.args.getD 0 0, layer := layer, fol := f, sm := n.sm, hdr := h } target
    putCat s id { x with awaited := some rid }

/-- One layer of a promotion, as its folio stands. -/
def layerStep (s : State) (id : Nat) (x : CatOp) (k : KvSpace) (c : CatDesc) (n : NodeRec) (f layer : Nat) : State :=
  let h := folHdr s k f
  let target := x.args.getD 4 0
  let hinted := x.args.getD 3 0 = 1 && target = 0
  match mget s.fetches id with
  | some y => if h.fstate = fRecalling then s else sourceStep s id x y k c n f layer
  | none =>
    if h.fstate = fRecalling then s
    else if h.fstate = fDamaged then layerDone s id x 0x13 0
    else if h.fstate = fOpen then layerDone s id x 0x14 0
    else if h.fstate = fSealed && h.tier = target then layerDone s id x 0 0
    else if h.fstate = fSealed && tierUp target < tierUp h.tier then demoteLayer s id x k n f layer target
    else if h.loans = 0 && !hinted then layerDone s id x 0x16 0
    else if h.fstate = fSealed && h.tier = 0 then shelve s id x k f (roomBytes s k h)
    else
      match x.block with
      | some b => readSource s id x k c n f layer b
      | none => needBlock s id x k c n f layer

/-- Whether an earlier promotion of the same grace is still to run (R392). -/
def graceWaits (s : State) (id : Nat) : Bool :=
  s.extents.any fun e => e.2.grace.contains id && (e.2.grace.takeWhile (· != id)).any fun j => (mget s.catOps j).isSome

/-- PROMOTION_RUN (R161, R176): the present layer of a promotion goes on. A record that is malformed or fails ends it with DAMAGED (R4,
R419). -/
def promotionStep (id : Nat) (s : State) : State :=
  match mget s.catOps id with
  | none => s
  | some x =>
    if x.kind < 2 || x.awaited.any (· != 0) || graceWaits s id then s
    else
      let (s, sp) := spacesOf s x.queue
      match sp with
      | none => catEnd s id { x with status := 0x13 }
      | some (k, c) =>
        let (s, n) := nodeRec s k (x.args.getD 0 0)
        match n with
        | none => catEnd s id { x with status := 0x13 }
        | some n =>
          let layer := x.args.getD 1 0 + x.step
          let (s, f) := folioRef s k (x.args.getD 0 0) layer
          match f with
          | none => catEnd s id { x with status := 0x13 }
          | some 0 => layerDone s id x 0x14 0
          | some f =>
            let (s, h) := folRec s k f
            match h with
            | none => catEnd s id { x with status := 0x13 }
            | some _ => layerStep s id x k c n f layer

def execPromotionRun (id : Nat) (s : State) : Out := event (promotionStep id) s

/-! Repair of a folio that a load found failing (R142). -/

/-- No replica verifies: the folio is damaged, and the load faults. -/
def repairFailed (s : State) (id : Nat) (x : KvOp) (k : KvSpace) (h : KvHeld) : State :=
  let s := { damageFolio s k h.fol with fetches := mdel s.fetches id }
  kvEnter s x id (some k) (.fault kvDamaged (x.taddr (64 * h.node)))

/-- A replica that verifies replaces the data at the same DBASE, and the load completes from the folio that it translated (R137). -/
def repaired (s : State) (id : Nat) (x : KvOp) (k : KvSpace) (h : KvHeld) (data : List Byte) : State :=
  let s := writeMem { s with fetches := mdel s.fetches id } h.dbase data .folios true k.kfmt
  let s := touchRead s h.dbase k.fsz
  let (s, r) := kvGive s x k h
  kvEnter s x id (some k) r

/-- REPLICA_REPAIR: the directory's replicas in turn, by the name of the node translated. -/
def repairStep (id : Nat) (s : State) : State :=
  match mget s.kvs id with
  | none => s
  | some x =>
    match x.repair with
    | none => s
    | some h =>
      let (s, k) := kvSpaceOf s x.queue
      match k with
      | none => kvEnter { s with fetches := mdel s.fetches id } x id none (.fault kvInvalid (x.taddr x.pos))
      | some k =>
        match mget s.fetches id with
        | none =>
          let (s, c) := catOf s x.queue
          let (s, nr) := nodeRec s k h.num
          match c, nr with
          | some c, some nr => startFetch s id x.queue c nr.sm (some x.layer)
          | _, _ => repairFailed s id x k h
        | some y =>
          if y.failed then repairFailed s id x k h
          else if !y.full then s
          else
            match fabricData k (folHdr s k h.fol).digest y.data with
            | some (data, _) => repaired s id x k h data
            | none => askNext 8 s id

def execReplicaRepair (id : Nat) (s : State) : Out := event (repairStep id) s

end Sys2Proof.Machine
end

