-- ==== Sys2Proof/Machine/Seal.lean ====
section
/-! DEFINITION. The catalogue engine's operations by record: the seal with its deduplication (R157 to R159), the lookup with its
imports (R165, R175); and deaccession (R166). -/

namespace Sys2Proof.Machine

/-! Seal. -/

/-- Zeros in the slots of a folio that hold no position (R157 step 3). -/
def zeroSlots (s : State) (k : KvSpace) (h : FolHdr) : State :=
  let from_ := popc h.surv 64
  (List.range k.nkvh).foldl (fun s head =>
    (List.range (64 - from_)).foldl (fun s i =>
      let rs := k.rowRanges false h.dbase head (from_ + i) ++ k.rowRanges true h.dbase head (from_ + i)
      rs.foldl (fun s r => writeMem s r.1 (List.replicate r.2 0) .folios true k.kfmt) s) s) s

/-- A tail folio with its seal digest; none where its data fails its check values. -/
def digestFolio (s : State) (k : KvSpace) (h : FolHdr) : State × Option Nat :=
  let s := zeroSlots s k h
  let s := touchRead s h.dbase k.fsz
  if poisonedAt s h.dbase k.fsz then (s, none) else (s, some (sealDigest k (peekBytes s h.dbase k.fsz) h.surv))

/-- A layer of the tail: its folio, its header, its digest. -/
structure TailLayer where
  fol : Nat
  hdr : FolHdr
  digest : Nat
  deriving DecidableEq, Repr

/-- The digests of the tail's folios; the folios whose data fails are DAMAGED, and there are no digests. -/
def digestTail (s : State) (k : KvSpace) : List (Option (Nat × FolHdr)) → State × Option (List TailLayer)
  | [] => (s, some [])
  | l :: ls =>
    match l with
    | none => digestTail s k ls
    | some (f, h) =>
      let (s, d) := digestFolio s k h
      match d with
      | none =>
        let (s, _) := digestTail (damageFolio s k f) k ls
        (s, none)
      | some d =>
        let (s, r) := digestTail s k ls
        (s, r.map ({ fol := f, hdr := h, digest := d } :: ·))

/-- A tail folio as an accession leaves it. -/
def sealedHdr (s : State) (sr : SeqRec) (y : TailLayer) : FolHdr :=
  { y.hdr with fstate := fSealed, digest := y.digest, rclass := sr.rclass, loans := 1, appnxt := 0, lastrel := catClk s }

/-- Accession of the tail (R157 step 6): the node, its outcome. -/
def accession (s : State) (q : Nat) (x : CatAt) (t : NodeRec) (sm parent : Nat) (ls : List TailLayer) : State × Nat :=
  let s := putNode s x.k x.sr.tail { t with sm := sm, parent := parent, nstate := 1, fprint := x.sr.fprint, nsid := x.sr.nsid }
  let s := ls.foldl (fun s y => putFolHdr s x.k y.fol (sealedHdr s x.sr y)) s
  let home := homeChip x.c sm
  let here := x.c.fabon && home == x.c.chipno
  let e : CatEntry :=
    { sm := sm, node := x.sr.tail, estate := eLive, dstate := dstateOf x.c sm, nsid := x.sr.nsid, fprint := x.sr.fprint
      hold := if here then [x.c.chipno + 2 ^ 15, 0, 0, 0, 0, 0] else List.replicate 6 0, home := home }
  let (s, ok) := insertEntry s x.c e
  let s := if here then s else registerHolder s q x.c sm
  (s, if ok then 0 else 0x12)

/-- One layer of a deduplication (Table 7.6): whether it diverges. -/
def dedupLayer (x : CatAt) (n l : Nat) (acc : State × Bool) (y : TailLayer) : State × Bool :=
  let (s, div) := acc
  let k := x.k
  let f := folioNo s k n l
  let dropY (s : State) : State := release (freeBlock s k x.c y.hdr.dbase) x.c 2 y.fol
  if f = 0 then
    let s := putFolHdr s k y.fol (sealedHdr s x.sr y)
    (kvWrite s (k.refAddr n l) (toBytes y.fol 4), div)
  else
    let h := folHdr s k f
    let h := { h with loans := h.loans + 1, rclass := max h.rclass x.sr.rclass }
    let old (s : State) : State := freeStorage s k x.c h
    if h.fstate = fAbsent || h.fstate = fDamaged then
      let s := putFolHdr s k f
        { h with dbase := y.hdr.dbase, surv := y.hdr.surv, digest := y.digest, fstate := fSealed, tier := 0 }
      (release (old s) x.c 2 y.fol, div)
    else if h.tier < 2 then (dropY (putFolHdr s k f h), div)
    else if h.digest = y.digest then
      let s := putFolHdr s k f { h with dbase := y.hdr.dbase, tier := 0 }
      (release (old s) x.c 2 y.fol, div)
    else (dropY (putFolHdr s k f h), true)

/-- Steps 7 to 10 of a seal onto node `n`. -/
def sealFinish (s : State) (id : Nat) (op : CatOp) (x : CatAt) (n st : Nat) : State :=
  let sp := op.args.getD 0 0
  let s := kvWrite s (x.sr.path + 8 * x.sr.npath) (toBytes (n + 2 ^ 32) 8)
  let a := x.k.seqAddr op.seqH
  let s := kvWrite s (a + 0x0C) (toBytes (x.sr.npath + 1) 4)
  let s := kvWrite s (a + 0x18) (toBytes sp 4)
  catEnd s id { op with status := st }

/-- Steps 4 to 6 of a seal; the same state again while a folio of the match is RECALLING (R159). -/
def sealOnto (s0 s : State) (id : Nat) (op : CatOp) (x : CatAt) (t : NodeRec) (parent psm : Nat) (ls : List TailLayer) : State :=
  let toks := tokensAt s t.tokens
  let sm := shelfmarkOf op.key psm x.sr.fprint toks
  let (s, p) := probe s x.k x.c sm x.sr.nsid x.sr.fprint toks parent
  match p with
  | none => catEnd s id { op with status := 0x13 }
  | some none =>
    let (s, st) := accession s op.queue x t sm parent ls
    sealFinish s id op x x.sr.tail st
  | some (some n) =>
    let (s, ml) := layersOf s x.k n
    match ml with
    | .error _ => catEnd s id { op with status := 0x13 }
    | .ok ml =>
      let hs := ml.filterMap fun l => l
      if hs.any fun h => h.2.fstate == fRecalling then s0
      else if hs.any fun h => h.2.loans == loanTop then catEnd s id { op with status := 0x0B }
      else
        let (s, div) := (List.zip (List.range ls.length) ls).foldl (fun acc e => dedupLayer x n e.1 acc e.2) (s, false)
        let s := release s x.c 1 x.sr.tail
        sealFinish s id op x n (if div then 0x11 else 0x10)

/-- SEAL_RUN (R157). -/
def sealStep (id : Nat) (s : State) : State :=
  match mget s.catOps id with
  | none => s
  | some op =>
    if op.kind ≠ 0 then s
    else
      let bad (s : State) : State := catEnd s id { op with status := 0x13 }
      let s0 := s
      let (s, r) := catPre s op.queue op.seqH
      match r with
      | .error _ => bad s
      | .ok x =>
        let (s, t) := nodeRec s x.k x.sr.tail
        let (s, pn) := lastNode s x.sr
        let (s, tl) := layersOf s x.k x.sr.tail
        match t, pn, tl with
        | some t, .ok parent, .ok tl =>
          let (s, pr) := if parent = 0 then (s, some (NodeRec.of 0)) else nodeRec s x.k parent
          match pr with
          | none => bad s
          | some pr =>
            let s := touchRead s t.tokens 256
            let (s, ls) := digestTail s x.k tl
            match ls with
            | none => bad s
            | some ls => sealOnto s0 s id op x t parent pr.sm ls
        | _, _, _ => bad s

def execSealRun (id : Nat) (s : State) : Out := event (sealStep id) s

/-! Lookup. -/

/-- A lookup ends at the fault of an object access (R171). -/
def lookFault (s : State) (id : Nat) (op : CatOp) (e : ObjFault) : State :=
  catEnd s id { op with fault := some (e.code, e.taddr.toNat / 2 ^ 44, e.taddr.toNat % 2 ^ 44) }

/-- Lists a matched node: 24 bytes at its place in the result. -/
def listNode (s : State) (id : Nat) (op : CatOp) (k : KvSpace) (n sm : Nat) (remote : Bool) : State :=
  let (s, ls) := layersOf s k n
  match ls with
  | .error _ => catEnd s id { op with status := 0x13 }
  | .ok ls =>
    let out : W64 := BitVec.ofNat 64 (op.args.getD 3 0)
    let a := objAddr (out.toNat / 2 ^ 44) (out.toNat % 2 ^ 44 + 24 * op.step)
    let (s, r) := xlateAl s ioDie op.queue a 24 1 { cls := clsCopy, rd := false, wr := true }
    match r with
    | .error e => lookFault s id op e
    | .ok (r, l) =>
      let bs := toBytes sm 16 ++ toBytes n 4 ++ toBytes (lowLayers ls) 2 ++ toBytes (if remote then 1 else 0) 2
      let s := { writeCells s r l bs with fetches := mdel s.fetches id }
      putCat s id { op with step := op.step + 1, bytes := op.bytes + 24, parent := n }

/-- What NODEINFO brings: the tokens, and class and digest of each layer. -/
structure NodeInfo where
  sm : Nat
  tokens : List Nat
  layers : List (Nat × Nat)
  deriving DecidableEq, Repr

def NodeInfo.of (nlayer : Nat) (bs : List Byte) : Option NodeInfo :=
  if bs.length ≠ 272 + 33 * nlayer then none
  else some
    { sm := ofBytes (bs.take 16), tokens := tab 64 fun i => ofBytes ((bs.drop (16 + 4 * i)).take 4)
      layers := tab nlayer fun l =>
        let e := bs.drop (272 + 33 * l)
        (ofBytes (e.take 1) % 4, ofBytes ((e.drop 1).take 32)) }

/-- Takes the next record of the import ring: a node number (R165). A malformed ring holds none, and a malformed record names no node
(R4). -/
def takeImport (s : State) (c : CatDesc) : State × Option Nat :=
  if c.implen = 0 then (s, none)
  else
    let (s, h) := ringHead s c.impbase
    match h with
    | none => (s, none)
    | some (prod, cons) =>
      if prod = cons then (s, none)
      else
        let (s, x) := readRecord s (c.impbase + 16 + 16 * (cons % c.implen)) 16
        (engineWrite s (c.impbase + 4) (toBytes (cons + 1) 4),
         x.bind fun x => if nbits x 64 64 = 0 then some (nbits x 0 32) else none)

/-- Whether a LIVE entry of the catalogue names a node that names a folio. -/
def folioListed (s : State) (k : KvSpace) (c : CatDesc) (f : Nat) : Bool :=
  (List.range (2 ^ c.clog2)).any fun i =>
    let a := c.catbase + 64 * i
    (peek s (a + 0x14)).toNat % 4 == eLive &&
      (let n := peekNat s (a + 0x10) 4
       n != 0 && n < k.nodelen && (List.range k.nlayer).any fun l => folioNo s k n l == f)

/-- Whether a folio header is free: no loan and no data of a seal stand in it, and no LIVE entry leads to it. The rule says no more than
"free" (log entry 118). -/
def freeHeader (s : State) (k : KvSpace) (c : CatDesc) (f : Nat) (h : FolHdr) : Bool :=
  (h.fstate == fOpen || h.fstate == fAbsent) && h.loans == 0 && !folioListed s k c f

/-- Writes the imported node, its folios and its entry (R161, R165). -/
def writeImport (s : State) (op : CatOp) (k : KvSpace) (c : CatDesc) (n : Nat) (r : NodeRec) (i : NodeInfo)
    (ls : List (Option (Nat × FolHdr))) : State :=
  let s := engineWrite s r.tokens (i.tokens.flatMap fun t => toBytes t 4)
  let nsid := op.args.getD 5 0
  let fp := op.args.getD 4 0
  let s := putNode s k n { r with sm := i.sm, parent := op.parent, nstate := 1, fprint := fp, nsid := nsid }
  let s := (List.zip ls i.layers).foldl (fun s e => match e.1 with
    | some (f, h) =>
      putFolHdr s k f { h with fstate := fAbsent, dbase := 0, loans := 0, appnxt := 0, rclass := e.2.1, digest := e.2.2 }
    | none => s) s
  (insertEntry s c { sm := i.sm, node := n, estate := eLive, dstate := dstateOf c i.sm, nsid := nsid, fprint := fp, hold := List.replicate 6 0
                     home := homeChip c i.sm }).1

/-- Imports a node that a holder has sent, or ends the lookup as a miss. -/
def importNode (s : State) (id : Nat) (op : CatOp) (k : KvSpace) (c : CatDesc) (sm : Nat) (i : NodeInfo) : State :=
  let (s, n) := takeImport s c
  match n with
  | none => catEnd s id op
  | some n =>
    let (s, r) := nodeRec s k n
    match r with
    | none => catEnd s id op
    | some r =>
      let (s, ls) := layersOf s k n
      match ls with
      | .error _ => catEnd s id op
      | .ok ls =>
        let free := ls.all fun l => l.any fun e => freeHeader s k c e.1 e.2
        if r.nstate ≠ 0 || r.tokens = 0 || hbmTop < r.tokens + 256 || !free || i.sm ≠ sm then catEnd s id op
        else listNode (writeImport s op k c n r i ls) id op k n sm true

/-- One node of a lookup. -/
def lookNode (s : State) (id : Nat) (op : CatOp) (k : KvSpace) (c : CatDesc) (psm : Nat) : State :=
  let tok := op.args.getD 0 0
  let a := objAddr (tok / 2 ^ 44) (tok % 2 ^ 44 + 256 * op.step)
  let (s, r) := xlateAl s ioDie op.queue a 256 1 { cls := clsCopy, rd := true, wr := false }
  match r with
  | .error e => lookFault s id op e
  | .ok (_, l) =>
    let (s, x) := readCells s l
    if (linesOf l).any fun n => poisonedAt s (64 * n) 64 then catEnd s id { op with status := 0x13 }
    else
      let toks := tab 64 fun i => nbits x (32 * i) 32
      let fp := op.args.getD 4 0
      let nsid := op.args.getD 5 0
      let sm := shelfmarkOf op.key psm fp toks
      match mget s.fetches id with
      | some y =>
        if y.failed then catEnd s id op
        else if !y.full then s
        else
          match NodeInfo.of k.nlayer y.data with
          | some i => importNode s id op k c sm i
          | none => askNext 8 s id
      | none =>
        let (s, p) := probe s k c sm nsid fp toks op.parent
        match p with
        | none => catEnd s id { op with status := 0x13 }
        | some (some n) => listNode s id op k n sm false
        | some none =>
          if op.args.getD 2 0 = 1 && c.fabon then startFetch s id op.queue c sm none else catEnd s id op

/-- CATLOOK_RUN (R175): the next node of a lookup. -/
def catlookStep (id : Nat) (s : State) : State :=
  match mget s.catOps id with
  | none => s
  | some op =>
    if op.kind ≠ 1 then s
    else
      let (s, sp) := spacesOf s op.queue
      match sp with
      | none => catEnd s id { op with status := 0x13 }
      | some (k, c) =>
        if op.args.getD 1 0 / 64 ≤ op.step then catEnd s id op
        else
          let (s, pr) := if op.parent = 0 then (s, some (NodeRec.of 0)) else nodeRec s k op.parent
          match pr with
          | none => catEnd s id { op with status := 0x13 }
          | some pr => lookNode s id op k c pr.sm

def execCatlookRun (id : Nat) (s : State) : Out := event (catlookStep id) s

/-! Deaccession (R166). -/

/-- Whether an operation is in progress on a node. A SEAL may come to touch any node that matches its tail. -/
def nodeBusy (s : State) (q n : Nat) : Bool :=
  s.catOps.any fun e => kvName s e.2.queue == kvName s q && (e.2.kind ≤ 1 || e.2.args.getD 0 0 == n)

/-- DEACCESSION: a node none of whose folios holds data or loans leaves the catalogue. -/
def deaccessionStep (q n : Nat) (s : State) : State :=
  let (s, sp) := spacesOf s q
  match sp with
  | none => s
  | some (k, c) =>
    let (s, r) := nodeRec s k n
    match r with
    | none => s
    | some r =>
      let (s, ls) := layersOf s k n
      match ls with
      | .error _ => s
      | .ok ls =>
        let gone := ls.all fun l => l.all fun e => e.2.fstate == fAbsent && e.2.loans == 0
        if r.nstate ≠ 1 || !gone || nodeBusy s q n then s
        else
          let (s, _, es) := visits s c r.sm
          let s := match es.find? fun e => e.2.estate == eLive && e.2.node == n with
            | some (a, e) => engineWrite s a ({ e with estate := eGone } : CatEntry).bytes
            | none => s
          let s := ls.foldl (fun s l => match l with
            | some (f, _) => release s c 2 f
            | none => s) (release s c 1 n)
          s

def execDeaccession (cat node : Nat) (s : State) : Out := event (deaccessionStep cat node) s

end Sys2Proof.Machine
end

