-- ==== Sys2Proof/Machine/Directory.lean ====
section
/-! DEFINITION. The messages of the directory and of folios (R162, R163, R165), and peer accesses (R113, R198, R253): Table 16.4. -/

namespace Sys2Proof.Machine

/-- The shelfmark that a directory message names. -/
def Itk.sm (m : Itk) : Nat := m.opnd + ofBytes (m.payload.take 8) * 2 ^ 64

/-- ITK_DREG (R162): the home lists the sender. -/
def dregStep (chip : Nat) (m : Itk) (s : State) : State :=
  let (s, c) := catOf s m.qg
  match c with
  | some c => if homeChip c m.sm = c.chipno then setHolders s c m.sm (listHolder · chip) else s
  | none => s

def execItkDreg (chip : Nat) (msg : List Byte) (s : State) : Out := event (receive 0x10 chip msg (dregStep chip)) s

/-- ITK_DQUERY: the home answers with its holder list. -/
def dqueryStep (chip : Nat) (m : Itk) (s : State) : State :=
  let (s, c) := catOf s m.qg
  let (s, hold) : State × List Nat := match c with
    | some c =>
      let (s, e) := homeEntry s c m.sm
      (s, match e with
        | some (_, e) => e.hold
        | none => List.replicate 6 0)
    | none => (s, List.replicate 6 0)
  sendMsg s chip 0 0x12 m.qg m.opnd (smHigh m.sm ++ hold.flatMap fun h => toBytes h 2)

def execItkDquery (chip : Nat) (msg : List Byte) (s : State) : Out := event (receive 0x11 chip msg (dqueryStep chip)) s

/-- A list with every number at its first place only. -/
def firstOnly : List Nat → List Nat
  | [] => []
  | k :: l => k :: (firstOnly l).filter (· != k)

/-- The searches that a message of a chip answers. -/
def fetchesFor (s : State) (chip : Nat) (m : Itk) (f : Fetch → Bool) : List Nat :=
  (firstOnly (s.fetches.map (·.1))).filter fun id => match mget s.fetches id with
    | some x => x.asked == some chip && x.queue == m.qg && !x.full && !x.failed && f x
    | none => false

/-- ITK_DLIST: the holders are tried in order, this chip and invalid fields skipped (R163). -/
def dlistStep (chip : Nat) (m : Itk) (s : State) : State :=
  let (s, c) := catOf s m.qg
  let hold := tab 6 fun i => ofBytes ((m.payload.drop (8 + 2 * i)).take 2)
  let l := holderChips hold ((c.map (·.chipno)).getD 1024)
  (fetchesFor s chip m fun x => x.holders.isNone && x.sm == m.sm).foldl (fun s id =>
    match mget s.fetches id with
    | some x => askNext 8 { s with fetches := mput s.fetches id { x with holders := some l, asked := none } } id
    | none => s) s

def execItkDlist (chip : Nat) (msg : List Byte) (s : State) : Out := event (receive 0x12 chip msg (dlistStep chip)) s

/-! Folios. -/

/-- The LIVE node of a shelfmark with its record, both sound (R4, R126). -/
def nodeNamed (s : State) (k : KvSpace) (c : CatDesc) (sm : Nat) : State × Option (Nat × NodeRec) :=
  let (s, _, l) := visits s c sm
  match l.find? fun e => e.2.estate == eLive && e.2.sm == sm with
  | none => (s, none)
  | some e =>
    let (s, r) := nodeRec s k e.2.node
    (s, r.map fun r => (e.2.node, r))

/-- OPND of FDATA: the offset, the layer, and low bits of the shelfmark. -/
def fdataOpnd (sm layer off : Nat) : Nat := off + layer * 2 ^ 32 + sm % 2 ^ 24 * 2 ^ 40

/-- Sends a folio, 4,096 bytes to a frame; `n` bounds the frames. -/
def sendFolio (s : State) (chip q sm layer : Nat) : Nat → Nat → List Byte → State
  | 0, _, _ => s
  | n + 1, off, bs =>
    if bs.isEmpty then s
    else
      sendFolio (sendMsg s chip 1 0x14 q (fdataOpnd sm layer off) (dataPayload (bs.take 4096))) chip q sm layer n (off + 4096) (bs.drop 4096)

/-- What this chip holds of a folio, where it is a verified copy in its stacks or reading room. -/
def heldFolio (s : State) (k : KvSpace) (n layer : Nat) : State × Option (List Byte) :=
  if k.nlayer ≤ layer then (s, none)
  else
    let (s, f) := folioRef s k n layer
    let (s, h) := folRec s k (f.getD 0)
    match h with
    | none => (s, none)
    | some h =>
      if h.fstate ≠ fSealed || 2 ≤ h.tier then (s, none)
      else
        let s := touchRead s h.dbase k.fsz
        let data := peekBytes s h.dbase k.fsz
        if poisonedAt s h.dbase k.fsz || sealDigest k data h.surv ≠ h.digest then (s, none)
        else (s, some (data ++ toBytes h.surv 8))

/-- Class and digest of a layer in NODEINFO: zeros where the node names no folio, or none that is sound. -/
def layerInfo (s : State) (k : KvSpace) (n l : Nat) : List Byte :=
  match (folioRef s k n l).2.bind fun f => (folRec s k f).2 with
  | some h => toBytes h.rclass 1 ++ toBytes h.digest 32
  | none => toBytes 0 33

/-- NODEINFO of a node. -/
def nodeInfo (s : State) (k : KvSpace) (n : Nat) (r : NodeRec) : List Byte :=
  toBytes r.sm 16 ++ (tokensAt s r.tokens).flatMap (fun t => toBytes t 4) ++ (List.range k.nlayer).flatMap (layerInfo s k n)

/-- ITK_FETCH: a holder sends a folio, or a node, or refuses. -/
def fetchFolio (chip : Nat) (m : Itk) (s : State) : State :=
  let layer := ofBytes ((m.payload.drop 8).take 2)
  let (s, sp) := spacesOf s m.qg
  let self := (sp.map fun x => x.2.chipno).getD 0
  let refuse (s : State) : State :=
    sendMsg s chip 1 0x15 m.qg m.opnd (smHigh m.sm ++ toBytes layer 2 ++ toBytes self 2)
  match sp with
  | none => refuse s
  | some (k, c) =>
    let (s, n) := nodeNamed s k c m.sm
    match n with
    | none => refuse s
    | some (n, r) =>
      if layer = 0xFFFF then sendMsg s chip 1 0x16 m.qg m.opnd (nodeInfo s k n r)
      else
        let (s, d) := heldFolio s k n layer
        match d with
        | some bs => sendFolio s chip m.qg m.sm layer (bs.length / 4096 + 1) 0 bs
        | none => refuse s

def execItkFetch (chip : Nat) (msg : List Byte) (s : State) : Out := event (receive 0x13 chip msg (fetchFolio chip)) s

/-- ITK_FDATA: bytes of a folio arrive in order. -/
def fdataStep (chip : Nat) (m : Itk) (s : State) : State :=
  let (s, k) := kvSpaceOf s m.qg
  match k, payloadData m.payload with
  | some k, some d =>
    (fetchesFor s chip m fun x =>
        x.layer == some (nbits m.opnd 32 8) && x.sm % 2 ^ 24 == m.opnd / 2 ^ 40 && x.data.length == nbits m.opnd 0 32).foldl
      (fun s id => match mget s.fetches id with
        | some x =>
          let bs := x.data ++ d
          { s with fetches := mput s.fetches id { x with data := bs, full := k.fsz + 8 ≤ bs.length } }
        | none => s) s
  | _, _ => s

def execItkFdata (chip : Nat) (msg : List Byte) (s : State) : Out := event (receive 0x14 chip msg (fdataStep chip)) s

/-- ITK_NOHOLD: the home clears the holder, and the asker goes on to the next one; an asker tells the home. -/
def noholdStep (chip : Nat) (m : Itk) (s : State) : State :=
  let layer := ofBytes ((m.payload.drop 8).take 2)
  let holder := ofBytes ((m.payload.drop 10).take 2)
  let (s, c) := catOf s m.qg
  let s := match c with
    | some c =>
      if homeChip c m.sm = c.chipno then setHolders s c m.sm fun l => l.map fun h => if h.testBit 15 && h % 1024 == holder then 0 else h
      else if chip = holder then sendMsg s (homeChip c m.sm) 1 0x15 m.qg m.opnd m.payload
      else s
    | none => s
  (fetchesFor s chip m fun x => x.holders.isSome && x.sm == m.sm && x.layer.getD 0xFFFF == layer).foldl (fun s id => askNext 8 s id) s

def execItkNohold (chip : Nat) (msg : List Byte) (s : State) : Out := event (receive 0x15 chip msg (noholdStep chip)) s

/-- ITK_NODEINFO: the node of an import arrives. -/
def nodeinfoStep (chip : Nat) (m : Itk) (s : State) : State :=
  (fetchesFor s chip m fun x => x.layer.isNone && x.holders.isSome && x.sm % 2 ^ 64 == m.opnd).foldl
    (fun s id => match mget s.fetches id with
      | some x => { s with fetches := mput s.fetches id { x with data := m.payload, full := true } }
      | none => s) s

def execItkNodeinfo (chip : Nat) (msg : List Byte) (s : State) : Out := event (receive 0x16 chip msg (nodeinfoStep chip)) s

/-! Peer accesses. -/

/-- Writes logical bytes at once as host or peer traffic (R93). -/
def writeCellsHp (s : State) (r : ObjRec) (l : List LByte) (bs : List Byte) : State :=
  (writeRuns ((List.zip l bs).flatMap fun p => writeNibs r p.1 p.2)).foldl (writeRun .hostPeer) s

/-- Refuses a peer access, with its fault code. -/
def refusePeer (s : State) (chip : Nat) (m : Itk) (code : Nat) : State := sendMsg s chip 3 0x23 m.qg m.opnd (toBytes code 1)

/-- ITK_PREAD: an object's bytes, at most 4,096, translated through queue QG's handle table as a peer-class access. -/
def preadStep (chip : Nat) (m : Itk) (s : State) : State :=
  let n := min 4096 (ofBytes (m.payload.take 4))
  let (s, r) := xlateAl s ioDie (m.qg % 1024) (BitVec.ofNat 64 m.opnd) n 1 { cls := clsPeer, rd := true, wr := false }
  match r with
  | .error e => refusePeer s chip m e.code
  | .ok (_, l) =>
    let (s, x) := readCells s l
    if (linesOf l).any fun i => poisonedAt s (64 * i) 64 then refusePeer s chip m 0x20
    else sendMsg s chip 3 0x22 m.qg m.opnd (dataPayload (toBytes x n))

def execItkPread (chip : Nat) (msg : List Byte) (s : State) : Out := event (receive 0x20 chip msg (preadStep chip)) s

/-- ITK_PWRITE: the layout unit compares each sector once more before it takes a byte; a mismatch that arose inside this chip
(a free choice, sector by sector) is refused with CHECK, and each failed sector is reported (R198). -/
def pwriteStep (chip : Nat) (m : Itk) (s : State) : State :=
  let bs := (payloadData m.payload).getD []
  let (s, r) := xlateAl s ioDie (m.qg % 1024) (BitVec.ofNat 64 m.opnd) bs.length 1 { cls := clsPeer, rd := false, wr := true }
  match r with
  | .error e => refusePeer s chip m e.code
  | .ok (r, l) =>
    let bad := ((linesOf l).map (· / 4)).eraseDups.filter fun k => Config.freeBool s.epoch (7000 + k)
    if bad.isEmpty then writeCellsHp s r l bs
    else refusePeer (bad.foldl (fun s k => addEvent s { code := 0x06, loc := k, detail := [] }) s) chip m 0x20

def execItkPwrite (chip : Nat) (msg : List Byte) (s : State) : Out := event (receive 0x21 chip msg (pwriteStep chip)) s

/-- ITK_PDATA and ITK_PREFUSE: no instruction of this chip makes a peer access, so none waits for an answer. -/
def execItkPdata (chip : Nat) (msg : List Byte) (s : State) : Out := event (receive 0x22 chip msg fun _ s => s) s
def execItkPrefuse (chip : Nat) (msg : List Byte) (s : State) : Out := event (receive 0x23 chip msg fun _ s => s) s

end Sys2Proof.Machine
end

