-- ==== Sys2Proof/Machine/Collect.lean ====
section
/-! DEFINITION. Collectives (R211 to R213, R198): COLL, the joining of the members, their data, and its end; and the loss of a
peer (R398). What a join and its data carry beyond Table 16.3 is the model's own layout (log entry 30). -/

namespace Sys2Proof.Machine

/-! The descriptor (Table 8.10). -/

def Coll.src (x : Coll) : W64 := BitVec.ofNat 64 (nbits x.desc 0 64)
def Coll.dst (x : Coll) : W64 := BitVec.ofNat 64 (nbits x.desc 64 64)
/-- COUNT: elements of a block. -/
def Coll.c (x : Coll) : Nat := nbits x.desc 128 32
def Coll.wire32 (x : Coll) : Bool := x.desc.testBit 160
def Coll.rop (x : Coll) : Nat := nbits x.desc 161 2
def Coll.ovp (x : Coll) : Nat := nbits x.desc 163 2
def Coll.group (x : Coll) : W64 := BitVec.ofNat 64 (nbits x.desc 192 64)
def Coll.bar (x : Coll) : Nat := nbits x.desc 272 16
def Coll.tag (x : Coll) : Nat := nbits x.desc 288 16
def Coll.n (x : Coll) : Nat := x.chips.length
def Coll.reduces (x : Coll) : Bool := 4 ≤ x.op
/-- The reserved fields. -/
def Coll.rsvBad (x : Coll) : Bool :=
  nbits x.desc 165 27 != 0 || nbits x.desc 261 11 != 0 || nbits x.desc 304 16 != 0 || nbits x.desc 320 192 != 0

/-- The format on the wire: FP32 or BF16. -/
def Coll.wireFmt (x : Coll) : Nat := if x.wire32 then 0 else 1

/-- The operand words that the copy entry of a collective carries, in the places of Table 8.4. -/
def Coll.opd (x : Coll) : List W64 :=
  [BitVec.ofNat 64 (nbits x.desc 108 20 + nbits x.desc 256 5 * 2 ^ 34 + x.bar * 2 ^ 48), 0, 0, BitVec.ofNat 64 (x.tag * 2 ^ 48)]

/-! Blocks of an object's logical image (R213). -/

def srcKind : Kind := { cls := clsCopy, rd := true, wr := false }
def dstKind : Kind := { cls := clsCopy, rd := false, wr := true }

/-- Logical bytes that hold a value as pad does. -/
def padCells (x n : Nat) : List LByte := (toBytes x n).map fun b => { lo := .pad (b.toNat % 16), hi := .pad (b.toNat / 16) }

/-- Logical bytes that stand for `n` stored bytes of memory. -/
def memCells (a n : Nat) : List LByte := tab n fun i => { lo := .mem (a + i) false, hi := .mem (a + i) true }

/-- The scale that goes with element `i`: `n` bytes at an offset from the base in a populated region (R116), or the pad value where the
element lies outside the shape (R114). -/
def scaleCells (s : State) (r : ObjRec) (i : Nat) (wr : Bool) (off n pad : Nat) : State × Except Nat (List LByte) :=
  let c := r.coordOf i
  let (s, e) := xlateElem s r c wr
  (s, match e with
    | .error e => .error e
    | .ok .pad => .ok (padCells pad n)
    | .ok (.at ba) =>
      let a := (ba - r.bitOff c) / 8 + off
      if bytesPopulated s a n then .ok (memCells a n) else .error oBase)

/-- The block scales of `n` blocks of eight elements from element `i`. -/
def blockScales (s : State) (r : ObjRec) (i : Nat) (wr : Bool) : Nat → State × Except Nat (List LByte)
  | 0 => (s, .ok [])
  | n + 1 =>
    let (s, e) := scaleCells s r i wr (r.blockOff (r.coordOf i)) 1 (nbits r.padv 8 8)
    match e with
    | .error e => (s, .error e)
    | .ok l =>
      let (s, t) := blockScales s r (i + 8) wr n
      (s, t.map (l ++ ·))

/-- The scales of the 128 elements from `i` of an E2M1 object of rank 1: 16 block scales and the band scale of row 0 (R111). -/
def groupScales (s : State) (r : ObjRec) (i : Nat) (wr : Bool) : State × Except Nat (List LByte) :=
  let (s, l) := blockScales s r i wr 16
  match l with
  | .error e => (s, .error e)
  | .ok l =>
    let (s, b) := scaleCells s r i wr (r.bandOff (r.coordOf i)) 2 (nbits r.padv 16 16)
    (s, b.map (l ++ ·))

/-- The scales of `n` groups of 128 elements, each after its elements, whose logical bytes are given. -/
def withScales (s : State) (r : ObjRec) (h i : Nat) (wr : Bool) : Nat → List LByte → State × Except ObjFault (List LByte)
  | 0, _ => (s, .ok [])
  | n + 1, l =>
    let (s, g) := groupScales s r i wr
    match g with
    | .error e => (s, .error { code := e, taddr := objAddr h (i / 2) })
    | .ok g =>
      let (s, t) := withScales s r h (i + 128) wr n (l.drop 64)
      match t with
      | .error e => (s, .error e)
      | .ok t => (s, .ok (l.take 64 ++ g ++ t))

/-- The nibbles at the edges that do not belong to a range. -/
def trimCells (odd : Bool) (nibs : Nat) (l : List LByte) : List LByte :=
  let l := match l, odd with
    | c :: t, true => { c with lo := .pad 0 } :: t
    | l, _ => l
  if ((if odd then 1 else 0) + nibs) % 2 = 0 then l
  else (l.dropLast) ++ (l.getLast?.map fun c => { c with hi := .pad 0 }).toList

/-- Where the elements of a block begin and what they take, in nibbles from LOFS. -/
def blockNibs (r : ObjRec) (c b : Nat) : Nat × Nat := (b * c * r.w / 4, c * r.w / 4)

/-- The logical bytes of block `b` of `c` elements of an object from an object address, all translated: for E2M1 with their
scales. `wr` says that they are to be written. -/
def blockCells (s : State) (core q : Nat) (addr : W64) (c b : Nat) (k : Kind) : State × Except ObjFault (ObjRec × List LByte) :=
  let (s, r) := recFor s core q (addr.toNat / 2 ^ 44) k
  match r with
  | .error e => (s, .error { code := e, taddr := addr })
  | .ok r =>
    let (o, n) := blockNibs r c b
    let lofs := addr.toNat % 2 ^ 44 + o / 2
    if lofs % max 1 (r.w / 8) ≠ 0 then (s, .error { code := oAlign, taddr := addr })
    else
      let (s, l) := logicalBytes s r (addr.toNat / 2 ^ 44) lofs k.wr ((o % 2 + n + 1) / 2)
      match l with
      | .error e => (s, .error e)
      | .ok l =>
        if r.isE2M1 then
          let (s, l) := withScales s r (addr.toNat / 2 ^ 44) (2 * lofs) k.wr (c / 128) l
          match l with
          | .error e => (s, .error e)
          | .ok l => (s, .ok (r, l))
        else (s, .ok (r, trimCells (o % 2 == 1) n l))

/-- Whether a block begins in a high nibble. -/
def oddBlock (r : ObjRec) (c b : Nat) : Bool := (blockNibs r c b).1 % 2 == 1

/-- Bytes of a block as it travels. -/
def Coll.blockLen (x : Coll) (w : Nat) (e2m1 : Bool) : Nat :=
  if x.reduces then x.c * (if x.wire32 then 4 else 2)
  else if e2m1 then x.c / 128 * 82
  else ceilDiv (x.c * w) 8

/-- The value of a block as it travels: the bytes of its elements, converted for the wire by a reduction. -/
def Coll.wireBytes (x : Coll) (r : ObjRec) (b v : Nat) : List Byte :=
  let v := if oddBlock r x.c b then v / 16 else v
  if x.reduces then
    let ww := if x.wire32 then 32 else 16
    toBytes (packElems ww (tab x.c fun i => (convert (fmtDecode r.fmt (elem v r.w i)) x.wireFmt .rne .sat).code)) (x.c * ww / 8)
  else toBytes v (x.blockLen r.w r.isE2M1)

/-! Who sends what to whom (Table 8.11). -/

/-- The SRC block that goes to the member of rank `q`. -/
def Coll.blockFor (x : Coll) (q : Nat) : Nat := if x.op = 2 || x.op = 3 || x.op = 4 then q else 0
def Coll.sends (x : Coll) (r q : Nat) : Bool :=
  match x.op with
  | 0 => r == 0
  | 2 => r == 0
  | 6 => q == 0
  | _ => true
/-- The DST block that the data of rank `r` goes to. -/
def Coll.blockOf (x : Coll) (r : Nat) : Nat := if x.op = 1 || x.op = 3 then r else 0
/-- The ranks whose data this member takes. -/
def Coll.sources (x : Coll) : List Nat := (List.range x.n).filter fun r => x.sends r x.rank

/-! Members. -/

/-- What every member must name alike: operation, COUNT, WIRE, ROP, NMEM and entries. -/
def Coll.terms (x : Coll) : List Byte :=
  toBytes x.op 1 ++ toBytes x.c 4 ++ toBytes (if x.wire32 then 1 else 0) 1 ++ toBytes x.rop 1 ++ toBytes x.n 2 ++
    x.chips.flatMap fun q => toBytes q 2

def earlyKey (gid tag chip : Nat) : Nat := (gid * 2 ^ 16 + tag) * 1024 + chip

/-- Tells the other members that this one has joined (`st` 0), or has ended without success. -/
def tellMembers (s : State) (x : Coll) (st : Nat) : State :=
  let others := (List.zip (List.range x.n) x.chips).filter fun e => e.1 != x.rank
  others.foldl (fun s e => sendMsg s e.2 2 0x30 x.gid (x.tag * 2 ^ 48) (toBytes st 1 ++ x.terms)) s

def Member.none : Member := { joined := false, desc := [], bad := 0, data := [] }
def Coll.member (x : Coll) (r : Nat) : Member := (mget x.members r).getD Member.none

/-- The collective of this chip that a member's message belongs to, with the member's rank. -/
def collFor (s : State) (gid tag chip : Nat) (f : Member → Bool) : Option (Nat × Coll × Nat) :=
  s.colls.findSome? fun e =>
    if e.2.gid == gid && e.2.tag == tag then
      match e.2.chips.findIdx? (· == chip) with
      | some r => if r != e.2.rank && f (e.2.member r) then some (e.1, e.2, r) else none
      | none => none
    else none

def putColl (s : State) (id : Nat) (x : Coll) : State := { s with colls := mput s.colls id x }

/-- What a chip has told of the collectives of one (GID, TAG) that this chip has not started. -/
def peerJoins (s : State) (key : Nat) : PeerJoins := (mget s.early key).getD { joins := [], owed := 0 }

def putJoins (s : State) (key : Nat) (j : PeerJoins) : State :=
  { s with early := if j.joins.isEmpty && j.owed = 0 then mdel s.early key else mput s.early key j }

/-- A member joins. The n-th join of a chip under one (GID, TAG) belongs to the n-th collective of that name here (log entry 133). -/
def joinStep (s : State) (gid tag chip : Nat) (y : Member) : State :=
  let key := earlyKey gid tag chip
  let j := peerJoins s key
  if j.owed ≠ 0 then putJoins s key { j with owed := j.owed - 1 }
  else
    match collFor s gid tag chip fun e => !e.joined with
    | some (id, x, r) => putColl s id { x with members := mput x.members r { y with data := (x.member r).data } }
    | none => putJoins s key { j with joins := j.joins ++ [y] }

/-- A member has ended without success the collective that it joined last. Of one that has ended here too there is nothing more to be
told. -/
def leaveStep (s : State) (gid tag chip st : Nat) : State :=
  let key := earlyKey gid tag chip
  let j := peerJoins s key
  match j.joins.getLast? with
  | some y => if y.bad = 0 then putJoins s key { j with joins := j.joins.dropLast ++ [{ y with bad := st }] } else s
  | none =>
    match collFor s gid tag chip fun e => e.joined && e.bad == 0 with
    | some (id, x, r) => putColl s id { x with members := mput x.members r { x.member r with bad := st } }
    | none => s

/-- CJOIN: a member joins, or says that the collective has ended there. -/
def cjoinStep (chip : Nat) (m : Itk) (s : State) : State :=
  let tag := m.opnd / 2 ^ 48
  let st := ofBytes (m.payload.take 1)
  if st = 0 then joinStep s m.qg tag chip { joined := true, desc := (m.payload.drop 1).map (·.toNat), bad := 0, data := [] }
  else leaveStep s m.qg tag chip st

def execItkCjoin (chip : Nat) (msg : List Byte) (s : State) : Out := event (receive 0x30 chip msg (cjoinStep chip)) s

/-- CDATA: bytes of a member's block, at the offset that OPND names. -/
def cdataStep (chip : Nat) (m : Itk) (s : State) : State :=
  match collFor s m.qg (m.opnd / 2 ^ 48) chip (fun e => e.joined), payloadData m.payload with
  | some (id, x, r), some d =>
    let e := x.member r
    let o := m.opnd % 2 ^ 48
    let data := (List.zip (List.range d.length) d).foldl (fun t p => mput t (o + p.1) p.2) e.data
    putColl s id { x with members := mput x.members r { e with data := data } }
  | _, _ => s

def execItkCdata (chip : Nat) (msg : List Byte) (s : State) : Out := event (receive 0x31 chip msg (cdataStep chip)) s

/-! The end. -/

/-- The joins that are still to come to a collective that ends here: those of its members that have not joined. -/
def oweJoins (s : State) (x : Coll) : State :=
  ((List.zip (List.range x.n) x.chips).filter fun e => e.1 != x.rank && !(x.member e.1).joined).foldl (fun s e =>
    let key := earlyKey x.gid x.tag e.2
    putJoins s key { peerJoins s key with owed := (peerJoins s key).owed + 1 }) s

/-- A collective ends without success: its barrier is poisoned (R199), and the other members are told. -/
def collFail (s : State) (id : Nat) (x : Coll) (y : Copy) (st fcode : Nat) (addr : W64) : State :=
  let s := oweJoins (tellMembers s x st) x
  let s := updBar s (x.copyKey / 4096) y.bar poisBar
  let lofs := addr.toNat % 2 ^ 44
  copyEnd { s with colls := mdel s.colls id } x.copyKey
    { y with status := st, fcode := fcode, fhandle := addr.toNat / 2 ^ 44, fc := [lofs % 2 ^ 32, lofs / 2 ^ 32, 0, 0] }

/-- A fault of this member. -/
def collFault (s : State) (id : Nat) (x : Coll) (y : Copy) (e : ObjFault) : State := collFail s id x y 7 e.code e.taddr

/-- The fault codes that records hold (Table 8.8). -/
def recordCodes : List Nat := List.range 9 ++ [0x10, 0x11, 0x12, 0x13, 0x14, 0x15, 0x18, 0x19, 0x20, 0x21, 0x22]

/-- A fault of another member: what this chip's record says of it is not stated, one of the codes of Table 8.8. -/
def collFault2 (s : State) (id : Nat) (x : Coll) (y : Copy) : State :=
  collFail s id x y 7 (recordCodes.getD (Config.freeNat s.epoch 881 % recordCodes.length) 0) (Config.freeBits s.epoch 882 64)

/-- A unit that fails its check values (R197, R198): status CHECK, and the barrier is poisoned; each failed sector is reported. -/
def collCheck (s : State) (core : Nat) (y : Copy) (secs : List Nat) (addr : Nat) : State × Copy :=
  let s := secs.foldl (fun s k => addEvent s { code := 0x06, loc := k, detail := [] }) s
  (updBar s core y.bar poisBar,
   if y.fcode = 0x20 then y
   else { y with status := 4, fcode := 0x20, fhandle := addr / 2 ^ 44, fc := [addr % 2 ^ 32, addr % 2 ^ 44 / 2 ^ 32, 0, 0] })

/-! Sending. -/

/-- Sends a block in frames of 4,096 bytes; `n` bounds them. -/
def sendBlock (s : State) (chip : Nat) (x : Coll) : Nat → Nat → List Byte → State
  | 0, _, _ => s
  | n + 1, off, bs =>
    if bs.isEmpty then s
    else
      sendBlock (sendMsg s chip 2 0x31 x.gid (off + x.tag * 2 ^ 48) (dataPayload (bs.take 4096))) chip x n (off + 4096) (bs.drop 4096)

/-- Reads the SRC block for a member: its bytes for the wire. Bytes of a sector that fails its check values are undefined. -/
def readBlock (s : State) (x : Coll) (y : Copy) (q : Nat) : State × Copy × Except ObjFault (List Byte) :=
  let core := x.copyKey / 4096
  let b := x.blockFor q
  let (s, l) := blockCells s core x.queue x.src x.c b srcKind
  match l with
  | .error e => (s, y, .error e)
  | .ok (r, l) =>
    let (s, v) := readCells s l
    let bs := x.wireBytes r b v
    let bad := (((linesOf l).map (· / 4)).eraseDups).filter (sectorFails s)
    if !bad.isEmpty then
      let (s, y) := collCheck s core y bad x.src.toNat
      (s, y, .ok (toBytes (Config.freeBits s.epoch (883 + q) (8 * bs.length)).toNat bs.length))
    else (s, y, .ok bs)

/-- Sends this member's blocks; its own block for itself joins the others' data. -/
def sendAll (s : State) (x : Coll) (y : Copy) : List Nat → State × Coll × Copy × Option ObjFault
  | [] => (s, { x with sent := true }, y, none)
  | q :: qs =>
    if !x.sends x.rank q then sendAll s x y qs
    else
      let (s, y, bs) := readBlock s x y q
      match bs with
      | .error e => (s, x, y, some e)
      | .ok bs =>
        if q = x.rank then
          let data := List.zip (List.range bs.length) bs
          sendAll s { x with members := mput x.members q { x.member q with data := data } } y qs
        else sendAll (sendBlock s (x.chips.getD q 0) x (bs.length / 4096 + 1) 0 bs) x y qs

/-! Writing. -/

/-- The wire value of element `i` of a member's data. -/
def Coll.wireElem (x : Coll) (r i : Nat) : Nat :=
  let n := if x.wire32 then 4 else 2
  ofBytes (tab n fun j => byteAt (x.member r).data (n * i + j))

/-- Op of a reduction. A maximum or minimum with one NaN is not stated; it is the same on every member. -/
def Coll.reduce2 (x : Coll) (a b : Nat) : Nat :=
  let t := x.wireFmt
  let d := fmtDecode t
  if x.rop = 0 then (convert (numAdd .rne (d a) (d b)).1 t .rne .inf).code
  else if (isNan (d a) || isNan (d b)) && Config.freeBool 0 880 then (ffmt t).qnan
  else floatPick (x.rop == 1) t a b

/-- The result of a reduction as codes of DST's format, packed (R213). -/
def Coll.reduced (x : Coll) (fmt w : Nat) : Nat :=
  packElems w (tab x.c fun i =>
    let a := (List.range x.n).tail.foldl (fun a r => x.reduce2 a (x.wireElem r i)) (x.wireElem 0 i)
    (convert (fmtDecode x.wireFmt a) fmt .rne (policyOf x.ovp)).code)

/-- The 2 KiB block of the stored bits of a nibble; under bit-plane, that of its bit 0 (log entry 112). -/
def Nib.unit (x : Nib) : Option Nat :=
  match x with
  | .pad _ => none
  | .mem a _ => some (a / 2048)
  | .planes ba => some (ba / 8 / 2048)

/-- The unit of a logical byte. -/
def LByte.unit (b : LByte) : Option Nat := b.lo.unit.orElse fun _ => b.hi.unit

/-- A logical byte that a collective writes: its value, whether it counts a byte, and the LOFS of its element. -/
structure CollCell where
  cell : LByte
  val : Byte
  counts : Bool
  lofs : Nat
  deriving DecidableEq, Repr

/-- The two nibbles of a byte apart, where they lie in different units: the byte counts with the first. -/
def splitCell (p : CollCell) : List CollCell :=
  match p.cell.lo.unit, p.cell.hi.unit with
  | some a, some b =>
    if a = b then [p] else [{ p with cell := { p.cell with hi := .pad 0 } }, { p with cell := { p.cell with lo := .pad 0 }, counts := false }]
  | _, _ => [p]

/-- Writes cells as traffic of collectives (R93). -/
def writeColl (s : State) (r : ObjRec) (l : List CollCell) : State :=
  sendHost ((writeRuns (mergeWrites (l.flatMap fun p => writeNibs r p.cell p.val))).foldl (writeRun .collectives) s)
    ((linesOf (l.map (·.cell))).map (64 * ·))

/-- LOFS of the element to which byte `k` of a block belongs, from the block's first: an E2M1 group of 128 elements has 64 bytes of
data, then its 16 block scales, then its band scale. -/
def cellLofs (e2m1 : Bool) (k : Nat) : Nat :=
  if e2m1 then k / 82 * 64 + (if k % 82 < 64 then k % 82 else if k % 82 < 80 then 4 * (k % 82 - 64) else 0) else k

/-- The sectors that logical bytes touch. -/
def cellSectors (l : List LByte) : List Nat := ((l.flatMap fun b => b.lo.bytes ++ b.hi.bytes).map (· / 256)).eraseDups

/-- The sectors of a unit whose copies have failed twice: a free choice of one or more of those that it touches. -/
def failedSectors (s : State) (u : Nat) (secs : List Nat) : List Nat :=
  match secs.filter fun k => Config.freeBool s.epoch (10 ^ 8 + k) with
  | [] => (secs[Config.freeNat s.epoch (1000 + u) % secs.length]?).toList
  | l => l

/-- Writes one unit and counts it. A unit from outside may fail its check values twice, a free choice: no byte of it is written,
it is not counted, and each sector that has failed is reported (R198). -/
def writeUnit (x : Coll) (r : ObjRec) (outside : Bool) (l : List CollCell) (m : State × Copy) (u : Nat) : State × Copy :=
  let core := x.copyKey / 4096
  let mine := l.filter fun p => p.cell.unit == some u
  if outside && Config.freeBool m.1.epoch (1000 + u) then
    let first := mine.foldl (fun o p => min o p.lofs) (2 ^ 44)
    collCheck m.1 core m.2 (failedSectors m.1 u (cellSectors (mine.map (·.cell)))) (x.dst.toNat / 2 ^ 44 * 2 ^ 44 + first)
  else
    let n := (mine.filter (·.counts)).length
    (updBar (writeColl m.1 r mine) core m.2.bar (countBar · n), { m.2 with counted := m.2.counted + n })

/-- Writes block `b` of DST with a value, unit by unit. -/
def writeBlock (s : State) (x : Coll) (y : Copy) (b : Nat) (outside : Bool) (value : ObjRec → Nat) : State × Copy × Option ObjFault :=
  let (s, l) := blockCells s (x.copyKey / 4096) x.queue x.dst x.c b dstKind
  match l with
  | .error e => (s, y, some e)
  | .ok (r, l) =>
    let v := if oddBlock r x.c b then value r * 16 else value r
    let lofs := x.dst.toNat % 2 ^ 44 + b * x.c * r.w / 8
    let cells := (List.zip (List.range l.length) (List.zip l (toBytes v l.length))).flatMap fun p =>
      splitCell { cell := p.2.1, val := p.2.2, counts := true, lofs := lofs + cellLofs r.isE2M1 p.1 }
    let units := (cells.filterMap fun p => p.cell.unit).eraseDups
    let m := units.foldl (writeUnit x r outside cells) (s, y)
    (m.1, m.2, none)

/-- Writes the blocks that the ranks have sent. -/
def writeAll (s : State) (x : Coll) (y : Copy) : List Nat → State × Copy × Option ObjFault
  | [] => (s, y, none)
  | r :: rs =>
    let v := ofBytes ((x.member r).data.map (·.2))
    let (s, y, e) := writeBlock s x y (x.blockOf r) (r != x.rank) fun _ => v
    match e with
    | some e => (s, y, some e)
    | none => writeAll s x y rs

/-- Everything has arrived: DST is written, and the collective ends. -/
def collFinish (s : State) (id : Nat) (x : Coll) (y : Copy) : State :=
  let (s, y, e) :=
    if x.reduces then
      if x.sources.isEmpty then (s, y, none) else writeBlock s x y 0 (1 < x.n) fun r => x.reduced r.fmt r.w
    else writeAll s x y x.sources
  match e with
  | some e => collFault s id x y e
  | none => copyEnd { s with colls := mdel s.colls id } x.copyKey y

/-! Progress. -/

def Coll.allJoined (x : Coll) : Bool := (List.range x.n).all fun r => r == x.rank || (x.member r).joined
/-- Whether the members that have joined name the same collective. -/
def Coll.alike (x : Coll) : Bool :=
  x.members.all fun e => e.1 == x.rank || !e.2.joined || e.2.desc == x.terms.map (·.toNat)
/-- The status with which a member has ended the collective. -/
def Coll.ended? (x : Coll) : Option Nat := (x.members.find? fun e => e.2.bad != 0).map (·.2.bad)
def Coll.peerLost (s : State) (x : Coll) : Bool :=
  (List.zip (List.range x.n) x.chips).any fun e => e.1 != x.rank && unreachable s e.2 2

/-- Whether all the data that this member takes has arrived. -/
def Coll.full (s : State) (x : Coll) : Bool :=
  let len := match (recFor s (x.copyKey / 4096) x.queue (x.dst.toNat / 2 ^ 44) dstKind).2 with
    | .ok r => x.blockLen r.w r.isE2M1
    | .error _ => 0
  x.sources.all fun r => len ≤ (x.member r).data.length

/-- The collective that a copy entry stands for. -/
def collOf (s : State) (key : Nat) : Option (Nat × Coll) := s.colls.find? fun e => e.2.copyKey == key

/-- Whether a collective can go on. -/
def collReady (s : State) (key : Nat) (y : Copy) : Bool :=
  y.op == 0x12 && !y.ended && match collOf s key with
    | some (_, x) =>
      x.ended?.isSome || !x.alike || x.peerLost s || (x.allJoined && !copyBlocked s key y && (!x.sent || x.full s))
    | none => false

/-- What a collective does next (R212). -/
def collAdvance (s : State) (key : Nat) (y : Copy) : State :=
  match collOf s key with
  | none => s
  | some (id, x) =>
    match x.ended? with
    | some 7 => collFault2 s id x y
    | some st => collFail s id x y st 0 0
    | none =>
      if !x.alike then collFail s id x y 0x0A 0 0
      else if x.peerLost s then collFail s id x y 0x0B 0 0
      else if !x.sent then
        let (s, x, y, e) := sendAll s x y (List.range x.n)
        match e with
        | some e => collFault s id x y e
        | none => putColl (putCopy s key y) id x
      else collFinish s id x y

/-- COLLECTIVE_TIMEOUT (R212). -/
def collTimeoutStep (id : Nat) (s : State) : State :=
  match mget s.colls id with
  | some x =>
    match mget s.copies x.copyKey with
    | some y =>
      if !x.allJoined && x.since + s.limits.collLimit * 1500000000 ≤ s.uclock then collFail s id x y 0x0B 0 0 else s
    | none => s
  | none => s

def execCollectiveTimeout (id : Nat) (s : State) : Out := event (collTimeoutStep id) s

/-! COLL. -/

/-- GID and the entries of a group record, read as the copy engine reads: none where it breaks R212. -/
def readGroup (s : State) (x : Coll) : State × Except ObjFault (Option (Nat × List Nat)) :=
  let kind := srcKind
  let (s, h) := xlateAl s (x.copyKey / 4096) x.queue x.group 8 1 kind
  match h with
  | .error e => (s, .error e)
  | .ok (_, l) =>
    let (s, v) := readCells s l
    let n := nbits v 32 11
    if n = 0 || 1024 < n || nbits v 43 21 ≠ 0 then (s, .ok none)
    else
      let (s, e) := xlateAl s (x.copyKey / 4096) x.queue (objAddr (x.group.toNat / 2 ^ 44) (x.group.toNat + 8)) (4 * n) 1 kind
      match e with
      | .error e => (s, .error e)
      | .ok (_, l) =>
        let (s, w) := readCells s l
        let es := tab n fun i => nbits w (32 * i) 32
        (s, .ok (if es.all (· < 1024) then some (nbits v 0 32, es) else none))

/-- Formats of a reduction. -/
def redFmt (r : ObjRec) : Bool := r.fmt ≤ 4 || r.fmt == 6

/-- Whether formats or E2M1 alignment break R213. -/
def Coll.badFmt (x : Coll) (a b : ObjRec) : Bool :=
  if x.reduces then !redFmt a || !redFmt b || x.rop == 3 || policyOf x.ovp == .trap
  else
    a.fmt != b.fmt ||
      (a.isE2M1 && (a.rankm1 != 0 || b.rankm1 != 0 || a.layout != 1 || b.layout != 1 || x.src.toNat % 64 != 0 || x.dst.toNat % 64 != 0 ||
        x.c % 128 != 0))

/-- The sub-tiles of the blocks that a collective touches in an object (R191). -/
def collFoot (h : Nat) (r : ObjRec) (lofs c : Nat) (bs : List Nat) (wr : Bool) : List Foot :=
  let subs := bs.flatMap fun b => (tab c fun i =>
    let li := lofs * 8 / r.w + b * c + i
    if li < r.nelem then [r.subTile (r.coordOf li)] else []).flatten
  subs.eraseDups.map fun n => { handle := some h, tile := false, lo := n, n := 1, wr := wr }

def Coll.foot (x : Coll) (a b : ObjRec) : List Foot :=
  collFoot (x.src.toNat / 2 ^ 44) a (x.src.toNat % 2 ^ 44) x.c
      (((List.range x.n).filter fun q => x.sends x.rank q).map x.blockFor).eraseDups false ++
    collFoot (x.dst.toNat / 2 ^ 44) b (x.dst.toNat % 2 ^ 44) x.c (x.sources.map x.blockOf).eraseDups true

/-- Starts an accepted collective: the members that have joined already are known. -/
def collStart (s : State) (x : Coll) (y : Copy) (fault : Option ObjFault) : State :=
  let key := x.copyKey
  let id := s.nextId
  let s := { s with nextId := id + 1 }
  let found := ((List.zip (List.range x.n) x.chips).filter fun e => e.1 != x.rank).filterMap fun e =>
    ((peerJoins s (earlyKey x.gid x.tag e.2)).joins.head?).map fun m => (e.1, e.2, m)
  let s := found.foldl (fun s e =>
    let key := earlyKey x.gid x.tag e.2.1
    putJoins s key { peerJoins s key with joins := (peerJoins s key).joins.drop 1 }) s
  let x := { x with members := found.foldl (fun t e => mput t e.1 e.2.2) [], since := s.uclock }
  let s := putColl (putCopy s key { y with num := id }) id x
  let s := tellMembers s x 0
  match fault with
  | some e => collFault s id x { y with num := id } e
  | none => s

/-- The records of SRC and DST. -/
def Coll.recs (s : State) (x : Coll) : State × Except ObjFault (ObjRec × ObjRec) :=
  let core := x.copyKey / 4096
  let (s, a) := recFor s core x.queue (x.src.toNat / 2 ^ 44) srcKind
  let (s, b) := recFor s core x.queue (x.dst.toNat / 2 ^ 44) dstKind
  (s, match a, b with
    | .error e, _ => .error { code := e, taddr := x.src }
    | _, .error e => .error { code := e, taddr := x.dst }
    | .ok a, .ok b => .ok (a, b))

/-- The acceptance of a collective (R189, R211 to R213): a status that turns it away, or its start. -/
def collAccept (i : Instr) (f : CQ) (x : Coll) (s : State) : State :=
  let y := newCopy 0x12 x.opd false s
  let (s, g) := readGroup s x
  let (s, rd) := x.recs s
  let bad := x.rsvBad || (match rd with
    | .ok (a, b) => x.badFmt a b
    | .error _ => x.reduces && (x.rop == 3 || policyOf x.ovp == .trap)) || (match g with
    | .ok none => true
    | _ => false)
  let (s, c) := catOf s x.queue
  let chip := (c.map (·.chipno)).getD 1024
  let (gid, chips) := match g with
    | .ok (some e) => e
    | _ => (0, [chip])
  let barBad := x.bar ≠ noBar && !rangeInShare (cur s) (curCore s) (8 * x.bar) 8
  let fault : Option ObjFault := match g, rd with
    | .error e, _ => some e
    | _, .error e => some e
    | _, _ => if barBad then some { code := 0x21, taddr := x.dst } else none
  if bad then cqResult i f 3 s
  else
    match chips.findIdx? (· == chip) with
    | none => cqResult i f 9 s
    | some rank =>
      match refuses s x.bar with
      | some st => cqResult i f st s
      | none =>
        let key := (freeKey s s.iss.core 0 64).getD (4096 * s.iss.core)
        let x := { x with copyKey := key, gid := gid, rank := rank, chips := chips }
        let y := match rd with
          | .ok (a, b) => { y with shape := some a.shape, dshape := some b.shape, foot := x.foot a b }
          | .error _ => y
        -- a barrier word outside the share is never counted into
        let y := if barBad then { y with opd := { x with desc := x.desc - x.bar * 2 ^ 272 + noBar * 2 ^ 272 : Coll }.opd } else y
        collStart (cqResult i f 0 s) x y fault

/-- COLL (R211). -/
def collBody (f : CQ) (s : State) : Except TrapReq State :=
  let i := Instr.coll f
  match useS s f.a with
  | .error e => .error e
  | .ok a =>
    let b := BitVec.ofNat 64 (a.toNat % 2 ^ 32)
    if b.toNat % 64 ≠ 0 || !localOk (cur s) (curCore s) b 64 then
      .ok (faultResult i (lat7 f.lat) cLocalRange (BitVec.ofNat 64 (spOff b)) 0 0 s)
    else
      let x : Coll :=
        { copyKey := 4096 * s.iss.core, queue := (cur s).queue, op := f.sh.toNat, desc := ofBytes (localBytes s s.iss.core (cur s) b 64), gid := 0
          rank := 0, chips := [], members := [], since := s.uclock, sent := false }
      .ok (collAccept i f x s)

def execColl (f : CQ) (s : State) : Out := runSyl (.coll f) (collBody f) s

/-! Copies and collectives go on. -/

/-- A copy or a collective goes on by one piece or one unit. -/
def copyStep (core entry : Nat) (failed : Bool) (s : State) : State :=
  let key := 4096 * core + entry
  match mget s.copies key with
  | some x =>
    if collReady s key x then collAdvance s key x
    else if !copyReady s key x then s
    else if x.holding then endOrphan s key x
    else copyAdvance s key x failed
  | none => s

/-- COPY_UNIT_DONE (R187, R195, R197); `failed` says that a unit fails its check values twice. -/
def execCopyUnitDone (core entry : Nat) (failed : Bool) (s : State) : Out := event (copyStep core entry failed) s

/-- COPY_FAULT_REPORT (R207, R208): the copy goes on to the piece at which it faults. -/
def execCopyFaultReport (core entry : Nat) (s : State) : Out := event (copyStep core entry false) s

/-! Loss of a peer. -/

/-- Whether a chip has been silent for PEERTO: it has not been heard in any class. -/
def silent (s : State) (chip : Nat) : Bool :=
  let cs := (tab 4 (connKey chip)).filterMap fun k => (mget s.conns k).filter fun c => !c.lost
  !cs.isEmpty && cs.all fun c => c.heard + s.limits.peerto * 1500000000 ≤ s.uclock

/-- PEERTO_EXPIRY (R398): a chip that has been silent for PEERTO is unreachable; the searches that have asked it go on. -/
def peertoStep (chip : Nat) (s : State) : State :=
  if silent s chip then
    let s := losePeer s chip
    (s.fetches.filter fun e => e.2.asked == some chip && !e.2.full && !e.2.failed).foldl (fun s e =>
      if e.2.holders.isNone then { s with fetches := mput s.fetches e.1 { e.2 with asked := none, failed := true } }
      else askNext 8 s e.1) s
  else s

def execPeertoExpiry (chip : Nat) (s : State) : Out := event (peertoStep chip) s

end Sys2Proof.Machine
end

