-- ==== Sys2Proof/Machine/HostPort.lean ====
section
/-! DEFINITION. The host port: the apertures and BAR0 (R387, R388), host lines in the shelf cache (R389), namespace keys and
secure sessions (R404), measurements (R402), firmware images (R403) and the event ring (R406). -/

namespace Sys2Proof.Machine

/-! BAR0 and the apertures. -/

/-- A 32-bit word of BAR0. -/
def bar0Word (s : State) (o : Nat) : Nat := ((mget s.bar0 (o / 4)).map (·.toNat)).getD 0

/-- An aperture (Table 16.1): its object address, its queue, and whether it is valid. -/
structure Aperture where
  oaddr : Nat
  queue : Nat
  v : Bool
  deriving DecidableEq, Repr

def apertureAt (s : State) (i : Nat) : Aperture :=
  let o := 0x100000 + 16 * i
  { oaddr := bar0Word s o + bar0Word s (o + 4) * 2 ^ 32, queue := nbits (bar0Word s (o + 8)) 0 10, v := (bar0Word s (o + 8)).testBit 10 }

/-- The bits of a word of BAR0 that are not reserved: writes to the others are ignored (R4). -/
def bar0Mask (o : Nat) : W32 :=
  if 0x100000 ≤ o && o < 0x110000 then
    match o % 16 / 4 with
    | 2 => 0x7FF
    | 3 => 0
    | _ => BitVec.allOnes 32
  else BitVec.allOnes 32

/-- The offset of the control register that holds the HBM address of the queue table (R338): a free value below the aperture
table. The spec has the steward place the table and names no place that tells the command processor of it (log entry 15). -/
def qtabReg : Nat := 8 * (Config.freeNat 0 835 % 2 ^ 17)

/-- The address that the register names: bits [47:7] of it. -/
def qtabOf (s : State) : Nat := nbits (bar0Word s qtabReg + bar0Word s (qtabReg + 4) * 2 ^ 32) 7 41 * 128

/-- BAR0_REGISTER_WRITE (R388): a naturally aligned word of BAR0. The words of the queue-table register take effect at once. -/
def bar0Step (o : Nat) (x : W32) (s : State) : State :=
  if o % 4 = 0 && o < 2 ^ 26 then
    let s := { s with bar0 := mput s.bar0 (o / 4) (x &&& bar0Mask o) }
    if o / 8 = qtabReg / 8 then { s with qtab := qtabOf s } else s
  else s

def execBar0RegisterWrite (offset : Nat) (x : W32) (s : State) : Out := event (bar0Step offset x) s

/-- Whether an access of `n` bytes is naturally aligned and at most 64 bytes long. -/
def apertureAligned (o n : Nat) : Bool := [1, 2, 4, 8, 16, 32, 64].contains n && o % n == 0

/-- The queue and the object address that an offset of BAR2 stands for; none where no valid aperture takes it. In recovery BAR2
is not there (R401). -/
def apertureTarget (s : State) (o n : Nat) : Option (Nat × W64) :=
  let a := apertureAt s (o / 2 ^ 26)
  if !s.recovery && o < 2 ^ 38 && apertureAligned o n && a.v then
    some (a.queue, objAddr (a.oaddr / 2 ^ 44) (a.oaddr % 2 ^ 44 + o % 2 ^ 26))
  else none

/-- A failing access of the host: it writes an event record. -/
def hostFault (s : State) (o : Nat) : State := fwEvent s 3 o []

/-- What a word of BAR0 reads as (R387): the aperture table and the queue-table register as they stand; any other register a free
value, since the spec does not say what it holds. -/
def bar0Read (s : State) (o : Nat) : Nat :=
  if 0x100000 ≤ o && o < 0x110000 || o / 8 = qtabReg / 8 then bar0Word s o else (Config.freeBits s.epoch (836000000 + o) 32).toNat

/-- A host read of `n` bytes of BAR0. -/
def bar0ReadStep (o n : Nat) (s : State) : State :=
  if apertureAligned o n && o < 2 ^ 26 then
    let bytes := (List.range (o % 4 + n)).map fun i => BitVec.ofNat 8 (bar0Read s (o / 4 * 4 + i / 4 * 4) / 2 ^ (8 * (i % 4)))
    { s with hostOut := some (.data (bytes.drop (o % 4))) }
  else { s with hostOut := some .unsupported }

/-- HOST_APERTURE_READ (R388). -/
def apertureRead (o n : Nat) (s : State) : State :=
  let fail (s : State) : State := { hostFault s o with hostOut := some .unsupported }
  match apertureTarget s o n with
  | none => fail s
  | some (q, addr) =>
    let (s, r) := xlateAl s ioDie q addr n 1 { cls := clsHost, rd := true, wr := false }
    match r with
    | .error _ => fail s
    | .ok (_, l) =>
      let (s, x) := readCells s l
      { s with hostOut := some (if (linesOf l).any fun i => poisonedAt s (64 * i) 64 then .poisoned else .data (toBytes x n)) }

/-- A read by the host: of BAR2 at its offset, of BAR0 at 2^38 on (log entry 15). -/
def hostRead (o n : Nat) (s : State) : State := if o < 2 ^ 38 then apertureRead o n s else bar0ReadStep (o - 2 ^ 38) n s

def execHostApertureRead (offset n : Nat) (s : State) : Out := event (hostRead offset n) s

/-- HOST_APERTURE_WRITE (R388). -/
def apertureWrite (o : Nat) (bs : List Byte) (s : State) : State :=
  match apertureTarget s o bs.length with
  | none => hostFault s o
  | some (q, addr) =>
    let (s, r) := xlateAl s ioDie q addr bs.length 1 { cls := clsHost, rd := false, wr := true }
    match r with
    | .error _ => hostFault s o
    | .ok (r, l) => writeCellsHp s r l bs

def execHostApertureWrite (offset : Nat) (data : List Byte) (s : State) : Out := event (apertureWrite offset data) s

/-! Host lines (Table 16.2). A line is numbered by host address divided by 64. -/

/-- HOST_SNPDATA: modified data is written back, and the line is shared. -/
def snpData (l : Nat) (s : State) : State :=
  match mget s.hostLines l with
  | none => s
  | some x => { hostGiveUp s l with hostLines := mput s.hostLines l { x with st := .S } }

def execHostSnpdata (line : Nat) (s : State) : Out := event (snpData line) s

/-- A monitor on a host line is woken when the shelf cache loses the line (Table 10.3). -/
def loseHostLine (l : Nat) (s : State) : State :=
  if (mget s.hostLines l).isSome then
    let s := hostGiveUp s l
    { s with woken := s.woken ++ [hostBase / 64 + l] }
  else s

/-- HOST_SNPINV: the line is invalid, and the host writes it: 64 bytes of `data`, or nothing. With no copy in the shelf cache, and
without CXL.cache, this is how the host's own writes to its memory reach the device's reads (R252, log entry 19). -/
def snpInv (l : Nat) (data : List Byte) (s : State) : State :=
  let s := loseHostLine l s
  if data.length = 64 then { s with hostMem := setBytes s.hostMem (64 * l) data, woken := s.woken ++ [hostBase / 64 + l] } else s

def execHostSnpinv (x : HostInv) (s : State) : Out := event (snpInv x.line x.data) s

/-- HOST_LINE_EVICTION: CleanEvict, or DirtyEvict with the data. -/
def execHostLineEviction (line : Nat) (s : State) : Out := event (loseHostLine line) s

/-! The mailbox. -/

/-- SPDM_SECURE_SESSION (R402, R404): of a device whose identity record was accepted. -/
def execSpdmSecureSession (s : State) : Out := event (fun s => { s with spdm := s.identified }) s

/-- SETKEY (R404, R146): inside a secure session a key goes to slot NSID. -/
def setkeyStep (slot : Nat) (nsid : W32) (key : BitVec 256) (s : State) : State :=
  if s.spdm && !s.recovery && slot = nsid.toNat && slot < 4096 then { s with nskeys := mput s.nskeys slot (toBytes key.toNat 32) } else s

def execSetkey (slot : Nat) (nsid : W32) (key : BitVec 256) (s : State) : Out := event (setkeyStep slot nsid key) s

/-- CLEARKEY (R404). -/
def clearkeyStep (slot : Nat) (s : State) : State := if s.spdm && !s.recovery then { s with nskeys := mdel s.nskeys slot } else s

def execClearkey (slot : Nat) (s : State) : Out := event (clearkeyStep slot) s

/-- The images that are active, by their numbers: for some queue, or the newest one, which new queues take. -/
def activeFws (s : State) : List Nat := ((s.queues.map fun e => e.2.fw) ++ [s.fws.length]).eraseDups

/-- The digest of an image; that of the image of reset, 0, the spec does not give. -/
def fwDigest (s : State) (n : Nat) : List Byte :=
  if n = 0 then toBytes (Config.freeBits 0 891 256).toNat 32 else ((s.fws[n - 1]?).map (·.digest)).getD []

/-- GET_MEASUREMENTS (R402): the boot ROM version, the digests of the module record and of the active firmware, and the nonce,
signed with each of the two device keys. A device whose identity record was not accepted has no keys to answer with. -/
def measureStep (nonce : List Byte) (s : State) : State :=
  let body := toBytes (Config.freeNat 0 890) 4 ++ blake3 s.flash ++ (activeFws s).flatMap (fwDigest s) ++ nonce
  { s with measured := if s.identified then some { body := body, sigs := [Config.sign 0 body, Config.sign 1 body] } else none }

def execGetMeasurements (nonce : List Byte) (s : State) : Out := event (measureStep nonce) s

/-- MAILBOX_FIRMWARE_STAGE (R403, R401): an image is accepted only when both of its signatures verify. -/
def stageStep (image : List Byte) (s : State) : State :=
  if !s.recovery && Config.verifies 0 image [] && Config.verifies 1 image [] then
    let info := Config.imageInfo image
    let f : FwImage := { digest := blake3 image, major := info.getD 0 0, minor := info.getD 1 0, layouts := info.drop 2 }
    { s with fws := s.fws ++ [f] }
  else s

def execMailboxFirmwareStage (image : List Byte) (s : State) : Out := event (stageStep image) s

/-- EVENT_RING_NAME (R406): the steward writes its events to a ring in HBM whose header the host names; the header itself
gives its length. -/
def ringNameStep (addr : W64) (s : State) : State :=
  if !s.recovery && addr.toNat % 64 = 0 && addr.toNat < hbmTop then { s with eventRing := addr.toNat } else s

def execEventRingName (addr : W64) (_len : Nat) (s : State) : Out := event (ringNameStep addr) s

end Sys2Proof.Machine
end

