-- ==== Sys2Proof/Machine/Annex.lean ====
section
/-! DEFINITION. The annex extents: their mapping and their release (R390 to R393, R122); and the repository's NVM Express
commands (R394, R395). -/

namespace Sys2Proof.Machine

/-! Extents. -/

def granuleBytes : Nat := 0x10000000
def annexGranules : Nat := (annexEnd - annexBase) / granuleBytes

/-- Whether `n` granules are free from granule `p` of the annex window. -/
def windowFits (s : State) (n p : Nat) : Bool :=
  p + n ≤ annexGranules && (List.range n).all fun i => (mget s.annexMap (p + i)).isNone

/-- Where a first-fit search begins a run of free granules: at the window's first granule and after each one in use. -/
def windowPlaces (s : State) : List Nat := 0 :: s.annexMap.map fun e => e.1 + 1

/-- The steward's place in the annex window for `n` granules: its free choice; where that does not serve, the first place that
does. -/
def windowPlace (s : State) (n : Nat) : Option Nat :=
  let p := Config.freeNat s.epoch 895
  if windowFits s n p then some p else (windowPlaces s).find? (windowFits s n)

/-- Maps `n` granules from granule `p` of the window to a device from `base` on. -/
def mapGranules (s : State) (port base n p : Nat) : State :=
  { s with annexMap := (List.range n).foldl (fun m i => mput m (p + i) { v := true, port := port, base := base + i * granuleBytes }) s.annexMap }

/-- An extent of a dynamic capacity region: one of 8 regions, a multiple of 256 MiB and aligned to it, and not shareable. -/
def offerExtent (port base size region : Nat) (shareable : Bool) (s : State) : State :=
  let n := size / granuleBytes
  if shareable || 4 ≤ port || 8 ≤ region || n = 0 || size % granuleBytes ≠ 0 || base % granuleBytes ≠ 0 then s
  else
    match windowPlace s n with
    | none => s
    | some p =>
      { mapGranules s port base n p with
        nextId := s.nextId + 1, extents := mput s.extents s.nextId { first := p, count := n, since := none, grace := [] } }

/-- A static HDM range: the whole granules in it are mapped, and never asked back. -/
def offerStatic (port base size : Nat) (s : State) : State :=
  let first := ceilDiv base granuleBytes
  let n := (base + size) / granuleBytes - first
  if 4 ≤ port || n = 0 then s
  else
    match windowPlace s n with
    | none => s
    | some p => mapGranules s port (first * granuleBytes) n p

/-- ANNEX_EXTENT_OFFER (R390): a shareable extent is refused; another, or a static range, is mapped in granules of 256 MiB. -/
def offerStep (port base size : Nat) (kind : AnnexRange) (s : State) : State :=
  match kind with
  | .hdm => offerStatic port base size s
  | .extent region shareable => offerExtent port base size region shareable s

def execAnnexExtentOffer (port base size : Nat) (kind : AnnexRange) (s : State) : Out := event (offerStep port base size kind) s

/-- First address of an extent, and the first after it. -/
def Extent.lo (x : Extent) : Nat := annexBase + x.first * granuleBytes
def Extent.hi (x : Extent) : Nat := x.lo + x.count * granuleBytes
def Extent.meets (x : Extent) (a n : Nat) : Bool := a < x.hi && x.lo < a + n

/-! Folios with their images in an extent. -/

/-- Bytes of an image in the annex. -/
def annexImageLen (s : State) (k : KvSpace) (h : FolHdr) : Nat := (mget s.images (imageKey 2 h.dbase)).getD (k.hdrLen + k.bsz)

/-- The folios whose images lie in an extent, DAMAGED ones too. -/
def foliosIn (s : State) (x : Extent) : List FolioAt :=
  (allFolios s).filter fun f =>
    f.hdr.tier == 2 && f.hdr.fstate != fOpen && f.hdr.fstate != fAbsent && x.meets f.hdr.dbase (annexImageLen s f.k f.hdr)

/-- Inserts by shelfmark, then layer. -/
def insertFolio (x : FolioAt) : List FolioAt → List FolioAt
  | [] => [x]
  | y :: ys => if x.sm < y.sm || (x.sm == y.sm && x.layer ≤ y.layer) then x :: y :: ys else y :: insertFolio x ys

/-- The promotions of the grace, in ascending order of shelfmark and layer. -/
def gracePromotions (s : State) (x : Extent) : List FolioAt :=
  ((foliosIn s x).filter fun f => f.hdr.fstate == fSealed && f.hdr.loans != 0).foldr insertFolio []

/-- ANNEX_RELEASE_REQUEST (R392). -/
def askBackStep (id : Nat) (s : State) : State :=
  match mget s.extents id with
  | none => s
  | some x =>
    if x.since.isSome then s
    else
      let s := fwEvent s 4 x.lo [x.lo, x.hi]
      let ps := gracePromotions s x
      let ids := tab ps.length fun i => s.nextId + i
      let ops := (List.zip ids ps).foldl (fun m e =>
        mput m e.1 { kind := 3, queue := e.2.queue, ring := 0, seqH := 0, args := [e.2.node, e.2.layer, 0, 0, 0], key := []
                     step := 0, parent := 0, bytes := 0, status := 0, fault := none, awaited := none, block := none }) s.catOps
      { s with catOps := ops, nextId := s.nextId + ps.length
               extents := mput s.extents id { x with since := some s.uclock, grace := ids } }

def execAnnexReleaseRequest (extent : Nat) (s : State) : Out := event (askBackStep extent) s

/-! The steps of a release. -/

/-- Step 1: new translations to the extent fault. -/
def unmapNew (s : State) (x : Extent) : State :=
  { s with annexMap := s.annexMap.map fun (e : Nat × Granule) =>
      if x.first ≤ e.1 && e.1 < x.first + x.count then (e.1, { e.2 with v := false }) else e }

/-- The address in the annex window of a line of an extent's buffer. -/
def lineAddr (s : State) (x : Extent) (l : Nat) : Nat :=
  let i := ((List.range x.count).find? fun i =>
    annexKey s (x.lo + i * granuleBytes) ≤ 64 * l && 64 * l < annexKey s (x.lo + i * granuleBytes) + granuleBytes).getD 0
  x.lo + i * granuleBytes + (64 * l - annexKey s (x.lo + i * granuleBytes))

/-- Whether an operation is an atomic that has been translated to the extent and has still to perform. -/
def atomicIn (x : Extent) (e : Pend) : Bool :=
  match e.st with
  | .wait (.rel _ (.atomic a)) => x.meets a.addr a.n
  | _ => false

/-- Step 2 waits for these. -/
def stillToExtent (s : State) (x : Extent) : Bool :=
  s.parts.any (fun e => e.2.pends.any (atomicIn x)) || s.shadow.any fun e => e.2.ctx.pends.any (atomicIn x)

/-- The lines of a port's buffer that fall in the extent, by their keys. -/
def bufferLines (s : State) (x : Extent) : List Nat :=
  let spans := (List.range x.count).map fun i => annexKey s (x.lo + i * granuleBytes)
  (s.annexBuf.map (·.1)).filter fun l => spans.any fun k => k ≤ 64 * l && 64 * l < k + granuleBytes

/-- Where the stored bytes of a sub-tile may lie: none when it is not resident, and either place of a moving object when its residency
byte cannot be used. -/
def subBases (s : State) (r : ObjRec) (n : Nat) : List Nat :=
  match (baseFor s r n false).2 with
  | .ok b => [b]
  | .error e => if e ≠ oMalformed then [] else if r.state = 1 then [r.base, r.nbase] else [r.base]

/-- Whether stored bytes of a sub-tile meet the extent. -/
def subMeets (s : State) (x : Extent) (r : ObjRec) (n : Nat) : Bool :=
  (subBases s r n).any fun b => (r.subCoords n).any fun c =>
    (elemAddrs r (8 * b + r.bitOff c)).any (fun a => x.meets a 1) ||
      (r.isE2M1 && (x.meets (b + r.blockOff c) 1 || x.meets (b + r.bandOff c) 2))

/-- R122 for one object, its record read with verification (R419). -/
def retireObject (x : Extent) (t : Tab) (s : State) (h : Nat) : State :=
  let a := t.tbase + 64 * h
  let (s, l) := readRecord s a 64
  let r := ObjRec.of (l.getD 0)
  if l.isNone || !r.v || !r.ok then s
  else
    let hit := (List.range r.nsub).filter fun n => subMeets s x r n
    if hit.isEmpty then s
    else if r.rbmp = 0 then
      let old := peekNat s (a + 49) 1
      olcDropAll (engineWrite s (a + 49) [BitVec.ofNat 8 (old - nbits old 3 2 * 8 + 2 * 8)]) t.ctx h
    else hit.foldl (fun s n =>
      let b := r.rbmp + n / 4
      let s := touchRead s b 1
      let old := peekNat s b 1
      engineWrite s b [BitVec.ofNat 8 (old - nbits old (2 * (n % 4)) 1 * 2 ^ (2 * (n % 4)))]) s

/-- R122: every object of every handle table, each table under each of its lengths and contexts. -/
def retireObjects (s : State) (x : Extent) : State :=
  if s.qtab = 0 then s
  else
    let tabs := ((List.range 1024).map fun q => { tabOf s q with relocok := false }).eraseDups
    tabs.foldl (fun s t => (List.range t.tlen).tail.foldl (retireObject x t) s) s

/-- Step 5, the promotions: each that has not written its header line is given up. -/
def abandon (s : State) (id : Nat) : State :=
  match mget s.catOps id with
  | none => s
  | some x =>
    let s := match x.block, (spacesOf s x.queue).2 with
      | some b, some (k, c) => freeBlock s k c b
      | _, _ => s
    { s with catOps := mdel s.catOps id, fetches := mdel s.fetches id }

/-- Step 5, the folios: without their image they are ABSENT; their loans are kept (R152). A recall of one is over, and the marker
that it had set stood for no loan. -/
def loseFolio (s : State) (f : FolioAt) : State :=
  let loans := if f.hdr.loans = loanMark then 0 else f.hdr.loans
  let s := putFolHdr s f.k f.fol { f.hdr with fstate := fAbsent, dbase := 0, loans := loans }
  let s := freeImage s 2 f.hdr.dbase
  match s.recalls.find? fun e => e.2.fol == f.fol && e.2.node == f.node && kvName s e.2.queue == kvName s f.queue with
  | some (rid, r) => recallOver (dropImage s r) rid (Config.freeNat s.epoch 870 % 256) 0
  | none => s

def loseFolios (s : State) (x : Extent) : State := (foliosIn s x).foldl loseFolio s

/-- Steps 4 and 5, and the end of the extent. -/
def endExtent (s : State) (id : Nat) (x : Extent) : State :=
  let s := retireObjects s x
  let s := x.grace.foldl abandon s
  let s := loseFolios s x
  { s with extents := mdel s.extents id
           annexMap := s.annexMap.filter fun e => !(x.first ≤ e.1 && e.1 < x.first + x.count) }

/-- ANNEXGRACE_EXPIRY (R392): the steps in order; step 2 may hold the rest up. -/
def graceStep (id : Nat) (s : State) : State :=
  match mget s.extents id with
  | none => s
  | some x =>
    match x.since with
    | none => s
    | some t =>
      if s.uclock < t + s.limits.annexGrace * 1500000000 then s
      else
        let s := unmapNew s x
        if stillToExtent s x then s else endExtent ((bufferLines s x).foldl mergeAnnexLine s) id x

def execAnnexgraceExpiry (extent : Nat) (s : State) : Out := event (graceStep extent) s

/-- An access in flight to an extent that is taken by force: a read completes poisoned, a write is lost (R393). -/
def loseAccess (x : Extent) (p : Part) : Part :=
  { p with pends := p.pends.map fun e =>
      if atomicIn x e then
        { e with st := .ready, dst := none, writes := match e.dst with
            | some (r, sh) => [RegWrite.s r sh 0 true]
            | none => [] }
      else e }

/-- ANNEX_FORCED_RELEASE (R393): steps 1, 4 and 5 at once, the buffer's lines dropped; the event names the extent, and then each of them. -/
def forcedStep (id : Nat) (s : State) : State :=
  match mget s.extents id with
  | none => s
  | some x =>
    let lines := bufferLines s x
    let s := unmapNew s x
    let s := { s with parts := s.parts.map fun (e : Nat × Part) => (e.1, loseAccess x e.2)
                      shadow := s.shadow.map fun (e : Nat × SavedCtx) => (e.1, { e.2 with ctx := loseAccess x e.2.ctx }) }
    let s := addEvent { s with annexBuf := s.annexBuf.filter fun e => !lines.contains e.1 }
      { code := 0x0B, loc := x.lo, detail := [x.lo, x.hi] ++ lines.map (lineAddr s x) }
    endExtent s id x

def execAnnexForcedRelease (extent : Nat) (s : State) : Out := event (forcedStep extent) s

/-! The repository. -/

/-- NVME_QUEUE_HANDOFF (R394): `sq` numbers the pair, 16 for each drive slot; `cq` is its completion queue. -/
def handoffStep (sq cq depth : Nat) (s : State) : State :=
  if sq < 512 && 1 ≤ depth && depth ≤ 1024 && !s.nvmeQs.any fun e => e.1 == sq then
    { s with nvmeQs := s.nvmeQs ++ [(sq, cq, depth)] }
  else s

def execNvmeQueueHandoff (sq cq depth : Nat) (s : State) : Out := event (handoffStep sq cq depth) s

/-- A Read ends for the operation that it serves. -/
def readDone (s : State) (x : NvmeCmd) (data : Option (List Byte)) : State :=
  match mget s.fetches x.owner with
  | some f =>
    { s with fetches := mput s.fetches x.owner (match data with
        | some bs => { f with data := bs, full := true }
        | none => { f with failed := true }) }
  | none => s

/-- NVME_COMPLETION (R395). -/
def completeStep (cmd : Nat) (ok : Bool) (data : List Byte) (s : State) : State :=
  match mget s.nvme cmd with
  | none => s
  | some x =>
    let s := { s with nvme := mdel s.nvme cmd }
    if x.kind = 0 then readDone s x (if ok then some (data.take x.bytes) else none) else recallWrote s x.owner ok

def execNvmeCompletion (cmd : Nat) (ok : Bool) (data : List Byte) (s : State) : Out := event (completeStep cmd ok data) s

/-- REPOTO_EXPIRY (R395): a Read that has not completed within REPOTO. -/
def repotoStep (cmd : Nat) (s : State) : State :=
  match mget s.nvme cmd with
  | none => s
  | some x =>
    if x.kind = 0 && x.since + s.limits.repoto * 1500000000 ≤ s.uclock then readDone { s with nvme := mdel s.nvme cmd } x none else s

def execRepotoExpiry (cmd : Nat) (s : State) : Out := event (repotoStep cmd) s

end Sys2Proof.Machine
end

