-- ==== Sys2Proof/Machine/Platform.lean ====
section
/-! DEFINITION. The module record (R400, R401), reset (R409), and power and heat (R408). -/

namespace Sys2Proof.Machine

/-! The module record (Table 16.6). -/

def inR (n lo hi : Nat) : Bool := lo ≤ n && n ≤ hi

/-- The settings that a body names. -/
def limitsOf (b : Nat) : Limits :=
  { actCap := nbits b 64 14, shares := tab 4 fun i => nbits b (96 + 16 * i) 16, slice := nbits b 192 32, gangWait := nbits b 224 32
    sshare := nbits b 256 5, pooln := nbits b 264 16, scrubPeriod := nbits b 80 8, stewardArea := nbits b 160 3 * 0x10000
    ageLimit := nbits b 288 13, collLimit := nbits b 320 6, peerto := nbits b 328 8, repoto := nbits b 336 8, annexGrace := nbits b 344 8
    itkPort := nbits b 352 16, portRole := nbits b 368 16, pwrCap := nbits b 384 12 }

/-- The bits that Table 16.6 gives no field. -/
def bodyRsv (b : Nat) : Bool :=
  nbits b 40 24 != 0 || nbits b 78 2 != 0 || nbits b 88 8 != 0 || nbits b 163 29 != 0 || nbits b 261 3 != 0 || nbits b 280 8 != 0 ||
    nbits b 301 19 != 0 || nbits b 326 2 != 0 || nbits b 396 20 != 0 || nbits b 416 1632 != 0

/-- The ranges of Tables 16.6, 4.5 and 14.1. -/
def bodyOk (b : Nat) : Bool :=
  let l := limitsOf b
  nbits b 0 32 == 0x4D4B5247 && nbits b 32 8 == 1 && !bodyRsv b && inR l.actCap 256 8192 && inR l.scrubPeriod 1 168 &&
    l.shares.all (inR · 512 12800) && l.shares.foldl (· + ·) 0 == 14336 && inR (l.stewardArea / 0x10000) 1 4 &&
    inR l.slice 7000 7000000 && inR l.gangWait 1500 150000000 && inR l.sshare 1 16 && inR l.pooln 256 4096 &&
    inR l.ageLimit 16 4096 && inR l.collLimit 1 60 && inR l.peerto 1 60 && inR l.repoto 1 60 && inR l.itkPort 1024 65535 &&
    (List.range 8).all (fun n => nbits l.portRole (2 * n) 2 != 3) && inR l.pwrCap 900 1800

/-- A module record: body, certificate, and the signatures by Ed25519 and ML-DSA-65 over both. -/
def recordOk (r : List Byte) : Bool :=
  let n := r.length
  let msg := r.take (n - 3373)
  256 + 3373 ≤ n && Config.verifies 0 msg ((r.drop (n - 3373)).take 64) && Config.verifies 1 msg (r.drop (n - 3309)) &&
    bodyOk (ofBytes (r.take 256))

/-- MAILBOX_MODULE_RECORD (R401): a new record that verifies goes to the serial flash, to be read at the next reset. -/
def recordStep (r : List Byte) (s : State) : State := if recordOk r then { s with flash := r } else s

def execMailboxModuleRecord (record : List Byte) (_slot : Nat) (s : State) : Out := event (recordStep record) s

/-! Reset. -/

/-- The settings in force after a reset, and whether the part is in recovery. With no record staged, the module's own holds the
defaults (log entry 40). -/
def bootLimits (flash : List Byte) : Limits × Bool :=
  if flash.isEmpty then (Limits.default, false)
  else if recordOk flash then (limitsOf (ofBytes (flash.take 256)), false)
  else (Limits.default, true)

/-- The cores after a reset: the steward area and AGE_LIMIT are the record's. -/
def bootCores (l : Limits) : TMap CoreSt :=
  if l.stewardArea = stewardArea && l.ageLimit = 256 then []
  else tab 128 fun i => (i, { CoreSt.empty with ageLimit := l.ageLimit, b3 := 0x200000 - l.stewardArea })

/-- The bytes of an identity record that its signatures cover. Their order is the model's (log entry 100). -/
def Identity.bytes (x : Identity) : List Byte := toBytes x.iver 1 ++ toBytes x.serial 8 ++ toBytes x.archLevel 1 ++ x.keys.flatten

/-- Whether the boot ROM accepts an identity record: version 1 (Table 16.5), and both signatures verify (R401). -/
def identOk (x : Identity) : Bool :=
  x.iver == 1 && Config.verifies 0 x.bytes (x.sigs.getD 0 []) && Config.verifies 1 x.bytes (x.sigs.getD 1 [])

/-- RESET (R409): the machine of `State.reset` with the settings of the module record; what lies outside the part, and the serial
flash with both of its records, stay as they are. The steward's image of reset, firmware 0, starts on every core. The ports open their
connections when the machine goes on (log entry 30). -/
def resetStep (s : State) : State :=
  let (l, rec) := bootLimits s.flash
  { State.reset with
    epoch := s.epoch, inputs := s.inputs, limits := l, recovery := rec, cores := bootCores l, flash := s.flash, ident := s.ident, identified := identOk s.ident, hostMem := s.hostMem
    hostMaps := s.hostMaps, cxlCache := s.cxlCache, annexMem := s.annexMem }

def execReset (s : State) : Out := event resetStep s

/-! Power and heat (R408). -/

/-- The core clock a step of 50 MHz lower, at least 350 MHz. -/
def slower (s : State) : State := if s.coreMHz = 0 then s else { s with coreMHz := max 350 (s.coreMHz - 50) }
/-- The core clock a step of 50 MHz higher, at most 700 MHz. -/
def faster (s : State) : State := if s.coreMHz = 0 then s else { s with coreMHz := min 700 (s.coreMHz + 50) }

def execPowerOverCap (s : State) : Out := event slower s
def execPowerBelowCap (s : State) : Out := event faster s
def execThermalThrottle (s : State) : Out := event slower s
def execThermalRecovery (s : State) : Out := event faster s

/-- The event records that the ring has not taken are written, as far as it has room. -/
def writeEvents (s : State) : State := (List.range ((eventRecords s).length - s.eventsOut)).foldl (fun s _ => writeEvent s) s

/-- THERMAL_TRIP: all issue stops, an event record is written, and the part is held in reset. -/
def tripStep (s : State) : State := { writeEvents (fwEvent s 5 0 []) with coreMHz := 0, iss := Issue.closed }

def execThermalTrip (s : State) : Out := event tripStep s

end Sys2Proof.Machine
end

