-- ==== Sys2Proof/Machine/VecMem.lean ====
section
/-! DEFINITION. The vector memory instructions (R298 to R301). -/

namespace Sys2Proof.Machine

/-- The lanes that the governing predicate includes. -/
def govLanes (p : W128) : List Nat := (List.range 128).filter fun l => p.getLsbD l

/-- Where a lane's four bytes lie in the local scratchpad, or in an object: the logical offset of its first byte. -/
structure LaneAt where
  lane : Nat
  off : Nat
  deriving DecidableEq, Repr

/-- Offsets of the governed lanes: `base + 4 * lane`, or `base + 4 * index` for gather and scatter. -/
def laneOffs (lanes : List Nat) (base : Nat) (idx : Option Nat) : List LaneAt :=
  lanes.map fun l =>
    { lane := l, off := match idx with
        | none => base + 4 * l
        | some v => base + 4 * elem v 32 l }

/-- The lowest logical offset of governed lanes that lies outside the partition's share (R229); that of the access, `base`, when
the operand has a reserved bit set. -/
def rangeFault (s : State) (op : W64) (base : Nat) (ls : List LaneAt) : Option Nat :=
  if ls.isEmpty then none
  else if !spOk op then some base
  else
    let bad := (ls.flatMap fun l => tab 4 fun b => l.off + b).filter fun o => !inShare (cur s) (curCore s) o
    match bad with
    | [] => none
    | o :: r => some (r.foldl min o)

/-- Physical scratchpad offsets of a lane's bytes. -/
def lanePhys (op : W64) (l : LaneAt) : List Nat := tab 4 fun b => swizzle (spSwz op) (l.off + b)

/-- Translation of governed lanes of an object access, all before any is performed: the lanes' logical bytes, or the
fault of the lowest logical offset. -/
def laneXlate (s : State) (r : ObjRec) (h w : Nat) (wr : Bool) :
    List LaneAt → State × Option (Nat × ObjFault) × List (LaneAt × List LByte)
  | [] => (s, none, [])
  | l :: ls =>
    let (s, b) :=
      if l.off % (w / 8) ≠ 0 then (s, .error { code := oAlign, taddr := objAddr h l.off })
      else logicalBytes s r h l.off wr 4
    let (s, f, rest) := laneXlate s r h w wr ls
    match b with
    | .error e =>
      (s, match f with
        | some (o, e') => if l.off ≤ o then some (l.off, e) else some (o, e')
        | none => some (l.off, e), rest)
    | .ok bs => (s, f, (l, bs) :: rest)

/-- The object side of a vector access, at the address of its first lane (R116, R117, R298). A fault that does not depend on the
element reports that address. -/
def vecXlate (s : State) (addr : W64) (w : Nat) (k : Kind) (ls : List LaneAt) :
    State × Except ObjFault (Option ObjRec × List (LaneAt × List LByte)) :=
  if ls.isEmpty then (s, .ok (none, []))
  else
    let h := addr.toNat / 2 ^ 44
    let (s, r) := findRec s s.iss.core (tabOf s (cur s).queue) h
    match r with
    | .error c => (s, .error { code := c, taddr := addr })
    | .ok r =>
      if !r.permits k then (s, .error { code := oPerm, taddr := addr })
      else if r.isPlane then (s, .error { code := oLayout, taddr := addr })
      else
        let (s, f, l) := laneXlate s r h w k.wr ls
        match f with
        | some (_, e) => (s, .error (if e.code = oMalformed then { e with taddr := addr } else e))
        | none => (s, .ok (some r, l))

/-- What a vector load finds, before it is written: lane values with the poison of the memory read. -/
inductive LoadOut where
  | range (o : Nat)
  | fault (e : ObjFault)
  | data (lanes : List (Nat × Nat)) (poison : Bool)
  deriving DecidableEq, Repr

/-- Address of the first lane: the captured operand advanced by the re-issues (R298). -/
def vmBase (f : VM) (op : W64) (idx : Option Nat) (c : Nat) : Nat :=
  let adv := if idx.isSome then 0 else 512 * c
  if f.md = 1 then spOff op + adv else (op.toNat % 2 ^ 44 + adv) % 2 ^ 44

/-- The object address of the first lane. -/
def vmAddr (f : VM) (op : W64) (idx : Option Nat) (c : Nat) : W64 := objAddr (op.toNat / 2 ^ 44) (vmBase f op idx c)

/-- The reads of a vector load. -/
def vecLoad (f : VM) (op : W64) (idx : Option Nat) (c : Nat) (s : State) : State × LoadOut :=
  let m := VMod.of f.x 0
  let ls := laneOffs (govLanes (predOf s m)) (vmBase f op idx c) idx
  if f.md = 1 then
    match rangeFault s op (vmBase f op idx c) ls with
    | some o => (s, .range o)
    | none => (s, .data (ls.map fun l => (l.lane, ofBytes ((lanePhys op l).map fun o => readScratch s o))) false)
  else
    let (s, r) := vecXlate s (vmAddr f op idx c) (fmtWidth m.fmt) { cls := clsVector, rd := true, wr := false } ls
    match r with
    | .error e => (s, .fault e)
    | .ok (_, l) =>
      let flat := l.flatMap (·.2)
      let (s, bs) := readSV s s.iss.core s.iss.scope.toNat flat
      (s, .data ((List.zip (List.range l.length) l).map fun p =>
          (p.2.1.lane, ofBytes (((bs.drop (4 * p.1)).take 4).map (·.1))))
        (bs.any (·.2)))

/-- The result of a load: governed lanes from memory, the others as the destination held them at issue (R284, R285). -/
def loadResult (i : Instr) (f : VM) (lanes : List (Nat × Nat)) (poison : Bool) (s : State) : State :=
  let d := readV s f.d
  let x := tab 128 fun l => match lanes.find? fun e => e.1 == l with
    | some e => e.2
    | none => elem d.1.toNat 32 l
  let po := poison || (lanes.length < 128 && d.2)
  resultEng i (lat7 f.lat) [.v f.d (BitVec.ofNat 4096 (packElems 32 x)) po] s

/-- The index register of a gather or scatter. -/
def idxReg (f : VM) : BitVec 7 := auxReg (VMod.of f.x 0)

/-- VLD and VGATH. -/
def vloadBody (i : Instr) (f : VM) (gather : Bool) (s : State) : Except TrapReq State :=
  if !(vregOk s f.d && (!gather || vregOk s (idxReg f))) then illegal i
  else
    match captured s [f.a] with
    | .error e => .error e
    | .ok (caps, c) =>
      if gather && (readV s (idxReg f)).2 then poisonV (idxReg f)
      else
        let idx := if gather then some (readV s (idxReg f)).1.toNat else none
        let (s, r) := vecLoad f (caps.getD 0 0) idx c s
        match r with
        | .range o => localRange o
        | .fault e => .ok (objResult i (lat7 f.lat) e s)
        | .data l po => .ok (loadResult i f l po s)

/-- VLDS and VGATHS (R301). -/
def vspecBody (i : Instr) (f : VM) (gather : Bool) (s : State) : Except TrapReq State :=
  if !(vregOk s f.d && (!gather || vregOk s (idxReg f))) then illegal i
  else
    let bad (code : Nat) (s : State) : State :=
      resultEng i (lat7 f.lat) [.v f.d (BitVec.ofNat 4096 (packElems 32 (tab 128 fun _ => code))) true] s
    match capturedSpec s i with
    | none => .ok (bad 0x3F s)
    | some (caps, c) =>
      if gather && (readV s (idxReg f)).2 then .ok (bad 0x3F s)
      else
        let idx := if gather then some (readV s (idxReg f)).1.toNat else none
        let (s', r) := vecLoad f (caps.getD 0 0) idx c s
        match r with
        | .range _ => .ok (bad 0x21 s')
        | .fault e => .ok (bad e.code s')
        | .data l po => .ok (loadResult i f l po s')

/-- Defers the writes of a lane to the scratchpad. -/
def scratchWrites (op : W64) (l : LaneAt) (x : Nat) : List DefWrite :=
  (List.zip (lanePhys op l) (toBytes x 4)).map fun p =>
    { join := false, atom := false, scratch := true, addr := p.1, val := p.2, mask := 255, cmpr := false, fmt := 0 }

/-- The M and X units may miss the newest operation's writes to the scratchpad until its deadline, 16-byte unit by unit (R334). -/
def softRanges (p : Part) (addrs : List Nat) : Part :=
  let rs : List LocalRange := ((addrs.map (· / 16)).eraseDups).map fun u => { tile := false, lo := 16 * u, n := 16, soft := true }
  updPend p (p.nextSeq - 1) fun e => { e with ranges := rs }

/-- VST and VSCAT (R299, R300). -/
def vstoreBody (i : Instr) (f : VM) (scatter : Bool) (s : State) : Except TrapReq State :=
  if !(vregOk s f.d && (!scatter || vregOk s (idxReg f))) then illegal i
  else
    match captured s [f.a] with
    | .error e => .error e
    | .ok (caps, c) =>
      if scatter && (readV s (idxReg f)).2 then poisonV (idxReg f)
      else if (readV s f.d).2 then poisonV f.d
      else
        let m := VMod.of f.x 0
        let op := caps.getD 0 0
        let d := (readV s f.d).1.toNat
        let idx := if scatter then some (readV s (idxReg f)).1.toNat else none
        let ls := laneOffs (govLanes (predOf s m)) (vmBase f op idx c) idx
        if f.md = 1 then
          match rangeFault s op (vmBase f op idx c) ls with
          | some o => localRange o
          | none =>
            let ws := ls.flatMap fun l => scratchWrites op l (elem d 32 l.lane)
            let s := resultEng i (lat7 f.lat) [] { s with iss := { s.iss with writes := s.iss.writes ++ ws } }
            .ok (setCur s (softRanges (cur s) (ws.map (·.addr))))
        else
          let (s, r) := vecXlate s (vmAddr f op idx c) (fmtWidth m.fmt) { cls := clsVector, rd := false, wr := true } ls
          match r with
          | .error e => .ok (objResult i (lat7 f.lat) e s)
          | .ok (none, _) => .ok (resultEng i (lat7 f.lat) [] s)
          | .ok (some r, l) =>
            .ok (resultEng i (lat7 f.lat) []
              (l.foldl (fun s p => deferSV s r p.2 (toBytes (elem d 32 p.1.lane) 4)) s))

def execVld (f : VM) (s : State) : Out := runSyl (.vld f) (vloadBody (.vld f) f false) s
def execVst (f : VM) (s : State) : Out := runSyl (.vst f) (vstoreBody (.vst f) f false) s
def execVgath (f : VM) (s : State) : Out := runSyl (.vgath f) (vloadBody (.vgath f) f true) s
def execVscat (f : VM) (s : State) : Out := runSyl (.vscat f) (vstoreBody (.vscat f) f true) s
def execVlds (f : VM) (s : State) : Out := runSyl (.vlds f) (vspecBody (.vlds f) f false) s
def execVgaths (f : VM) (s : State) : Out := runSyl (.vgaths f) (vspecBody (.vgaths f) f true) s

end Sys2Proof.Machine
end

