-- ==== Sys2Proof/Machine/VecPerm.lean ====
section
/-! DEFINITION. Permutes, predicate operations and serving operations (R296, R297, R302 to R307). -/

namespace Sys2Proof.Machine

/-- VPERM: lane l := lane (vB lane l)[6:0] of vA. -/
def vpermBody (f : VA) (s : State) : Except TrapReq State :=
  let i := Instr.vperm f
  let m := VMod.of f.x 14
  if !(vregOk s f.d && vregOk s f.a && (f.bs || vregOk s f.b)) then illegal i
  else
    let a := readV s f.a
    let b := readB s f
    let p := predOf s m
    .ok (vecResult i 4 f.d 32 (governs p 32) (fun k _ => convOk (elem a.1.toNat 32 (b.elem 32 k % 128)))
      (a.2 || b.poison) s)

/-- VBCAST: element i := element (sB mod n) of vA. -/
def vbcastBody (f : VA) (s : State) : Except TrapReq State :=
  let i := Instr.vbcast f
  let m := VMod.of f.x 14
  let w := fmtWidth m.fmt
  if !(vregOk s f.d && vregOk s f.a) then illegal i
  else
    let a := readV s f.a
    let b := readB s f
    let p := predOf s m
    let j := (b.scalar.getD 0) % (4096 / w)
    .ok (vecResult i 2 f.d w (governs p w) (fun _ _ => convOk (elem a.1.toNat w j)) (a.2 || b.poison) s)

/-- VSLIDE: element i := element i + k of vA followed by vAUX, k = min(sB[31:0], n). -/
def vslideBody (f : VA) (s : State) : Except TrapReq State :=
  let i := Instr.vslide f
  let m := VMod.of f.x 14
  let w := fmtWidth m.fmt
  let n := 4096 / w
  if !(vregOk s f.d && vregOk s f.a && m.aux < (cur s).wregs) then illegal i
  else
    let a := readV s f.a
    let c := readV s (auxReg m)
    let b := readB s f
    let p := predOf s m
    let k := min ((b.scalar.getD 0) % 2 ^ 32) n
    let src (j : Nat) : Nat := if j < n then elem a.1.toNat w j else elem c.1.toNat w (j - n)
    .ok (vecResult i 2 f.d w (governs p w) (fun j _ => convOk (src (j + k))) (a.2 || b.poison || c.2) s)

/-- VCOMPR: the lanes that PRED selects, packed; the rest 0. Every lane is written. -/
def vcomprBody (f : VA) (s : State) : Except TrapReq State :=
  let i := Instr.vcompr f
  let m := VMod.of f.x 14
  if !(vregOk s f.d && vregOk s f.a) then illegal i
  else
    let a := readV s f.a
    let p := predOf s m
    let sel := ((List.range 128).filter fun l => p.getLsbD l).map fun l => elem a.1.toNat 32 l
    .ok (result i 4 [.v f.d (BitVec.ofNat 4096 (packElems 32 sel)) a.2] 0 s)

def execVperm (f : VA) (s : State) : Out := runSyl (.vperm f) (vpermBody f) s
def execVbcast (f : VA) (s : State) : Out := runSyl (.vbcast f) (vbcastBody f) s
def execVslide (f : VA) (s : State) : Out := runSyl (.vslide f) (vslideBody f) s
def execVcompr (f : VA) (s : State) : Out := runSyl (.vcompr f) (vcomprBody f) s

/-- A predicate operation (R297): latency 1. -/
def predBody (i : Instr) (f : VA) (op : W128 → W128 → W128) (s : State) : Except TrapReq State :=
  .ok (result i 1 [.p (f.d.setWidth 4) (op (readP s (f.a.setWidth 4)) (readP s (f.b.setWidth 4)))] 0 s)

def execPand (f : VA) (s : State) : Out := runSyl (.pand f) (predBody (.pand f) f fun a b => a &&& b) s
def execPor (f : VA) (s : State) : Out := runSyl (.por f) (predBody (.por f) f fun a b => a ||| b) s
def execPxor (f : VA) (s : State) : Out := runSyl (.pxor f) (predBody (.pxor f) f fun a b => a ^^^ b) s
def execPnot (f : VA) (s : State) : Out := runSyl (.pnot f) (predBody (.pnot f) f fun a _ => ~~~a) s

/-- PCNT: every lane := Popc(pA), poison 0. -/
def execPcnt (f : VA) (s : State) : Out :=
  runSyl (.pcnt f) (fun s =>
    if !vregOk s f.d then illegal (.pcnt f)
    else
      let c := popc (readP s (f.a.setWidth 4)).toNat 128
      .ok (result (.pcnt f) 1 [.v f.d (BitVec.ofNat 4096 (packElems 32 (tab 128 fun _ => c))) false] 0 s)) s

/-- VPART (R302): the governed lanes sorted by their outcome and then by lane, then the others; each as sB + lane. -/
def vpartBody (f : VA) (s : State) : Except TrapReq State :=
  let i := Instr.vpart f
  let m := VMod.of f.x 14
  if !(vregOk s f.d && vregOk s f.a) then illegal i
  else
    let a := readV s f.a
    let b := readB s f
    let p := predOf s m
    let arm (k : Nat) : List Nat := (List.range 128).filter fun l => p.getLsbD l && elem a.1.toNat 32 l % 16 == k
    let order := ((List.range 16).flatMap arm) ++ (List.range 128).filter fun l => !p.getLsbD l
    let x := packElems 32 (order.map fun l => (b.scalar.getD 0 + l) % 2 ^ 32)
    .ok (result i 6 [.v f.d (BitVec.ofNat 4096 x) (a.2 || b.poison)] 0 s)

/-- VHIST (R303): counts of digits added to vD. -/
def vhistBody (f : VA) (s : State) : Except TrapReq State :=
  let i := Instr.vhist f
  let m := VMod.of f.x 14
  let w := fmtWidth m.fmt
  if !(vregOk s f.d && vregOk s f.a) then illegal i
  else
    let a := readV s f.a
    let b := readB s f
    let d := readV s f.d
    let p := predOf s m
    let sc := b.scalar.getD 0
    let digits := ((List.range (4096 / w)).filter (governs p w)).map fun k =>
      elem a.1.toNat w k >>> (sc % 32) % 2 ^ (sc / 256 % 8 + 1)
    let cnt (k : Nat) : Nat := (digits.filter fun g => g == 128 * m.aux + k).length
    let x := packElems 32 (tab 128 fun k => (elem d.1.toNat 32 k + cnt k) % 2 ^ 32)
    .ok (result i 8 [.v f.d (BitVec.ofNat 4096 x) (a.2 || b.poison || d.2)] 0 s)

/-- K(x) of R304 before dir. -/
def keyOf (t x : Nat) : Nat :=
  let w := fmtWidth t
  if t ≤ 4 then
    (if isNan (fmtDecode t x) then 2 ^ w - 1
     else if x.testBit (w - 1) then 2 ^ w - 1 - x else x ^^^ 2 ^ (w - 1))
  else if t == 13 || t == 14 then x
  else x ^^^ 2 ^ (w - 1)

def vkeyElem (t dir x : Nat) : Nat := if dir = 1 then 2 ^ fmtWidth t - 1 - keyOf t x else keyOf t x

/-- The inverse of VKEY; a NaN pattern is written as the canonical NaN. -/
def unkeyElem (t dir k0 : Nat) : Nat :=
  let w := fmtWidth t
  let k := if dir = 1 then 2 ^ w - 1 - k0 else k0
  if t ≤ 4 then
    let x := if k.testBit (w - 1) then k ^^^ 2 ^ (w - 1) else 2 ^ w - 1 - k
    if isNan (fmtDecode t x) then (ffmt t).qnan else x
  else if t == 13 || t == 14 then k
  else k ^^^ 2 ^ (w - 1)

def execVkey (f : VA) (s : State) : Out :=
  runSyl (.vkey f) (vaBody (.vkey f) f 0 2 false false
    fun t _ _ a _ _ => convOk (vkeyElem t (VMod.of f.x 0).aux a)) s
def execVkeyx (f : VA) (s : State) : Out :=
  runSyl (.vkeyx f) (vaBody (.vkeyx f) f 0 2 false false
    fun t _ _ a _ _ => convOk (unkeyElem t (VMod.of f.x 0).aux a)) s

def execVpart (f : VA) (s : State) : Out := runSyl (.vpart f) (vpartBody f) s
def execVhist (f : VA) (s : State) : Out := runSyl (.vhist f) (vhistBody f) s

/-- One quantised probability (R305): PX3 of 2^(a - b). -/
def px3Prob (a b : Nat) (mode : RMode) (pol : Policy) : Conv :=
  let y := (numAdd mode (fmtDecode 0 a) (numNeg (fmtDecode 0 b))).1
  match y with
  | .nan => { code := 0x80, flags := flagNV, trap := false }
  | .inf true => convOk 0x80
  | _ => px3Encode (numExp2 y) mode pol

/-- VPX3 (R305): elements 128h to 128h + 127 of vD. -/
def vpx3Body (f : VA) (s : State) : Except TrapReq State :=
  let i := Instr.vpx3 f
  let m := VMod.of f.x 0
  if !(vregOk s f.d && vregOk s f.a && (f.bs || vregOk s f.b)) then illegal i
  else
    let a := readV s f.a
    let b := readB s f
    let p := predOf s m
    let fp := (cur s).fpctl
    let lo := 128 * m.aux
    let gov (k : Nat) : Bool := lo ≤ k && k < lo + 128 && p.getLsbD (k - lo)
    .ok (vecResult i 4 f.d 8 gov (fun k _ => px3Prob (elem a.1.toNat 32 (k - lo)) (b.elem 32 (k - lo))
      (rnd3 m.rnd fp) (ovp3 m.ovp fp)) (a.2 || b.poison) s)

/-- The product of R35: a 32-bit lane times a PX3 value. -/
def px3Prod (w q : Nat) : Int :=
  let x := toSigned w 32
  let asr (n : Nat) : Int := x / (2 ^ n : Nat)
  let e := q / 4 % 32
  if q.testBit 7 then 0
  else asr e + (if q.testBit 1 then asr (e + 1) else 0) + (if q.testBit 0 then asr (e + 2) else 0)

/-- VSHADD3 (R306). -/
def vshadd3Body (f : VA) (s : State) : Except TrapReq State :=
  let i := Instr.vshadd3 f
  let m := VMod.of f.x 11
  if !(vregOk s f.d && vregOk s f.a && (f.bs || vregOk s f.b)) then illegal i
  else
    let a := readV s f.a
    let b := readB s f
    let p := predOf s m
    let q (k : Nat) : Nat := match b.scalar with
      | some x => x % 256
      | none => elem b.vec 8 (128 * m.aux + k)
    let po := a.2 || b.poison || (readV s f.d).2
    .ok (vecResult i 3 f.d 32 (governs p 32)
      (fun k d => convOk (ofInt ((d : Int) + px3Prod (elem a.1.toNat 32 k) (q k)) 32)) po s)

/-- x * 2^k, exactly. -/
def numScale (x : Num) (k : Int) : Num :=
  match x with
  | .fin n m e => .fin n m (e + k)
  | y => y

/-- VFXT (R307): w := x * 2^(-k) rounded, narrowed to 24 bits, sign-extended in its lane. -/
def vfxtElem (k : Int) (x : Nat) (mode : RMode) (pol : Policy) : Conv :=
  intEncode 32 (intRange 9).1 (intRange 9).2 (numScale (fmtDecode 0 x) (-k)) mode pol

def vfxBody (i : Instr) (f : VA) (op : Int → Nat → RMode → Policy → Conv) (s : State) : Except TrapReq State :=
  let m := VMod.of f.x 0
  if !(vregOk s f.d && vregOk s f.a) then illegal i
  else
    let a := readV s f.a
    let b := readB s f
    let p := predOf s m
    let fp := (cur s).fpctl
    let k := toSigned (b.scalar.getD 0) 8
    .ok (vecResult i 3 f.d 32 (governs p 32)
      (fun j _ => op k (elem a.1.toNat 32 j) (rnd3 m.rnd fp) (ovp3 m.ovp fp)) (a.2 || b.poison) s)

def execVpx3 (f : VA) (s : State) : Out := runSyl (.vpx3 f) (vpx3Body f) s
def execVshadd3 (f : VA) (s : State) : Out := runSyl (.vshadd3 f) (vshadd3Body f) s
def execVfxt (f : VA) (s : State) : Out := runSyl (.vfxt f) (vfxBody (.vfxt f) f vfxtElem) s
def execVfxf (f : VA) (s : State) : Out :=
  runSyl (.vfxf f) (vfxBody (.vfxf f) f fun k x mode pol => convert (numScale (numOfInt (toSigned x 32)) k) 0 mode pol) s

end Sys2Proof.Machine
end

