-- ==== Sys2Proof/Machine/Lookahead.lean ====
section
/-! DEFINITION. What the next bundle issue of a partition would do, for the events that stand behind a precise trap of it
(R377) and for the limits of R369. -/

namespace Sys2Proof.Machine

/-- The meaning of a syllable; an event has none here. -/
def sylMeaning (i : Instr) (s : State) : Out :=
  match i with
  | .scope f => execScope f s
  | .nop cls => execNop cls s
  | .add f => execAdd f s
  | .sub f => execSub f s
  | .mul f => execMul f s
  | .mulh f => execMulh f s
  | .div f => execDiv f s
  | .rem f => execRem f s
  | .and f => execAnd f s
  | .or f => execOr f s
  | .xor f => execXor f s
  | .andn f => execAndn f s
  | .orn f => execOrn f s
  | .shl f => execShl f s
  | .shr f => execShr f s
  | .sar f => execSar f s
  | .rol f => execRol f s
  | .min f => execMin f s
  | .max f => execMax f s
  | .cmpeq f => execCmpeq f s
  | .cmpne f => execCmpne f s
  | .cmplt f => execCmplt f s
  | .cmple f => execCmple f s
  | .popc f => execPopc f s
  | .mov f => execMov f s
  | .movi f => execMovi f s
  | .movhi f => execMovhi f s
  | .csel f => execCsel f s
  | .ld f => execLd f s
  | .st f => execSt f s
  | .lds f => execLds f s
  | .chk f => execChk f s
  | .br f => execBr f s
  | .bc f => execBc f s
  | .bri f => execBri f s
  | .call f => execCall f s
  | .calli f => execCalli f s
  | .ret f => execRet f s
  | .lset f => execLset f s
  | .lnext f => execLnext f s
  | .bksel f => execBksel f s
  | .fset f => execFset f s
  | .fwait f => execFwait f s
  | .launch f => execLaunch f s
  | .mfsr f => execMfsr f s
  | .mtsr f => execMtsr f s
  | .aadd f => execAadd f s
  | .amin f => execAmin f s
  | .amax f => execAmax f s
  | .aswap f => execAswap f s
  | .acas f => execAcas f s
  | .aclaim f => execAclaim f s
  | .waitm f => execWaitm f s
  | .barv f => execBarv f s
  | .barw f => execBarw f s
  | .trap f => execTrap f s
  | .brk f => execBrk f s
  | .svc f => execSvc f s
  | .ctxsv f => execCtxsv f s
  | .ctxld f => execCtxld f s
  | .vfadd f => execVfadd f s
  | .vfsub f => execVfsub f s
  | .vfmul f => execVfmul f s
  | .vfma f => execVfma f s
  | .vfnma f => execVfnma f s
  | .vfmin f => execVfmin f s
  | .vfmax f => execVfmax f s
  | .vfabs f => execVfabs f s
  | .vfneg f => execVfneg f s
  | .vfcmp f => execVfcmp f s
  | .vrcp f => execVrcp f s
  | .vrsqrt f => execVrsqrt f s
  | .vexp2 f => execVexp2 f s
  | .vcvt f => execVcvt f s
  | .vadd f => execVadd f s
  | .vsub f => execVsub f s
  | .vmul f => execVmul f s
  | .vand f => execVand f s
  | .vor f => execVor f s
  | .vxor f => execVxor f s
  | .vshl f => execVshl f s
  | .vshr f => execVshr f s
  | .vsar f => execVsar f s
  | .vmin f => execVmin f s
  | .vmax f => execVmax f s
  | .vcmp f => execVcmp f s
  | .vradd f => execVradd f s
  | .vrmax f => execVrmax f s
  | .vscani f => execVscani f s
  | .vscanx f => execVscanx f s
  | .vperm f => execVperm f s
  | .vbcast f => execVbcast f s
  | .vslide f => execVslide f s
  | .vcompr f => execVcompr f s
  | .pand f => execPand f s
  | .por f => execPor f s
  | .pxor f => execPxor f s
  | .pnot f => execPnot f s
  | .pcnt f => execPcnt f s
  | .vld f => execVld f s
  | .vst f => execVst f s
  | .vgath f => execVgath f s
  | .vscat f => execVscat f s
  | .vlds f => execVlds f s
  | .vgaths f => execVgaths f s
  | .vpart f => execVpart f s
  | .vhist f => execVhist f s
  | .vkey f => execVkey f s
  | .vkeyx f => execVkeyx f s
  | .vpx3 f => execVpx3 f s
  | .vshadd3 f => execVshadd3 f s
  | .vfxt f => execVfxt f s
  | .vfxf f => execVfxf f s
  | .mstep f => execMstep f s
  | .mzero f => execMzero f s
  | .mread f => execMread f s
  | .mwrite f => execMwrite f s
  | .mfmt f => execMfmt f s
  | .mloop f => execMloop f s
  | .mscale f => execMscale f s
  | .medge f => execMedge f s
  | .mrot f => execMrot f s
  | .xqnt f => execXqnt f s
  | .xexp f => execXexp f s
  | .xtrn f => execXtrn f s
  | .xcvt f => execXcvt f s
  | .xplane f => execXplane f s
  | .xunpl f => execXunpl f s
  | .xscale f => execXscale f s
  | .ocopy f => execOcopy f s
  | .oload f => execOload f s
  | .ostore f => execOstore f s
  | .tload f => execTload f s
  | .kvld f => execKvld f s
  | .kvldt f => execKvldt f s
  | .kvapp f => execKvapp f s
  | .seal f => execSeal f s
  | .catlook f => execCatlook f s
  | .loan f => execLoan f s
  | .unloan f => execUnloan f s
  | .promote f => execPromote f s
  | .qpush f => execQpush f s
  | .qpoll f => execQpoll f s
  | .cwait f => execCwait f s
  | .barset f => execBarset f s
  | .coll f => execColl f s
  | .olcinv f => execOlcinv f s
  | .reloc f => execReloc f s
  | .yield => execYield s
  | .endTask => execEndTask s
  | .drain => execDrain s
  | .rett => execRett s
  | .uiret => execUiret s
  | _ => .next s

/-- Runs the slots of an open issue. -/
def runSlots : Nat → State → State
  | 0, s => s
  | n + 1, s =>
    if !s.iss.isOpen then s
    else
      match issueAction s with
      | .done t => t
      | .exec i t =>
        match sylMeaning i t with
        | .next u => runSlots n u
        | _ => t

/-- The state after the partition's next issue, made alone. -/
def ahead (s : State) (core part : Nat) : State := runSlots 10 (openIssue s core part none)

/-- Whether the next issue of a partition raises a precise trap, is killed by one, or stops at a BREAKPOINT. -/
def trapsAhead (s : State) (core part : Nat) : Bool :=
  let p := getPart s core part
  let q := getPart (ahead s core part) core part
  p.level < q.level || q.ps == .free || q.ps == .stopped

/-- Whether the next issue of a partition would pass the limits of R369. -/
def overAhead (s : State) (core part : Nat) : Bool :=
  let q := getPart (ahead s core part) core part
  64 < q.pends.length || 20 < vecPends q

end Sys2Proof.Machine
end

