-- ==== Sys2Proof/Machine/Select.lean ====
section
/-! DEFINITION. The partition arbiter: what each partition does at its bundle boundary (R20, R372, R377, R379, R385) and
who issues (R358 to R361). -/

namespace Sys2Proof.Machine

/-- Gives a partition a state of Table 14.11; only a ready one keeps its AGE. -/
def setPs (s : State) (core part : Nat) (ps : PState) : State :=
  let p := getPart s core part
  setPart s core part { p with ps := ps, age := if ps == .ready then p.age else 0 }

/-- After a trap entry, which takes the clock, the handler's first bundle is looked up; of a task that was killed instead there is none. -/
def afterEntry (s : State) (core part : Nat) : State :=
  if (getPart s core part).ps == .free || (getPart s core part).ps == .ending then s else setPs s core part .fetch

/-- The stand of a partition, its results of an exit wait or of an occupancy freeze written early (R18, R270, R369). -/
def settle (s : State) (core part : Nat) : State × Standing :=
  let c := getCore s core
  let p := getPart s core part
  let p := if p.steward then p else ensureSeg c p
  let s := setPart s core part p
  let st := standing c p false
  match st with
  | .exitWait =>
    let ui := !p.at_.done && ((bundleAt p).map Bundle.sOp) == some 0x52
    let s := writeEarly s core part fun e => !ui || p.uiSeq ≤ e.seq
    (s, standing c (getPart s core part) false)
  | .ready =>
    if crowded p && overAhead s core part then
      let s := writeEarly s core part fun _ => true
      if crowded (getPart s core part) && overAhead s core part then (s, .frozen) else (s, .ready)
    else (s, st)
  | st => (s, st)

/-- The boundary before the next issue of a partition, in the order of Table 15.5, after the decision of R356 at a yield point. -/
def boundary (s : State) (core part : Nat) : State :=
  let s := if (getPart s core part).atYield then yieldSwap s core part else s
  let p := getPart s core part
  match (if p.at_.slot = 0 then p.reports.find? fun r => r.level == p.level else none) with
  | some r => afterEntry (takeReport s core part r) core part
  | none =>
    if p.single && p.stepped && !stepOver p then setPs s core part .frozen
    else
      let (s, st) := settle s core part
      let p := getPart s core part
      match st with
      | .trap code slot op taddr => afterEntry (takeBundleTrap s core part code slot op taddr) core part
      | .ended =>
        if p.steward then setPart s core part { p with ps := .fetch, cur := none, at_ := { Point.start 0 with sticky := p.at_.sticky } }
        else endTask s core part
      | st =>
        let isEnd := ((bundleAt p).map Bundle.isEnd).getD false
        let stops := p.preempt.isSome && p.at_.slot = 0
        let steps := p.single && p.stepped
        let comes := st == .ready && (isEnd || ((stops || steps || uiDue p) && trapsAhead s core part))
        if stops && !comes then stopPart s core part
        else if steps && !comes then
          let s := stopPart (setPart s core part { p with stepped := false }) core part
          tellSteward s { code := 1, loc := partKey core part, detail := [] }
        else if uiDue p && st != .frozen && !comes then afterEntry (enterUi s core part) core part
        else
          -- a frozen partition does not enter its handler, but the interrupt that is ready wakes its WAITM (Table 10.3)
          let s := if uiDue p && st == .frozen then wakeAllWaitm s core part else s
          setPs s core part st.ps

/-- Whether the task of a partition is about to end. -/
def endsNext (p : Part) : Bool := p.at_.done || (bundleAt p).any Bundle.isEnd

/-- What a partition does on a clock before the selection: results that are due, waits, and its boundary. A stopped one only runs
on what does not wait for it, and a killed one waits for the last writes of the engines. -/
def prep (s : State) (core part : Nat) : State :=
  let p := getPart s core part
  if isActive p then boundary (writeDue (pollAll (writeDue s core part) core part (endsNext p)) core part) core part
  else releaseKilled (pollSome s core part runsOn) core part

/-- RANK of a partition (R359). -/
def rankOf (limit : Nat) (p : Part) : Nat := if limit ≤ p.age then 0 else 1 + p.role

/-- The order of R359: whether partition `i` comes before partition `j`. -/
def beats (limit : Nat) (a b : Nat × Part) : Bool :=
  let ra := rankOf limit a.2
  let rb := rankOf limit b.2
  if ra != rb then ra < rb
  else if ra = 0 && a.2.age != b.2.age then b.2.age < a.2.age
  else if a.2.lastIssue != b.2.lastIssue then a.2.lastIssue < b.2.lastIssue
  else a.1 < b.1

/-- The first of a list in the order of R359. -/
def firstOf (limit : Nat) : List (Nat × Part) → Option (Nat × Part)
  | [] => none
  | x :: xs =>
    match firstOf limit xs with
    | none => some x
    | some y => if beats limit y x then some y else some x

/-- The ready user partitions of a core. -/
def readyParts (s : State) (core : Nat) : List (Nat × Part) :=
  ((List.range 16).map fun i => (i, getPart s core i)).filter fun x => x.2.ps == .ready

/-- Whether the steward may take the present clock of a core (R361), and the core's count of the window. -/
def stewardMay (s : State) (core : Nat) (contended : Bool) : Bool × CoreSt :=
  let c := getCore s core
  let w := s.clock / 64
  let c := if c.winStart = w then c else { c with winStart := w, winTaken := 0 }
  if !contended then (true, c)
  else if c.winTaken < s.limits.sshare then (true, { c with winTaken := c.winTaken + 1 })
  else (false, c)

/-- AGE of the ready partitions that do not issue rises (R358, R361). -/
def ageRest (s : State) (core : Nat) (issue : List Nat) : State :=
  (readyParts s core).foldl
    (fun s x => if issue.contains x.1 then s else setPart s core x.1 { x.2 with age := x.2.age + 1 }) s

/-- The clocks after the selection of a core: 128 selections make one core clock, and the uncore runs at 1,500 MHz. -/
def tick (s : State) : State :=
  if s.nextCore < 127 then { s with nextCore := s.nextCore + 1 }
  else
    let n := s.uacc + 1500
    { s with nextCore := 0, clock := s.clock + 1, uclock := s.uclock + n / s.coreMHz
             uacc := if s.coreMHz = 0 then 0 else n % s.coreMHz }

/-- A bundle that the steward's firmware has ready (R21, R359): its words, the header first. The steward's own code is not in the
spec; each of its bundles is a segment of one bundle (log entry 111). -/
def stewardSeg (ws : List W32) : Option Seg :=
  match ws with
  | [] => none
  | h :: r => some { off := 0, valid := true, nb := 0, next := none, bundles := [{ hdr := h, words := r }], rest := [] }

/-- The steward's next bundle comes, where it holds none. -/
def bringBundle (s : State) (core : Nat) (ws : List W32) : State :=
  let p := getPart s core 16
  match p.cur, stewardSeg ws with
  | none, some g => setPart s core 16 { p with cur := some g }
  | _, _ => s

/-- The selection of one core on one clock (R359 to R361). A part whose issue a thermal trip has stopped selects nothing
(R408). -/
def selectCore (s : State) (core : Nat) (ws : List W32) : State :=
  if s.coreMHz = 0 then tick s
  else
    let s := (bringBundle s core ws).shadow.foldl (fun s e => pollShadow s core e.1 e.2) (bringBundle s core ws)
    let s := (List.range 17).foldl (fun s i => pollFlags s core i (endsNext (getPart s core i))) s
    let s := (List.range 17).foldl (fun s i => prep s core i) s
    let rdy := readyParts s core
    let (may, c) := stewardMay s core (!rdy.isEmpty)
    if (getPart s core 16).ps == .ready && may then
      openIssue (tick (ageRest (setCore s core c) core [])) core 16 none
    else
      let limit := (getCore s core).ageLimit
      match firstOf limit rdy with
      | none => tick s
      | some a =>
        let b := firstOf limit (rdy.filter fun x => x.2.slots &&& a.2.slots == 0)
        let s := ageRest s core (a.1 :: (b.map (·.1)).toList)
        openIssue (tick s) core a.1 (b.map (·.1))

/-- Writes to monitored lines, and the loss of such lines, wake their WAITM (Table 10.3). -/
def wakeLines (s : State) : State :=
  if s.woken.isEmpty then s
  else
    s.parts.foldl (fun t e =>
      e.2.pends.foldl (fun t x => match x.st with
        | .wait (.waitm cells _ _ _) =>
          if (linesOf cells).any fun l => s.woken.contains l then wakeWaitm t (e.1 / 32) (e.1 % 32) x else t
        | _ => t) t) { s with woken := [] }

/-- PARTITION_SELECT (R359): the selection of the core whose turn it is, after the writes since the last one have woken their
monitors. -/
def execPartitionSelect (core : Nat) (words : List W32) (s : State) : Out :=
  event (fun s =>
    if core = s.nextCore then selectCore (wakeLines s) core words else s) s

end Sys2Proof.Machine
end

