-- ==== Sys2Proof/Machine/Agenda.lean ====
section
/-! DEFINITION. What the machine does next: the open bundle issue, then what the outside world brings, then what the engines
have due, then the selection of the next core; and the placing of one instruction as the next to run. The order of the engines is one
of those that the spec allows; `inputs` may carry any event, and so any other order (log entry 32). -/

namespace Sys2Proof.Machine

/-! What the engines have due. Each list may name an event that turns out to change nothing. -/

/-- The answer to a waiting SVC. -/
def svcEvent (core part seq n : Nat) : Instr :=
  match n with
  | 0 => .svcFwver core part seq
  | 1 => .svcCatclk core part seq
  | 2 => .svcDirhome core part seq
  | 3 => .svcEvent core part seq
  | _ => .svcUnknown core part seq

/-- What an operation with an engine has due: the report of its fault, or the engine's turn. -/
def opDue (s : State) (part : Nat) (x : KvOp) : List Instr :=
  if x.fault.isSome then [.kvFaultReport x.core part x.seq]
  else if x.repair.isSome || (x.op = 7 && taskAway s x.core x.task) then []
  else [.resultWrite x.core part x.seq]

/-- What a pending operation has due: the end of its timeout, its result, its answer, its fault. -/
def pendDue (s : State) (core part : Nat) (e : Pend) : List Instr :=
  match e.st with
  | .wait (.waitm _ _ _ (some t)) => if t ≤ s.clock then [.waitmTimeout core part e.seq] else []
  | .wait (.cwaitBar _ (some t)) => if t ≤ s.clock then [.cwaitTimeout core part e.seq] else []
  | .wait (.cwaitRing _ _ (some t)) => if t ≤ s.clock then [.cwaitTimeout core part e.seq] else []
  | .wait (.answer n _) => [svcEvent core part e.seq n.toNat]
  | .engine =>
    match e.eng, kvIdOf e with
    | none, _ => [.resultWrite core part e.seq]
    | some _, none => []
    | some _, some id => (mget s.kvs id).toList.flatMap (opDue s part)
  | _ => []

/-- What a swapped-out context has due: its waits go on when it runs again (R380). -/
def awayDue (s : State) (e : Nat × SavedCtx) : List Instr :=
  (e.2.ctx.pends.filter fun p => match p.st with
    | .wait (.answer _ _) => true
    | .engine => true
    | _ => false).flatMap (pendDue s e.2.core (32 + e.1))

/-- What the operations that a killed task has left with the engines have due (R378). -/
def endingDue (s : State) (core part : Nat) (p : Part) : List Instr :=
  if p.ps == .ending then
    (s.kvs.filter fun e => e.2.core == core && e.2.task == p.entered).flatMap fun e => opDue s part e.2
  else []

/-- What a partition has due. -/
def partDue (s : State) (x : Nat × Part) : List Instr :=
  let core := x.1 / 32
  let part := x.1 % 32
  x.2.pends.flatMap (pendDue s core part) ++ endingDue s core part x.2 ++
    (if expandable x.2 then [.segmentExpand core part] else []) ++
    (if x.2.ps == .fetch && (bucketNamed x.2).isSome then [.bucketTableRead core part] else []) ++
    (if yieldStopped x.2 then [.preemptRequest core (32 + part)] else [])

/-- What the copy engines, the KV walker, the relocation engine and the rings have due. -/
def engineDue (s : State) : List Instr :=
  ((s.copies.filter fun e => copyReady s e.1 e.2 || collReady s e.1 e.2).map fun e => .copyUnitDone (e.1 / 4096) (e.1 % 4096) false) ++
    ((s.kvs.filter fun e => e.2.repair.isSome).map fun e => .replicaRepair e.1) ++
    ((s.held.map fun r => (r.queue, r.ring)).eraseDups.map fun r => .completionRecordWrite r.1 r.2) ++
    (if s.eventRing != 0 && s.eventsOut < (eventRecords s).length then [.completionRecordWrite eventQueue 0] else []) ++
    ((s.irqs.filter (irqDue s)).map fun x => .hostInterruptTimer x.queue x.ring) ++
    (s.relocs.map fun e => if e.2.next < e.2.total then .relocSubtileCopy e.1 else .relocFinish e.1)

/-- What the memory side has due. -/
def memoryDue (s : State) : List Instr :=
  s.capDue.map .chunkCapture ++
    ((s.capture.filter fun e => e.2.storing).map fun e => .captureStoreBackDone e.1) ++
    (mkeys s.retiring).map .retirementCopyDone ++
    s.cores.flatMap fun c => (c.2.cache.filter fun l => l.2.filled + 65536 ≤ s.clock).map fun l => .coreCacheLineExpiry c.1 l.1

/-- Whether a packet stands written in a slot of a queue's window that has not been fetched. -/
def slotReady (s : State) (q : Nat) (x : QueueSt) (k : Nat) : Bool :=
  !x.retired.contains k && (ringPkt s q k).isNone &&
    match (queueHead s q).2 with
    | some (_, _, h) =>
      k < x.lastRead + qSize h && (match (slotWords s q k (qSize h)).2 with
        | some w => pktPhase w == phaseOf k (qSize h)
        | none => true)
    | none => true

/-- What a queue has due: its fetches, its resumption, its firmware. -/
def queueDue (s : State) (e : Nat × QueueSt) : List Instr :=
  let q := e.1
  (if served s q then ((List.range 16).filter fun i => slotReady s q e.2 (e.2.base + i)).map fun i => .packetFetch q (e.2.base + i) else []) ++
    (if !e.2.stopped.isEmpty && peekNat s (queueAddr s q + 0x70) 1 = 0 then [.queueResume q] else []) ++
    (if e.2.fw < s.fws.length && (s.fws.getLast?).any (layoutsListed s q) then [.firmwareActivation q] else [])

/-- What a packet has due. -/
def pktDue (s : State) (e : Nat × Pkt) : List Instr :=
  let p := e.2
  let id := e.1
  if p.st == .fetched then
    if cardDue p then [.pktLaunch id]
    else if !mayIssue s id p then []
    else
      match p.type with
      | 0 => [.pktNop id]
      | 1 => [.pktLaunch id]
      | 2 => [.pktGraph id]
      | 3 => [.pktCond id]
      | 4 => [.pktWrite id]
      | _ => [.pktFlush id]
  else if p.type = 2 then [.pktGraph id, .packetRetire id]
  else if p.type = 1 then
    if (p.gang.bind (mget s.gangs ·)).any fun g => g.released && g.live == 0 then [.packetRetire id] else []
  else [.packetRetire id]

/-- What a gang has due. -/
def gangDue (s : State) (e : Nat × Gang) : List Instr :=
  let (gid, g) := e
  (if closeDue s g then [.gangClose gid] else []) ++
    (match lrBounds g.lrec with
      | some (b1, b2, b3) => (g.cores.filter (changeDue s gid g)).map fun c => .poolBoundaryChange c b1 b2 b3
      | none => []) ++
    (if g.placed && !g.released then [.gangRelease gid] else [])

/-- What the command processor has due: the queue whose visit falls on this clock, its queues, packets and gangs, and the choice of
a candidate. -/
def commandDue (s : State) : List Instr :=
  let q := s.uclock / 4 % 1024
  (if s.slice < s.clock / s.limits.slice then [.sliceStart] else []) ++
    (if s.qtab != 0 && served s q then [.queueVisit q] else []) ++ s.queues.flatMap (queueDue s) ++ s.pkts.flatMap (pktDue s) ++
    s.gangs.flatMap (gangDue s) ++ ((s.gangs.filter fun e => placeDue s e.1 e.2).map fun e => .gangPlace e.1) ++
    (s.shadow.filter fun e => returnDue s e.1 e.2).map fun e => .partitionResume e.2.core (32 + e.1)

/-- What the catalogue and circulation engines, the steward and the links have due. -/
def stewardDue (s : State) : List Instr :=
  (s.catOps.map fun e => match e.2.kind with
    | 0 => .sealRun e.1
    | 1 => .catlookRun e.1
    | _ => .promotionRun e.1) ++
    (s.recalls.map fun e => .recallDataMove e.1) ++
    (match spaces s with
      | x :: _ => ((List.range 4).filter (passDue s)).map fun t => .demotionPass x.1 t
      | [] => []) ++
    ((s.colls.filter fun e => !e.2.allJoined && e.2.since + s.limits.collLimit * 1500000000 ≤ s.uclock).map fun e => .collectiveTimeout e.1) ++
    ((s.nvme.filter fun e => e.2.kind == 0 && e.2.since + s.limits.repoto * 1500000000 ≤ s.uclock).map fun e => .repotoExpiry e.1) ++
    ((s.extents.filter fun e => e.2.since.any fun t => t + s.limits.annexGrace * 1500000000 ≤ s.uclock).map fun e => .annexgraceExpiry e.1) ++
    (((s.conns.map fun e => e.1 / 4).eraseDups.filter (silent s)).map .peertoExpiry) ++ (((fabricChips s).filter (unopened s)).map fun c => .itkRetransmitTimeout c []) ++
    ((s.conns.filter fun e => !e.2.sent.isEmpty && e.2.sentAt + 64 * 1500 ≤ s.uclock).map fun e => .itkRetransmitTimeout (e.1 / 4) [])

/-- All that is due. A part held by a thermal trip does nothing (R408). -/
def allDue (s : State) : List Instr :=
  if s.coreMHz = 0 then []
  else s.parts.flatMap (partDue s) ++ s.shadow.flatMap (awayDue s) ++ engineDue s ++ memoryDue s ++ commandDue s ++ stewardDue s

/-! The next move. -/

/-- One move of the machine. -/
inductive Move where
  | exec (i : Instr) (s : State)
  | done (s : State)
  | stop (r : Fault)
  deriving DecidableEq, Repr

/-- Whether an instruction is an event, and no syllable. -/
def isEvent (i : Instr) : Bool := (encode i).isNone

/-- The next move. A part that is held in reset takes no input but the reset (R408). Between two selections every due event has one turn at most, so that the cores never stand still. An input that
is no event of the part stops the machine: no such thing can happen. -/
def agendaMove (s : State) : Move :=
  if s.iss.isOpen then
    match issueAction s with
    | .exec i t => .exec i t
    | .done t => .done { t with epoch := s.epoch + 1 }
  else
    match s.inputs with
    | i :: rest =>
      if s.coreMHz = 0 && i != .reset then .done { s with inputs := rest, epoch := s.epoch + 1 }
      else if isEvent i && i.wf then .exec i { s with inputs := rest } else .stop (.noSuchUnit rest.length)
    | [] =>
      match (allDue s)[s.turn]? with
      | some i => .exec i { s with turn := s.turn + 1 }
      | none => .exec (.partitionSelect s.nextCore []) { s with turn := 0 }

/-- The slot in which `State.withFetchWord` places an instruction of a slot class. -/
def slotOfClass (c : SlotClass) : Nat :=
  match c with
  | .P => 0
  | .S => 1
  | .V => 2
  | .M => 4
  | .C => 5
  | .X => 7

/-- The bundle that holds one instruction word, with its extension word. -/
def wordBundle (c : SlotClass) (w : Nat) : Bundle :=
  let word := BitVec.ofNat 32 w
  let ext := if wordE word then [BitVec.ofNat 32 (w / 2 ^ 32)] else []
  { hdr := BitVec.ofNat 32 (2 ^ (31 - slotOfClass c) + (1 + ext.length) * 2 ^ 10), words := word :: ext }

/-- The slot class that reads the word. -/
def wordClass (w : Nat) : SlotClass :=
  match (decodeTableWord 32 w).bind encode with
  | some (c, _, _) => c
  | none => .S

/-- A bundle issue of partition 0 of core 0, open at the slot of one instruction word. -/
def placeWord (s : State) (w : Nat) : State :=
  let c := wordClass w
  let p := { getPart s 0 0 with ps := .ready, slots := 255, accs := 255, wregs := 128 }
  let p := { p with at_ := { p.at_ with rep := some 0, again := false } }
  let iss : Issue := { Issue.closed with isOpen := true, slot := slotOfClass c, bundle := wordBundle c w }
  { setPart s 0 0 p with iss := iss }

end Sys2Proof.Machine
end

