-- ==== Sys2Proof/Machine/Dispatch.lean ====
section
/-! DEFINITION. The one match from instructions to their meanings. -/

namespace Sys2Proof.Machine

def exec (i : Instr) (s : State) : Host.Outcome State Fault Refusal :=
  match i with
  | .partitionSelect core words => Sys2Proof.Machine.execPartitionSelect core words s
  | .resultWrite core part seq => Sys2Proof.Machine.execResultWrite core part seq s
  | .segmentExpand core part => Sys2Proof.Machine.execSegmentExpand core part s
  | .bucketTableRead core part => Sys2Proof.Machine.execBucketTableRead core part s
  | .preemptRequest core part => Sys2Proof.Machine.execPreemptRequest core part s
  | .partitionResume core part => Sys2Proof.Machine.execPartitionResume core part s
  | .singleStepSet core part on => Sys2Proof.Machine.execSingleStepSet core part on s
  | .taskKill core part => Sys2Proof.Machine.execTaskKill core part s
  | .kvFaultReport core part seq => Sys2Proof.Machine.execKvFaultReport core part seq s
  | .copyFaultReport core entry => Sys2Proof.Machine.execCopyFaultReport core entry s
  | .copyUnitDone core entry failed => Sys2Proof.Machine.execCopyUnitDone core entry failed s
  | .completionRecordWrite q ring => Sys2Proof.Machine.execCompletionRecordWrite q ring s
  | .hostInterruptTimer q ring => Sys2Proof.Machine.execHostInterruptTimer q ring s
  | .ringConsAdvance q ring => Sys2Proof.Machine.execRingConsAdvance q ring s
  | .cwaitTimeout core part seq => Sys2Proof.Machine.execCwaitTimeout core part seq s
  | .waitmWake core part seq => Sys2Proof.Machine.execWaitmWake core part seq s
  | .waitmTimeout core part seq => Sys2Proof.Machine.execWaitmTimeout core part seq s
  | .svcAnswer core part seq answer => Sys2Proof.Machine.execSvcAnswer core part seq answer s
  | .svcFwver core part seq => Sys2Proof.Machine.execSvcFwver core part seq s
  | .svcCatclk core part seq => Sys2Proof.Machine.execSvcCatclk core part seq s
  | .svcDirhome core part seq => Sys2Proof.Machine.execSvcDirhome core part seq s
  | .svcEvent core part seq => Sys2Proof.Machine.execSvcEvent core part seq s
  | .svcUnknown core part seq => Sys2Proof.Machine.execSvcUnknown core part seq s
  | .layoutRead t => Sys2Proof.Machine.execLayoutRead t s
  | .layoutWrite t cls data => Sys2Proof.Machine.execLayoutWrite t cls data s
  | .memorySideReduction addr f32 x cls => Sys2Proof.Machine.execMemorySideReduction addr f32 x cls s
  | .ioDieReduction addr f32 x => Sys2Proof.Machine.execIoDieReduction addr f32 x s
  | .stewardMergeCommand chunks => Sys2Proof.Machine.execStewardMergeCommand chunks s
  | .chunkCapture chunk => Sys2Proof.Machine.execChunkCapture chunk s
  | .captureStoreBackDone chunk => Sys2Proof.Machine.execCaptureStoreBackDone chunk s
  | .patrolScrub chunk ecc => Sys2Proof.Machine.execPatrolScrub chunk ecc s
  | .retirementCopyDone chunk => Sys2Proof.Machine.execRetirementCopyDone chunk s
  | .relocSubtileCopy slot => Sys2Proof.Machine.execRelocSubtileCopy slot s
  | .relocFinish slot => Sys2Proof.Machine.execRelocFinish slot s
  | .replicaRepair id => Sys2Proof.Machine.execReplicaRepair id s
  | .sealRun id => Sys2Proof.Machine.execSealRun id s
  | .catlookRun id => Sys2Proof.Machine.execCatlookRun id s
  | .promotionRun id => Sys2Proof.Machine.execPromotionRun id s
  | .demotionPass cat tier => Sys2Proof.Machine.execDemotionPass cat tier s
  | .recallDataMove id => Sys2Proof.Machine.execRecallDataMove id s
  | .deaccession cat node => Sys2Proof.Machine.execDeaccession cat node s
  | .poolBoundaryChange core b1 b2 b3 => Sys2Proof.Machine.execPoolBoundaryChange core b1 b2 b3 s
  | .coreCacheLineExpiry core line => Sys2Proof.Machine.execCoreCacheLineExpiry core line s
  | .packetFetch q k => Sys2Proof.Machine.execPacketFetch q k s
  | .queueVisit q => Sys2Proof.Machine.execQueueVisit q s
  | .queueResume q => Sys2Proof.Machine.execQueueResume q s
  | .pktNop id => Sys2Proof.Machine.execPktNop id s
  | .pktLaunch id => Sys2Proof.Machine.execPktLaunch id s
  | .pktGraph id => Sys2Proof.Machine.execPktGraph id s
  | .pktCond id => Sys2Proof.Machine.execPktCond id s
  | .pktWrite id => Sys2Proof.Machine.execPktWrite id s
  | .pktFlush id => Sys2Proof.Machine.execPktFlush id s
  | .packetRetire id => Sys2Proof.Machine.execPacketRetire id s
  | .gangPlace gang => Sys2Proof.Machine.execGangPlace gang s
  | .gangRelease gang => Sys2Proof.Machine.execGangRelease gang s
  | .gangClose gang => Sys2Proof.Machine.execGangClose gang s
  | .firmwareActivation q => Sys2Proof.Machine.execFirmwareActivation q s
  | .hostApertureRead offset n => Sys2Proof.Machine.execHostApertureRead offset n s
  | .hostApertureWrite offset data => Sys2Proof.Machine.execHostApertureWrite offset data s
  | .bar0RegisterWrite offset x => Sys2Proof.Machine.execBar0RegisterWrite offset x s
  | .hostSnpdata line => Sys2Proof.Machine.execHostSnpdata line s
  | .hostSnpinv line => Sys2Proof.Machine.execHostSnpinv line s
  | .hostLineEviction line => Sys2Proof.Machine.execHostLineEviction line s
  | .annexReleaseRequest extent => Sys2Proof.Machine.execAnnexReleaseRequest extent s
  | .annexgraceExpiry extent => Sys2Proof.Machine.execAnnexgraceExpiry extent s
  | .annexForcedRelease extent => Sys2Proof.Machine.execAnnexForcedRelease extent s
  | .nvmeCompletion cmd ok data => Sys2Proof.Machine.execNvmeCompletion cmd ok data s
  | .repotoExpiry cmd => Sys2Proof.Machine.execRepotoExpiry cmd s
  | .itkHello chip msg => Sys2Proof.Machine.execItkHello chip msg s
  | .itkAck chip msg => Sys2Proof.Machine.execItkAck chip msg s
  | .itkDreg chip msg => Sys2Proof.Machine.execItkDreg chip msg s
  | .itkDquery chip msg => Sys2Proof.Machine.execItkDquery chip msg s
  | .itkDlist chip msg => Sys2Proof.Machine.execItkDlist chip msg s
  | .itkFetch chip msg => Sys2Proof.Machine.execItkFetch chip msg s
  | .itkFdata chip msg => Sys2Proof.Machine.execItkFdata chip msg s
  | .itkNohold chip msg => Sys2Proof.Machine.execItkNohold chip msg s
  | .itkNodeinfo chip msg => Sys2Proof.Machine.execItkNodeinfo chip msg s
  | .itkPread chip msg => Sys2Proof.Machine.execItkPread chip msg s
  | .itkPwrite chip msg => Sys2Proof.Machine.execItkPwrite chip msg s
  | .itkPdata chip msg => Sys2Proof.Machine.execItkPdata chip msg s
  | .itkPrefuse chip msg => Sys2Proof.Machine.execItkPrefuse chip msg s
  | .itkCjoin chip msg => Sys2Proof.Machine.execItkCjoin chip msg s
  | .itkCdata chip msg => Sys2Proof.Machine.execItkCdata chip msg s
  | .itkUnknownType chip msg => Sys2Proof.Machine.execItkUnknownType chip msg s
  | .itkRetransmitTimeout chip msg => Sys2Proof.Machine.execItkRetransmitTimeout chip msg s
  | .peertoExpiry chip => Sys2Proof.Machine.execPeertoExpiry chip s
  | .collectiveTimeout id => Sys2Proof.Machine.execCollectiveTimeout id s
  | .mailboxModuleRecord record slot => Sys2Proof.Machine.execMailboxModuleRecord record slot s
  | .mailboxFirmwareStage image => Sys2Proof.Machine.execMailboxFirmwareStage image s
  | .setkey slot nsid key => Sys2Proof.Machine.execSetkey slot nsid key s
  | .clearkey slot => Sys2Proof.Machine.execClearkey slot s
  | .debugHold core req => Sys2Proof.Machine.execDebugHold core req s
  | .eventRingName addr len => Sys2Proof.Machine.execEventRingName addr len s
  | .getMeasurements nonce => Sys2Proof.Machine.execGetMeasurements nonce s
  | .scope f => Sys2Proof.Machine.execScope f s
  | .nop cls => Sys2Proof.Machine.execNop cls s
  | .add f => Sys2Proof.Machine.execAdd f s
  | .sub f => Sys2Proof.Machine.execSub f s
  | .mul f => Sys2Proof.Machine.execMul f s
  | .mulh f => Sys2Proof.Machine.execMulh f s
  | .div f => Sys2Proof.Machine.execDiv f s
  | .rem f => Sys2Proof.Machine.execRem f s
  | .and f => Sys2Proof.Machine.execAnd f s
  | .or f => Sys2Proof.Machine.execOr f s
  | .xor f => Sys2Proof.Machine.execXor f s
  | .andn f => Sys2Proof.Machine.execAndn f s
  | .orn f => Sys2Proof.Machine.execOrn f s
  | .shl f => Sys2Proof.Machine.execShl f s
  | .shr f => Sys2Proof.Machine.execShr f s
  | .sar f => Sys2Proof.Machine.execSar f s
  | .rol f => Sys2Proof.Machine.execRol f s
  | .min f => Sys2Proof.Machine.execMin f s
  | .max f => Sys2Proof.Machine.execMax f s
  | .cmpeq f => Sys2Proof.Machine.execCmpeq f s
  | .cmpne f => Sys2Proof.Machine.execCmpne f s
  | .cmplt f => Sys2Proof.Machine.execCmplt f s
  | .cmple f => Sys2Proof.Machine.execCmple f s
  | .popc f => Sys2Proof.Machine.execPopc f s
  | .mov f => Sys2Proof.Machine.execMov f s
  | .movi f => Sys2Proof.Machine.execMovi f s
  | .movhi f => Sys2Proof.Machine.execMovhi f s
  | .csel f => Sys2Proof.Machine.execCsel f s
  | .ld f => Sys2Proof.Machine.execLd f s
  | .st f => Sys2Proof.Machine.execSt f s
  | .lds f => Sys2Proof.Machine.execLds f s
  | .chk f => Sys2Proof.Machine.execChk f s
  | .br f => Sys2Proof.Machine.execBr f s
  | .bc f => Sys2Proof.Machine.execBc f s
  | .bri f => Sys2Proof.Machine.execBri f s
  | .call f => Sys2Proof.Machine.execCall f s
  | .calli f => Sys2Proof.Machine.execCalli f s
  | .ret f => Sys2Proof.Machine.execRet f s
  | .lset f => Sys2Proof.Machine.execLset f s
  | .lnext f => Sys2Proof.Machine.execLnext f s
  | .bksel f => Sys2Proof.Machine.execBksel f s
  | .fset f => Sys2Proof.Machine.execFset f s
  | .fwait f => Sys2Proof.Machine.execFwait f s
  | .launch f => Sys2Proof.Machine.execLaunch f s
  | .mfsr f => Sys2Proof.Machine.execMfsr f s
  | .mtsr f => Sys2Proof.Machine.execMtsr f s
  | .aadd f => Sys2Proof.Machine.execAadd f s
  | .amin f => Sys2Proof.Machine.execAmin f s
  | .amax f => Sys2Proof.Machine.execAmax f s
  | .aswap f => Sys2Proof.Machine.execAswap f s
  | .acas f => Sys2Proof.Machine.execAcas f s
  | .aclaim f => Sys2Proof.Machine.execAclaim f s
  | .waitm f => Sys2Proof.Machine.execWaitm f s
  | .barv f => Sys2Proof.Machine.execBarv f s
  | .barw f => Sys2Proof.Machine.execBarw f s
  | .trap f => Sys2Proof.Machine.execTrap f s
  | .brk f => Sys2Proof.Machine.execBrk f s
  | .svc f => Sys2Proof.Machine.execSvc f s
  | .ctxsv f => Sys2Proof.Machine.execCtxsv f s
  | .ctxld f => Sys2Proof.Machine.execCtxld f s
  | .vfadd f => Sys2Proof.Machine.execVfadd f s
  | .vfsub f => Sys2Proof.Machine.execVfsub f s
  | .vfmul f => Sys2Proof.Machine.execVfmul f s
  | .vfma f => Sys2Proof.Machine.execVfma f s
  | .vfnma f => Sys2Proof.Machine.execVfnma f s
  | .vfmin f => Sys2Proof.Machine.execVfmin f s
  | .vfmax f => Sys2Proof.Machine.execVfmax f s
  | .vfabs f => Sys2Proof.Machine.execVfabs f s
  | .vfneg f => Sys2Proof.Machine.execVfneg f s
  | .vfcmp f => Sys2Proof.Machine.execVfcmp f s
  | .vrcp f => Sys2Proof.Machine.execVrcp f s
  | .vrsqrt f => Sys2Proof.Machine.execVrsqrt f s
  | .vexp2 f => Sys2Proof.Machine.execVexp2 f s
  | .vcvt f => Sys2Proof.Machine.execVcvt f s
  | .vadd f => Sys2Proof.Machine.execVadd f s
  | .vsub f => Sys2Proof.Machine.execVsub f s
  | .vmul f => Sys2Proof.Machine.execVmul f s
  | .vand f => Sys2Proof.Machine.execVand f s
  | .vor f => Sys2Proof.Machine.execVor f s
  | .vxor f => Sys2Proof.Machine.execVxor f s
  | .vshl f => Sys2Proof.Machine.execVshl f s
  | .vshr f => Sys2Proof.Machine.execVshr f s
  | .vsar f => Sys2Proof.Machine.execVsar f s
  | .vmin f => Sys2Proof.Machine.execVmin f s
  | .vmax f => Sys2Proof.Machine.execVmax f s
  | .vcmp f => Sys2Proof.Machine.execVcmp f s
  | .vradd f => Sys2Proof.Machine.execVradd f s
  | .vrmax f => Sys2Proof.Machine.execVrmax f s
  | .vscani f => Sys2Proof.Machine.execVscani f s
  | .vscanx f => Sys2Proof.Machine.execVscanx f s
  | .vperm f => Sys2Proof.Machine.execVperm f s
  | .vbcast f => Sys2Proof.Machine.execVbcast f s
  | .vslide f => Sys2Proof.Machine.execVslide f s
  | .vcompr f => Sys2Proof.Machine.execVcompr f s
  | .pand f => Sys2Proof.Machine.execPand f s
  | .por f => Sys2Proof.Machine.execPor f s
  | .pxor f => Sys2Proof.Machine.execPxor f s
  | .pnot f => Sys2Proof.Machine.execPnot f s
  | .pcnt f => Sys2Proof.Machine.execPcnt f s
  | .vld f => Sys2Proof.Machine.execVld f s
  | .vst f => Sys2Proof.Machine.execVst f s
  | .vgath f => Sys2Proof.Machine.execVgath f s
  | .vscat f => Sys2Proof.Machine.execVscat f s
  | .vlds f => Sys2Proof.Machine.execVlds f s
  | .vgaths f => Sys2Proof.Machine.execVgaths f s
  | .vpart f => Sys2Proof.Machine.execVpart f s
  | .vhist f => Sys2Proof.Machine.execVhist f s
  | .vkey f => Sys2Proof.Machine.execVkey f s
  | .vkeyx f => Sys2Proof.Machine.execVkeyx f s
  | .vpx3 f => Sys2Proof.Machine.execVpx3 f s
  | .vshadd3 f => Sys2Proof.Machine.execVshadd3 f s
  | .vfxt f => Sys2Proof.Machine.execVfxt f s
  | .vfxf f => Sys2Proof.Machine.execVfxf f s
  | .mstep f => Sys2Proof.Machine.execMstep f s
  | .mzero f => Sys2Proof.Machine.execMzero f s
  | .mread f => Sys2Proof.Machine.execMread f s
  | .mwrite f => Sys2Proof.Machine.execMwrite f s
  | .mfmt f => Sys2Proof.Machine.execMfmt f s
  | .mloop f => Sys2Proof.Machine.execMloop f s
  | .mscale f => Sys2Proof.Machine.execMscale f s
  | .medge f => Sys2Proof.Machine.execMedge f s
  | .mrot f => Sys2Proof.Machine.execMrot f s
  | .xqnt f => Sys2Proof.Machine.execXqnt f s
  | .xexp f => Sys2Proof.Machine.execXexp f s
  | .xtrn f => Sys2Proof.Machine.execXtrn f s
  | .xcvt f => Sys2Proof.Machine.execXcvt f s
  | .xplane f => Sys2Proof.Machine.execXplane f s
  | .xunpl f => Sys2Proof.Machine.execXunpl f s
  | .xscale f => Sys2Proof.Machine.execXscale f s
  | .ocopy f => Sys2Proof.Machine.execOcopy f s
  | .oload f => Sys2Proof.Machine.execOload f s
  | .ostore f => Sys2Proof.Machine.execOstore f s
  | .tload f => Sys2Proof.Machine.execTload f s
  | .kvld f => Sys2Proof.Machine.execKvld f s
  | .kvldt f => Sys2Proof.Machine.execKvldt f s
  | .kvapp f => Sys2Proof.Machine.execKvapp f s
  | .seal f => Sys2Proof.Machine.execSeal f s
  | .catlook f => Sys2Proof.Machine.execCatlook f s
  | .loan f => Sys2Proof.Machine.execLoan f s
  | .unloan f => Sys2Proof.Machine.execUnloan f s
  | .promote f => Sys2Proof.Machine.execPromote f s
  | .qpush f => Sys2Proof.Machine.execQpush f s
  | .qpoll f => Sys2Proof.Machine.execQpoll f s
  | .cwait f => Sys2Proof.Machine.execCwait f s
  | .barset f => Sys2Proof.Machine.execBarset f s
  | .coll f => Sys2Proof.Machine.execColl f s
  | .olcinv f => Sys2Proof.Machine.execOlcinv f s
  | .reloc f => Sys2Proof.Machine.execReloc f s
  | .annexExtentOffer port base size kind => Sys2Proof.Machine.execAnnexExtentOffer port base size kind s
  | .nvmeQueueHandoff sq cq depth => Sys2Proof.Machine.execNvmeQueueHandoff sq cq depth s
  | .refreshWindowEnd => Sys2Proof.Machine.execRefreshWindowEnd s
  | .scrubPeriodEnd => Sys2Proof.Machine.execScrubPeriodEnd s
  | .sliceStart => Sys2Proof.Machine.execSliceStart s
  | .reset => Sys2Proof.Machine.execReset s
  | .powerOverCap => Sys2Proof.Machine.execPowerOverCap s
  | .powerBelowCap => Sys2Proof.Machine.execPowerBelowCap s
  | .thermalThrottle => Sys2Proof.Machine.execThermalThrottle s
  | .thermalTrip => Sys2Proof.Machine.execThermalTrip s
  | .yield => Sys2Proof.Machine.execYield s
  | .endTask => Sys2Proof.Machine.execEndTask s
  | .drain => Sys2Proof.Machine.execDrain s
  | .rett => Sys2Proof.Machine.execRett s
  | .uiret => Sys2Proof.Machine.execUiret s
  | .thermalRecovery => Sys2Proof.Machine.execThermalRecovery s
  | .spdmSecureSession => Sys2Proof.Machine.execSpdmSecureSession s

end Sys2Proof.Machine
end

