-- ==== Sys2Proof/Machine/Step.lean ====
section
/-! DEFINITION. One step of the machine. -/

namespace Sys2Proof.Machine

/-- One step: one move of the agenda. -/
def step (s : State) : Host.Outcome State Fault Refusal :=
  match agendaMove s with
  | .exec i t => exec i t
  | .done t => .next t
  | .stop r => .fault r

/-- The state in which the next step runs the instruction of a word of the operation table. -/
def State.withFetchWord (s : State) (_nbits w : Nat) : State := placeWord s w

end Sys2Proof.Machine
end

