-- ==== Sys2Proof/Safety.lean ====
section
/-! DEFINITION. The terms in which the claims are stated: well-kept states, the result that a syllable leaves pending, and what a
syllable leaves as it was. -/

namespace Sys2Proof.Machine

/-! Well-kept states. -/

/-- The four byte stores stand in canonical form: keys strictly rising, no byte equal to what an unlisted address reads as. -/
def State.memOk (s : State) : Bool := memWf s.mem && memWf s.annexMem && memWf s.hostMem

/-- Elements that a reduction has touched: aligned, in the chunk, apart from one another and from the plain bytes (Table 4.4). -/
def WcEntry.ok (w : WcEntry) : Bool :=
  msorted w.data && msorted w.red && (w.data.all fun e => e.1 < 2048) &&
    w.red.all fun e => e.1 % redWidth e.2.f32 == 0 && e.1 + redWidth e.2.f32 ≤ 2048 &&
      (List.range (redWidth e.2.f32)).all fun i => (mget w.data (e.1 + i)).isNone && (i == 0 || (mget w.red (e.1 + i)).isNone)

/-- The buffers in front of memory are in order: at most one entry for a chunk or line, each well formed, and none for a chunk of the
capture region. -/
def State.buffersOk (s : State) : Bool :=
  msorted s.wc && (s.wc.all fun e => e.2.ok && (mget s.capture e.1).isNone) && msorted s.capture && msorted s.annexBuf &&
    (s.annexBuf.all fun e => msorted e.2 && e.2.all fun x => x.1 < 64) && msorted s.hostLines && (s.hostLines.all fun e => e.2.data.length == 64) &&
    (s.cxlCache || s.hostLines.isEmpty)

/-- Every pending operation of a partition is numbered below the next one. -/
def Part.seqsOk (p : Part) : Bool := p.pends.all fun e => e.seq < p.nextSeq

/-- So it is in every partition and in every saved context. -/
def State.seqsOk (s : State) : Bool := (s.parts.all fun e => e.2.seqsOk) && s.shadow.all fun e => e.2.ctx.seqsOk

/-- A state whose memories and buffers are in order. -/
def State.memoryOk (s : State) : Bool := s.memOk && s.buffersOk

/-- A partition stands in no handler deeper than the nested one, and FPCTL's reserved bits read 0 (Table 11.8, R376). -/
def Part.modesOk (p : Part) : Bool := p.level ≤ 2 && p.fpctl &&& 0x70F#64 == p.fpctl

/-- So it is in every partition and in every saved context; the core clock is off or between 350 and 700 MHz (R408, R409), and a core of
the part comes next. -/
def State.modesOk (s : State) : Bool :=
  (s.parts.all fun e => e.2.modesOk) && (s.shadow.all fun e => e.2.ctx.modesOk) &&
    (s.coreMHz == 0 || (350 ≤ s.coreMHz && s.coreMHz ≤ 700)) && s.nextCore < 128

/-- The cell in which a device address has its byte (Table 5.1, R390): two addresses of annex granules that one place backs share it. -/
def cellOf (s : State) (a : Nat) : Nat × Nat :=
  if a < hbmTop then (0, a) else if a < annexEnd then (1, annexKey s a) else (2, a - hostBase)

/-- Every byte of memory reads as it did, where the memories and buffers were in order. -/
def KeepsMemory (s t : State) : Prop := s.memoryOk = true → t.memoryOk = true ∧ ∀ a, peek t a = peek s a

/-- The cells of `n` bytes of memory from an address. -/
def plainCells (a n : Nat) : List LByte := tab n fun i => { lo := .mem (a + i) false, hi := .mem (a + i) true }

/-- A byte of an object as memory holds it. -/
def memByte (s : State) (b : LByte) : Byte := BitVec.ofNat 8 (b.lo.peek s + 16 * b.hi.peek s)

/-! A task at its start. -/

/-- The registers that Table 14.10 gives every task alike: poison 0, p0 all true, the other predicates, rotating predicates, loop counters and
their epilogue counts 0, the matrix controls of Table 13.3, FPCTL 4, the handler and completion registers and the trap registers 0, and
nothing pending, held, monitored or sticky. -/
def Part.AtStart (p : Part) : Prop :=
  p.sp = 0 ∧ p.sh = Vector.replicate 8 0 ∧ p.shp = 0 ∧ p.vp = 0 ∧ p.p = (Vector.replicate 16 0).set 0 (BitVec.allOnes 128) ∧
    p.g = Vector.replicate 8 0 ∧ p.lc = Vector.replicate 4 0 ∧ p.le = Vector.replicate 4 0 ∧ p.mca = 0 ∧ p.mcb = 0 ∧ p.mcs = 0 ∧ p.mcg = 0 ∧
    p.mce = 0 ∧ p.mcr = 0x00FAC688 ∧ p.fpctl = 4 ∧ p.uivec = 0 ∧ p.uictl = 0 ∧ p.rplact = 0 ∧ p.cfc01 = 0 ∧ p.cfc23 = 0 ∧ p.tsw = 0 ∧
    p.tcause = 0 ∧ p.taddr = 0 ∧ p.tpc = 0 ∧ p.tc = 0 ∧ p.level = 0 ∧ p.ui = none ∧ p.pends = [] ∧ p.early = [] ∧ p.reports = [] ∧
    p.monitor = none ∧ (∀ k, getSticky p k = none) ∧ p.at_.rep = none ∧ p.at_.xfer = none ∧ p.at_.slot = 0

/-! What a syllable leaves behind. -/

/-- A pending operation but for the mark that a later result overtakes it (R22). -/
def Pend.unmarked (e : Pend) : Pend := { e with late := false }

/-- `e` is the pending operation of the syllable `i` that issues in `s`, due `lat` task cycles after its bundle (R18). -/
def Pend.isOf (e : Pend) (i : Instr) (lat : Nat) (s : State) : Prop :=
  e.op = opOf i ∧ e.slot = s.iss.slot ∧ e.level = (cur s).level ∧ e.cyc = (cur s).tc ∧ e.due = (cur s).tc + lat

/-- A partition is as it was, but for its list of pending operations, to which `n` have been added, and its slots' sticky
registers. -/
def OnlyPends (n : Nat) (p q : Part) : Prop :=
  q = { p with pends := q.pends, nextSeq := p.nextSeq + n, at_ := { p.at_ with sticky := q.at_.sticky } } ∧
    (q.pends.take p.pends.length).map Pend.unmarked = p.pends.map Pend.unmarked ∧ q.pends.length = p.pends.length + n

/-- The end of a syllable and the partition that issues are all that changed: every other partition, the cores, memory and
every engine are as they were. -/
def OnlyCur (s t : State) : Prop :=
  t = { s with parts := t.parts, epoch := t.epoch, iss := { s.iss with slot := s.iss.slot + 1 } } ∧
    (∀ k, k ≠ partKey s.iss.core s.iss.part → mget t.parts k = mget s.parts k) ∧ ∀ a, peek t a = peek s a

/-- A syllable has committed with `n` pending operations and no other effect: every register, flag and byte of memory is as it
was. -/
def Committed (n : Nat) (s t : State) : Prop := OnlyCur s t ∧ OnlyPends n (cur s) (cur t)

/-- The syllable `i` has left a pending operation in this state (Table 15.3), with these results and flags, due `lat` task cycles
later. -/
def LeavesIn (st : PendSt) (i : Instr) (lat : Nat) (ws : List RegWrite) (fl : Flags) (s t : State) : Prop :=
  ∃ e, (cur t).pends.getLast? = some e ∧ e.isOf i lat s ∧ e.st = st ∧ e.writes = ws ∧ e.flags = fl

/-- The syllable `i` has left these results and flags pending, to be written `lat` task cycles later. -/
def Leaves (i : Instr) (lat : Nat) (ws : List RegWrite) (fl : Flags) (s t : State) : Prop := LeavesIn .ready i lat ws fl s t

/-- What a memory access leaves as it was: the other partitions, the gangs, queues, copies and engines, the cores' flags and
scratchpads; and in its own partition everything but the pending operations and sticky registers. `q` is the partition with any other
change that the syllable makes. -/
def AccessedAs (n : Nat) (q : Part) (s t : State) : Prop :=
  (∀ k, k ≠ partKey s.iss.core s.iss.part → mget t.parts k = mget s.parts k) ∧ OnlyPends n q (cur t) ∧
    (∀ k, (getCore t k).flags = (getCore s k).flags ∧ (getCore t k).scratch = (getCore s k).scratch ∧
      (getCore t k).imem = (getCore s k).imem ∧ (getCore t k).ageLimit = (getCore s k).ageLimit) ∧
    t.clock = s.clock ∧ t.gangs = s.gangs ∧ t.queues = s.queues ∧ t.pkts = s.pkts ∧ t.copies = s.copies ∧ t.colls = s.colls ∧
    t.kvs = s.kvs ∧ t.catOps = s.catOps ∧ t.shadow = s.shadow ∧ t.limits = s.limits

/-- A memory access that changes the partition in nothing else. -/
def Accessed (n : Nat) (s t : State) : Prop := AccessedAs n (cur s) s t

/-- The syllable ends in a result fault (R23, R372): its pending operation holds the fault, and it is reported. -/
def FaultsAs (i : Instr) (lat code : Nat) (taddr : W64) (s t : State) : Prop :=
  LeavesIn (.fault code taddr 0 0) i lat [] 0 s t ∧
    ∃ r, (cur t).reports = (cur s).reports ++ [r] ∧ r.copy = false ∧ r.code = code ∧ r.taddr = taddr ∧ r.pc = (cur s).at_.pc ∧
      r.slot = s.iss.slot ∧ r.op = opOf i ∧ AccessedAs 1 { cur s with reports := (cur s).reports ++ [r] } s t

/-- The syllable `i` waits (R20): its pending operation has a deadline, and writes its answer into a scalar register where it has one. -/
def Waits (w : Wait) (i : Instr) (lat : Nat) (d : Option (BitVec 6)) (s t : State) : Prop :=
  ∃ e, (cur t).pends.getLast? = some e ∧ e.isOf i lat s ∧ e.st = .wait w ∧ e.writes = [] ∧ e.dst = d.map fun r => (r, shadowed (cur s) r)

/-- The syllable has committed, leaves these results pending and changes nothing else. -/
def Gives (i : Instr) (lat : Nat) (ws : List RegWrite) (fl : Flags) (s t : State) : Prop := Leaves i lat ws fl s t ∧ Committed 1 s t

/-- A body of a syllable that changes the partition that issues in this way, besides its pending operations and sticky registers. -/
def CommittedAs (n : Nat) (q : Part) (s t : State) : Prop := OnlyCur s t ∧ OnlyPends n q (cur t)

/-- The control transfer that a syllable with opcode `op` sets up: after its own bundle and two delay slots control passes to the
target, or goes on in sequence (R69 to R71). -/
def Part.jumping (p : Part) (op : Nat) (target : Option W32) (bad : Bool) : Part :=
  { p with at_ := { p.at_ with xfer := some { target := target, bad := bad, left := 3, src := p.at_.pc, op := op } } }

/-- The instruction takes a precise trap with this request (R366). -/
def Traps (i : Instr) (r : TrapReq) (s : State) (o : Out) : Prop := o = .next { preciseTrap i r s with epoch := s.epoch + 1 }

/-- POISON_USE of a scalar register and of a vector register (R255, R287). -/
def poisonReqS (r : BitVec 6) : TrapReq := { code := cPoison, taddr := r.setWidth 64, commits := false }
def poisonReqV (r : BitVec 7) : TrapReq := { code := cPoison, taddr := r.setWidth 64 + 0x100, commits := false }

/-- ILLEGAL_SYLLABLE with the syllable's word. -/
def illegalReq (i : Instr) : TrapReq := { code := cIllegal, taddr := (wordOf i).setWidth 64, commits := false }

/-! The scalar integer unit. -/

/-- The result of an integer instruction (R258, R259): `f64` on whole registers, or `f32` on their lower halves, sign-extended or,
where FN[1] says unsigned, zero-extended. -/
def aluValue (fn : BitVec 2) (f64 : Bool → W64 → W64 → W64) (f32 : Bool → W32 → W32 → W32) (a b : W64) : W64 :=
  let u := fn.getLsbD 1
  if fn.getLsbD 0 then
    if u then (f32 u (a.setWidth 32) (b.setWidth 32)).setWidth 64 else (f32 u (a.setWidth 32) (b.setWidth 32)).signExtend 64
  else f64 u a b

/-- An integer instruction completes with that value, poisoned where an operand is, `lat` task cycles later, and with no flag. -/
def AluGives (mk : SA → Instr) (lat : Nat) (f64 : Bool → W64 → W64 → W64) (f32 : Bool → W32 → W32 → W32) : Prop :=
  ∀ (f : SA) (s : State), ∃ t, exec (mk f) s = .next t ∧
    Gives (mk f) lat [sDest s f.d (aluValue f.fn f64 f32 (readS s f.a).1 (aluB s f).1) ((readS s f.a).2 || (aluB s f).2)] 0 s t

/-- A truth value as a number. -/
def bvBool {n : Nat} (b : Bool) : BitVec n := if b then 1 else 0

/-! The vector slots. -/

/-- Element `k` of a vector result: `op k` of the destination's old element where the predicate includes it, else the old element. -/
def vecElem (w : Nat) (gov : Nat → Bool) (op : Nat → Nat → Conv) (old : Nat) (k : Nat) : Conv :=
  if gov k then op k (elem old w k) else convOk (elem old w k)

/-- A vector instruction completes (R284 to R286): each element of width `w` of the destination is written or kept, the flags are those of
the elements that it computes, and the register is poisoned where an operand is, or where it keeps an element of a poisoned register;
an overflow under TRAP in any element is FP_OVERFLOW as a result fault, and nothing is written (R42). -/
def VecGives (i : Instr) (lat : Nat) (d : BitVec 7) (w : Nat) (gov : Nat → Bool) (op : Nat → Nat → Conv) (po : Bool) (s t : State) : Prop :=
  let n := 4096 / w
  let e := vecElem w gov op (readV s d).1.toNat
  ((∃ k, k < n ∧ (e k).trap = true) → FaultsAs i lat cOverflow 0 s t) ∧
    ((∀ k, k < n → (e k).trap = false) → ∃ (x : VReg) (fl : Flags),
      Gives i lat [.v d x (po || ((List.range n).any (!gov ·) && (readV s d).2))] fl s t ∧
      (∀ k, k < n → elem x.toNat w k = (e k).code % 2 ^ w) ∧
      ∀ b, b < 3 → fl.getLsbD b = (List.range n).any fun k => (e k).flags.getLsbD b)

/-- A VA instruction whose vector fields lie in the window completes element by element; one of another register is ILLEGAL_SYLLABLE
(R60). `op m r o a b d` is the result of one element: `m` the modifier, `r` and `o` the rounding mode and overflow policy in force. -/
def VaGives (mk : VA → Instr) (dflt lat : Nat) (usesB accum : Bool) (op : VMod → RMode → Policy → Nat → Nat → Nat → Conv) : Prop :=
  ∀ (f : VA) (s : State),
    let m := VMod.of f.x dflt
    let w := fmtWidth m.fmt
    let a := readV s f.a
    let b := readB s f
    let inWindow := f.d.toNat < (cur s).wregs ∧ f.a.toNat < (cur s).wregs ∧ (usesB = true → f.bs = false → f.b.toNat < (cur s).wregs)
    (inWindow → ∃ t, exec (mk f) s = .next t ∧
      VecGives (mk f) lat f.d w (fun k => (predOf s m).getLsbD (k * w / 32))
        (fun k d => op m (rnd3 m.rnd (cur s).fpctl) (ovp3 m.ovp (cur s).fpctl) (elem a.1.toNat w k) (b.elem w k) d)
        (a.2 || (usesB && b.poison) || (accum && (readV s f.d).2)) s t) ∧
    (¬ inWindow → Traps (mk f) (illegalReq (mk f)) s (exec (mk f) s))

/-- A value of `w` bits as an integer. -/
def intVal (unsigned : Bool) (w x : Nat) : Int := if unsigned then (x % 2 ^ w : Nat) else toSigned x w

/-- A node of the reduction tree (R49): level 0 holds the leaves, and each node combines the two below it. -/
def treeNode (op : Nat → Nat → Conv) (leaf : Nat → Nat) : Nat → Nat → Conv
  | 0, i => convOk (leaf i)
  | n + 1, i =>
    let a := treeNode op leaf n (2 * i)
    let b := treeNode op leaf n (2 * i + 1)
    let c := op a.code b.code
    { code := c.code, flags := a.flags ||| b.flags ||| c.flags, trap := a.trap || b.trap || c.trap }

/-! The tile store. -/

/-- The code of row `r`, column `k` of a region of the tile store (R224): bit-planes of 128 columns, or rows of whole codes. -/
def tileCode (p : Part) (g : Region) (r k : Nat) : Nat :=
  if g.row then elem (tileLine p (g.base + g.w * r + k * g.w / 128)).toNat g.w (k % (128 / g.w))
  else ((List.range g.w).map fun j => if (tileLine p (g.base + g.rows * j + r)).getLsbD k then 2 ^ j else 0).sum

/-- A transform syllable writes a region of 128 rows (R225, R331, R333): its codes, the scales of an E2M1 region, and the tags of its
granules; every other line, tag and register is as it was. The lines that it replaces are kept for the units that may still miss the
write (R227). -/
def WritesTile (i : Instr) (lat : Nat) (g : Region) (code scale : Nat → Nat → Nat) (band : Nat → Nat) (fl : Flags) (s t : State) : Prop :=
  LeavesIn .engine i lat [] fl s t ∧ CommittedAs 1 { cur s with tile := (cur t).tile, tileWas := (cur t).tileWas, tags := (cur t).tags } s t ∧
    (∀ l, g.base ≤ l → l < g.base + g.lines + g.scaleLines → ∃ w ws, mget (cur t).tileWas l = some (w :: ws) ∧ w.val = tileLine (cur s) l ∧ w.due = (cur s).tc + lat) ∧
    (∀ r k, r < 128 → k < 128 → tileCode (cur t) g r k = code r k % 2 ^ g.w) ∧
    (g.fmt = 5 → (∀ r b, r < 128 → b < 16 → elem (tileLine (cur t) (g.scaleBase + r)).toNat 8 b = scale r b % 256) ∧
      ∀ a, a < 2 → elem (tileLine (cur t) (g.scaleBase + 128)).toNat 16 a = band a % 65536) ∧
    (∀ l, l < g.base ∨ g.base + g.lines + g.scaleLines ≤ l → tileLine (cur t) l = tileLine (cur s) l) ∧
    (∀ n, n < g.lines / 16 → tileTag (cur t) (g.base / 16 + n) = mkTag g.kind g.fmt 128 0 (n = 0)) ∧
    (g.fmt = 5 → ∀ n, n < 9 → tileTag (cur t) (g.scaleBase / 16 + n) = mkTag 3 5 128 0 (n = 0)) ∧
    ∀ n, n < g.base / 16 ∨ g.base / 16 + (g.lines + g.scaleLines) / 16 ≤ n → tileTag (cur t) n = tileTag (cur s) n

/-! Operations of the engines. -/

/-- The syllable has given its operation to an engine, under the next number of the part: with its operand words and step count, and with
the local storage that it may write before its deadline. Nothing else has changed. -/
def Submits (i : Instr) (f : CQ) (opd : List W64) (c : Nat) (ranges : List LocalRange) (s t : State) : Prop :=
  mget t.kvs s.nextId = some { core := s.iss.core, task := (cur s).entered, seq := (cur s).nextSeq, queue := (cur s).queue, op := opOf i
                               sh := f.sh.toNat, opd := opd, c := c, fault := none, repair := none } ∧
    (∀ k, k ≠ s.nextId → mget t.kvs k = mget s.kvs k) ∧ t.nextId = s.nextId + 1 ∧
    (∃ e, (cur t).pends.getLast? = some e ∧ e.isOf i (lat7 f.lat) s ∧ e.seq = (cur s).nextSeq ∧ e.st = .engine ∧ e.writes = [] ∧
      e.dst = some (f.d, shadowed (cur s) f.d) ∧ e.ranges = ranges ∧ e.eng = some (kvKey s.nextId)) ∧
    OnlyPends 1 (cur s) (cur t) ∧ (∀ k, k ≠ partKey s.iss.core s.iss.part → mget t.parts k = mget s.parts k) ∧
    t.cores = s.cores ∧ t.copies = s.copies ∧ t.relocs = s.relocs ∧ t.catOps = s.catOps ∧ t.iss.writes = s.iss.writes ∧ ∀ a, peek t a = peek s a

/-- The event names a pending operation of a resident task that its engine has still to carry out. -/
def Engaged (s : State) (core part seq id : Nat) (x : KvOp) : Prop :=
  part < 17 ∧ (∃ e, findPend s core part seq = some e ∧ e.st = .engine ∧ e.eng = some (kvKey id)) ∧ mget s.kvs id = some x ∧ x.core = core ∧
    x.seq = seq ∧ x.task = (getPart s core part).entered ∧ x.fault = none ∧ x.repair = none ∧ homeOf s core x.task = some (.part part) ∧
    (getPart s core part).ps ≠ .placed

/-- The engine has ended the operation with this value, which is ready for its register, and may still write `ranges` of the local
storage. -/
def EngineEnds (core part seq : Nat) (v : W64) (ranges : List LocalRange) (s t : State) : Prop :=
  (getPart t core part).pends =
    (getPart s core part).pends.map fun y => if y.seq = seq then { y.answer v .ready with ranges := ranges, eng := none } else y

/-- The engine has ended the operation with a fault, which is reported as a result fault (R23, R372). -/
def EngineFails (core part seq code : Nat) (taddr : W64) (s t : State) : Prop :=
  ∃ e r, findPend s core part seq = some e ∧ (getPart t core part).reports = (getPart s core part).reports ++ [r] ∧ r.copy = false ∧ r.id = seq ∧
    r.code = code ∧ r.taddr = taddr ∧ r.slot = e.slot ∧ r.op = e.op ∧ r.pc = e.pc ∧ r.level = e.level ∧
    (getPart t core part).pends =
      (getPart s core part).pends.map fun y => if y.seq = seq then { y with st := .fault code taddr 0 0, dst := none, eng := none } else y

/-! Itkoril. -/

/-- A message stands in the connection that carries it: sent and not acknowledged, or waiting for the window (R398). -/
def Carries (t : State) (chip cls type qg opnd : Nat) (payload : List Byte) : Prop :=
  ∃ c f, mget t.conns (connKey chip cls) = some c ∧ f ∈ c.sent ++ c.later ∧ f.type = type ∧ f.cls = cls ∧ f.dst = chip ∧ f.qg = qg ∧
    f.opnd = opnd ∧ f.payload = payload

/-- A chip is not known to be unreachable in a class. -/
def Reachable (s : State) (chip cls : Nat) : Prop := ∀ d, mget s.conns (connKey chip cls) = some d → d.lost = false

end Sys2Proof.Machine
end

