-- ==== Sys2Proof/Certificates/Slice0/Obligations.lean ====
section
/-! DEFINITION. The statements for the provers. -/

set_option maxRecDepth 4000

open Sys2Proof Sys2Proof.Machine

/-! Encoding, the step and reset. -/

/-- Every legal syllable reads back from its encoding, with every operand at every value that the encoding admits. -/
def Obligations.DecodeEncode : Prop :=
  ∀ (i : Instr) (c : SlotClass) (w : W32) (x : Option W32), i.wf = true → encode i = some (c, w, x) → decodeSyl c w x = .ok i

/-- A word that the decoder reads is the encoding of what it reads: no two words of a slot class are one syllable, and the decoder drops
no bit. -/
def Obligations.EncodeDecode : Prop :=
  ∀ (c : SlotClass) (w : W32) (x : Option W32) (i : Instr), decodeSyl c w x = .ok i → encode i = some (c, w, x)

/-- Words that the spec writes out decode to the syllables that it says they are: ADD s5, s5, 0x100 (chapter 3), LSET and LNEXT (chapter
11), VBCAST (chapter 12), LOAN, PROMOTE and SEAL (chapter 7), BARSET and OLOAD (chapter 8), RELOC (chapter 5), KVLD (chapter 6) and MTSR
(chapter 15). -/
def Obligations.WordsOfTheSpec : Prop :=
  decodeSyl .S 0x02851400 (some 0x100) = .ok (.add { x := some 0x100, k := false, d := 5, a := 5, b := 0, rstep := 0, fn := 0 }) ∧
  decodeSyl .S 0x2E070080 none = .ok (.lset { x := none, k := false, a := 7, b := 0, cnd := 2, lc := 0 }) ∧
  decodeSyl .S 0x2F800000 (some 0x20000) = .ok (.lnext { x := some 0x20000, k := false, a := 0, b := 0, cnd := 0, lc := 0 }) ∧
  decodeSyl .S 0x3E002630 none = .ok (.mtsr { x := none, k := false, d := 0, a := 9, b := 0x23, rstep := 0, fn := 0 }) ∧
  decodeSyl .V 0x258A941B (some 0xD) = .ok (.vbcast { x := some 0xD, k := false, d := 21, a := 20, b := 13, bs := true }) ∧
  decodeSyl .C 0x0B1E4028 none = .ok (.loan { x := none, k := false, d := 30, a := 16, sh := 0, lat := 40 }) ∧
  decodeSyl .C 0x0D1F6008 none = .ok (.promote { x := none, k := false, d := 31, a := 24, sh := 0, lat := 8 }) ∧
  decodeSyl .C 0x09195001 none = .ok (.seal { x := none, k := false, d := 25, a := 20, sh := 0, lat := 1 }) ∧
  decodeSyl .C 0x11143008 none = .ok (.barset { x := none, k := false, d := 20, a := 12, sh := 0, lat := 8 }) ∧
  decodeSyl .C 0x03152090 none = .ok (.oload { x := none, k := false, d := 21, a := 8, sh := 1, lat := 16 }) ∧
  decodeSyl .C 0x140C5198 none = .ok (.reloc { x := none, k := false, d := 12, a := 20, sh := 3, lat := 24 }) ∧
  decodeSyl .C 0x06D42330 (some 0x20000040) = .ok (.kvld { x := some 0x20000040, k := true, d := 20, a := 8, sh := 6, lat := 48 })

/-- A step of an open bundle issue runs the first slot that has something to do: the syllable that its bundle names there, decoded (R51,
R66), or, where the bundle names none or the issue is a repeat, what the slot's sticky register holds (R63); a named word that is no
legal syllable raises ILLEGAL_SYLLABLE there (R56, R77); and with no slot left the issue ends (R17). Outside a bundle issue the machine
takes what the outside world has brought, in order; then what its engines have due, one event at most for each of them in turn; then the
selection of the next core. That order, and the order among engines, are the model's choice (log entries 1 and 32); so is that an input
which is no event of the part stops the machine (log entry 20). With the core clock off nothing but a reset comes in (R408). -/
def Obligations.StepRunsTheDecodedSyllable : Prop :=
  (
    ∀ (s : State) (k : Nat), s.iss.isOpen = true → s.iss.slot ≤ k → k ≤ 7 →
      (∀ j, s.iss.slot ≤ j → j < k → slotDo (cur s) s.iss.bundle j = .none) →
      (∀ x i, (cur s).at_.again = false → s.iss.bundle.names k = true → s.iss.bundle.sylAt k = some x →
        decodeSyl (classOf k) x.word x.ext = .ok i → i.wf = true →
        step s = exec i { s with iss := { s.iss with slot := k, named := true } }) ∧
      (∀ x, (cur s).at_.again = false → s.iss.bundle.names k = true → s.iss.bundle.sylAt k = some x →
        (∀ i, decodeSyl (classOf k) x.word x.ext = .ok i → i.wf = false) →
        step s = event (badSyllable x.word) { s with iss := { s.iss with slot := k } }) ∧
      (∀ y, ((cur s).at_.again = true ∨ s.iss.bundle.names k = false) → s.iss.bundle.isEnd = false →
        getSticky (cur s) k = some y → step s = exec y.instr { s with iss := { s.iss with slot := k, named := false } }) ∧
      ((∀ j, s.iss.slot ≤ j → j ≤ 7 → slotDo (cur s) s.iss.bundle j = .none) → step s = event endIssue s)) ∧
  (
    ∀ (s : State), s.iss.isOpen = false →
      (∀ i rest, s.inputs = i :: rest → s.coreMHz ≠ 0 ∨ i = .reset →
        (isEvent i = true → i.wf = true → step s = exec i { s with inputs := rest }) ∧
        (isEvent i = false ∨ i.wf = false → step s = .fault (.noSuchUnit rest.length))) ∧
      (∀ i rest, s.inputs = i :: rest → s.coreMHz = 0 → i ≠ .reset → step s = .next { s with inputs := rest, epoch := s.epoch + 1 }) ∧
      (∀ i, s.inputs = [] → (allDue s)[s.turn]? = some i → step s = exec i { s with turn := s.turn + 1 }) ∧
      (s.inputs = [] → (allDue s)[s.turn]? = none → step s = exec (.partitionSelect s.nextCore []) { s with turn := 0 }))

/-- The issue that a selection opens is of the bundle at the partition's pc, as the partition's loop buffer holds it, and counts from
slot SRES. The end of a bundle issue (R17, R66): TASK_CYCLE advances by one; a repeated bundle is issued again with no slot named; after
the last issue control passes on. Where control goes from the last issue of a bundle (R69 to R71, R351): to the next bundle of its
segment, or to bundle 0 of the segment that NEXT names; a pending transfer counts its delay slots down, and after the second of them
control passes to the target, if the transfer is taken. Past the last bundle of a segment with no next one the task ends. The checks
where a transfer lands (R72, R74, R264), made with the segment looked up and before the bundle is: a target that breaks the rules of
R264, and an index beyond NB, are ILLEGAL_TARGET, and a segment that is not valid is SEGMENT_CHECK. What TADDR names is the transfer's
own bundle. -/
def Obligations.BundleIssues : Prop :=
  (
    ∀ (s : State) (core part : Nat) (q : Option Nat) (b : Bundle), bundleAt (getPart s core part) = some b →
      (openIssue s core part q).iss.isOpen = true ∧ (openIssue s core part q).iss.bundle = b ∧
      (openIssue s core part q).iss.slot = (getPart s core part).at_.slot ∧
      (getPart (openIssue s core part q) core part).at_.rep = some ((getPart s core part).at_.rep.getD b.rep) ∧
      (getPart (openIssue s core part q) core part).lastIssue = s.clock ∧ (getPart (openIssue s core part q) core part).age = 0) ∧
  (
    ∀ (s : State), s.iss.second = none → s.iss.writes = [] →
      (cur (endIssue s)).tc = (cur s).tc + 1 ∧ (endIssue s).iss.isOpen = false ∧ (cur (endIssue s)).pends = (cur s).pends ∧
      (∀ r, (cur s).at_.rep = some (r + 1) →
        (cur (endIssue s)).at_ = { (cur s).at_ with slot := 0, rep := some r, again := true, scope := 0 }) ∧
      ((cur s).at_.rep = some 0 → (cur (endIssue s)).at_ = pointAfter (curCore s) (cur s)) ∧
      ∀ a, peek (endIssue s) a = peek s a) ∧
  (
    ∀ (c : CoreSt) (p : Part),
      let here := posOf p.at_.pc
      let at_ : Point := { p.at_ with slot := 0, rep := none, again := false, scope := 0 }
      (∀ g, p.cur = some g → g.off = here.1 →
        (here.2 < g.nb → advance c p here = some (here.1, here.2 + 1)) ∧ (g.nb ≤ here.2 → advance c p here = g.next.map fun o => (o, 0))) ∧
      (∀ q, p.at_.xfer = none ∨ (∃ x, p.at_.xfer = some x ∧ x.left ≤ 1 ∧ x.target = none) → advance c p here = some q →
        pointAfter c p = { at_ with pc := mkAddr q.1 q.2, xfer := none }) ∧
      (∀ x q, p.at_.xfer = some x → 2 ≤ x.left → advance c p here = some q →
        pointAfter c p = { at_ with pc := mkAddr q.1 q.2, xfer := some { x with left := x.left - 1 } }) ∧
      (∀ x t, p.at_.xfer = some x → x.left ≤ 1 → x.target = some t → pointAfter c p = { at_ with pc := t, xfer := some { x with left := 0 } }) ∧
      (p.at_.xfer = none ∨ (∃ x, p.at_.xfer = some x ∧ x.left ≤ 1 ∧ x.target = none) → advance c p here = none →
        pointAfter c p = { at_ with xfer := none, done := true }) ∧
      ∀ seg idx, seg < 2 ^ 16 → idx < 512 → posOf (mkAddr seg idx) = (seg, idx)) ∧
  (
    ∀ (c : CoreSt) (p : Part) (g : Seg),
      (∀ x, p.at_.xfer = some x → x.left = 0 →
        (x.bad = true ∨ (g.valid = true ∧ g.nb < idxOf p.at_.pc) → landing p g = some (.trap cTarget 1 x.op (x.src.setWidth 64))) ∧
        (x.bad = false → g.valid = true → idxOf p.at_.pc ≤ g.nb → landing p g = none)) ∧
      ((∀ x, p.at_.xfer = some x → x.left = 0 → x.bad = false) → g.valid = false →
        landing p g = some (.trap cSegment 0 0 (BitVec.ofNat 64 g.off))) ∧
      ((∀ x, p.at_.xfer = some x → x.left ≠ 0) → g.valid = true → idxOf p.at_.pc ≤ g.nb → landing p g = none) ∧
      (∀ full t, p.at_.done = false → (∀ e ∈ p.pends, isDue p e = false) → p.cur = some g → g.off = segOf p.at_.pc → landing p g = some t →
        standing c p full = t) ∧
      ∀ x : W64, badAddr x = true ↔ x.toNat / 2 ^ 14 % 4 ≠ 0 ∨ 2 ^ 25 ≤ x.toNat)

/-- What reset leaves, as the spec states it: no task anywhere and no bundle issuing, no queue read yet, an empty loop buffer and shadow
store, pool boundaries 0, 0 and 0x20_0000 less the steward's area (R215), AGE_LIMIT 256 and the other defaults of Tables 4.5, 14.1 and
16.6, and ARCH_LEVEL 1 in the identity record (R2); and the invariants of the machine hold. That memory reads 0 is the model's choice
(log entry 4), and so is that a free partition, which has no task yet, holds the values of Table 14.10, with the scalar registers, COORD
and the shares 0 (log entry 6). -/
def Obligations.ResetLeaves : Prop :=
  let s := State.reset
  (∀ core part, part < 16 → (getPart s core part).ps = .free ∧ (getPart s core part).AtStart ∧ (getPart s core part).s = Vector.replicate 64 0 ∧
    (getPart s core part).ft = Vector.replicate 16 0x3F803F8000000000 ∧ (getPart s core part).coord = Vector.replicate 8 0 ∧
    (getPart s core part).spbase = 0 ∧ (getPart s core part).splen = 0 ∧ (getPart s core part).tslen = 0 ∧
    (getPart s core part).tvec = 0x80000000 ∧ (getPart s core part).cur = none ∧ (getPart s core part).nxt = none ∧
    readSr { s with iss := { s.iss with core := core, part := part } } 0x14 = 0x80000000) ∧
  (∀ core, (getCore s core).b1 = 0 ∧ (getCore s core).b2 = 0 ∧ (getCore s core).b3 = 0x200000 - s.limits.stewardArea ∧
    (getCore s core).ageLimit = 256 ∧ (getCore s core).cache = []) ∧
  s.iss.isOpen = false ∧ s.queues = [] ∧ s.pkts = [] ∧ s.gangs = [] ∧ s.qtab = 0 ∧ s.ident.archLevel = 1 ∧ s.shadow = [] ∧ s.limits.actCap = 1024 ∧ s.limits.shares = [3584, 3584, 3584, 3584] ∧ s.limits.sshare = 4 ∧
  s.limits.scrubPeriod = 24 ∧ s.limits.pwrCap = 1800 ∧ s.coreMHz = 700 ∧ (∀ a, peek s a = 0) ∧
  s.memoryOk = true ∧ s.seqsOk = true ∧ s.modesOk = true

/-- Every step keeps the memories in their canonical form and the buffers in front of them in order, so that no chunk or line is held
twice (R93, R99), and every pending operation numbered below the next one. -/
def Obligations.EveryStepKeepsMemoriesInOrder : Prop :=
  ∀ (s t : State), s.memoryOk = true → s.seqsOk = true → step s = .next t → t.memoryOk = true ∧ t.seqsOk = true

/-- Every step keeps the modes legal: no partition stands deeper than a nested handler (R376), FPCTL's reserved bits read 0 (Table
11.8), in saved contexts too, and the core clock is off or within its range (R408). -/
def Obligations.EveryStepKeepsModes : Prop :=
  ∀ (s t : State), s.modesOk = true → step s = .next t → t.modesOk = true

/-! The scalar slot. -/

/-- R259: every instruction of Table 11.3 writes the exact operation's low n bits, 32-bit results extended by FN[1], poisoned when an
operand is; no value traps, sets a flag or saturates. -/
def Obligations.ScalarAluResults : Prop :=
  AluGives .add 1 (fun _ a b => a + b) (fun _ a b => a + b) ∧
  AluGives .sub 1 (fun _ a b => a - b) (fun _ a b => a - b) ∧
  AluGives .mul 3 (fun _ a b => a * b) (fun _ a b => a * b) ∧
  AluGives .mulh 3
    (fun u a b => if u then ((a.zeroExtend 128 * b.zeroExtend 128) >>> 64).setWidth 64 else ((a.signExtend 128 * b.signExtend 128) >>> 64).setWidth 64)
    (fun u a b => if u then ((a.zeroExtend 64 * b.zeroExtend 64) >>> 32).setWidth 32 else ((a.signExtend 64 * b.signExtend 64) >>> 32).setWidth 32) ∧
  AluGives .div 20 (fun u a b => if b = 0 then BitVec.allOnes 64 else if u then a / b else a.sdiv b)
    (fun u a b => if b = 0 then BitVec.allOnes 32 else if u then a / b else a.sdiv b) ∧
  AluGives .rem 20 (fun u a b => if b = 0 then a else if u then a % b else a.srem b)
    (fun u a b => if b = 0 then a else if u then a % b else a.srem b) ∧
  AluGives .and 1 (fun _ a b => a &&& b) (fun _ a b => a &&& b) ∧
  AluGives .or 1 (fun _ a b => a ||| b) (fun _ a b => a ||| b) ∧
  AluGives .xor 1 (fun _ a b => a ^^^ b) (fun _ a b => a ^^^ b) ∧
  AluGives .andn 1 (fun _ a b => a &&& ~~~b) (fun _ a b => a &&& ~~~b) ∧
  AluGives .orn 1 (fun _ a b => a ||| ~~~b) (fun _ a b => a ||| ~~~b) ∧
  AluGives .shl 1 (fun _ a b => a <<< (b.toNat % 64)) (fun _ a b => a <<< (b.toNat % 32)) ∧
  AluGives .shr 1 (fun _ a b => a >>> (b.toNat % 64)) (fun _ a b => a >>> (b.toNat % 32)) ∧
  AluGives .sar 1 (fun _ a b => a.sshiftRight (b.toNat % 64)) (fun _ a b => a.sshiftRight (b.toNat % 32)) ∧
  AluGives .rol 1 (fun _ a b => a.rotateLeft (b.toNat % 64)) (fun _ a b => a.rotateLeft (b.toNat % 32)) ∧
  AluGives .min 1 (fun u a b => if (if u then a.ule b else a.sle b) then a else b) (fun u a b => if (if u then a.ule b else a.sle b) then a else b) ∧
  AluGives .max 1 (fun u a b => if (if u then a.ule b else a.sle b) then b else a) (fun u a b => if (if u then a.ule b else a.sle b) then b else a) ∧
  AluGives .cmpeq 1 (fun _ a b => bvBool (a == b)) (fun _ a b => bvBool (a == b)) ∧
  AluGives .cmpne 1 (fun _ a b => bvBool (a != b)) (fun _ a b => bvBool (a != b)) ∧
  AluGives .cmplt 1 (fun u a b => bvBool (if u then a.ult b else a.slt b)) (fun u a b => bvBool (if u then a.ult b else a.slt b)) ∧
  AluGives .cmple 1 (fun u a b => bvBool (if u then a.ule b else a.sle b)) (fun u a b => bvBool (if u then a.ule b else a.sle b)) ∧
  AluGives .popc 1 (fun _ a b => BitVec.ofNat 64 (a &&& b).cpop.toNat) (fun _ a b => BitVec.ofNat 32 (a &&& b).cpop.toNat)

/-- MOV, MOVI, MOVHI and CSEL (R260, Table 11.4), with the poison of R255. SCOPE (R61) sets the scope of its bundle issue's memory
syllables, and nothing else. NOP (R62) clears its slot's sticky register, and YIELD (R269) writes no state: neither leaves a result. The
sticky registers (R63, R64). When a syllable commits, its slot's register changes, and no other: a named syllable with K = 0 clears it,
one with K = 1 loads it, with the operands that its re-issues use captured, and a re-issue steps it once more. A re-issue takes the
captured operands with the number of steps so far; an address operand is not read again. How a re-issue steps its operands (R64, Table
3.6): SA advances D, A and, without an extension word, B, modulo 64; VA and VM their vector registers modulo W and their predicates
modulo 16; MT and XT modulo 128; SM and CQ step no register. A field that the instruction leaves unused, or that holds a code, keeps its
value. -/
def Obligations.MovesAndSyllablesWithoutResult : Prop :=
  (
    ∀ (f : SA) (s : State),
      (∃ t, exec (.mov f) s = .next t ∧ Gives (.mov f) 1 [sDest s f.d (readS s f.a).1 (readS s f.a).2] 0 s t) ∧
      (∀ imm, f.x = some imm → ∃ t, exec (.movi f) s = .next t ∧ Gives (.movi f) 1 [sDest s f.d (imm.signExtend 64) false] 0 s t) ∧
      (∀ imm, f.x = some imm → ∃ t, exec (.movhi f) s = .next t ∧
        Gives (.movhi f) 1 [sDest s f.d (imm.setWidth 64 <<< 32 ||| (readS s f.a).1 &&& 0xFFFFFFFF#64) (readS s f.a).2] 0 s t) ∧
      (∃ t, exec (.csel f) s = .next t ∧
        ((readS s f.b).1 ≠ 0 → Gives (.csel f) 1 [sDest s f.d (readS s f.a).1 ((readS s f.b).2 || (readS s f.a).2)] 0 s t) ∧
        ((readS s f.b).1 = 0 → Gives (.csel f) 1 [sDest s f.d (readS s f.d).1 ((readS s f.b).2 || (readS s f.d).2)] 0 s t))) ∧
  (
    ∀ (s : State),
      (∀ f, ∃ t, exec (.scope f) s = .next t ∧ t.iss.scope = f.sc ∧ Committed 0 s { t with iss := { t.iss with scope := s.iss.scope } }) ∧
      (∀ c, ∃ t, exec (.nop c) s = .next t ∧ Committed 0 s t ∧
        (s.iss.named = true → getSticky (cur t) s.iss.slot = none)) ∧
      (∃ t, exec .yield s = .next t ∧ Committed 0 s t)) ∧
  (
    (∀ (s : State) (i : Instr),
      let step : Instr := stepInstr (cur s).wregs i
      (s.iss.named = true → stickyFlag i = false → stickyAfter i s = none) ∧
      (s.iss.named = true → stickyFlag i = true → stickyAfter i s = some { instr := step, cap := captureNow s i, cnt := 1 }) ∧
      (s.iss.named = false → ∀ k, getSticky (cur s) s.iss.slot = some k → stickyAfter i s = some { instr := step, cap := k.cap, cnt := k.cnt + 1 }) ∧
      (s.iss.named = false → getSticky (cur s) s.iss.slot = none → stickyAfter i s = none) ∧
      ((∀ r ∈ capturedRegs i, (readS s r).2 = false) → captureNow s i = (capturedRegs i).map fun r => (readS s r).1)) ∧
    (∀ (s t : State) (i : Instr), isEvent i = false → (∀ f, i ≠ .ctxsv f ∧ i ≠ .ctxld f) → s.iss.second = none → exec i s = .next t →
      t.iss.isOpen = true → getSticky (cur t) s.iss.slot = stickyAfter i s ∧
        ∀ k, k % 8 ≠ s.iss.slot % 8 → getSticky (cur t) k = getSticky (cur s) k) ∧
    ∀ (s : State) (rs : List (BitVec 6)),
      (s.iss.named = true → (∀ r ∈ rs, (readS s r).2 = false) → captured s rs = .ok (rs.map fun r => (readS s r).1, 0)) ∧
      ∀ k, s.iss.named = false → getSticky (cur s) s.iss.slot = some k → captured s rs = .ok (k.cap, k.cnt)) ∧
  (
    (∀ (w : Nat) (f : SA),
      let n : BitVec 6 := f.rstep.setWidth 6
      (∀ mk ∈ [Instr.add, .sub, .mul, .mulh, .div, .rem, .and, .or, .xor, .andn, .orn, .shl, .shr, .sar, .rol, .min, .max, .cmpeq, .cmpne, .cmplt,
          .cmple, .popc, .csel],
        stepInstr w (mk f) = mk { f with d := f.d + n, a := f.a + n, b := if f.x = none then f.b + n else f.b }) ∧
      stepInstr w (.mov f) = .mov { f with d := f.d + n, a := f.a + n } ∧ stepInstr w (.movi f) = .movi { f with d := f.d + n } ∧
      stepInstr w (.movhi f) = .movhi { f with d := f.d + n, a := f.a + n }) ∧
    (∀ (w : Nat) (f : VA),
      let n := (VMod.of f.x 0).rstep
      let v (x : BitVec 7) : BitVec 7 := BitVec.ofNat 7 ((x.toNat + n) % w)
      let p (x : BitVec 7) : BitVec 7 := BitVec.ofNat 7 ((x.toNat + n) % 16)
      (∀ mk ∈ [Instr.vfadd, .vfsub, .vfmul, .vfma, .vfnma, .vfmin, .vfmax, .vadd, .vsub, .vmul, .vand, .vor, .vxor, .vshl, .vshr, .vsar, .vmin, .vmax,
          .vperm, .vbcast, .vpart, .vhist, .vpx3, .vshadd3, .vfxt, .vfxf],
        stepInstr w (mk f) = mk { f with d := v f.d, a := v f.a, b := if f.bs then f.b else v f.b }) ∧
      (∀ mk ∈ [Instr.vfabs, .vfneg, .vrcp, .vrsqrt, .vexp2, .vcvt, .vradd, .vrmax, .vscani, .vscanx, .vcompr, .vkey, .vkeyx], f.bs = false →
        stepInstr w (mk f) = mk { f with d := v f.d, a := v f.a }) ∧
      (∀ mk ∈ [Instr.vcmp, .vfcmp], stepInstr w (mk f) = mk { f with d := p f.d, a := v f.a, b := if f.bs then f.b else v f.b }) ∧
      (∀ mk ∈ [Instr.pand, .por, .pxor], f.bs = false → stepInstr w (mk f) = mk { f with d := p f.d, a := p f.a, b := p f.b }) ∧
      (f.bs = false → stepInstr w (.pnot f) = .pnot { f with d := p f.d, a := p f.a } ∧ stepInstr w (.pcnt f) = .pcnt { f with d := v f.d, a := p f.a }) ∧
      stepInstr w (.vslide f) = .vslide { f with d := v f.d, a := v f.a, b := if f.bs then f.b else v f.b, x := stepAux f.x w }) ∧
    (∀ (w : Nat) (f : VM),
      let d := BitVec.ofNat 7 ((f.d.toNat + (VMod.of f.x 0).rstep) % w)
      (∀ mk ∈ [Instr.vld, .vst, .vlds], stepInstr w (mk f) = mk { f with d := d }) ∧
      ∀ mk ∈ [Instr.vgath, .vscat, .vgaths], stepInstr w (mk f) = mk { f with d := d, x := stepAux f.x w }) ∧
    (∀ (m : W32) (w : Nat), 0 < w → w ≤ 128 → ∃ y : W32, stepAux (some m) w = some y ∧
      nbits y.toNat 16 7 = (nbits m.toNat 16 7 + nbits m.toNat 8 2) % w ∧ ∀ b, b < 16 ∨ 23 ≤ b → y.getLsbD b = m.getLsbD b) ∧
    (∀ (w : Nat) (f : MT), ∀ mk ∈ [Instr.mstep, .mread, .mwrite],
      stepInstr w (mk f) = mk { f with ta := f.ta + f.rstep.setWidth 7, tb := f.tb + f.rstep.setWidth 7 }) ∧
    (∀ (w : Nat) (f : XT), ∀ mk ∈ [Instr.xqnt, .xexp, .xtrn, .xcvt, .xplane, .xunpl, .xscale],
      stepInstr w (mk f) = mk { f with d := f.d + f.rstep.setWidth 7, a := f.a + f.rstep.setWidth 7 }) ∧
    (∀ (w : Nat) (f : SM), ∀ mk ∈ [Instr.ld, .st, .lds], stepInstr w (mk f) = mk f) ∧
    ∀ (w : Nat) (f : CQ), ∀ mk ∈ [Instr.ocopy, .oload, .ostore, .tload, .kvld, .kvldt, .kvapp], stepInstr w (mk f) = mk f)

/-- BR, CALL and CHK transfer to the target that their target word names: SEGREL from their own segment, and BIDX (R72). A target word
whose segment lies below 0 or above 0x3FFF raises ILLEGAL_TARGET (R264) when the transfer lands; which address TPC then holds is the
model's free value (log entry 10). The control transfers of Table 11.5 and CHK set up their transfer, and a link where they have one,
and change nothing else. -/
def Obligations.ControlTransfers : Prop :=
  (
    ∀ (s : State) (w : W32),
      let seg : Int := ((cur s).at_.pc.toNat % 2 ^ 16 : Nat) + (w.setWidth 16).toInt
      (0 ≤ seg → seg < 2 ^ 14 → wordTarget s w = (BitVec.ofNat 32 (seg.toNat + w.toNat / 2 ^ 16 % 512 * 2 ^ 16), false)) ∧
      ((seg < 0 ∨ 2 ^ 14 ≤ seg) → (wordTarget s w).2 = true)) ∧
  (
    ∀ (s : State) (f : SC),
      (∀ w, f.x = some w → ∃ t, exec (.br f) s = .next t ∧
        CommittedAs 0 ((cur s).jumping 0x28 (some (wordTarget s w).1) (wordTarget s w).2) s t) ∧
      ((readS s f.a).2 = false → ∃ t, exec (.bri f) s = .next t ∧
        CommittedAs 0 ((cur s).jumping 0x2A (some ((readS s f.a).1.setWidth 32)) (badAddr (readS s f.a).1)) s t) ∧
      ((readS s f.a).2 = false → ∃ t, exec (.ret f) s = .next t ∧
        CommittedAs 0 ((cur s).jumping 0x2D (some ((readS s f.a).1.setWidth 32)) (badAddr (readS s f.a).1)) s t) ∧
      (∀ w, f.x = some w → ∃ t, exec (.call f) s = .next t ∧
        Leaves (.call f) 1 [sDest s f.a ((linkOf (curCore s) (cur s)).setWidth 64) false] 0 s t ∧
        CommittedAs 1 ((cur s).jumping 0x2B (some (wordTarget s w).1) (wordTarget s w).2) s t) ∧
      ((readS s f.b).2 = false → ∃ t, exec (.calli f) s = .next t ∧
        Leaves (.calli f) 1 [sDest s f.a ((linkOf (curCore s) (cur s)).setWidth 64) false] 0 s t ∧
        CommittedAs 1 ((cur s).jumping 0x2C (some ((readS s f.b).1.setWidth 32)) (badAddr (readS s f.b).1)) s t) ∧
      (∀ w, f.x = some w → (readS s f.a).2 = true → ∃ t, exec (.chk f) s = .next t ∧
        CommittedAs 0 ((cur s).jumping 0x23 (some (wordTarget s w).1) (wordTarget s w).2) s t) ∧
      ((readS s f.a).2 = false → ∃ t, exec (.chk f) s = .next t ∧ Committed 0 s t))

/-- BC and its conditions (R265, Table 11.6): the transfer is set up with the target where the condition holds of the 64-bit operands,
and with none where it does not; codes 12 to 15 are no legal syllable. -/
def Obligations.BranchConditions : Prop :=
  (∀ (s : State) (f : SC) (w : W32), f.x = some w → (readS s f.a).2 = false → (readS s f.b).2 = false → ∃ t, exec (.bc f) s = .next t ∧
    CommittedAs 0 (if condHolds f.cnd.toNat 64 (readS s f.a).1.toNat (readS s f.b).1.toNat
      then (cur s).jumping 0x29 (some (wordTarget s w).1) (wordTarget s w).2 else (cur s).jumping 0x29 none false) s t) ∧
  (∀ (a b : W64), let h (c : Nat) : Bool := condHolds c 64 a.toNat b.toNat
    h 0 = (a == b) ∧ h 1 = (a != b) ∧ h 2 = a.slt b ∧ h 3 = b.sle a ∧ h 4 = a.sle b ∧ h 5 = b.slt a ∧ h 6 = a.ult b ∧ h 7 = b.ule a ∧
    h 8 = a.ule b ∧ h 9 = b.ult a ∧ h 10 = (a &&& b != 0) ∧ h 11 = (a &&& b == 0)) ∧
  (∀ f : SC, 12 ≤ f.cnd.toNat → (Instr.bc f).wf = false) ∧
  ∀ s : State, readS s 0 = (0, false)

/-- LSET and LNEXT (R266, R267): the counter, the epilogue count, and for lc0 the rotating predicates. BKSEL (R268), on the bucket table
that the fetch of its bundle has read: NENT, then one target word for each bucket. -/
def Obligations.LoopsAndBuckets : Prop :=
  (
    ∀ (s : State) (f : SC),
      ((readS s f.a).2 = false → ∃ t, exec (.lset f) s = .next t ∧
        let n := (readS s f.a).1.toNat % 2 ^ 32
        let e := f.cnd.toNat % 8
        Leaves (.lset f) 1 (.lc f.lc (BitVec.ofNat 32 (min (n + e) 0xFFFFFFFF)) ::
          (if f.lc = 0 then [.g 0 (if 0 < n then BitVec.allOnes 128 else 0), .g 1 0, .g 2 0, .g 3 0, .g 4 0, .g 5 0, .g 6 0, .g 7 0] else [])) 0 s t ∧
        CommittedAs 1 { cur s with le := (cur s).le.set f.lc.toNat (BitVec.ofNat 3 e) f.lc.isLt } s t) ∧
      (∀ w, f.x = some w → (readLc s f.lc).toNat = 0 → ∃ t, exec (.lnext f) s = .next t ∧ CommittedAs 0 ((cur s).jumping 0x2F none false) s t) ∧
      (∀ w c, f.x = some w → (readLc s f.lc).toNat = c + 1 → ∃ t, exec (.lnext f) s = .next t ∧
        Leaves (.lnext f) 1 (.lc f.lc (BitVec.ofNat 32 c) ::
          (if f.lc = 0 then [.g 0 (if (cur s).le[0].toNat < c then BitVec.allOnes 128 else 0), .g 1 (readG s 0), .g 2 (readG s 1),
            .g 3 (readG s 2), .g 4 (readG s 3), .g 5 (readG s 4), .g 6 (readG s 5), .g 7 (readG s 6)] else [])) 0 s t ∧
        (0 < c → CommittedAs 1 ((cur s).jumping 0x2F (some (wordTarget s w).1) (wordTarget s w).2) s t) ∧
        (c = 0 → CommittedAs 1 ((cur s).jumping 0x2F none false) s t))) ∧
  (
    ∀ (s : State) (f : SC) (off : Nat) (nent : W32) (words : List W32), (cur s).bucket = some (off, nent :: words) →
      nent.toNat ≤ words.length → (readS s f.a).2 = false →
      let x := (readS s f.a).1.toNat % 2 ^ 32
      let g := 2 ^ f.cnd.toNat
      ((x = 0 ∨ nent.toNat * g < x) → ∃ t, exec (.bksel f) s = .next t ∧
        Leaves (.bksel f) 1 [sDest s f.b (BitVec.allOnes 64) false] 0 s t ∧ CommittedAs 1 ((cur s).jumping 0x30 none false) s t) ∧
      (∀ i, i * g < x → x ≤ (i + 1) * g → i < nent.toNat → ∃ t w, words[i]? = some w ∧ exec (.bksel f) s = .next t ∧
        Leaves (.bksel f) 1 [sDest s f.b (BitVec.ofNat 64 (i * 2 ^ 32 + ((i + 1) * g - x))) false,
          .p 15 (BitVec.ofNat 128 (2 ^ ((x - 1) % 128 + 1) - 1))] 0 s t ∧
        CommittedAs 1 ((cur s).jumping 0x30 (some (wordTarget s w).1) (wordTarget s w).2) s t))

/-- MFSR (R273, Table 11.8) reads the special register as it stands at issue, with poison 0; of TCAUSE and TADDR it also closes its half
of the handler window (R375). FPCTL shows the flags of an operation whose deadline is still to come or not (R44). The hard-wired
registers: a result for s0 or p0 is discarded, s0 reads as 0 with poison 0 and p0 as all true (R254, Table 1.5); any other result goes
to its register alone. -/
def Obligations.SpecialRegisterReads : Prop :=
  (
    ∀ (s : State) (f : SA),
      (srPending s f.b.toNat = false → ∃ t, exec (.mfsr f) s = .next t ∧ Leaves (.mfsr f) 1 [sDest s f.d (readSr s f.b.toNat) false] 0 s t ∧
        CommittedAs 1 (markWindow f.b.toNat (cur s)) s t) ∧
      (∀ b n, (cur s).bank1 = some b → (markWindow n (cur s)).bank1 =
        some { b with sawCause := b.sawCause || n == 0x11, sawAddr := b.sawAddr || n == 0x12 }) ∧
      readSr s 0x00 = BitVec.ofNat 64 (cur s).tc ∧ readSr s 0x01 = BitVec.ofNat 64 s.iss.core ∧ readSr s 0x02 = BitVec.ofNat 64 (s.iss.part % 16) ∧
      (∀ k, (cur s).fpctl.getLsbD k = true → (readSr s 0x03).getLsbD k = true) ∧
      (∀ k, (readSr s 0x03).getLsbD k = true → (cur s).fpctl.getLsbD k = true ∨
        ∃ e ∈ (cur s).pends ++ (cur s).early, 8 ≤ k ∧ e.flags.getLsbD (k - 8) = true) ∧ readSr s 0x04 = BitVec.ofNat 64 (curCore s).ageLimit ∧
      readSr s 0x05 = BitVec.ofNat 64 (curCore s).b1 ∧ readSr s 0x06 = BitVec.ofNat 64 (curCore s).b2 ∧
      readSr s 0x07 = BitVec.ofNat 64 (curCore s).b3 ∧ (∀ i : Fin 8, readSr s (8 + i.val) = (cur s).coord[i.val]) ∧
      readSr s 0x10 = (cur s).tsw ∧ readSr s 0x11 = (cur s).tcause ∧ readSr s 0x12 = (cur s).taddr ∧
      readSr s 0x13 = (cur s).tpc.setWidth 64 ∧ readSr s 0x14 = (cur s).tvec.setWidth 64 ∧ readSr s 0x15 = (cur s).uivec.setWidth 64 ∧
      readSr s 0x16 = (cur s).uictl ∧ readSr s 0x17 = (cur s).rplact ∧ readSr s 0x18 = (cur s).cfc01 ∧ readSr s 0x19 = (cur s).cfc23 ∧
      readSr s 0x1A = BitVec.ofNat 64 (cur s).spbase ∧ readSr s 0x1B = BitVec.ofNat 64 (cur s).splen ∧
      readSr s 0x1C = BitVec.ofNat 64 (cur s).tslen ∧ (∀ i : Fin 4, nbits (readSr s 0x1D).toNat (8 * i.val) 8 = ((cur s).le[i.val]).toNat) ∧
      (readSr s 0x1D).toNat < 2 ^ 32 ∧ ∀ i : Fin 4, readSr s (0x20 + i.val) = ((cur s).lc[i.val]).setWidth 64) ∧
  (
    ∀ (s : State) (p : Part),
      readS s 0 = (0, false) ∧ readP s 0 = BitVec.allOnes 128 ∧
      (∀ sh x po, writeReg p (.s 0 sh x po) = p) ∧ (∀ x, writeReg p (.p 0 x) = p) ∧
      (∀ r : BitVec 6, r ≠ 0 → ∀ x po, (writeReg p (.s r false x po)).s = p.s.set r.toNat x r.isLt ∧
        (writeReg p (.s r false x po)).sp.getLsbD r.toNat = po ∧
        (∀ j, j < 64 → j ≠ r.toNat → (writeReg p (.s r false x po)).sp.getLsbD j = p.sp.getLsbD j) ∧
        writeReg p (.s r false x po) = { p with s := (writeReg p (.s r false x po)).s, sp := (writeReg p (.s r false x po)).sp }) ∧
      (∀ r : BitVec 7, ∀ x po, mget (writeReg p (.v r x po)).v r.toNat = some x ∧ (writeReg p (.v r x po)).vp.getLsbD r.toNat = po ∧
        ∀ j, j ≠ r.toNat → mget (writeReg p (.v r x po)).v j = mget p.v j ∧ (j < 128 → (writeReg p (.v r x po)).vp.getLsbD j = p.vp.getLsbD j)))

/-- MTSR (R273): the write of a special register is pending for one task cycle. TSW and TPC may be written in a handler alone, and
AGE_LIMIT by the steward alone; anywhere else that is ILLEGAL_SYLLABLE, and a poisoned source is POISON_USE. A number that Table 11.8
marks R, or does not assign, makes no legal syllable. What a write of each special register does when it falls due (Table 11.8): FPCTL
keeps its defined bits, TSW takes SRES alone, TPC replaces the resume point with SRES, RPT and DS 0 and no transfer (R374), UICTL clears
the PEND bits that are written as 1 (R204), RPLACT takes 1, and 0 for every other value of its field (R207), and AGE_LIMIT is held
within 16 to 4,096 (R360). -/
def Obligations.SpecialRegisterWrites : Prop :=
  (
    ∀ (s : State) (f : SA), (Instr.mtsr f).wf = true →
      let barred := ((f.b.toNat = 0x10 ∨ f.b.toNat = 0x13) ∧ (cur s).level = 0) ∨ (f.b.toNat = 4 ∧ (cur s).steward = false)
      (¬ barred → (readS s f.a).2 = false → ∃ t, exec (.mtsr f) s = .next t ∧
        Gives (.mtsr f) 1 [if f.b.toNat < 0x20 then .sr f.b (readS s f.a).1 else .lc (f.b.setWidth 2) ((readS s f.a).1.setWidth 32)] 0 s t) ∧
      (barred → Traps (.mtsr f) (illegalReq (.mtsr f)) s (exec (.mtsr f) s)) ∧
      (¬ barred → (readS s f.a).2 = true → Traps (.mtsr f) (poisonReqS f.a) s (exec (.mtsr f) s)) ∧
      ∀ g : SA, (g.b.toNat ≤ 2 ∨ (5 ≤ g.b.toNat ∧ g.b.toNat < 0x10) ∨ g.b.toNat = 0x11 ∨ g.b.toNat = 0x12 ∨
        (0x18 ≤ g.b.toNat ∧ g.b.toNat < 0x20) ∨ 0x24 ≤ g.b.toNat) →
        (Instr.mtsr g).wf = false ∧ ((g.b.toNat = 0x1E ∨ g.b.toNat = 0x1F ∨ 0x24 ≤ g.b.toNat) → (Instr.mfsr g).wf = false)) ∧
  (
    ∀ (p : Part) (c : CoreSt) (x : W64),
      writeReg p (.sr 0x03 x) = { p with fpctl := x &&& 0x70F } ∧
      writeReg p (.sr 0x10 x) = { p with tsw := (p.tsw &&& ~~~7#64) ||| (x &&& 7#64) } ∧
      (∀ b, p.bank1 = some b → let q := writeReg p (.sr 0x13 x)
        q.tpc = x.setWidth 32 ∧ q.tsw = p.tsw &&& ~~~0xFFC007#64 ∧
        q.bank1 = some { b with repc := true, at_ := { b.at_ with xfer := none, slot := 0, rep := some 0, again := false } }) ∧
      writeReg p (.sr 0x14 x) = { p with tvec := x.setWidth 32 } ∧ writeReg p (.sr 0x15 x) = { p with uivec := x.setWidth 32 } ∧
      (writeReg p (.sr 0x16 x)).uictl.getLsbD 0 = x.getLsbD 0 ∧ (writeReg p (.sr 0x16 x)).uictl.getLsbD 1 = p.uictl.getLsbD 1 ∧
      (∀ i, i < 8 → (writeReg p (.sr 0x16 x)).uictl.getLsbD (2 + i) = (p.uictl.getLsbD (2 + i) && !x.getLsbD (2 + i))) ∧
      (writeReg p (.sr 0x17 x) = { p with rplact := if x.toNat % 4 = 1 then 1 else 0 }) ∧
      (ageWrites c [.sr 4 x]).ageLimit = max 16 (min 4096 x.toNat) ∧
      ∀ n : BitVec 2, writeReg p (.lc n (x.setWidth 32)) = { p with lc := p.lc.set n.toNat (x.setWidth 32) n.isLt })

/-! Traps and returns. -/

/-- Trap entry (R373) of a task that has a handler: the trap registers, what the primary bank saves, TASK_CYCLE 0, RPLACT 0, the handler
window open, no sticky register, and the next bundle at TVEC. A WAITM that waits is woken first (R245). The pending operations are
entries from now on, to be written in the order of their issue (R371). The registers, the other partitions and memory are as they were.
A trap in a handler whose window has closed nests (R376): the primary bank moves to the secondary bank with its trap registers, and NEST
is set. A precise trap (R366, R367) with no write of an earlier slot outstanding: the trap names the bundle and the slot, SRES is the
slot (the next one where the syllable commits), RPT the issues still to come, and TASK_CYCLE is saved without having advanced. A held
result fault (R372 to R374) is what the boundary takes first: RF is 1, SRES 0, TCAUSE has the cause with the slot and opcode of the
operation, TPC names the bundle that would have issued next, and RPT its issues still to come; for FP_OVERFLOW the two addresses change
places. A copy or a KV operation stays held as a REPLAY entry, with RPE set; any other operation is gone. CFC01 and CFC23 take the
coordinates of a copy fault (R207). -/
def Obligations.TrapEntry : Prop :=
  (
    ∀ (s : State) (core part : Nat) (t : TrapIn),
      let u := wakeAllWaitm s core part
      let p := getPart u core part
      let q := getPart (takeTrap s core part t) core part
      p.level = 0 → p.tvec ≠ 0x80000000 →
        q.tcause.toNat = t.code % 256 + (if t.rf then 256 else 0) + t.slot % 8 * 512 + t.op % 256 * 65536 ∧ q.taddr = t.taddr ∧ q.tpc = t.tpc ∧
        q.tsw.toNat = t.sres % 8 + p.pends.length % 128 * 16 + (if t.rpe then 2048 else 0) + (if p.ui.isSome then 4096 else 0) +
          (match t.resume.xfer with | some x => min x.left 2 | none => 0) * 16384 + t.rpt % 256 * 65536 ∧
        q.level = 1 ∧ q.tc = 0 ∧ q.rplact = 0 ∧ q.at_.pc = p.tvec ∧ q.at_.slot = 0 ∧ (∀ k, getSticky q k = none) ∧
        (∃ b, q.bank1 = some b ∧ b.tc = p.tc ∧ b.at_ = t.resume ∧ b.sawCause = false ∧ b.sawAddr = false ∧ b.repc = false) ∧
        q = { p with tsw := q.tsw, tcause := q.tcause, taddr := q.taddr, tpc := q.tpc, bank1 := q.bank1, rplact := 0, tc := 0, level := 1
                     bucket := none, at_ := q.at_, pends := p.pends.map Pend.unmarked, cfc01 := (t.cfc.map (·.1)).getD p.cfc01, cfc23 := (t.cfc.map (·.2)).getD p.cfc23 } ∧
        (∀ k, k ≠ partKey core part → mget (takeTrap s core part t).parts k = mget u.parts k) ∧ ∀ a, peek (takeTrap s core part t) a = peek u a) ∧
  (
    ∀ (s : State) (core part : Nat) (t : TrapIn) (b : TrapBank),
      let p := getPart (wakeAllWaitm s core part) core part
      let q := getPart (takeTrap s core part t) core part
      p.level = 1 → p.tvec ≠ 0x80000000 → p.bank1 = some b → b.sawCause = true → b.sawAddr = true →
        q.level = 2 ∧ q.bank2 = some { b with tsw := p.tsw, tcause := p.tcause, taddr := p.taddr, tpc := p.tpc } ∧
        (∃ b', q.bank1 = some b' ∧ b'.tc = p.tc ∧ b'.at_ = t.resume ∧ b'.sawCause = false ∧ b'.sawAddr = false) ∧
        q.tsw.getLsbD 13 = true ∧ q.at_.pc = p.tvec ∧ q.tc = 0 ∧ q.s = p.s ∧ q.pends = p.pends.map Pend.unmarked) ∧
  (
    ∀ (s : State) (i : Instr) (r : TrapReq), s.iss.writes = [] → s.iss.second = none → (cur s).monitor = none →
      (∀ e ∈ (cur s).pends, ∀ c g x d, e.st ≠ .wait (.waitm c g x d)) → (cur s).level = 0 → (cur s).tvec ≠ 0x80000000 →
      let q := cur (preciseTrap i r s)
      let sres := if r.commits then s.iss.slot + 1 else s.iss.slot
      q.tpc = (cur s).at_.pc ∧ q.taddr = r.taddr ∧ q.tcause.toNat = r.code % 256 + s.iss.slot % 8 * 512 + opOf i % 256 * 65536 ∧
      q.tsw.toNat % 8 = sres % 8 ∧ q.tsw.toNat / 65536 % 256 = (cur s).at_.rep.getD 0 % 256 ∧
      (∃ b, q.bank1 = some b ∧ b.tc = (cur s).tc ∧ b.at_ = { (cur s).at_ with slot := sres, scope := s.iss.scope }) ∧
      q.s = (cur s).s ∧ q.v = (cur s).v ∧ q.pends = (cur s).pends.map Pend.unmarked ∧ q.fpctl = (cur s).fpctl ∧ (preciseTrap i r s).iss.isOpen = false ∧
      ∀ a, peek (preciseTrap i r s) a = peek s a) ∧
  (
    (∀ (s : State) (core part : Nat) (r : Report), (getPart s core part).atYield = false → (getPart s core part).at_.slot = 0 →
      (getPart s core part).reports.find? (fun r => r.level == (getPart s core part).level) = some r →
      boundary s core part = afterEntry (takeReport s core part r) core part) ∧
    (∀ (s : State) (core part : Nat) (r : Report),
      let p := getPart s core part
      let t := takeReport s core part r
      let q := getPart t core part
      let held := r.copy = true ∨ ((r.slot = 5 ∨ r.slot = 6) ∧ 2 ≤ r.op ∧ r.op ≤ 8)
      p.level = 0 → p.tvec ≠ 0x80000000 → (∀ e ∈ p.pends, ∀ c g x d, e.st ≠ .wait (.waitm c g x d)) →
        q.reports = p.reports.erase r ∧
        (r.copy = true → q.pends = p.pends.map Pend.unmarked) ∧
        (r.copy = false → held → q.pends = p.pends.map fun e => if e.seq = r.id then { e.unmarked with st := .replay } else e.unmarked) ∧
        (¬ held → q.pends = (p.pends.filter fun e => e.seq != r.id).map Pend.unmarked) ∧
        q.tcause.toNat = r.code % 256 + 256 + r.slot % 8 * 512 + r.op % 256 * 65536 ∧
        (r.code = 0x36 → q.taddr = p.at_.pc.setWidth 64 ∧ q.tpc = r.pc) ∧ (r.code ≠ 0x36 → q.taddr = r.taddr ∧ q.tpc = p.at_.pc) ∧
        q.tsw.toNat % 8 = 0 ∧ (q.tsw.getLsbD 11 = true ↔ held) ∧ q.tsw.toNat / 65536 % 256 = rptOf (getCore s core) p % 256 ∧
        q.level = 1 ∧ q.tc = 0 ∧ q.rplact = 0 ∧ q.at_.pc = p.tvec ∧ (∀ k, getSticky q k = none) ∧
        (∃ b, q.bank1 = some b ∧ b.tc = p.tc ∧ b.at_ = { p.at_ with slot := 0 }) ∧
        (r.copy = true ∨ held ∧ r.op ≤ 5 → q.cfc01 = r.cfc01 ∧ q.cfc23 = r.cfc23) ∧
        (¬ (r.copy = true ∨ held ∧ r.op ≤ 5) → q.cfc01 = p.cfc01 ∧ q.cfc23 = p.cfc23) ∧
        q.s = p.s ∧ q.v = p.v ∧ q.fpctl = p.fpctl ∧ t.copies = s.copies ∧ t.kvs = s.kvs ∧
        (∀ k, k ≠ partKey core part → mget t.parts k = mget s.parts k) ∧ ∀ a, peek t a = peek s a))

/-- A trap while the handler window is open, or in a nested handler, kills the task with DOUBLE_FAULT (R375, R376): the secondary bank
keeps the first trap, and the report holds both causes and both addresses (in the places that log entry 106 chooses); so does a trap
with no handler, with its own cause (R373 step 6). A kill (R378): the partition stops issue; its pending operations and held faults are
discarded, and with them the engines' operations that hold at a fault; it is free at once, or ENDING for as long as an engine still has
writes to make to its local storage. The steward receives the report, the gang counts one task less, and the queue of its LAUNCH packet
stops with KILLED at it. END (R270): the task ends, its resources are free, its monitor and its sticky registers are gone, and its gang
counts one task less; memory and the other partitions are as they were. -/
def Obligations.KillsAndEnds : Prop :=
  (
    ∀ (s : State) (core part : Nat) (t : TrapIn),
      let u := wakeAllWaitm s core part
      let p := getPart u core part
      (∀ b, p.level = 1 → p.bank1 = some b → (b.sawCause = false ∨ b.sawAddr = false) →
        takeTrap s core part t = killWith u core part
          { code := 0x0D, loc := partKey core part + p.tcause.toNat % 256 * 2 ^ 32 + t.code * 2 ^ 40, detail := [p.taddr.toNat, t.taddr.toNat] }
          (some { b with tsw := p.tsw, tcause := p.tcause, taddr := p.taddr, tpc := p.tpc })) ∧
      (∀ b, 2 ≤ p.level → p.bank2 = some b →
        takeTrap s core part t = killWith u core part
          { code := 0x0D, loc := partKey core part + b.tcause.toNat % 256 * 2 ^ 32 + t.code * 2 ^ 40, detail := [b.taddr.toNat, t.taddr.toNat] }
          (some b)) ∧
      (p.level = 0 → p.tvec = 0x80000000 → takeTrap s core part t = killTask u core part [t.code, t.taddr.toNat])) ∧
  (
    (∀ (s : State) (core part : Nat) (report : EventRec) (keep : Option TrapBank), (getPart s core part).steward = false →
      let t := killWith s core part report keep
      let q := getPart t core part
      q.ps = (if localWrites t core (getPart s core part).entered then .ending else .free) ∧ t.copies = s.copies ∧
      (∀ e, e ∈ t.kvs ↔ e ∈ s.kvs ∧ (e.2.core = core → e.2.task = (getPart s core part).entered →
        e.2.fault = none ∧ ∃ o ∈ (getPart s core part).pends, o.seq = e.2.seq ∧ o.st = .engine)) ∧ q.pends = [] ∧ q.early = [] ∧ q.reports = [] ∧
      q.monitor = none ∧ q.gang = none ∧ q.bank2 = keep ∧ report ∈ t.events ∧
      (∀ k, k ≠ partKey core part → mget t.parts k = mget s.parts k) ∧
      (∀ g gg, (getPart s core part).gang = some g → mget s.gangs g = some gg →
        (mget t.gangs g).map (·.live) = some (gg.live - 1) ∧
        ∃ x, mget t.queues (getPart s core part).queue = some x ∧ gg.pkt ∈ x.stopped)) ∧
    (∀ (s : State) (core part : Nat) (causes : List Nat),
      killTask s core part causes = killWith s core part { code := 0x0C, loc := partKey core part, detail := causes } none) ∧
    (∀ (s : State) (core part : Nat), (getPart s core part).ps = .ending →
      (localWrites s core (getPart s core part).entered = true → releaseKilled s core part = s) ∧
      (localWrites s core (getPart s core part).entered = false → (getPart s core part).steward = false →
        (getPart (releaseKilled s core part) core part).ps = .free))) ∧
  (
    ∀ (s : State), (cur s).steward = false → s.iss.writes = [] → s.iss.second = none →
      ∃ t, exec .endTask s = .next t ∧ t.iss.isOpen = false ∧ (cur t).ps = .free ∧ (cur t).pends = [] ∧ (cur t).monitor = none ∧
        (∀ k, getSticky (cur t) k = none) ∧ (cur t).gang = none ∧
        (∀ g gg, (cur s).gang = some g → mget s.gangs g = some gg → mget t.gangs g = some { gg with live := gg.live - 1 }) ∧
        (∀ k, k ≠ partKey s.iss.core s.iss.part → mget t.parts k = mget s.parts k) ∧ t.copies = s.copies ∧ t.colls = s.colls ∧
        ∀ a, peek t a = peek s a)

/-- TRAP and BRK (R279) commit and take their trap with the operand in TADDR; with the partition held by a debugger or in single-step,
BRK stops it instead, and the steward is told. A poisoned operand is POISON_USE. POISON_USE (R255): a poisoned register in one of these
roles raises the trap, precise in the slot of its syllable. -/
def Obligations.TrapInstructionsAndPoisonUse : Prop :=
  (
    ∀ (s : State) (f : SA),
      let committed (i : Instr) : State := setCur s (setSticky (cur s) s.iss.slot (stickyAfter i s))
      ((readS s f.a).2 = false →
        exec (.trap f) s = .next { preciseTrap (.trap f) { code := 0x40, taddr := (readS s f.a).1, commits := true } (committed (.trap f)) with
          epoch := s.epoch + 1 }) ∧
      ((readS s f.a).2 = false → (cur s).debugged = false → (cur s).single = false →
        exec (.brk f) s = .next { preciseTrap (.brk f) { code := 0x41, taddr := (readS s f.a).1, commits := true } (committed (.brk f)) with
          epoch := s.epoch + 1 }) ∧
      ((readS s f.a).2 = false → ((cur s).debugged = true ∨ (cur s).single = true) → ∃ t, exec (.brk f) s = .next t ∧
        (getPart t s.iss.core s.iss.part).ps = .stopped ∧ (getPart t s.iss.core s.iss.part).at_.slot = 2 ∧
        { code := 2, loc := partKey s.iss.core s.iss.part, detail := [(readS s f.a).1.toNat] } ∈ t.told) ∧
      ((readS s f.a).2 = true → Traps (.trap f) (poisonReqS f.a) s (exec (.trap f) s) ∧ Traps (.brk f) (poisonReqS f.a) s (exec (.brk f) s))) ∧
  (
    ∀ (s : State),
      (∀ f : SC, (readS s f.a).2 = true → Traps (.bc f) (poisonReqS f.a) s (exec (.bc f) s) ∧ Traps (.bri f) (poisonReqS f.a) s (exec (.bri f) s) ∧
        Traps (.ret f) (poisonReqS f.a) s (exec (.ret f) s) ∧ Traps (.lset f) (poisonReqS f.a) s (exec (.lset f) s) ∧
        Traps (.bksel f) (poisonReqS f.a) s (exec (.bksel f) s)) ∧
      (∀ f : SC, (readS s f.a).2 = false → (readS s f.b).2 = true → Traps (.bc f) (poisonReqS f.b) s (exec (.bc f) s)) ∧
      (∀ f : SC, (readS s f.b).2 = true → Traps (.calli f) (poisonReqS f.b) s (exec (.calli f) s)) ∧
      (∀ f : SA, (readS s f.a).2 = true → Traps (.fset f) (poisonReqS f.a) s (exec (.fset f) s) ∧ Traps (.fwait f) (poisonReqS f.a) s (exec (.fwait f) s) ∧
        Traps (.launch f) (poisonReqS f.a) s (exec (.launch f) s) ∧ Traps (.barv f) (poisonReqS f.a) s (exec (.barv f) s) ∧
        Traps (.barw f) (poisonReqS f.a) s (exec (.barw f) s) ∧ Traps (.svc f) (poisonReqS f.a) s (exec (.svc f) s)) ∧
      (∀ f : SM, (readS s f.a).2 = true → s.iss.named = true → Traps (.ld f) (poisonReqS f.a) s (exec (.ld f) s) ∧
        Traps (.st f) (poisonReqS f.a) s (exec (.st f) s)) ∧
      (∀ f : SM, (readS s f.a).2 = true → Traps (.aadd f) (poisonReqS f.a) s (exec (.aadd f) s) ∧ Traps (.amin f) (poisonReqS f.a) s (exec (.amin f) s) ∧
        Traps (.amax f) (poisonReqS f.a) s (exec (.amax f) s) ∧ Traps (.aswap f) (poisonReqS f.a) s (exec (.aswap f) s) ∧
        Traps (.acas f) (poisonReqS f.a) s (exec (.acas f) s) ∧ Traps (.aclaim f) (poisonReqS f.a) s (exec (.aclaim f) s) ∧
        Traps (.waitm f) (poisonReqS f.a) s (exec (.waitm f) s)) ∧
      (∀ f : VA, vregOk s f.a = true → (f.bs = true ∨ vregOk s f.b = true) → (readV s f.a).2 = true →
        Traps (.vcmp f) (poisonReqV f.a) s (exec (.vcmp f) s) ∧ Traps (.vfcmp f) (poisonReqV f.a) s (exec (.vfcmp f) s)))

/-- RETT (R281, R374): what entry saved is restored, issue goes on at the resume point and slot SRES, or at the address that a write of
TPC has named, and a nested handler's bank comes back (R376); the registers keep what they hold, and FPCTL gains no flag but those of
the handler's operations. Outside a handler it is ILLEGAL_SYLLABLE. That the trap registers of the first trap come back with its bank
follows from R376 (DEDUCED, log entry 63). RETT applies RPLACT to what is held at the level it returns to (R207, R374): with any value
but 1 the held piece, or the KV operation, is with its engine again, to be tried once more; with 1 it is skipped: the piece counts its
bytes and the copy goes on with status SKIPPED; a KV operation ends with 0. The completion handler (R205): it may be entered with EN 1,
INH 0 and an interrupt pending, outside it and outside single-step, at a bundle boundary. Entry keeps where the task stands, with its
repeat count, transfer and sticky registers; s56 to s63 are the shadow copies, of which the first holds PEND; PEND is clear, INH is 1,
and UIVEC comes next. UIRET (R281, R205): the completion handler ends, s56 to s63 are the task's own again, INH is 0 and the task goes
on where it stood. Outside a completion handler it is ILLEGAL_SYLLABLE. -/
def Obligations.Returns : Prop :=
  (
    ∀ (s : State),
      ((cur s).level = 0 → Traps .rett (illegalReq .rett) s (exec .rett s)) ∧
      (∀ b, (cur s).level ≠ 0 → (cur s).bank1 = some b → s.iss.writes = [] → s.iss.second = none →
        (∀ e ∈ (cur s).pends, e.st ≠ .replay) → heldCopies s s.iss.core (rettPart s (cur s) b) = [] →
        ∃ t, exec .rett s = .next t ∧ t.iss.isOpen = false ∧
          (cur t).level = (cur s).level - 1 ∧ (cur t).tc = b.tc ∧ (cur t).bank1 = (cur s).bank2 ∧ (cur t).bank2 = none ∧
          (b.repc = false → (cur t).at_ = { b.at_ with slot := (cur s).tsw.toNat % 8 }) ∧
          (b.repc = true → (cur t).at_.pc = (cur s).tpc ∧ (cur t).at_.sticky = b.at_.sticky) ∧
          (∀ c, (cur s).bank2 = some c → (cur t).tsw = c.tsw ∧ (cur t).tcause = c.tcause ∧ (cur t).taddr = c.taddr ∧ (cur t).tpc = c.tpc) ∧
          (cur t).s = (cur s).s ∧ (cur t).v = (cur s).v ∧ (cur t).p = (cur s).p ∧ (cur t).lc = (cur s).lc ∧
          ((∀ e ∈ (cur s).early, e.level = (cur s).level → e.flags = 0) → (cur t).fpctl = (cur s).fpctl) ∧
          (cur t).pends = (cur s).pends ∧ (∀ k, k ≠ partKey s.iss.core s.iss.part → mget t.parts k = mget s.parts k) ∧
          ∀ a, peek t a = peek s a)) ∧
  (
    (∀ (s : State) (b : TrapBank), (cur s).level ≠ 0 → (cur s).bank1 = some b → s.iss.writes = [] → s.iss.second = none →
      let w := setCur s (rettPart s (cur s) b)
      ∃ t, exec .rett s = .next t ∧ t.iss.isOpen = false ∧ t.parts = (replayAll w s.iss.core s.iss.part).parts ∧
        t.copies = (replayAll w s.iss.core s.iss.part).copies ∧ t.kvs = (replayAll w s.iss.core s.iss.part).kvs ∧
        (getPart w s.iss.core s.iss.part).rplact = (cur s).rplact ∧ (getPart w s.iss.core s.iss.part).pends = (cur s).pends) ∧
    (∀ (w : State) (core part : Nat) (e : Pend),
      let p := getPart w core part
      let u := replayAll w core part
      p.pends.filter (fun e => e.level == p.level && e.st == .replay) = [e] → (p.level ≠ 0 ∨ heldCopies w core p = []) →
        (∀ key x, e.eng = some key → key < 2 ^ 24 → mget w.copies key = some x → p.rplact ≠ 1 →
          mget u.copies key = some { x with holding := false, whole := false } ∧ u.kvs = w.kvs ∧
          (getPart u core part).pends = p.pends.map (fun y => if y.seq = e.seq then { y with st := .engine } else y) ∧ ∀ a, peek u a = peek w a) ∧
        (∀ key x g l, e.eng = some key → key < 2 ^ 24 → mget w.copies key = some x → p.rplact = 1 → x.shape = some g → x.pieces = some l →
          let skipped := if x.whole then l else l.take 1
          ∃ y, mget u.copies key = some y ∧ y.holding = false ∧ y.status = 5 ∧ y.pieces = some (l.drop skipped.length) ∧
            y.counted = x.counted + (skipped.map (x.skipBytes g.rec_ (x.dshape.map (·.rec_)))).foldl (· + ·) 0 ∧
            (getPart u core part).pends = p.pends.map (fun y => if y.seq = e.seq then { y with st := .engine } else y) ∧ ∀ a, peek u a = peek w a) ∧
        (∀ key x, e.eng = some key → 2 ^ 24 ≤ key → mget w.kvs (key - 2 ^ 24) = some x → p.rplact ≠ 1 →
          mget u.kvs (key - 2 ^ 24) = some { x with fault := none, repair := none } ∧ u.copies = w.copies ∧
          (getPart u core part).pends = p.pends.map (fun y => if y.seq = e.seq then { y with st := .engine } else y) ∧ ∀ a, peek u a = peek w a) ∧
        (∀ key x, e.eng = some key → 2 ^ 24 ≤ key → mget w.kvs (key - 2 ^ 24) = some x → p.rplact = 1 → x.core = core → x.task = p.entered →
          x.seq = e.seq → homeOf w core p.entered = some (.part part) → mget u.kvs (key - 2 ^ 24) = none ∧ u.copies = w.copies ∧
          (∃ l, (getPart u core part).pends =
            p.pends.map fun y => if y.seq = e.seq then { y.answer 0 .ready with ranges := l, eng := none } else y) ∧ ∀ a, peek u a = peek w a)) ∧
    (∀ (w : State) (core part key : Nat) (x : Copy),
      let p := getPart w core part
      let u := replayAll w core part
      p.level = 0 → p.rplact ≠ 1 → p.pends.filter (fun e => e.level == p.level && e.st == .replay) = [] → heldCopies w core p = [key] →
        mget w.copies key = some x → mget u.copies key = some { x with holding := false, whole := false } ∧ u.parts = w.parts)) ∧
  (
    (∀ p : Part, uiDue p = true ↔ p.uictl.getLsbD 0 = true ∧ p.uictl.getLsbD 1 = false ∧ p.uictl.toNat / 4 % 256 ≠ 0 ∧ p.ui = none ∧
      p.single = false ∧ p.at_.slot = 0) ∧
    (∀ (s : State) (core part : Nat),
      let p := getPart s core part
      let t := enterUi s core part
      let q := getPart t core part
      (∀ e ∈ p.pends, ∀ c g x d, e.st ≠ .wait (.waitm c g x d)) →
        q.ui = some p.at_ ∧ q.sh[0]'(by decide) = BitVec.ofNat 64 (p.uictl.toNat / 4 % 256) ∧ q.shp.getLsbD 0 = false ∧
        (∀ r : BitVec 6, r = 56 → regS q r = (BitVec.ofNat 64 (p.uictl.toNat / 4 % 256), false)) ∧
        q.uictl.toNat = p.uictl.toNat % 2 + 2 ∧ q.at_.pc = p.uivec ∧ q.at_.slot = 0 ∧ q.at_.rep = none ∧ q.at_.again = false ∧
        (∀ k, getSticky q k = none) ∧
        q = { p with ui := q.ui, uiSeq := p.nextSeq, sh := q.sh, shp := q.shp, uictl := q.uictl, at_ := q.at_ } ∧
        (∀ k, k < 8 → k ≠ 0 → q.sh.toList[k]? = p.sh.toList[k]? ∧ q.shp.getLsbD k = p.shp.getLsbD k) ∧
        (∀ k, k ≠ partKey core part → mget t.parts k = mget s.parts k) ∧ ∀ a, peek t a = peek s a)) ∧
  (
    ∀ (s : State),
      ((cur s).ui = none → Traps .uiret (illegalReq .uiret) s (exec .uiret s)) ∧
      (∀ x, (cur s).ui = some x → s.iss.writes = [] → s.iss.second = none → ∃ t, exec .uiret s = .next t ∧
        cur t = { cur s with tc := (cur s).tc + 1, at_ := x, ui := none, uictl := (cur s).uictl &&& ~~~2#64, stepped := (cur s).single, bucket := none } ∧
        t.iss.isOpen = false ∧ (∀ k, k ≠ partKey s.iss.core s.iss.part → mget t.parts k = mget s.parts k) ∧ ∀ a, peek t a = peek s a))

/-- CTXSV and CTXLD (R282, R380) are the steward's: in a user partition they are ILLEGAL_SYLLABLE. CTXSV of a stopped partition in
layout version 1 moves its context into the shadow store and frees the partition; of a partition that is not stopped it answers STATE,
of another layout version LAYOUT. CTXLD of the same image into a free partition with room for it places the context again; into one that
is not free it answers STATE; where its window, lines or banks are not free it answers NORES. The order of STATE before LAYOUT, NORES
too for a core that is closed, or whose room is held for another or goes to another candidate, and the context that stands beside the
bytes of its image are the model's choice (log entry 66). The image of a saved context (R382, Table 15.6): its MAGIC, its layout
version, its length, and the scalar registers at 0x0040; CTXLD takes it as good on the core that it names. -/
def Obligations.ContextTransfer : Prop :=
  (
    ∀ (s : State) (f : SA),
      ((cur s).steward = false → Traps (.ctxsv f) (illegalReq (.ctxsv f)) s (exec (.ctxsv f) s) ∧
        Traps (.ctxld f) (illegalReq (.ctxld f)) s (exec (.ctxld f) s)) ∧
      ((cur s).steward = true → (readS s f.a).2 = false → (readS s f.b).2 = false →
        let off := (readS s f.a).1.toNat % 2 ^ 25
        let part := (readS s f.b).1.toNat % 16
        let lver := (readS s f.b).1.toNat / 256 % 256
        let p := getPart s s.iss.core part
        (p.ps ≠ .stopped → ∃ t, exec (.ctxsv f) s = .next t ∧ LeavesIn .engine (.ctxsv f) 1 [sDest s f.d 1 false] 0 s t ∧ Committed 1 s t) ∧
        (p.ps = .stopped → lver ≠ 1 → ∃ t, exec (.ctxsv f) s = .next t ∧ LeavesIn .engine (.ctxsv f) 1 [sDest s f.d 2 false] 0 s t ∧
          Committed 1 s t) ∧
        (p.ps = .stopped → lver = 1 → off % 4096 = 0 → off + imageLen p ≤ 2 ^ 25 → part ≠ s.iss.part → ∃ t, exec (.ctxsv f) s = .next t ∧
          LeavesIn .engine (.ctxsv f) 1 [sDest s f.d 0 false] 0 s t ∧ (getPart t s.iss.core part).ps = .free ∧
          ∃ x, mget t.shadow (shadowKey s.iss.core off) = some x ∧ x.core = s.iss.core ∧ x.lver = 1 ∧ x.len = imageLen p ∧
            x.forced = p.preempt.getD true ∧ x.uipend = 0 ∧ x.patch = [] ∧ x.ctx = { p with ps := .swapped, preempt := none, cur := none, nxt := none, bucket := none }) ∧
        (∀ x wb tb, off % 4096 = 0 → p.ps = .free → lver = 1 → mget s.shadow (shadowKey s.iss.core off) = some x → x.core = s.iss.core →
          x.lver = 1 → x.patch = [] → part ≠ s.iss.part → barredTask s (shadowKey s.iss.core off) s.iss.core = false →
          (x.forced = true ∨ returnDue s (shadowKey s.iss.core off) x = true) →
          fitTasks (residents s s.iss.core) (getCore s s.iss.core).b1 1 (ctxShape x.ctx) = some ([wb], [tb]) → ∃ t, exec (.ctxld f) s = .next t ∧
          LeavesIn .engine (.ctxld f) 1 [sDest s f.d 0 false] 0 s t ∧ (getPart t s.iss.core part).ps = .placed ∧
          (getPart t s.iss.core part).s = x.ctx.s ∧ (getPart t s.iss.core part).tc = x.ctx.tc ∧ (getPart t s.iss.core part).at_ = x.ctx.at_ ∧
          (getPart t s.iss.core part).pends = x.ctx.pends ∧
          (getPart t s.iss.core part).uictl = x.ctx.uictl ||| (x.uipend.setWidth 64 <<< 2) ∧ (getPart t s.iss.core part).wbase = wb ∧ (getPart t s.iss.core part).tsbase = tb) ∧
        (off % 4096 = 0 → p.ps ≠ .free → ∃ t, exec (.ctxld f) s = .next t ∧ LeavesIn .engine (.ctxld f) 1 [sDest s f.d 1 false] 0 s t ∧
          Committed 1 s t) ∧
        (∀ x, off % 4096 = 0 → p.ps = .free → lver = 1 → mget s.shadow (shadowKey s.iss.core off) = some x → x.core = s.iss.core →
          x.lver = 1 → x.patch = [] →
          (barredTask s (shadowKey s.iss.core off) s.iss.core = true ∨
            (x.forced = false ∧ returnDue s (shadowKey s.iss.core off) x = false) ∨
            fitTasks (residents s s.iss.core) (getCore s s.iss.core).b1 1 (ctxShape x.ctx) = none) → ∃ t, exec (.ctxld f) s = .next t ∧
          LeavesIn .engine (.ctxld f) 1 [sDest s f.d 3 false] 0 s t ∧ Committed 1 s t))) ∧
  (
    ∀ (s : State) (x : SavedCtx), x.patch = [] → x.lver < 2 ^ 32 → x.len < 2 ^ 32 →
      field (imageBytes x) 0 4 = 0x4C535843 ∧ field (imageBytes x) 4 4 = x.lver ∧
        field (imageBytes x) 8 4 = x.len ∧ (∀ r : BitVec 6, field (imageBytes x) (0x40 + 8 * r.toNat) 8 = (x.ctx.s[r.toNat]'r.isLt).toNat) ∧
        imageGood s x x.core = true)

/-! Scalar memory and synchronisation. -/

/-- Reads of a core at any scope keep memory as it is, and with nothing in the core cache they find memory's bytes, with the poison of
their sectors (R14, R238, R239). LD and LDS (R261, R262): a load computes its object address from the captured register, the
displacement and the re-issue count, and leaves the extended value pending; a fault of LD is a result fault, and LDS, which never
faults, turns it, or a poisoned address, into a poisoned cause code. Neither writes memory. -/
def Obligations.ScalarLoads : Prop :=
  (
    ∀ (s : State) (core scope : Nat) (l : List LByte), s.memoryOk = true →
      KeepsMemory s (readSV s core scope l).1 ∧
      ((getCore s core).cache = [] →
        (readSV s core scope l).2.map (·.1) = l.map (memByte s) ∧
        (readSV s core scope l).2.map (·.2) = l.map fun b => (b.lo.line ++ b.hi.line).any fun n => poisonedAt (readSV s core scope l).1 (64 * n) 64)) ∧
  (
    ∀ (s : State) (f : SM),
      (∀ caps c, captured s [f.a] = .ok (caps, c) →
        let x := loadScalar (smAddr (caps.getD 0 0) f.w f.x c) (widthBytes f.w) s
        ∃ t, exec (.ld f) s = .next t ∧ KeepsMemory s t ∧
          (∀ v po, x.2 = .ok (v, po) → LeavesIn .engine (.ld f) (lat7 f.lat) [sDest s f.d (extend (widthSigned f.w) (widthBytes f.w) v) po] 0 s t ∧
            Accessed 1 s t) ∧
          (∀ e, x.2 = .error e → FaultsAs (.ld f) (lat7 f.lat) e.code e.taddr s t)) ∧
      (capturedSpec s (.lds f) = none → ∃ t, exec (.lds f) s = .next t ∧
        LeavesIn .engine (.lds f) (lat7 f.lat) [sDest s f.d 0x3F true] 0 s t ∧ Committed 1 s t) ∧
      (∀ caps c, capturedSpec s (.lds f) = some (caps, c) →
        let x := loadScalar (smAddr (caps.getD 0 0) f.w f.x c) (widthBytes f.w) s
        ∃ t, exec (.lds f) s = .next t ∧ KeepsMemory s t ∧ Accessed 1 s t ∧
          (∀ v po, x.2 = .ok (v, po) → LeavesIn .engine (.lds f) (lat7 f.lat) [sDest s f.d (extend (widthSigned f.w) (widthBytes f.w) v) po] 0 s t) ∧
          (∀ e, x.2 = .error e → LeavesIn .engine (.lds f) (lat7 f.lat) [sDest s f.d (BitVec.ofNat 64 e.code) true] 0 s t)))

/-- ST (R261, R236): the store is translated at issue and its bytes are written at the end of the bundle issue, whose reads all come
first; until then memory is as it was. A fault is a result fault with nothing written; poisoned data is POISON_USE. The bytes that a
bundle issue has stored are in memory when it ends: each cell that it has written holds the last byte written to it, and every other
byte of memory reads as it did. -/
def Obligations.ScalarStores : Prop :=
  (
    ∀ (s : State) (f : SM) (caps : List W64) (c : Nat), captured s [f.a] = .ok (caps, c) →
      let x := xlateSV s s.iss.core (cur s).queue (smAddr (caps.getD 0 0) f.w f.x c) (widthBytes f.w) { cls := clsScalar, rd := false, wr := true }
      ((readS s f.d).2 = false → ∃ t, exec (.st f) s = .next t ∧ (s.relocs = [] → KeepsMemory s t) ∧
        (∀ r l, x.2 = .ok (r, l) → LeavesIn .engine (.st f) (lat7 f.lat) [] 0 s t ∧ Accessed 1 s t ∧
          t.iss.writes = s.iss.writes ++ (deferSV { s with iss := { s.iss with writes := [] } } r l (toBytes (readS s f.d).1.toNat (widthBytes f.w))).iss.writes) ∧
        (∀ e, x.2 = .error e → FaultsAs (.st f) (lat7 f.lat) e.code e.taddr s t ∧ t.iss.writes = s.iss.writes)) ∧
      ((readS s f.d).2 = true → Traps (.st f) (poisonReqS f.d) s (exec (.st f) s))) ∧
  (
    ∀ (s : State), s.memoryOk = true →
      (∀ w ∈ s.iss.writes, populated s w.addr = true ∧ w.scratch = false ∧ w.mask = 255) →
      (applyWrites s).memoryOk = true ∧ (applyWrites s).iss.writes = [] ∧ (applyWrites s).parts = s.parts ∧
      ∀ a, peek (applyWrites s) a =
        (((s.iss.writes.filter fun w => cellOf s w.addr == cellOf s a).getLast?).map (·.val)).getD (peek s a))

/-- The atomics (R274, Table 11.9) and ACLAIM (R275) read and write their word of HBM in one step: the word's new value, the old value
as the result, and no other byte changed. An atomic or ACLAIM issues with its operands unpoisoned and its word translated: it reads its
word, which shows the writes of the issue's earlier atomics (R242), and its write takes its place among the writes of the bundle issue
(R236); with the release flag and its drain set not performed it waits (R243). A fault in translation is a result fault. -/
def Obligations.Atomics : Prop :=
  (
    ∀ (s : State) (core : Nat) (a : AtomicOp), s.memoryOk = true → s.iss.writes = [] → a.n = 4 ∨ a.n = 8 →
      let m := 2 ^ (8 * a.n)
      let o := peekNat s a.addr a.n
      let val (x : Nat) : Int := if a.signed then toSigned x (8 * a.n) else (x % m : Nat)
      let t := (a.perform s core).1
      (a.kind < 5 → a.addr + a.n ≤ hbmTop → (a.perform s core).2.res = extend a.signed a.n o ∧ t.memoryOk = true ∧
        (∀ b, b < a.addr ∨ a.addr + a.n ≤ b → peek t b = peek s b) ∧
        (a.kind = 0 → peekNat t a.addr a.n = (o + a.opnd) % m) ∧
        (a.kind = 1 → peekNat t a.addr a.n = if val a.opnd < val o then a.opnd % m else o) ∧
        (a.kind = 2 → peekNat t a.addr a.n = if val o < val a.opnd then a.opnd % m else o) ∧
        (a.kind = 3 → peekNat t a.addr a.n = a.opnd % m) ∧
        (a.kind = 4 → peekNat t a.addr a.n = if o = a.cmp % m then a.opnd % m else o)) ∧
      (a.kind = 5 → a.addr + 24 ≤ hbmTop →
        let claim := BitVec.ofNat 64 (peekNat s a.addr 8)
        let open_ := (claim - BitVec.ofNat 64 (peekNat s (a.addr + 8) 8)).toNat < peekNat s (a.addr + 16) 4
        (open_ → (a.perform s core).2.res = claim ∧ BitVec.ofNat 64 (peekNat t a.addr 8) = claim + 1) ∧
        (¬ open_ → (a.perform s core).2.res = BitVec.allOnes 64 ∧ peekNat t a.addr 8 = peekNat s a.addr 8) ∧
        ∀ b, b < a.addr ∨ a.addr + 8 ≤ b → peek t b = peek s b)) ∧
  (
    ∀ (s : State) (f : SM), (readS s f.a).2 = false → (readS s (f.a + 3)).2 = false →
      ∀ (i : Instr) (kind : Nat),
        ((i = .aadd f ∧ kind = 0) ∨ (i = .amin f ∧ kind = 1) ∨ (i = .amax f ∧ kind = 2) ∨ (i = .aswap f ∧ kind = 3) ∨
          (i = .acas f ∧ kind = 4 ∧ (readS s (f.a + 2)).2 = false) ∨ (i = .aclaim f ∧ kind = 5)) →
        (kind ≠ 5 → (readS s (f.a + 1)).2 = false) →
        let n := widthBytes f.w
        let oaddr := smAddr (readS s f.a).1 f.w f.x 0
        let x := if kind = 5 then xlateWord s s.iss.core (cur s).queue oaddr 24 64 8 { cls := clsScalar, rd := true, wr := true }
          else xlateWord s s.iss.core (cur s).queue oaddr n n n { cls := clsScalar, rd := true, wr := true }
        let order := (readS s (f.a + 3)).1
        ∃ t, exec i s = .next t ∧ (s.relocs = [] → KeepsMemory s t) ∧
          (∀ r a, x.2 = .ok (r, a) → Accessed 1 s t ∧
            ∃ op : AtomicOp, op.kind = kind ∧ op.addr = a ∧ op.n = n ∧ op.acq = order.getLsbD 0 ∧ op.scope = s.iss.scope.toNat ∧
              op.signed = (n == 8 || (widthSigned f.w && n == 4)) ∧ op.cmpr = r.cmpr ∧
              (kind ≠ 5 → op.opnd = (readS s (f.a + 1)).1.toNat) ∧ (kind = 4 → op.cmp = (readS s (f.a + 2)).1.toNat) ∧
              let y := (op.step x.1).2
              (order.getLsbD 1 = true → drained (cur s) (cur s).nextSeq = false → t.iss.writes = s.iss.writes ∧
                Waits (.rel (cur s).nextSeq (.atomic op)) i (lat7 f.lat) (some f.d) s t) ∧
              ((order.getLsbD 1 = false ∨ drained (cur s) (cur s).nextSeq = true) →
                LeavesIn .engine i (lat7 f.lat) [sDest s f.d y.res y.bad] 0 s t ∧
                t.iss.writes = s.iss.writes ++ (deferBytes { s with iss := { s.iss with writes := [] } } true (op.spreads y) a y.bytes r.cmpr r.fmt).iss.writes ∧
                (order.getLsbD 0 = true → s.iss.scope ≠ 0 → (curCore t).cache = []))) ∧
          (∀ e, x.2 = .error e → FaultsAs i (lat7 f.lat) e.code e.taddr s t ∧ t.iss.writes = s.iss.writes))

/-- DRAIN, FSET, LAUNCH, BARV and SVC are releases (R243): while an access of their drain set has not performed they wait; with none
they act at once. DRAIN then drops the core cache unless its scope is CORE (R241); FSET adds to a flag of a core, at most to 0xFFFF
(R271); BARV arrives at its barrier and answers its generation, or at once all ones where the gang has no such barrier (R278); SVC's
request is with the steward (R280); LAUNCH, which reads its packet at issue (R237), puts the child packet in the pool and answers its
status (R272). That a packet outside the share is a result fault is what R272 says of LAUNCH, where R229 makes the range faults of the S
slot precise (DEDUCED, log entry 107). What LAUNCH answers (R272): 3 for a packet that is no valid LAUNCH packet, 2 where no child level
is left or the task has no gang, 1 where the gang's child pool is full, else 0 with the packet in the pool and a child of the gang. -/
def Obligations.ReleasesAndLaunches : Prop :=
  (
    ∀ (s : State), (cur s).seqsOk = true →
      let free := drained (cur s) (cur s).nextSeq
      let seq := (cur s).nextSeq
      (∃ t, exec .drain s = .next t ∧
        (free = false → Waits (.drain s.iss.scope.toNat seq) .drain 1 none s t ∧ Committed 1 s t) ∧
        (free = true → Leaves .drain 1 [] 0 s t ∧ KeepsMemory s t ∧ Accessed 1 s t ∧
          (curCore t).cache = if s.iss.scope = 0 then (curCore s).cache else [])) ∧
      (∀ f, (readS s f.a).2 = false → (readS s f.b).2 = false →
        let c := (readS s f.a).1.toNat % 128
        let g := (readS s f.a).1.toNat / 256 % 64
        let inc := (readS s f.b).1.toNat % 65536
        ∃ t, exec (.fset f) s = .next t ∧
          (free = false → Waits (.rel seq (.fset c g inc)) (.fset f) 1 none s t ∧ Committed 1 s t) ∧
          (free = true → Leaves (.fset f) 1 [] 0 s t ∧ flagOf (getCore t c) g = min 0xFFFF (flagOf (getCore s c) g + inc) ∧
            (∀ c' g', (c' ≠ c ∨ g' ≠ g) → flagOf (getCore t c') g' = flagOf (getCore s c') g') ∧ OnlyPends 1 (cur s) (cur t) ∧
            ∀ a, peek t a = peek s a)) ∧
      (∀ f, (readS s f.a).2 = false → ∃ t, exec (.barv f) s = .next t ∧
        let b := (readS s f.a).1.toNat % 8
        (barAt s (cur s) b = none → Leaves (.barv f) 1 [sDest s f.d (BitVec.allOnes 64) false] 0 s t ∧ Committed 1 s t) ∧
        (∀ x, free = false → barAt s (cur s) b = some x → Waits (.rel seq (.barv b)) (.barv f) 1 (some f.d) s t ∧ Committed 1 s t) ∧
        (∀ x, free = true → barAt s (cur s) b = some x → Leaves (.barv f) 1 [sDest s f.d (x.inst.gen.setWidth 64) false] 0 s t ∧
          barAt t (cur t) b = some { x with inst := x.inst.arrive x.count } ∧ OnlyPends 1 (cur s) (cur t) ∧ ∀ a, peek t a = peek s a)) ∧
      (∀ (x : BarInst) n, (x.arrived + 1 < n → x.arrive n = { x with arrived := x.arrived + 1 }) ∧
        (n ≤ x.arrived + 1 → x.arrive n = { gen := x.gen + 1, arrived := 0 })) ∧
      (∀ f, (readS s f.a).2 = false → (readS s (f.a + 1)).2 = false → ∃ t, exec (.svc f) s = .next t ∧ Committed 1 s t ∧
        let n := (readS s f.a).1.setWidth 16
        let x := (readS s (f.a + 1)).1
        Waits (if free then .answer n x else .rel seq (.svc n x)) (.svc f) 1 (some f.d) s t) ∧
      (∀ f, (readS s f.a).2 = false → ∃ t, exec (.launch f) s = .next t ∧
        let a := (readS s f.a).1.toNat % 2 ^ 32
        let pkt := localBytes s s.iss.core (cur s) (BitVec.ofNat 64 a) 64
        let child := launchChild s (cur s) pkt
        (a % 64 ≠ 0 → LeavesIn .engine (.launch f) 16 [sDest s f.d 3 false] 0 s t ∧ Committed 1 s t) ∧
        (a % 64 = 0 → localOk (cur s) (curCore s) (BitVec.ofNat 64 a) 64 = false →
          FaultsAs (.launch f) 16 cLocalRange (BitVec.ofNat 64 (spOff (BitVec.ofNat 64 a))) s t) ∧
        (a % 64 = 0 → localOk (cur s) (curCore s) (BitVec.ofNat 64 a) 64 = true →
          (free = false → Waits (.rel seq (.launch pkt)) (.launch f) 16 (some f.d) s t ∧ Committed 1 s t) ∧
          (free = true → Leaves (.launch f) 16 [sDest s f.d (BitVec.ofNat 64 child.2) false] 0 s t ∧
            t.pkts = child.1.pkts ∧ t.gangs = child.1.gangs ∧ t.nextId = child.1.nextId ∧ t.queues = s.queues ∧ OnlyPends 1 (cur s) (cur t) ∧ ∀ b, peek t b = peek s b)))) ∧
  (
    ∀ (s : State) (p : Part) (pkt : List Byte),
      let valid := pktType (ofBytes pkt) = 1 ∧ pktOk (ofBytes pkt) = true
      (¬ valid → launchChild s p pkt = (s, 3)) ∧
      (valid → (∀ g, p.gang = some g → mget s.gangs g = none) → launchChild s p pkt = (s, 2)) ∧
      (∀ g x, valid → p.gang = some g → mget s.gangs g = some x →
        (x.depth = 0 → launchChild s p pkt = (s, 2)) ∧
        (x.depth ≠ 0 → x.kids ≤ x.kidsUsed → launchChild s p pkt = (s, 1)) ∧
        (x.depth ≠ 0 → x.kidsUsed < x.kids → (launchChild s p pkt).2 = 0 ∧
          mget (launchChild s p pkt).1.gangs g = some { x with kidsUsed := x.kidsUsed + 1 } ∧
          ∃ k, mget (launchChild s p pkt).1.pkts s.nextId = some k ∧ k.parent = some g ∧ k.queue = p.queue ∧ k.st = .fetched)))

/-- FWAIT (R271), BARW (R278) and WAITM (R245) wait; BARW whose generation has passed, and WAITM whose word differs from its operand,
end at once. A FWAIT is looked at with the core's other waits. How waits end (R20, R240, R271, R278, R203): a FWAIT when its flag holds
the amount, which it takes from it, dropping the core cache; a BARW when its barrier's generation has passed; a DRAIN when its drain set
has performed; a wait on a transaction barrier when its count is zero, or when it is poisoned or not armed; a LAUNCH that waits launches
its child when its drain set has performed; until then nothing changes. That a CWAIT on a barrier that has come to zero empties the core
cache is the model's reading (DEDUCED, log entry 58). -/
def Obligations.AcquiresAndWaits : Prop :=
  (
    ∀ (s : State), (cur s).seqsOk = true →
      (∀ f, (readS s f.a).2 = false → (readS s f.b).2 = false → ∃ t, exec (.fwait f) s = .next t ∧ Committed 1 s t ∧
        Waits (.fwait ((readS s f.a).1.toNat % 64) ((readS s f.b).1.toNat % 65536)) (.fwait f) 1 (some f.d) s t) ∧
      (∀ f, (readS s f.a).2 = false → (readS s f.b).2 = false → ∃ t, exec (.barw f) s = .next t ∧
        let b := (readS s f.a).1.toNat % 8
        let gen := (readS s f.b).1.setWidth 32
        KeepsMemory s t ∧ Accessed 1 s t ∧
        (barAt s (cur s) b = none → Leaves (.barw f) 1 [sDest s f.d (BitVec.allOnes 64) false] 0 s t) ∧
        (∀ x, barAt s (cur s) b = some x → x.inst.gen = gen → Waits (.barw b gen) (.barw f) 1 (some f.d) s t) ∧
        (∀ x, barAt s (cur s) b = some x → x.inst.gen ≠ gen → Leaves (.barw f) 1 [sDest s f.d (x.inst.gen.setWidth 64) false] 0 s t ∧
          (x.scope ≠ 0 → (curCore t).cache = []))) ∧
      (∀ f, (readS s f.a).2 = false →
        let n := widthBytes f.w
        let x := xlateSV s s.iss.core (cur s).queue (readS s f.a).1 n { cls := clsScalar, rd := true, wr := false }
        ∃ t, exec (.waitm f) s = .next t ∧ KeepsMemory s t ∧
          (∀ e, x.2 = .error e → FaultsAs (.waitm f) (lat7 f.lat) e.code e.taddr s t) ∧
          (∀ r l, x.2 = .ok (r, l) →
            let same := ofBytes ((readSV x.1 s.iss.core s.iss.scope.toNat l).2.map (·.1)) = (readS s f.d).1.toNat % 2 ^ (8 * n)
            let tm := (readS s (f.a + 1)).1.toNat % 2 ^ 32
            (same → (cur t).monitor = some (cur s).nextSeq ∧ AccessedAs 1 { cur s with monitor := some (cur s).nextSeq } s t ∧
              Waits (.waitm l (widthSigned f.w) s.iss.scope.toNat (if tm = 0 then none else some (s.clock + tm))) (.waitm f) (lat7 f.lat) (some f.d) s t) ∧
            (¬ same → (cur t).monitor = none ∧ AccessedAs 1 { cur s with monitor := none } s t ∧
              (s.iss.scope ≠ 0 → (curCore t).cache = []) ∧
              (s.memoryOk = true → ∃ po, Leaves (.waitm f) (lat7 f.lat) [sDest s f.d (extend (widthSigned f.w) l.length (peekCells s l)) po] 0 s t))))) ∧
  (
    ∀ (s : State) (core part : Nat) (e : Pend),
      let p := getPart s core part
      let c := getCore s core
      let ended (t : State) (x : W64) : Prop := getPart t core part = updPend p e.seq fun e => e.answer x .ready
      let same (t : State) : Prop := ∀ a, peek t a = peek s a
      (∀ f m, e.st = .wait (.fwait f m) →
        (m ≤ flagOf c f → let t := pollPend s core part e
          ended t (BitVec.ofNat 64 (flagOf c f - m)) ∧ flagOf (getCore t core) f = (flagOf c f - m) % 65536 ∧ (getCore t core).cache = [] ∧ same t) ∧
        (flagOf c f < m → pollPend s core part e = s)) ∧
      (∀ b gen, e.st = .wait (.barw b gen) →
        (∀ x, barAt s p b = some x → x.inst.gen = gen → pollPend s core part e = s) ∧
        (∀ x, barAt s p b = some x → x.inst.gen ≠ gen → let t := pollPend s core part e
          ended t (x.inst.gen.setWidth 64) ∧ (x.scope ≠ 0 → (getCore t core).cache = []) ∧ same t)) ∧
      (∀ sc n, e.st = .wait (.drain sc n) →
        (drained p n = true → let t := pollPend s core part e
          getPart t core part = updPend p e.seq (fun e => { e with st := .ready }) ∧ (sc ≠ 0 → (getCore t core).cache = []) ∧ same t) ∧
        (drained p n = false → pollPend s core part e = s)) ∧
      (∀ n pkt, e.st = .wait (.rel n (.launch pkt)) →
        (drained p n = true → let t := pollPend s core part e
          ended t (BitVec.ofNat 64 (launchChild s p pkt).2) ∧ t.pkts = (launchChild s p pkt).1.pkts ∧ t.gangs = (launchChild s p pkt).1.gangs ∧ same t) ∧
        (drained p n = false → pollPend s core part e = s)) ∧
      (∀ idx tm, e.st = .wait (.cwaitBar idx tm) →
        let x := barWord c idx
        (x.testBit 57 = true → ended (pollPend s core part e) 1) ∧
        (x.testBit 57 = false → x.testBit 56 = false → ended (pollPend s core part e) 3) ∧
        (x.testBit 57 = false → x.testBit 56 = true → x % 2 ^ 56 = 0 → let t := pollPend s core part e
          ended t 0 ∧ (getCore t core).cache = [] ∧ same t) ∧
        (x.testBit 57 = false → x.testBit 56 = true → x % 2 ^ 56 ≠ 0 → pollPend s core part e = s)))

/-! The vector slots. -/

/-- The floating instructions of Tables 12.2 and 12.3 (R288 to R291): each element is the exact result rounded once, with NaN operands
giving the canonical NaN; VFMIN and VFMAX prefer a number to a NaN and order −0 below +0; VFABS and VFNEG change the sign alone. -/
def Obligations.VectorFloat : Prop :=
  VaGives .vfadd 0 4 true false (fun m r o a b _ => roundFloat m.fmt r o (numAdd r (fmtDecode m.fmt a) (fmtDecode m.fmt b))) ∧
  VaGives .vfsub 0 4 true false (fun m r o a b _ => roundFloat m.fmt r o (numAdd r (fmtDecode m.fmt a) (numNeg (fmtDecode m.fmt b)))) ∧
  VaGives .vfmul 0 4 true false (fun m r o a b _ => roundFloat m.fmt r o (numMul (fmtDecode m.fmt a) (fmtDecode m.fmt b))) ∧
  VaGives .vfma 0 4 true true (fun m r o a b d => fma false m.fmt r o a b d) ∧
  VaGives .vfnma 0 4 true true (fun m r o a b d => fma true m.fmt r o a b d) ∧
  (∀ t r o a b d, fmtDecode t a ≠ .nan → fmtDecode t b ≠ .nan → fmtDecode t d ≠ .nan → ∀ neg,
    let p := numMul (if neg then numNeg (fmtDecode t a) else fmtDecode t a) (fmtDecode t b)
    let q := numAdd r p.1 (fmtDecode t d)
    fma neg t r o a b d = roundFloat t r o (q.1, p.2 || q.2)) ∧
  (∀ t r o a b d neg, (fmtDecode t a = .nan ∨ fmtDecode t b = .nan ∨ fmtDecode t d = .nan) → fma neg t r o a b d = convOk (ffmt t).qnan) ∧
  VaGives .vfmin 0 2 true false (fun m _ _ a b _ => convOk <|
    if fmtDecode m.fmt a = .nan then (if fmtDecode m.fmt b = .nan then (ffmt m.fmt).qnan else b)
    else if fmtDecode m.fmt b = .nan then a else if floatKey m.fmt a < floatKey m.fmt b then a else b) ∧
  VaGives .vfmax 0 2 true false (fun m _ _ a b _ => convOk <|
    if fmtDecode m.fmt a = .nan then (if fmtDecode m.fmt b = .nan then (ffmt m.fmt).qnan else b)
    else if fmtDecode m.fmt b = .nan then a else if floatKey m.fmt a < floatKey m.fmt b then b else a) ∧
  VaGives .vfabs 0 2 false false (fun m _ _ a _ _ => convOk <|
    if fmtDecode m.fmt a = .nan then (ffmt m.fmt).qnan else a % 2 ^ ((ffmt m.fmt).w - 1)) ∧
  VaGives .vfneg 0 2 false false (fun m _ _ a _ _ => convOk <|
    if fmtDecode m.fmt a = .nan then (ffmt m.fmt).qnan else a ^^^ 2 ^ ((ffmt m.fmt).w - 1)) ∧
  VaGives .vrcp 0 8 false false (fun m r o a _ _ => roundFloat m.fmt r o (numRcp (fmtDecode m.fmt a), false)) ∧
  VaGives .vrsqrt 0 8 false false (fun m r o a _ _ => roundFloat m.fmt r o (numRsqrt (fmtDecode m.fmt a))) ∧
  VaGives .vexp2 0 8 false false (fun m r o a _ _ => roundFloat m.fmt r o (numExp2 (fmtDecode m.fmt a), false))

/-- The integer instructions of Table 12.5 (R294) wrap, shift by the low bits of B, and compare signed, or unsigned for the N formats
and under .n16. VFCMP (R292) and VCMP (Table 11.6 on 32-bit lanes): each governed lane is compared, every other bit of the predicate is
kept, and a poisoned source traps. Among NaNs only `ne` holds. -/
def Obligations.VectorIntegerAndCompare : Prop :=
  (
    VaGives .vadd 11 1 true false (fun m _ _ a b _ => convOk ((a + b) % 2 ^ fmtWidth m.fmt)) ∧
    VaGives .vsub 11 1 true false (fun m _ _ a b _ => convOk ((a + 2 ^ fmtWidth m.fmt - b) % 2 ^ fmtWidth m.fmt)) ∧
    VaGives .vmul 11 3 true false (fun m _ _ a b _ => convOk (a * b % 2 ^ fmtWidth m.fmt)) ∧
    VaGives .vand 11 1 true false (fun _ _ _ a b _ => convOk (a &&& b)) ∧
    VaGives .vor 11 1 true false (fun _ _ _ a b _ => convOk (a ||| b)) ∧
    VaGives .vxor 11 1 true false (fun _ _ _ a b _ => convOk (a ^^^ b)) ∧
    VaGives .vshl 11 1 true false (fun m _ _ a b _ => convOk (a * 2 ^ (b % fmtWidth m.fmt) % 2 ^ fmtWidth m.fmt)) ∧
    VaGives .vshr 11 1 true false (fun m _ _ a b _ => convOk (a / 2 ^ (b % fmtWidth m.fmt))) ∧
    VaGives .vsar 11 1 true false (fun m _ _ a b _ =>
      convOk (toSigned a (fmtWidth m.fmt) / (2 ^ (b % fmtWidth m.fmt) : Nat) % (2 ^ fmtWidth m.fmt : Nat)).toNat) ∧
    VaGives .vmin 11 1 true false (fun m _ _ a b _ =>
      let v (x : Nat) : Int := intVal (m.fmt == 13 || m.fmt == 14 || m.aux == 1) (fmtWidth m.fmt) x
      convOk (if v b < v a then b else a)) ∧
    VaGives .vmax 11 1 true false (fun m _ _ a b _ =>
      let v (x : Nat) : Int := intVal (m.fmt == 13 || m.fmt == 14 || m.aux == 1) (fmtWidth m.fmt) x
      convOk (if v a < v b then b else a))) ∧
  (
    (∀ (mk : VA → Instr) (dflt lat : Nat) (cond : Nat → Nat → Nat → Bool),
      ((mk = .vfcmp ∧ dflt = 0 ∧ lat = 2 ∧ cond = fcond) ∨ (mk = .vcmp ∧ dflt = 11 ∧ lat = 1 ∧ cond = fun c a b => condHolds c 32 a b)) →
      ∀ (f : VA) (s : State), f.a.toNat < (cur s).wregs → (f.bs = false → f.b.toNat < (cur s).wregs) →
        let m := VMod.of f.x dflt
        ((readV s f.a).2 = false → (readB s f).poison = false → ∃ t x, exec (mk f) s = .next t ∧
          Gives (mk f) lat [.p (f.d.setWidth 4) x] 0 s t ∧
          ∀ l, l < 128 → x.getLsbD l = if (predOf s m).getLsbD l then cond m.aux (elem (readV s f.a).1.toNat 32 l) ((readB s f).elem 32 l)
            else (readP s (f.d.setWidth 4)).getLsbD l) ∧
        ((readV s f.a).2 = true → Traps (mk f) (poisonReqV f.a) s (exec (mk f) s)) ∧
        ((readV s f.a).2 = false → (readB s f).poison = true →
          Traps (mk f) (if f.bs then poisonReqS (f.b.setWidth 6) else poisonReqV f.b) s (exec (mk f) s))) ∧
    (∀ c a b, fmtDecode 0 a = .nan ∨ fmtDecode 0 b = .nan → fcond c a b = (c == 1)) ∧
    (∀ c, fcond c 0x80000000 0 = fcond c 0 0))

/-- VCVT (R293): with a narrow target the elements of part h of the destination come from the source's, with a wide one the source's
part h is read; each is converted, rounded and clamped by the target's rules, and an unchanged format only makes NaNs canonical. VKEY
and VKEYX (R304): the keys order as the elements do, NaNs last, and the inverse gives the element back, a NaN as the canonical one; DIR
= 1 turns the order round. -/
def Obligations.VectorConvertAndKeys : Prop :=
  (
    ∀ (f : VA) (s : State), f.d.toNat < (cur s).wregs → f.a.toNat < (cur s).wregs →
      let m := VMod.of f.x 0
      let src := f.b.toNat
      let ws := fmtWidth src
      let wt := fmtWidth m.fmt
      let conv (x : Nat) : Conv := convertElem src m.fmt x (rnd3 m.rnd (cur s).fpctl) (ovp3 m.ovp (cur s).fpctl)
      let a := readV s f.a
      let k := 4096 / max ws wt
      ∃ t, exec (.vcvt f) s = .next t ∧
        (ws ≤ wt → VecGives (.vcvt f) 3 f.d wt (fun j => (predOf s m).getLsbD (j * wt / 32))
          (fun j _ => conv (elem a.1.toNat ws (if ws = wt then j else k * m.aux + j))) a.2 s t) ∧
        (wt < ws → VecGives (.vcvt f) 3 f.d wt
          (fun j => k * m.aux ≤ j && j < k * m.aux + k && (predOf s m).getLsbD ((j - k * m.aux) * ws / 32))
          (fun j _ => conv (elem a.1.toNat ws (j - k * m.aux))) a.2 s t)) ∧
  (
    VaGives .vkey 0 2 false false (fun m _ _ a _ _ => convOk (vkeyElem m.fmt m.aux a)) ∧
    VaGives .vkeyx 0 2 false false (fun m _ _ a _ _ => convOk (unkeyElem m.fmt m.aux a)) ∧
    ∀ t x y, (t ≤ 4 ∨ t = 8 ∨ t = 10 ∨ t = 11 ∨ t = 13 ∨ t = 14) → x < 2 ^ fmtWidth t → y < 2 ^ fmtWidth t →
      let nan (z : Nat) : Prop := t ≤ 4 ∧ fmtDecode t z = .nan
      let val (z : Nat) : Int := if t ≤ 4 then floatKey t z else intVal (t == 13 || t == 14) (fmtWidth t) z
      (¬ nan x → ¬ nan y → (vkeyElem t 0 x < vkeyElem t 0 y ↔ val x < val y) ∧ (vkeyElem t 1 x < vkeyElem t 1 y ↔ val y < val x)) ∧
      (¬ nan x → nan y → vkeyElem t 0 x < vkeyElem t 0 y) ∧
      (∀ dir, dir = 0 ∨ dir = 1 → (¬ nan x → unkeyElem t dir (vkeyElem t dir x) = x) ∧
        (nan x → unkeyElem t dir (vkeyElem t dir x) = (ffmt t).qnan)))

/-- VRADD, VRMAX, VSCANI and VSCANX (R49, R50, R295): elements outside the predicate enter the tree as the identity, and a NaN enters as
the canonical one (R26); a reduction writes the root into every element, the inclusive scan writes at element i the combination of the
aligned nodes that cover 0 to i, and the exclusive scan is the inclusive one moved up, with the identity at 0. VPERM, VBCAST, VSLIDE and
VCOMPR (R296): lane or element selection, with the elements outside the predicate kept, but for VCOMPR, which packs the lanes that the
predicate selects and writes 0 into the rest. -/
def Obligations.VectorTreesAndPermutes : Prop :=
  (
    ∀ (f : VA) (s : State), f.d.toNat < (cur s).wregs → f.a.toNat < (cur s).wregs →
      let m := VMod.of f.x 0
      let w := fmtWidth m.fmt
      let n := 4096 / w
      let a := readV s f.a
      let add := sumOp m.fmt (rnd3 m.rnd (cur s).fpctl) (ovp3 m.ovp (cur s).fpctl)
      let canon (x : Nat) : Nat := if m.fmt ≤ 2 ∧ fmtDecode m.fmt x = .nan then (ffmt m.fmt).qnan else x
      let leaf (ident k : Nat) : Nat := if (predOf s m).getLsbD (k * w / 32) then canon (elem a.1.toNat w k) else ident
      let node := treeNode add (leaf (sumId m.fmt))
      let incl (k : Nat) : Conv := scanAt add (treeLevels add (Nat.log2 n) (tab n fun j => convOk (leaf (sumId m.fmt) j))) k (Nat.log2 n + 1) 0 none
      0 < w →
      (∃ t, exec (.vradd f) s = .next t ∧ VecGives (.vradd f) 8 f.d w (fun _ => true) (fun _ _ => node (Nat.log2 n) 0) a.2 s t) ∧
      (∃ t, exec (.vrmax f) s = .next t ∧ VecGives (.vrmax f) 6 f.d w (fun _ => true)
        (fun _ _ => treeNode (maxOp m.fmt m.aux) (leaf (maxId m.fmt m.aux)) (Nat.log2 n) 0) a.2 s t) ∧
      (∃ t, exec (.vscani f) s = .next t ∧ VecGives (.vscani f) 10 f.d w (fun _ => true) (fun k _ => incl k) a.2 s t) ∧
      (∃ t, exec (.vscanx f) s = .next t ∧ VecGives (.vscanx f) 10 f.d w (fun _ => true)
        (fun k _ => if k = 0 then convOk (sumId m.fmt) else incl (k - 1)) a.2 s t) ∧
      ∀ l, l ≤ Nat.log2 n → incl (2 ^ l - 1) = node l 0) ∧
  (
    ∀ (f : VA) (s : State), f.d.toNat < (cur s).wregs → f.a.toNat < (cur s).wregs →
      let m := VMod.of f.x 14
      let w := fmtWidth m.fmt
      let n := 4096 / w
      let a := readV s f.a
      let b := readB s f
      let p := predOf s m
      ((f.bs = false → f.b.toNat < (cur s).wregs) → ∃ t, exec (.vperm f) s = .next t ∧
        VecGives (.vperm f) 4 f.d 32 (p.getLsbD ·) (fun k _ => convOk (elem a.1.toNat 32 (b.elem 32 k % 128))) (a.2 || b.poison) s t) ∧
      (f.bs = true → ∃ t, exec (.vbcast f) s = .next t ∧
        VecGives (.vbcast f) 2 f.d w (fun k => p.getLsbD (k * w / 32))
          (fun _ _ => convOk (elem a.1.toNat w ((readS s (f.b.setWidth 6)).1.toNat % n))) (a.2 || b.poison) s t) ∧
      (f.bs = true → m.aux < (cur s).wregs → ∃ t, exec (.vslide f) s = .next t ∧
        let c := readV s (auxReg m)
        let j := min ((readS s (f.b.setWidth 6)).1.toNat % 2 ^ 32) n
        VecGives (.vslide f) 2 f.d w (fun k => p.getLsbD (k * w / 32))
          (fun k _ => convOk (if k + j < n then elem a.1.toNat w (k + j) else elem c.1.toNat w (k + j - n))) (a.2 || b.poison || c.2) s t) ∧
      (∃ t x, exec (.vcompr f) s = .next t ∧ Gives (.vcompr f) 4 [.v f.d x a.2] 0 s t ∧
        let lanes := (List.range 128).filter fun l => p.getLsbD l
        (∀ i l, lanes[i]? = some l → elem x.toNat 32 i = elem a.1.toNat 32 l) ∧
        ∀ i, lanes.length ≤ i → i < 128 → elem x.toNat 32 i = 0))

/-- The predicate operations (R297): AND, OR, XOR and NOT of predicates, and PCNT, which writes the count into every lane with poison 0.
None reads a vector register or traps on poison. A legal one names p0 and format 0, has no rounding mode, no policy and no scalar B, and
PNOT and PCNT have B = 0. -/
def Obligations.PredicateOperations : Prop :=
  ∀ (f : VA) (s : State),
    (∀ i ∈ [Instr.pand f, .por f, .pxor f, .pnot f, .pcnt f], i.wf = true → f.bs = false ∧
      let m := VMod.of f.x 0
      m.pred = 0 ∧ m.fmt = 0 ∧ m.rnd = 0 ∧ m.ovp = 0) ∧
    (∀ i ∈ [Instr.pnot f, .pcnt f], i.wf = true → f.b = 0) ∧
    let d := f.d.setWidth 4
    let a := readP s (f.a.setWidth 4)
    let b := readP s (f.b.setWidth 4)
    (∃ t, exec (.pand f) s = .next t ∧ Gives (.pand f) 1 [.p d (a &&& b)] 0 s t) ∧
    (∃ t, exec (.por f) s = .next t ∧ Gives (.por f) 1 [.p d (a ||| b)] 0 s t) ∧
    (∃ t, exec (.pxor f) s = .next t ∧ Gives (.pxor f) 1 [.p d (a ^^^ b)] 0 s t) ∧
    (∃ t, exec (.pnot f) s = .next t ∧ Gives (.pnot f) 1 [.p d (~~~a)] 0 s t) ∧
    (f.d.toNat < (cur s).wregs → ∃ t x, exec (.pcnt f) s = .next t ∧ Gives (.pcnt f) 1 [.v f.d x false] 0 s t ∧
      ∀ l, l < 128 → elem x.toNat 32 l = a.cpop.toNat) ∧
    ((cur s).wregs ≤ f.d.toNat → Traps (.pcnt f) (illegalReq (.pcnt f)) s (exec (.pcnt f) s))

/-- VPART, VHIST, VPX3, VSHADD3, VFXT and VFXF (R302, R303, R305 to R307). VPART writes each lane's index, plus sB, at the lane's rank
by outcome and lane, the ungoverned lanes last; VHIST adds the counts of part AUX's digits; VPX3 writes the PX3 codes of 2^(a − b) into
part AUX; VSHADD3 adds the products of R35; VFXT and VFXF scale by 2^−k and 2^k. -/
def Obligations.ServingOperations : Prop :=
  ∀ (f : VA) (s : State), f.d.toNat < (cur s).wregs → f.a.toNat < (cur s).wregs →
    let a := readV s f.a
    let b := readB s f
    let sc := (readS s (f.b.setWidth 6)).1.toNat
    (f.bs = true → ∃ t x, exec (.vpart f) s = .next t ∧ Gives (.vpart f) 6 [.v f.d x (a.2 || b.poison)] 0 s t ∧
      let p := predOf s (VMod.of f.x 14)
      let key (l : Nat) : Nat := 128 * (elem a.1.toNat 32 l % 16) + l
      let rank (l : Nat) : Nat :=
        if p.getLsbD l then ((List.range 128).filter fun j => p.getLsbD j && key j < key l).length
        else ((List.range 128).filter fun j => p.getLsbD j || j < l).length
      ∀ l, l < 128 → elem x.toNat 32 (rank l) = (sc + l) % 2 ^ 32) ∧
    (f.bs = true → ∃ t x, exec (.vhist f) s = .next t ∧
      Gives (.vhist f) 8 [.v f.d x (a.2 || b.poison || (readV s f.d).2)] 0 s t ∧
      let m := VMod.of f.x 14
      let w := fmtWidth m.fmt
      let digit (k : Nat) : Nat := elem a.1.toNat w k / 2 ^ (sc % 32) % 2 ^ (sc / 256 % 8 + 1)
      ∀ k, k < 128 → elem x.toNat 32 k = (elem (readV s f.d).1.toNat 32 k +
        ((List.range (4096 / w)).filter fun j => (predOf s m).getLsbD (j * w / 32) && digit j == 128 * m.aux + k).length) % 2 ^ 32) ∧
    ((f.bs = false → f.b.toNat < (cur s).wregs) → ∃ t, exec (.vpx3 f) s = .next t ∧
      let m := VMod.of f.x 0
      VecGives (.vpx3 f) 4 f.d 8 (fun k => 128 * m.aux ≤ k && k < 128 * m.aux + 128 && (predOf s m).getLsbD (k - 128 * m.aux))
        (fun k _ => px3Prob (elem a.1.toNat 32 (k - 128 * m.aux)) (b.elem 32 (k - 128 * m.aux)) (rnd3 m.rnd (cur s).fpctl)
          (ovp3 m.ovp (cur s).fpctl)) (a.2 || b.poison) s t) ∧
    ((f.bs = false → f.b.toNat < (cur s).wregs) → ∃ t, exec (.vshadd3 f) s = .next t ∧
      let m := VMod.of f.x 11
      VecGives (.vshadd3 f) 3 f.d 32 ((predOf s m).getLsbD ·)
        (fun k d => convOk (((d : Int) + px3Prod (elem a.1.toNat 32 k)
          (if f.bs then sc % 256 else elem (readV s f.b).1.toNat 8 (128 * m.aux + k))) % 2 ^ 32).toNat)
        (a.2 || b.poison || (readV s f.d).2) s t) ∧
    (f.bs = true → ∃ t, exec (.vfxt f) s = .next t ∧
      let m := VMod.of f.x 0
      VecGives (.vfxt f) 3 f.d 32 ((predOf s m).getLsbD ·)
        (fun k _ => intEncode 32 (-2 ^ 23) (2 ^ 23 - 1) (numScale (fmtDecode 0 (elem a.1.toNat 32 k)) (-toSigned sc 8))
          (rnd3 m.rnd (cur s).fpctl) (ovp3 m.ovp (cur s).fpctl)) (a.2 || b.poison) s t) ∧
    (f.bs = true → ∃ t, exec (.vfxf f) s = .next t ∧
      let m := VMod.of f.x 0
      VecGives (.vfxf f) 3 f.d 32 ((predOf s m).getLsbD ·)
        (fun k _ => convert (numScale (numOfInt (toSigned (elem a.1.toNat 32 k) 32)) (toSigned sc 8)) 0
          (rnd3 m.rnd (cur s).fpctl) (ovp3 m.ovp (cur s).fpctl)) (a.2 || b.poison) s t) ∧
    (∀ x y r o, fmtDecode 0 x = .inf true → (∀ n, fmtDecode 0 y ≠ .inf n) → fmtDecode 0 y ≠ .nan → px3Prob x y r o = convOk 0x80)

/-- VLD, VGATH, VLDS and VGATHS (R298, R300, R301): each governed lane takes its four bytes from its own address, the other lanes keep
the destination's; an offset outside the share is LOCAL_RANGE, an object fault a result fault, and the speculative forms turn either
into a poisoned cause code. -/
def Obligations.VectorLoads : Prop :=
  ∀ (s : State) (f : VM), f.d.toNat < (cur s).wregs →
    let filled (i : Instr) (lanes : List (Nat × Nat)) (po : Bool) (t : State) : Prop :=
      ∃ x, LeavesIn .engine i (lat7 f.lat) [.v f.d x (po || (lanes.length < 128 && (readV s f.d).2))] 0 s t ∧ Accessed 1 s t ∧
        ∀ l, l < 128 → elem x.toNat 32 l = match lanes.find? fun e => e.1 == l with
          | some e => e.2 % 2 ^ 32
          | none => elem (readV s f.d).1.toNat 32 l
    let spoiled (i : Instr) (code : Nat) (t : State) : Prop :=
      ∃ x, LeavesIn .engine i (lat7 f.lat) [.v f.d x true] 0 s t ∧ Accessed 1 s t ∧ ∀ l, l < 128 → elem x.toNat 32 l = code % 2 ^ 32
    let regular (i : Instr) (idx : Option Nat) : Prop :=
      ∀ caps c, captured s [f.a] = .ok (caps, c) →
        let x := vecLoad f (caps.getD 0 0) idx c s
        (∀ o, x.2 = .range o → Traps i { code := cLocalRange, taddr := BitVec.ofNat 64 (o % 2 ^ 21), commits := false } s (exec i s)) ∧
        (∀ e, x.2 = .fault e → ∃ t, exec i s = .next t ∧ KeepsMemory s t ∧ FaultsAs i (lat7 f.lat) e.code e.taddr s t) ∧
        (∀ lanes po, x.2 = .data lanes po → ∃ t, exec i s = .next t ∧ KeepsMemory s t ∧ filled i lanes po t)
    let speculative (i : Instr) (idx : Option Nat) : Prop :=
      (capturedSpec s i = none → ∃ t, exec i s = .next t ∧ spoiled i 0x3F t) ∧
      ∀ caps c, capturedSpec s i = some (caps, c) →
        let x := vecLoad f (caps.getD 0 0) idx c s
        ∃ t, exec i s = .next t ∧ KeepsMemory s t ∧ (∀ o, x.2 = .range o → spoiled i 0x21 t) ∧ (∀ e, x.2 = .fault e → spoiled i e.code t) ∧
          ∀ lanes po, x.2 = .data lanes po → filled i lanes po t
    let at_ := (readV s (idxReg f)).1.toNat
    regular (.vld f) none ∧ speculative (.vlds f) none ∧
    ((idxReg f).toNat < (cur s).wregs → (readV s (idxReg f)).2 = false → regular (.vgath f) (some at_) ∧ speculative (.vgaths f) (some at_)) ∧
    ((idxReg f).toNat < (cur s).wregs → (readV s (idxReg f)).2 = true → ∀ caps c, captured s [f.a] = .ok (caps, c) →
      Traps (.vgath f) (poisonReqV (idxReg f)) s (exec (.vgath f) s)) ∧
    (f.md = 1 → ∀ op c idx l, (predOf s (VMod.of f.x 0)).getLsbD l = true → l < 128 → spOk op = true →
      let off (j : Nat) : Nat := spOff op + (match idx with | none => 512 * c + 4 * j | some v => 4 * elem v 32 j)
      (∀ j, j < 128 → (predOf s (VMod.of f.x 0)).getLsbD j = true → ∀ b, b < 4 → inShare (cur s) (curCore s) (off j + b) = true) →
      ∃ lanes, (vecLoad f op idx c s).2 = .data lanes false ∧
        (lanes.find? fun e => e.1 == l).map (·.2) = some (ofBytes (tab 4 fun b => readScratch s (swizzle (spSwz op) (off l + b)))))

/-- VST and VSCAT (R299, R300): the governed lanes' bytes are deferred to the end of the bundle issue, lane by lane; a fault or an
offset outside the share writes nothing, and poisoned data is POISON_USE. What a bundle issue stores to the scratchpad is there when it
ends; the 16-byte units that it meets are kept as they were for the units that may still miss the store (R334, log entry 122). -/
def Obligations.VectorStores : Prop :=
  (∀ (s : State) (f : VM), f.d.toNat < (cur s).wregs → (cur s).seqsOk = true →
    let stores (i : Instr) (idx : Option Nat) : Prop :=
      ∀ caps c, captured s [f.a] = .ok (caps, c) →
        let op := caps.getD 0 0
        let d := (readV s f.d).1.toNat
        let m := VMod.of f.x 0
        let ls := laneOffs (govLanes (predOf s m)) (vmBase f op idx c) idx
        ((readV s f.d).2 = true → Traps i (poisonReqV f.d) s (exec i s)) ∧
        ((readV s f.d).2 = false → f.md = 1 →
          (∀ o, rangeFault s op (vmBase f op idx c) ls = some o →
            Traps i { code := cLocalRange, taddr := BitVec.ofNat 64 (o % 2 ^ 21), commits := false } s (exec i s)) ∧
          (rangeFault s op (vmBase f op idx c) ls = none → ∃ t, exec i s = .next t ∧ LeavesIn .engine i (lat7 f.lat) [] 0 s t ∧ Accessed 1 s t ∧
            (∀ a, peek t a = peek s a) ∧
            t.iss.writes = s.iss.writes ++ ls.flatMap fun l => scratchWrites op l (elem d 32 l.lane))) ∧
        ((readV s f.d).2 = false → f.md ≠ 1 →
          let x := vecXlate s (vmAddr f op idx c) (fmtWidth m.fmt) { cls := clsVector, rd := false, wr := true } ls
          (∀ e, x.2 = .error e → ∃ t, exec i s = .next t ∧ FaultsAs i (lat7 f.lat) e.code e.taddr s t ∧ t.iss.writes = s.iss.writes) ∧
          (∀ r l, x.2 = .ok (r, l) → ∃ t, exec i s = .next t ∧ (s.relocs = [] → KeepsMemory s t) ∧
            LeavesIn .engine i (lat7 f.lat) [] 0 s t ∧ Accessed 1 s t ∧
            (∀ r', r = some r' → t.iss.writes = s.iss.writes ++ l.flatMap fun p =>
              (deferSV { s with iss := { s.iss with writes := [] } } r' p.2 (toBytes (elem d 32 p.1.lane) 4)).iss.writes) ∧
            (r = none → t.iss.writes = s.iss.writes)))
    stores (.vst f) none ∧
    ((idxReg f).toNat < (cur s).wregs → (readV s (idxReg f)).2 = false → stores (.vscat f) (some (readV s (idxReg f)).1.toNat))) ∧
  (∀ (s : State), (∀ w ∈ s.iss.writes, w.scratch = true ∧ w.mask = 255) →
    (∀ o, scratchByte (curCore (applyWrites s)) o =
      (((s.iss.writes.filter (·.addr == o)).getLast?).map (·.val)).getD (scratchByte (curCore s) o)) ∧
    (∀ w ∈ s.iss.writes, ∃ l, mget (curCore (applyWrites s)).spWas (w.addr / 16) = some l ∧
      (∀ x, unitWriter (cur s) (w.addr / 16) = some x → l.head? = some { x with val := spUnitOf (curCore s) (w.addr / 16) }) ∧
      (unitWriter (cur s) (w.addr / 16) = none → l = [])) ∧
    ∀ a, peek (applyWrites s) a = peek s a)

/-! The matrix engine and the transform unit. -/

/-- MSTEP, MZERO, MREAD and MWRITE (R317, R320 to R322), where their bank is claimed; a gate that is off (R318) leaves them no effect.
MSTEP adds to each valid cell, in four steps of 32 terms, the products of a row of A and a column of B; MZERO clears the bank; MREAD
writes a row group, converted, to its scratchpad unit, among the writes that end its bundle issue (R236); MWRITE fills a row group from
one. -/
def Obligations.MatrixOperations : Prop :=
  ∀ (s : State) (f : MT), (cur s).accs.getLsbD f.acc.toNat = true →
    let p := cur s
    let bank := bankFor p f.acc
    let e := (entryOf s f.lcx).1
    let changed (t : State) : Part := { cur s with acc := (cur t).acc }
    let others (lo n : Nat) (t : State) : Prop :=
      ∀ b r, r < 128 → (b ≠ bank ∨ r < lo ∨ lo + n ≤ r) → bankRow (cur t) b r = bankRow p b r
    let off := mOffset p f.tb
    (gateOn s 0 = false → ∃ t, exec (.mstep f) s = .next t ∧ Committed 0 s t) ∧
    (gateOn s 1 = false → ∃ t, exec (.mzero f) s = .next t ∧ Committed 0 s t) ∧
    (gateOn s 2 = false → ∃ t, exec (.mread f) s = .next t ∧ Committed 0 s t) ∧
    (gateOn s 3 = false → ∃ t, exec (.mwrite f) s = .next t ∧ Committed 0 s t) ∧
    (gateOn s 0 = true → e.legal = false →
      Traps (.mstep f) { code := cMatrix, taddr := BitVec.ofNat 64 (entryOf s f.lcx).2, commits := false } s (exec (.mstep f) s)) ∧
    (gateOn s 0 = true → e.legal = true →
      let ra : Region := { base := nbits p.mca.toNat 0 16 + 16 * nbits p.mca.toNat 16 8 * f.ta.toNat, rows := e.rows, fmt := e.a, row := false }
      let lb := nbits p.mcb.toNat 0 16 + 16 * nbits p.mcb.toNat 16 8 * f.tb.toNat
      let rb : Region := { base := lb, rows := 128, fmt := e.b, row := (tileTag p (lb / 16)).toNat % 4 = 2 }
      ra.outside p = none → rb.outside p = none → ra.mistagged p = none → rb.mistagged p = none →
      let vm := min e.rows (128 - nbits p.mce.toNat 0 8)
      let vn := 128 - nbits p.mce.toNat 8 8
      let vk := 128 - nbits p.mce.toNat 16 8
      let sa (l : List (Machine.Num × Bool)) : List (Machine.Num × Bool) := if e.isInt then l else l.map (tensorScale e.asc)
      let sb (l : List (Machine.Num × Bool)) : List (Machine.Num × Bool) := if e.isInt then l else l.map (tensorScale e.bsc)
      let cell (r j : Nat) : Nat × Flags := cellSteps e.isInt ((sa (ra.values s 4 (fmtWidth e.a - e.npl) r)).take vk)
        (tab vk fun k => (sb (rb.values s 4 0 k)).getD j (.nan, false)) 4 0 (elem (bankRow p bank r).toNat 32 j, 0)
      ∃ t fl, exec (.mstep f) s = .next t ∧
        LeavesIn .engine (.mstep f) (8 * e.npl * (if e.isInt then 2 else 1) + 6) [] fl s t ∧ CommittedAs 1 (changed t) s t ∧
        (∀ r j, r < vm → j < vn → elem (bankRow (cur t) bank r).toNat 32 j = (cell r j).1 % 2 ^ 32) ∧
        (∀ r j, r < vm → vn ≤ j → j < 128 → elem (bankRow (cur t) bank r).toNat 32 j = elem (bankRow p bank r).toNat 32 j) ∧
        others 0 vm t ∧
        ∀ b, b < 3 → fl.getLsbD b = (List.range vm).any fun r => (List.range vn).any fun j => (cell r j).2.getLsbD b) ∧
    (gateOn s 1 = true → ∃ t, exec (.mzero f) s = .next t ∧ LeavesIn .engine (.mzero f) 6 [] 0 s t ∧ CommittedAs 1 (changed t) s t ∧
      (∀ r, r < 128 → bankRow (cur t) bank r = 0) ∧ others 0 128 t) ∧
    (gateOn s 2 = true → e.legal = true → shareBad p (curCore s) off (256 * fmtWidth e.ofmt) = none →
      let w := fmtWidth e.ofmt
      let conv (r j : Nat) : Conv :=
        let x := elem (bankRow p bank (16 * (f.ta.toNat % 8) + r)).toNat 32 j
        convert (if e.isInt then numOfInt (toSigned x 32) else (ffmt 0).decode x) e.ofmt (rnd3 e.ornd p.fpctl) (ovp3 e.oovp p.fpctl)
      ((∃ r j, r < 16 ∧ j < 128 ∧ (conv r j).trap = true) → ∃ t, exec (.mread f) s = .next t ∧ FaultsAs (.mread f) 24 cOverflow 0 s t) ∧
      ((∀ r j, r < 16 → j < 128 → (conv r j).trap = false) → ∃ t fl, exec (.mread f) s = .next t ∧
        LeavesIn .engine (.mread f) 24 [] fl s t ∧ Accessed 1 s t ∧ (∀ a, peek t a = peek s a) ∧
        (t.iss.writes = s.iss.writes ++ tab (256 * w) fun q =>
          { join := true, atom := false, scratch := true, addr := swizzle (mSwz p) (off + q), mask := 255, cmpr := false, fmt := 0
            val := BitVec.ofNat 8 (elem (packElems w (tab 128 fun j => (conv (q / (16 * w)) j).code)) 8 (q % (16 * w))) }) ∧
        ∀ b, b < 3 → fl.getLsbD b = (List.range 16).any fun r => (List.range 128).any fun j => (conv r j).flags.getLsbD b)) ∧
    (gateOn s 3 = true → shareBad p (curCore s) off 8192 = none → ∃ t, exec (.mwrite f) s = .next t ∧
      LeavesIn .engine (.mwrite f) 24 [] 0 s t ∧ CommittedAs 1 (changed t) s t ∧
      (∀ r b, r < 16 → b < 512 → elem (bankRow (cur t) bank (16 * (f.ta.toNat % 8) + r)).toNat 8 b =
        (unitByte s 4 (swizzle (mSwz p) (off + 512 * r + b))).toNat) ∧
      others (16 * (f.ta.toNat % 8)) 16 t)

/-- MFMT, MSCALE, MLOOP, MEDGE and MROT (R323 to R326) write their control register one task cycle later: a half of a format-table
entry, a loop register, an edge, which is at most 128, and the bank map rotated. A syllable of the matrix engine that names a bank which
the task has not claimed is ILLEGAL_SYLLABLE (R313). -/
def Obligations.MatrixControl : Prop :=
  ∀ (s : State) (f : MT),
    (∀ imm, f.x = some imm → (∃ t, exec (.mfmt f) s = .next t ∧ Gives (.mfmt f) 1 [.ftLo (f.ta.setWidth 4) imm] 0 s t) ∧
      (∃ t, exec (.mscale f) s = .next t ∧ Gives (.mscale f) 1 [.ftHi (f.ta.setWidth 4) imm] 0 s t) ∧
      ∃ t, exec (.mloop f) s = .next t ∧ Gives (.mloop f) 1 [.mc f.ta.toNat imm] 0 s t) ∧
    ((readS s (f.ta.setWidth 6)).2 = false → ∃ t, exec (.medge f) s = .next t ∧
      Gives (.medge f) 1 [.edge f.tb.toNat (BitVec.ofNat 8 (min ((readS s (f.ta.setWidth 6)).1.toNat % 2 ^ 32) 128))] 0 s t) ∧
    ((readS s (f.ta.setWidth 6)).2 = true → Traps (.medge f) (poisonReqS (f.ta.setWidth 6)) s (exec (.medge f) s)) ∧
    (let a := f.acc.toNat
     let n := f.ta.toNat % 8 + 1
     (∀ k, k < n → (cur s).accs.getLsbD (a + k) = true) → ∃ t m, exec (.mrot f) s = .next t ∧ Gives (.mrot f) 1 [.mc 4 m] 0 s t ∧
       ∀ k, k < 8 → elem m.toNat 3 k = elem (cur s).mcr.toNat 3 (if a ≤ k ∧ k < a + n then a + (k - a + 1) % n else k)) ∧
    ((∃ k, k < f.ta.toNat % 8 + 1 ∧ (cur s).accs.getLsbD (f.acc.toNat + k) = false) → Traps (.mrot f) (illegalReq (.mrot f)) s (exec (.mrot f) s)) ∧
    ((cur s).accs.getLsbD f.acc.toNat = false → Traps (.mstep f) (illegalReq (.mstep f)) s (exec (.mstep f) s) ∧
      Traps (.mzero f) (illegalReq (.mzero f)) s (exec (.mzero f) s) ∧ Traps (.mread f) (illegalReq (.mread f)) s (exec (.mread f) s) ∧
      Traps (.mwrite f) (illegalReq (.mwrite f)) s (exec (.mwrite f) s)) ∧
    ∀ (p : Part) (n : BitVec 4) (x : W32),
      writeReg p (.ftLo n x) = { p with ft := p.ft.set n.toNat ((p.ft[n.toNat] >>> 32).setWidth 32 ++ x) n.isLt } ∧
      writeReg p (.ftHi n x) = { p with ft := p.ft.set n.toNat (x ++ p.ft[n.toNat].setWidth 32) n.isLt } ∧
      writeReg p (.mc 0 x) = { p with mca := x } ∧ writeReg p (.mc 1 x) = { p with mcb := x } ∧ writeReg p (.mc 2 x) = { p with mcs := x } ∧
      writeReg p (.mc 3 x) = { p with mcg := x } ∧ writeReg p (.mc 4 x) = { p with mcr := x } ∧
      ∀ d, d < 4 → ∀ y j, j < 4 → nbits (writeReg p (.edge d y)).mce.toNat (8 * j) 8 = if j = d then y.toNat else nbits p.mce.toNat (8 * j) 8

/-- XPLANE, XUNPL, XTRN and XQNT (R329, R330, R332): a scratchpad unit in planes, planes unpacked to rows, rows and columns exchanged,
and the conversion of a scratchpad unit to E2M1 blocks under the syllable's band scale or the computed ones. XCVT, XEXP and XSCALE
(R331): each element of the source region is converted to the syllable's format, through 2^x, or through the product with the syllable's
BF16 scale; a source of E2M1 is read with its scales. The destination keeps the source's layout. XCVT to E2M1 (R331, R45): each block of
eight elements is quantised with both band scales 1.0; XEXP and XSCALE have no E2M1 form. A first granule that is not of a tile is
TILE_LAYOUT before any check of the share (R333). What a unit reads of local storage (R227, R334): a line, or a 16-byte unit of the
scratchpad, as it stands, or as it stood before a write of another slot of its task whose deadline is still to come; with no such write
it reads what stands there. Which of these it reads is free (log entry 122). -/
def Obligations.Transforms : Prop :=
  (
    ∀ (s : State) (f : XT), fmtTile f.fmt.toNat = true →
      let p := cur s
      let fmt := f.fmt.toNat
      let off := spUnit p f.a
      let src := tileUnit f.a fmt false
      (shareBad p (curCore s) off (spBytes fmt) = none → (tileUnit f.d fmt false).outside p = none → ∃ t, exec (.xplane f) s = .next t ∧
        WritesTile (.xplane f) (xLat fmt fmt) (tileUnit f.d fmt false)
          (fun r k => elem (ofBytes (tab (16 * fmtWidth fmt) fun b => unitByte s 7 (off + 16 * fmtWidth fmt * r + b))) (fmtWidth fmt) k)
          (fun r b => (unitByte s 7 (off + 8192 + 16 * r + b)).toNat)
          (fun a => (unitByte s 7 (off + 10240 + 2 * a)).toNat + 256 * (unitByte s 7 (off + 10241 + 2 * a)).toNat) 0 s t) ∧
      (∀ o, shareBad p (curCore s) off (spBytes fmt) = some o →
        Traps (.xplane f) { code := cLocalRange, taddr := BitVec.ofNat 64 (o % 2 ^ 21), commits := false } s (exec (.xplane f) s)) ∧
      (src.outside p = none → src.mistagged p = none → (tileUnit f.d fmt true).outside p = none → ∃ t, exec (.xunpl f) s = .next t ∧
        WritesTile (.xunpl f) (xLat fmt fmt) (tileUnit f.d fmt true) (fun r k => (src.row_ s 7 r).getD k 0)
          (fun r b => src.blockScale s 7 r b) (fun a => src.bandScale s 7 (64 * a)) 0 s t) ∧
      (src.outside p = none → src.mistagged p = none → (tileUnit f.d fmt false).outside p = none → ∃ t, exec (.xtrn f) s = .next t ∧
        WritesTile (.xtrn f) (xLat fmt fmt) (tileUnit f.d fmt false) (fun r k => (src.row_ s 7 k).getD r 0)
          (fun r b => src.blockScale s 7 r b) (fun a => src.bandScale s 7 (64 * a)) 0 s t) ∧
      (∀ l, src.outside p = none → (tileUnit f.d fmt true).outside p = none → src.mistagged p = some l →
        Traps (.xunpl f) { code := cLayout, taddr := BitVec.ofNat 64 l, commits := false } s (exec (.xunpl f) s)) ∧
      (shareBad p (curCore s) off (spBytes fmt) = none → (tileUnit f.d 5 false).outside p = none →
        let rows := (spRows s off fmt).map fun r => r.map (fmtDecode fmt)
        let band (a : Nat) : Nat := match f.x with
          | some x => x.toNat % 65536
          | none => bandScaleOf (if a = 0 then rows.take 64 else rows.drop 64)
        let block (r b : Nat) : Block := blockConv (((rows.getD r []).drop (8 * b)).take 8) (band (r / 64)) (rmodeOf (p.fpctl.toNat % 4)) (policyOf f.ovp.toNat)
        ((∀ r b, r < 128 → b < 16 → (block r b).trap = false) → ∃ t fl, exec (.xqnt f) s = .next t ∧
          WritesTile (.xqnt f) (xLat fmt 5) (tileUnit f.d 5 false) (fun r k => (block r (k / 8)).codes.getD (k % 8) 0)
            (fun r b => (block r b).scale) band fl s t ∧
          ∀ b, b < 3 → fl.getLsbD b = (List.range 128).any fun r => (List.range 16).any fun c => (block r c).flags.getLsbD b) ∧
        ((∃ r b, r < 128 ∧ b < 16 ∧ (block r b).trap = true) → ∃ t, exec (.xqnt f) s = .next t ∧
          LeavesIn (.fault cOverflow 0 0 0) (.xqnt f) (xLat fmt 5) [] 0 s t ∧ (cur t).tile = (cur s).tile))) ∧
  (
    ∀ (s : State) (f : XT), fmtTile f.fmt.toNat = true → f.fmt.toNat ≠ 5 →
      let p := cur s
      let fmt := f.fmt.toNat
      let tag := (tileTag p (16 * f.a.toNat)).toNat
      let sf := tag / 4 % 16
      let row := decide (tag % 4 = 2)
      let src := tileUnit f.a sf row
      let dst := tileUnit f.d fmt row
      let mode := rmodeOf (p.fpctl.toNat % 4)
      let pol := policyOf f.ovp.toNat
      (tag % 4 = 1 ∨ tag % 4 = 2) → fmtTile sf = true → tag / 64 % 4 = 3 → tag / 256 % 2 = 0 → src.outside p = none → dst.outside p = none →
        src.mistagged p = none →
        let value (r k : Nat) : Machine.Num × Bool := (src.values s 7 0 r).getD k (.nan, false)
        let completes (i : Instr) (op : Machine.Num → Conv) : Prop :=
          ((∀ r k, r < 128 → k < 128 → (op (value r k).1).trap = false) → ∃ t fl, exec i s = .next t ∧
            WritesTile i (xLat sf fmt) dst (fun r k => (op (value r k).1).code) (fun _ _ => 0) (fun _ => 0) fl s t ∧
            ∀ b, b < 3 → fl.getLsbD b = (List.range 128).any fun r => (List.range 128).any fun k =>
              (op (value r k).1).flags.getLsbD b || (b == 1 && (value r k).2)) ∧
          ((∃ r k, r < 128 ∧ k < 128 ∧ (op (value r k).1).trap = true) → ∃ t, exec i s = .next t ∧
            LeavesIn (.fault cOverflow 0 0 0) i (xLat sf fmt) [] 0 s t ∧ (cur t).tile = (cur s).tile)
        completes (.xcvt f) (fun x => convert x fmt mode pol) ∧
        completes (.xexp f) (fun x => convert (numExp2 x) fmt mode pol) ∧
        completes (.xscale f) (fun x => roundFloat fmt mode pol (numMul x ((ffmt 1).decode (f.x.getD 0).toNat)))) ∧
  (
    (∀ (s : State) (f : XT), f.fmt.toNat = 5 →
      let p := cur s
      let tag := (tileTag p (16 * f.a.toNat)).toNat
      let sf := tag / 4 % 16
      let row := decide (tag % 4 = 2)
      let src := tileUnit f.a sf row
      let dst := tileUnit f.d 5 row
      (tag % 4 = 1 ∨ tag % 4 = 2) → fmtTile sf = true → tag / 64 % 4 = 3 → tag / 256 % 2 = 0 → src.outside p = none → dst.outside p = none →
        src.mistagged p = none →
        let vals (r : Nat) : List (Machine.Num × Bool) := src.values s 7 0 r
        let block (r b : Nat) : Block :=
          blockConv ((((vals r).map (·.1)).drop (8 * b)).take 8) 0x3F80 (rmodeOf (p.fpctl.toNat % 4)) (policyOf f.ovp.toNat)
        ((∀ r b, r < 128 → b < 16 → (block r b).trap = false) → ∃ t fl, exec (.xcvt f) s = .next t ∧
          WritesTile (.xcvt f) (xLat sf 5) dst (fun r k => (block r (k / 8)).codes.getD (k % 8) 0) (fun r b => (block r b).scale)
            (fun _ => 0x3F80) fl s t ∧
          ∀ b, b < 3 → fl.getLsbD b = ((List.range 128).any (fun r => (List.range 16).any fun c => (block r c).flags.getLsbD b) ||
            (b == 1 && (List.range 128).any fun r => (vals r).any (·.2)))) ∧
        ((∃ r b, r < 128 ∧ b < 16 ∧ (block r b).trap = true) → ∃ t, exec (.xcvt f) s = .next t ∧
          LeavesIn (.fault cOverflow 0 0 0) (.xcvt f) (xLat sf 5) [] 0 s t ∧ (cur t).tile = (cur s).tile)) ∧
    (∀ f : XT, 5 ≤ f.fmt.toNat → (Instr.xexp f).wf = false ∧ (Instr.xscale f).wf = false) ∧
    (∀ (s : State) (f : XT) (i : Instr), i = .xcvt f ∨ i = .xexp f ∨ i = .xscale f →
      let tag := (tileTag (cur s) (16 * f.a.toNat)).toNat
      256 * f.a.toNat < (cur s).tslen →
        ¬ ((tag % 4 = 1 ∨ tag % 4 = 2) ∧ fmtTile (tag / 4 % 16) = true ∧ tag / 64 % 4 = 3 ∧ tag / 256 % 2 = 0 ∧ tag / 512 % 2 = 1) →
        Traps i { code := cLayout, taddr := BitVec.ofNat 64 (256 * f.a.toNat), commits := false } s (exec i s))) ∧
  (
    ∀ (s : State) (unit : Nat),
      (∀ l,
        let olds := ((mget (cur s).tileWas l).getD []).takeWhile fun w => w.open_ (cur s) && w.slot != unit
        (olds = [] → unitLine s unit l = tileLine (cur s) l) ∧
        (unitLine s unit l = tileLine (cur s) l ∨ ∃ w ∈ olds, unitLine s unit l = w.val ∧ w.slot ≠ unit ∧ (cur s).tc < w.due)) ∧
      (∀ u,
        let olds := ((mget (curCore s).spWas u).getD []).takeWhile fun w => w.open_ (cur s) && w.slot != unit
        (olds = [] → ∀ b, b < 16 → unitByte s unit (16 * u + b) = scratchByte (curCore s) (16 * u + b)) ∧
        ∃ x : W128, (x = spUnitOf (curCore s) u ∨ ∃ w ∈ olds, x = w.val ∧ w.slot ≠ unit ∧ (cur s).tc < w.due) ∧
          (olds ≠ [] → ∀ b, b < 16 → (unitByte s unit (16 * u + b)).toNat = elem x.toNat 8 b)))

/-! The C slots. -/

/-- OCOPY, OLOAD, OSTORE and TLOAD (R185 to R190). A copy that breaks a check of R186 answers its status; a detached one that finds no
armed barrier or no free entry is turned away; otherwise it stands in an entry of its core, and a detached one answers 0 at once, a
bound one when it ends. A range or record fault of a bound copy holds it there (R207). -/
def Obligations.CopiesIssue : Prop :=
  ∀ (s : State) (f : CQ) (i : Instr) (op : Nat),
    ((i = .ocopy f ∧ op = 2) ∨ (i = .oload f ∧ op = 3) ∨ (i = .ostore f ∧ op = 4) ∨ (i = .tload f ∧ op = 5)) →
    ∀ caps n, captured s (capturedRegs i) = .ok (caps, n) →
      let x := newCopy op (stepOpd op (f.sh.getLsbD 2) f.x n caps) (f.sh.getLsbD 1) s
      let y := x.recs s s.iss.core
      let det := f.sh.getLsbD 0
      let answers (v : Nat) (t : State) : Prop := LeavesIn .engine i (lat7 f.lat) [sDest s f.d (BitVec.ofNat 64 v) false] 0 s t
      let entered (z : Copy) : Prop := z.op = op ∧ z.opd = x.opd ∧ z.red = x.red ∧ z.task = (cur s).entered ∧ z.queue = (cur s).queue
      ∃ t, exec i s = .next t ∧
        (∀ r d c, y.2 = .ok (r, d) → x.status? r d = some c → answers c t ∧ Accessed 1 s t ∧ KeepsMemory s t) ∧
        (∀ r d, y.2 = .ok (r, d) → x.status? r d = none → det = true →
          (∀ c, refuses y.1 x.bar = some c → answers c t ∧ Accessed 1 s t ∧ KeepsMemory s t) ∧
          (refuses y.1 x.bar = none → x.localOk (cur s) (curCore s) r = true → answers 0 t ∧ OnlyPends 1 (cur s) (cur t) ∧ KeepsMemory s t ∧
            ∃ key z, key / 4096 = s.iss.core ∧ mget s.copies key = none ∧ mget t.copies key = some z ∧ entered z ∧ z.seq = none ∧
              z.shape = some r.shape ∧ z.dshape = d.map (·.shape) ∧ z.holding = false ∧ z.ended = false)) ∧
        (∀ r d, y.2 = .ok (r, d) → x.status? r d = none → det = false → x.localOk (cur s) (curCore s) r = true →
          OnlyPends 1 (cur s) (cur t) ∧ KeepsMemory s t ∧ ∃ key z e, mget t.copies key = some z ∧ entered z ∧ z.seq = some (cur s).nextSeq ∧
            z.shape = some r.shape ∧ z.dshape = d.map (·.shape) ∧ z.holding = false ∧ (cur t).pends.getLast? = some e ∧
            e.isOf i (lat7 f.lat) s ∧ e.st = .engine ∧ e.writes = [] ∧ e.dst = some (f.d, shadowed (cur s) f.d) ∧ e.eng = some key ∧
            e.ranges = x.ranges r) ∧
        (∀ c, det = false →
          (y.2 = .error c ∨ ∃ r d, y.2 = .ok (r, d) ∧ x.status? r d = none ∧ x.localOk (cur s) (curCore s) r = false ∧ c = cLocalRange) →
          ∃ key z, mget t.copies key = some z ∧ entered z ∧ z.seq = some (cur s).nextSeq ∧ z.holding = true ∧ z.pcode = c)

/-- BARSET (R194) arms a barrier word with its count, among the writes of its bundle issue (R236), and answers 0, or answers 0x0C while
a copy names it; a word outside the share is LOCAL_RANGE and index 0xFFFF is ILLEGAL_SYLLABLE. CWAIT (R203) answers at once where its
barrier or ring lets it, and waits otherwise. -/
def Obligations.BarriersAndRings : Prop :=
  ∀ (s : State) (f : CQ), (readS s f.a).2 = false → (readS s (f.a + 1)).2 = false →
    let a := (readS s f.a).1.toNat
    let b := (readS s (f.a + 1)).1.toNat
    let idx := a % 65536
    let inside := rangeInShare (cur s) (curCore s) (8 * idx) 8
    let limit := if b % 2 ^ 32 = 0 then none else some (s.clock + b % 2 ^ 32)
    let used := s.copies.any fun e => e.1 / 4096 == s.iss.core && e.2.bar == idx
    (idx = 0xFFFF → Traps (.barset f) (illegalReq (.barset f)) s (exec (.barset f) s)) ∧
    (idx ≠ 0xFFFF → inside = false → ∃ t, exec (.barset f) s = .next t ∧
      FaultsAs (.barset f) (lat7 f.lat) cLocalRange (BitVec.ofNat 64 (8 * idx)) s t) ∧
    (idx ≠ 0xFFFF → inside = true → used = true → ∃ t, exec (.barset f) s = .next t ∧
      LeavesIn .engine (.barset f) (lat7 f.lat) [sDest s f.d 0x0C false] 0 s t ∧ Committed 1 s t) ∧
    (idx ≠ 0xFFFF → inside = true → used = false → ∃ t, exec (.barset f) s = .next t ∧
      LeavesIn .engine (.barset f) (lat7 f.lat) [sDest s f.d 0 false] 0 s t ∧ Accessed 1 s t ∧ (∀ x, peek t x = peek s x) ∧
      t.iss.writes = s.iss.writes ++ tab 8 fun k =>
        { join := true, atom := false, scratch := true, addr := 8 * idx + k, mask := 255, cmpr := false, fmt := 0
          val := BitVec.ofNat 8 ((b % 2 ^ 56 + 2 ^ 56) / 2 ^ (8 * k)) }) ∧
    (f.sh = 0 → inside = false → ∃ t, exec (.cwait f) s = .next t ∧
      FaultsAs (.cwait f) (lat7 f.lat) cLocalRange (BitVec.ofNat 64 (8 * idx)) s t) ∧
    (f.sh = 0 → inside = true → (cur s).seqsOk = true → ∃ t, exec (.cwait f) s = .next t ∧ Accessed 1 s t ∧ KeepsMemory s t ∧
      (barAnswer (curCore s) idx = none → Waits (.cwaitBar idx limit) (.cwait f) (lat7 f.lat) (some f.d) s t) ∧
      ∀ x, barAnswer (curCore s) idx = some x → Leaves (.cwait f) (lat7 f.lat) [sDest s f.d x false] 0 s t) ∧
    (f.sh ≠ 0 → (cur s).seqsOk = true → ∃ t, exec (.cwait f) s = .next t ∧ Accessed 1 s t ∧ KeepsMemory s t ∧
      let ring := a % 8
      let k := BitVec.ofNat 32 (a / 2 ^ 32)
      (ringAnswer s (cur s).queue ring k = none → Waits (.cwaitRing ring k limit) (.cwait f) (lat7 f.lat) (some f.d) s t) ∧
      ∀ x, ringAnswer s (cur s).queue ring k = some x → Leaves (.cwait f) (lat7 f.lat) [sDest s f.d x false] 0 s t)

/-- QPUSH and QPOLL (R209, R210), as the first memory access of their bundle issue. A header that breaks R177 answers 0x0D, and so does
one that fails its check values (log entry 108); QPUSH of a full queue answers 1, else it claims the slot, and writes its packet and
answers its claim once the earlier accesses of the partition have performed; QPOLL of a queue whose next slot is not filled answers 8,
else it moves the packet to the scratchpad and frees the slot. They write among the writes of their bundle issue (R236), and QPOLL is an
acquire at the scope of the bundle whatever it finds (R243). OLCINV (R123) drops the cached records of the object, or of every object of
its table, in the cores of its scope, and answers the generation that the record then has once the accesses that were translated with
one of them have performed. RELOC (R124) is given to its engine with its operands. The accesses for which OLCINV waits (R123): the
atomics that wait for their drain set and the monitored waits of the cores in scope that were translated with a record of the table, of
the object it names or of any. The relocation engine answers a RELOC (R124): the status of its checks, and with 0 the relocation holds a
slot and the record is MOVING with NBASE the new place; where a byte of the bitmap fails its check values the relocation ends at once
with outcome 0x13 in its record (R419, log entry 109). A handle that may not be used, or a queue without the right, is a result fault,
whose TADDR has the handle with LOFS 0: sA holds no object address (DESIGN CHOICE, log entry 110). -/
def Obligations.QueuesAndRecords : Prop :=
  (
    ∀ (s : State) (f : CQ) (q b : W64), (readS s f.a) = (q, false) → readS s (f.a + 1) = (b, false) → (cur s).seqsOk = true → s.memoryOk = true →
      s.relocs = [] → s.iss.writes = [] →
      let loc := BitVec.ofNat 64 (b.toNat % 2 ^ 32)
      let x := xlateAl s s.iss.core (cur s).queue q 64 64 { cls := clsCopy, rd := true, wr := true }
      (q.toNat % 64 ≠ 0 → (∃ t, exec (.qpush f) s = .next t ∧ FaultsAs (.qpush f) (lat7 f.lat) oAlign q s t) ∧
        ∃ t, exec (.qpoll f) s = .next t ∧ FaultsAs (.qpoll f) (lat7 f.lat) oAlign q s t) ∧
      (q.toNat % 64 = 0 → (loc.toNat % 64 ≠ 0 ∨ localOk (cur s) (curCore s) loc 64 = false) →
        (∃ t, exec (.qpush f) s = .next t ∧ FaultsAs (.qpush f) (lat7 f.lat) cLocalRange (BitVec.ofNat 64 (spOff loc)) s t) ∧
        ∃ t, exec (.qpoll f) s = .next t ∧ FaultsAs (.qpoll f) (lat7 f.lat) cLocalRange (BitVec.ofNat 64 (spOff loc)) s t) ∧
      ∀ r p, q.toNat % 64 = 0 → loc.toNat % 64 = 0 → localOk (cur s) (curCore s) loc 64 = true → x.2 = .ok (r, plainCells p 64) → p + 64 ≤ hbmTop →
        let h := peekNat s p 64
        let u := (atomCells x.1 s.iss.core (plainCells p 64)).1
        let valid := queueOk h && soundAt u (plainCells p 64)
        let answers (i : Instr) (v : Nat) (t : State) : Prop :=
          LeavesIn .engine i (lat7 f.lat) [sDest s f.d (BitVec.ofNat 64 v) false] 0 s t ∧ KeepsMemory s t ∧ t.iss.writes = []
        let acquired (t : State) : Prop := s.iss.scope ≠ 0 → (curCore t).cache = []
        (∃ t, exec (.qpush f) s = .next t ∧
          let full := qSize h ≤ (qClaim h + 2 ^ 64 - qLimit h) % 2 ^ 64
          let w := deferCells u true r (plainCells p 8) (toBytes (qClaim h + 1) 8)
          let slot := slotAddr q (qClaim h) (qSize h)
          let v := xlateAl w s.iss.core (cur s).queue slot 64 64 { cls := clsCopy, rd := true, wr := true }
          let res := BitVec.ofNat 64 (qClaim h % 2 ^ 32 * 2 ^ 32)
          (valid = false → answers (.qpush f) 0x0D t) ∧ (valid = true → full → answers (.qpush f) 1 t) ∧
          (valid = true → ¬ full → KeepsMemory s t ∧ ∃ pkt,
            (pkt.length = 64 ∧ (ofBytes pkt).testBit 31 = phaseOf (qClaim h) (qSize h) ∧
              ∀ k, k < 512 → k ≠ 31 → (ofBytes pkt).testBit k = (ofBytes (localBytes s s.iss.core (cur s) loc 64)).testBit k) ∧
            (drained (cur s) (cur s).nextSeq = false → t.iss.writes = w.iss.writes ∧
              Waits (.rel (cur s).nextSeq (.qpush slot pkt res)) (.qpush f) (lat7 f.lat) (some f.d) s t) ∧
            (drained (cur s) (cur s).nextSeq = true →
              (∀ e, v.2 = .error e → FaultsAs (.qpush f) (lat7 f.lat) e.code e.taddr s t ∧ t.iss.writes = w.iss.writes) ∧
              ∀ r' l', v.2 = .ok (r', l') → LeavesIn .engine (.qpush f) (lat7 f.lat) [sDest s f.d res false] 0 s t ∧
                t.iss.writes = (deferCells w false r' l' pkt).iss.writes))) ∧
        (∃ t, exec (.qpoll f) s = .next t ∧
          let c := qCons h
          let v := xlateAl u s.iss.core (cur s).queue (slotAddr q c (qSize h)) 64 64 { cls := clsCopy, rd := true, wr := false }
          (valid = false → answers (.qpoll f) 0x0D t ∧ acquired t) ∧
          (∀ e, valid = true → v.2 = .error e → FaultsAs (.qpoll f) (lat7 f.lat) e.code e.taddr s t ∧ t.iss.writes = []) ∧
          ∀ r2 p2, valid = true → v.2 = .ok (r2, plainCells p2 64) → p2 + 64 ≤ hbmTop →
            let pkt := peekNat s p2 64
            let sound := soundAt (atomCells v.1 s.iss.core (plainCells p2 64)).1 (plainCells p2 64)
            (pkt.testBit 31 ≠ phaseOf c (qSize h) → answers (.qpoll f) 8 t ∧ acquired t) ∧
            (pkt.testBit 31 = phaseOf c (qSize h) → KeepsMemory s t ∧ acquired t ∧
              LeavesIn .engine (.qpoll f) (lat7 f.lat) [sDest s f.d (BitVec.ofNat 64 (c % 2 ^ 32 * 2 ^ 32)) (!sound)] 0 s t ∧
              ∃ bs : Nat → Byte, (sound = true → ∀ k, k < 64 → bs k = BitVec.ofNat 8 (pkt / 2 ^ (8 * k))) ∧
                t.iss.writes = (deferCells s true r (plainCells (p + 24) 8) (toBytes (c + 1) 8)).iss.writes ++
                  (deferCells s true r (plainCells (p + 8) 8) (toBytes (c + 1) 8)).iss.writes ++ tab 64 fun k =>
                    { join := true, atom := false, scratch := true, addr := swizzle (spSwz loc) (spOff loc + k), val := bs k, mask := 255
                      cmpr := false, fmt := 0 }))) ∧
  (
    ∀ (s : State) (f : CQ) (a : W64), readS s f.a = (a, false) →
      let tab := tabOf s (cur s).queue
      let h := a.toNat % 2 ^ 20
      (let gone (c : Nat) : Prop := c ∈ scopeCores s.iss.core f.sh.toNat
       let ops := inFlightOps s (scopeCores s.iss.core f.sh.toNat) tab.ctx (if a.toNat.testBit 63 then none else some h)
       let entry := tab.tbase + 64 * h
       let named := a.toNat.testBit 63 = false ∧ h ≠ 0 ∧ h < tab.tlen
       (cur s).seqsOk = true → ∃ t, exec (.olcinv f) s = .next t ∧ OnlyPends 1 (cur s) (cur t) ∧ KeepsMemory s t ∧
        (∀ c, gone c → (mget s.cores c).isSome → ∀ e ∈ (getCore t c).olc, ¬ (e.ctx = tab.ctx ∧ (a.toNat.testBit 63 = true ∨ e.handle = h))) ∧
        (∀ c, ¬ gone c → c < 128 → (getCore t c).olc = (getCore s c).olc) ∧
        (ops = [] → s.iss.writes = [] → ∃ g, Leaves (.olcinv f) (lat7 f.lat) [sDest s f.d g false] 0 s t ∧ (¬ named → g = 0) ∧
          (named → s.memoryOk = true → poisonedAt (touchRead s entry 64) entry 64 = false → g = BitVec.ofNat 64 (peekNat s (entry + 6) 2))) ∧
        (((ops.any fun u => pendLeft s u.1 u.2.1 u.2.2) = true ∨ s.iss.writes ≠ []) → ∃ at_,
          Waits (.olcinv ops at_) (.olcinv f) (lat7 f.lat) (some f.d) s t ∧ (named → at_ = some entry) ∧ (¬ named → at_ = none))) ∧
      (∀ b, readS s (f.a + 1) = (b, false) → ∃ t, exec (.reloc f) s = .next t ∧ Submits (.reloc f) f [a, b] 0 [] s t)) ∧
  (
    ∀ (s : State) (cores : List Nat) (ctx : Nat) (h : Option Nat) (c task seq : Nat),
      (c, task, seq) ∈ inFlightOps s cores ctx h ↔ c ∈ cores ∧ ∃ (p : Part) (e : Pend) (o : Nat × Nat),
        ((∃ i, i < 17 ∧ p = getPart s c i) ∨ ∃ k x, (k, x) ∈ s.shadow ∧ x.core = c ∧ p = x.ctx) ∧ p.entered = task ∧ e ∈ p.pends ∧ e.seq = seq ∧
        ((∃ n a, e.st = .wait (.rel n (.atomic a))) ∨ ∃ l g q d, e.st = .wait (.waitm l g q d)) ∧ e.obj = some o ∧ o.1 = ctx ∧ (h = none ∨ h = some o.2)) ∧
  (
    ∀ (s : State) (core part seq id : Nat) (x : KvOp), Engaged s core part seq id x → x.op = 0x14 →
      let tab := tabOf s x.queue
      let h := x.word 0 % 2 ^ 20
      let dst := x.word 1 % 2 ^ 48
      let entry := tab.tbase + 64 * h
      let y := findRec s core tab h
      ∃ t, exec (.resultWrite core part seq) s = .next t ∧ mget t.kvs id = none ∧
        (tab.relocok = false → EngineFails core part seq oPerm (objAddr h 0) s t ∧ KeepsMemory s t ∧ t.relocs = s.relocs) ∧
        (∀ c, tab.relocok = true → y.2 = .error c → EngineFails core part seq c (objAddr h 0) s t ∧ KeepsMemory s t ∧ t.relocs = s.relocs) ∧
        (∀ r, tab.relocok = true → y.2 = .ok r →
          let st := relocStatus y.1 r dst
          let z := (bitmapFails (recLine y.1 core tab h).1 r).2
          EngineEnds core part seq (BitVec.ofNat 64 st) [] s t ∧
          (st ≠ 0 → KeepsMemory s t ∧ t.relocs = s.relocs) ∧
          (st = 0 → z = true → t.relocs = s.relocs ∧ ∃ q, t.held = s.held ++ [q] ∧ q.queue = x.queue ∧ q.ring = x.sh ∧
            ∃ tag, q.body = recBytes 0x13 0 5 tag 0 0 []) ∧
          (st = 0 → z = false → ∃ k q, mget s.relocs k = none ∧ mget t.relocs k = some q ∧ q.handle = h ∧ q.queue = x.queue ∧
            q.nbase = dst ∧ q.rbmp = r.rbmp ∧ q.ring = x.sh ∧ q.next = 0 ∧ q.total = r.nsub ∧ q.moved = 0 ∧
            (s.memoryOk = true → entry + 64 ≤ hbmTop → r.rbmp + ceilDiv r.nsub 4 ≤ hbmTop →
              peekNat t (entry + 8) 6 = dst ∧ nbits (peekNat t (entry + 49) 1) 3 2 = 1 ∧
              ∀ y, (y < entry + 8 ∨ entry + 50 ≤ y) → (y < r.rbmp ∨ r.rbmp + ceilDiv r.nsub 4 ≤ y) → peek t y = peek s y))))

/-- KVLD, KVLDT and KVAPP (R137 to R141) are given to the walker with their operands as stepped, and with the local bytes that they may
write before their deadline (R19, DEDUCED, log entry 114). The walker carries them out when their result is due to come (DESIGN CHOICE,
log entry 56): a finished operation leaves its result; one that ends in a fault or needs a replica stays with the walker, with all that
it may still write. KVLD and KVLDT (R137, R139): a load gives the mask of the positions that are live, in sD and in the mask word where
it has one, and fills the row of every one of them, a row of zeros where it is not: bytes of the scratchpad for KVLD; bit-planes of 128
columns in the lines of a region for KVLDT, whose granules it tags, at whatever line OFS names (DESIGN CHOICE, log entry 132). KVAPP
(R140): past the tail folio it answers 2, on a folio that is not OPEN 3, on a position that the folio has gone past 1, with nothing
written but the mask word; else the rows of every head stand in the next slots of the tail folio, SURV and APPNXT name them, LEN of the
sequence reaches them where the layer is 0, and the answer is 0, in the mask word too. -/
def Obligations.KvOperations : Prop :=
  (
    (∀ (s : State) (f : CQ) (i : Instr), (i = .kvld f ∨ i = .kvldt f ∨ i = .kvapp f) →
      ∀ caps n, captured s (capturedRegs i) = .ok (caps, n) → ∃ t, exec i s = .next t ∧
        Submits i f (stepKv f.x n caps) n (kvRanges s (opOf i) f (stepKv f.x n caps) n) s t) ∧
    (∀ (s : State) (core part seq id : Nat) (x : KvOp), Engaged s core part seq id x → (x.op = 6 ∨ x.op = 7 ∨ x.op = 8) →
      let y := kvRun s x (getPart s core part)
      let waits (l : List LocalRange) (t : State) : Prop := (getPart t core part).pends = (getPart s core part).pends.map fun e =>
        if e.seq = seq then { e with st := .engine, eng := some (kvKey id), ranges := l } else e
      ∃ t, exec (.resultWrite core part seq) s = .next t ∧ (∀ a, peek t a = peek y.1 a) ∧
        (∀ v l, y.2.2 = .done v l → EngineEnds core part seq v l s t ∧ mget t.kvs id = none) ∧
        (∀ c ta, y.2.2 = .fault c ta → mget t.kvs id = some { x with fault := some (c, ta) } ∧
          waits (if c = cLocalRange then [] else x.openRanges y.2.1) t) ∧
        (∀ h, y.2.2 = .repair h → mget t.kvs id = some { x with repair := some h } ∧ waits (x.openRanges y.2.1) t))) ∧
  (
    ∀ (s : State) (x : KvOp) (k : KvSpace), s.memoryOk = true → k.hdc ≤ 2 → ∀ a, (kvXlate s x.core k x.seqH x.layer x.head x.pos).2 = .ok a →
      let t := (kvLoad s x k).1
      let live (i : Nat) : Bool := x.pos + i < a.seq.len && a.hdr.surv.testBit ((x.pos + i) % 64)
      let codes (i : Nat) : List Nat := k.rowCodes s x.isV a.hdr.dbase x.head (slotOf a.hdr.surv ((x.pos + i) % 64))
      x.pos % 64 + x.n ≤ 64 → (x.noMask = false → x.mofs % 8 = 0) →
        (x.op = 6 → k.rb ≤ x.pitch k → x.pitch k % 16 = 0 → ∀ v l, (kvLoad s x k).2 = .done v l →
          (∀ i, i < 64 → v.getLsbD i = (decide (i < x.n) && live i)) ∧ KeepsMemory s t ∧
          (x.noMask = false → ∀ b, b < 8 → scratchByte (getCore t x.core) (kvOff x.maskOp + b) = BitVec.ofNat 8 (v.toNat / 2 ^ (8 * b))) ∧
          ((x.noMask = true ∨ ∀ i, i < x.n →
              kvOff x.ofs + x.pitch k * i + k.rb ≤ kvOff x.maskOp ∨ kvOff x.maskOp + 8 ≤ kvOff x.ofs + x.pitch k * i) →
            ∀ i b, i < x.n → b < k.rb → scratchByte (getCore t x.core) (kvOff x.ofs + x.pitch k * i + b) =
              if live i then BitVec.ofNat 8 (packElems k.w (codes i) / 2 ^ (8 * b)) else 0)) ∧
        (x.op = 7 → ∀ n, homeOf s x.core x.task = some (.part n) → ∀ v l, (kvLoad s x k).2 = .done v l →
          let p := getPart t x.core n
          let R := if x.n ≤ 16 then 16 else x.n
          let cg := if k.hdc = 2 then 2 else 1
          (∀ i, i < 64 → v.getLsbD i = (decide (i < x.n) && live i)) ∧ KeepsMemory s t ∧
          (x.noMask = false → ∀ b, b < 8 → scratchByte (getCore t x.core) (kvOff x.maskOp + b) = BitVec.ofNat 8 (v.toNat / 2 ^ (8 * b))) ∧
          (∀ j g i c, j < k.w → g < cg → i < R → c < 128 → (tileLine p (x.ofs + R * (cg * j + g) + i)).getLsbD c =
            (decide (i < x.n) && live i && ((codes i).getD (128 * g + c) 0).testBit j)) ∧
          (∀ o, o < x.ofs ∨ x.ofs + R * cg * k.w ≤ o → tileLine p o = tileLine (getPart s x.core n) o) ∧
          ∀ m, m < (x.ofs + R * cg * k.w + 15) / 16 - x.ofs / 16 →
            tileTag p (x.ofs / 16 + m) = mkTag 1 k.kfmt R (cg - 1) (m = 0))) ∧
  (
    ∀ (s : State) (x : KvOp) (p : Part) (k : KvSpace) (sr : SeqRec) (f : Nat) (fh : FolHdr), s.memoryOk = true → x.op = 8 →
      (seqOf s x.core k x.seqH).2 = .ok sr → (folioOf (seqOf s x.core k x.seqH).1 x.core k sr.tail x.layer).2 = .ok (f, fh) →
      x.layer < k.nlayer → x.pos % 64 + x.n ≤ 64 → (x.noMask = false → x.mofs % 8 = 0) →
      let y := kvAppend s x p k
      let t := 64 * sr.npath
      let masked : Prop := ∀ v l, y.2 = .done v l → x.noMask = false → ∀ b, b < 8 →
        scratchByte (getCore y.1 x.core) (kvOff x.maskOp + b) = BitVec.ofNat 8 (v.toNat / 2 ^ (8 * b))
      masked ∧
      (t + 64 < x.pos + x.n → y.2 = .done 2 x.maskRange ∧ KeepsMemory s y.1) ∧
      (x.pos + x.n ≤ t + 64 → fh.fstate ≠ 0 → y.2 = .done 3 x.maskRange ∧ KeepsMemory s y.1) ∧
      (x.pos + x.n ≤ t + 64 → fh.fstate = 0 → x.pos < t + fh.appnxt → y.2 = .done 1 x.maskRange ∧ KeepsMemory s y.1) ∧
      (x.pos + x.n ≤ t + 64 → fh.fstate = 0 → t + fh.appnxt ≤ x.pos → y.2 = .done 0 x.maskRange ∧
        (let D := k.folAddr f
         let Q := k.seqAddr x.seqH
         let B := fh.dbase
         D + 64 ≤ hbmTop → Q + 64 ≤ hbmTop → B + k.fsz ≤ hbmTop → (D + 64 ≤ Q ∨ Q + 64 ≤ D) → (B + k.fsz ≤ D ∨ D + 64 ≤ B) →
         (B + k.fsz ≤ Q ∨ Q + 64 ≤ B) → k.hdc ≤ 2 → ((1 ≤ k.kfmt ∧ k.kfmt ≤ 4) ∨ k.kfmt = 6) → fh.surv < 2 ^ (x.pos - t) →
          y.1.memoryOk = true ∧ peekNat y.1 (D + 8) 8 = fh.surv + (2 ^ x.n - 1) * 2 ^ (x.pos - t) ∧
          nbits (peekNat y.1 (D + 0x10) 4) 16 7 = x.pos + x.n - t ∧
          (x.layer = 0 → peekNat y.1 (Q + 8) 4 = max sr.len (x.pos + x.n)) ∧
          (∀ i h, i < x.n → h < k.nkvh →
            let o := kvOff x.ofs + 2 * k.nkvh * k.rb * i
            let slot := popc fh.surv 64 + i
            k.rowCodes y.1 false B h slot = appRow s x p k (o + k.rb * h) ∧
            k.rowCodes y.1 true B h slot = appRow s x p k (o + k.nkvh * k.rb + k.rb * h)) ∧
          ∀ a, (a < D ∨ D + 20 ≤ a) → (x.layer ≠ 0 ∨ a < Q + 8 ∨ Q + 12 ≤ a) → (a < B ∨ B + k.fsz ≤ a) → peek y.1 a = peek s a)))

/-- SEAL, CATLOOK and PROMOTE (R170 to R176) answer the status of their checks, or end in the fault that the checks found; with status 0
they stand accepted, to complete by record. LOAN and UNLOAN are given to the catalogue engine with their operands. LOAN checks the
length of the sequence, the node's state, its shelfmark, its parent and its listing in that order (R173), and writes nothing where it
does not succeed. The catalogue engine ends a LOAN and an UNLOAN (R173, R174): with the result word of its steps, the core's cache
dropped (R239), or with the fault that its checks found; the engine carries it out when its result is due to come (DESIGN CHOICE, log
entry 56). COLL (R211 to R213, R189): a descriptor that is not 64 bytes of the share is LOCAL_RANGE; one that breaks the rules answers
3, a chip that is no member 9, and a barrier or an entry that is not there turns it away; otherwise it answers 0 and the collective
stands started. The answer 3 for a malformed descriptor or group, and 9 where the queue has no catalogue, are the model's reading
(DEDUCED, log entry 77). -/
def Obligations.CatalogueAndCollectiveIssue : Prop :=
  (
    ∀ (s : State) (f : CQ) (a : W64), readS s f.a = (a, false) →
      let h := a.toNat % 2 ^ 20
      let q := (cur s).queue
      let answers (i : Instr) (v : Nat) (t : State) : Prop :=
        LeavesIn .engine i (lat7 f.lat) [sDest s f.d (BitVec.ofNat 64 v) false] 0 s t ∧ OnlyPends 1 (cur s) (cur t)
      let fails (i : Instr) (c : Nat) (t : State) : Prop :=
        ∃ ta, FaultsAs i (lat7 f.lat) c ta s t ∧ (0x18 ≤ c → ta = a) ∧ KeepsMemory s t
      let accepted (kind : Nat) (t : State) : Prop := ∃ x, mget t.catOps s.nextId = some x ∧ x.kind = kind ∧ x.queue = q
      (∀ b, readS s (f.a + 1) = (b, false) → ∃ t, exec (.seal f) s = .next t ∧
        let x := sealStatus s q h (b.toNat % 2 ^ 32)
        (∀ c, x.2 = .error c → fails (.seal f) c t) ∧
        (∀ st k, x.2 = .ok (st, k) → answers (.seal f) st t ∧ KeepsMemory s t ∧ (st ≠ 0 → t.catOps = s.catOps) ∧ (st = 0 → accepted 0 t))) ∧
      (∀ b c d, readS s (f.a + 1) = (b, false) → readS s (f.a + 2) = (c, false) → readS s (f.a + 3) = (d, false) →
        (∃ t, exec (.catlook f) s = .next t ∧
          let x := lookStart s q h
          (∀ e, x.2 = .error e → fails (.catlook f) e t) ∧
          (∀ y, x.2 = .ok y → KeepsMemory s t ∧
            let o := lookObjects x.1 b d (c.toNat % 2 ^ 32 / 64)
            (∀ e, o.2 = some e → FaultsAs (.catlook f) (lat7 f.lat) e.code e.taddr s t ∧ t.catOps = s.catOps) ∧
            (o.2 = none → (catFull s = true → answers (.catlook f) 1 t ∧ t.catOps = s.catOps) ∧
              (catFull s = false → answers (.catlook f) 0 t ∧ accepted 1 t)))) ∧
        (∃ t, exec (.loan f) s = .next t ∧ Submits (.loan f) f [a, b, c, d] 0 [] s t)) ∧
      (∀ b, readS s (f.a + 1) = (b, false) → ∃ t, exec (.unloan f) s = .next t ∧ Submits (.unloan f) f [a, b] 0 [] s t) ∧
      (∃ t, exec (.promote f) s = .next t ∧
        let x := promoteStatus s q (nbits a.toNat 0 32) (nbits a.toNat 32 8 + nbits a.toNat 40 8)
        (∀ e, x.2 = .error e → fails (.promote f) e t) ∧
        (∀ st, x.2 = .ok st → answers (.promote f) st t ∧ KeepsMemory s t ∧ (st ≠ 0 → t.catOps = s.catOps) ∧ (st = 0 → accepted 2 t))) ∧
      (∀ n sm x, (catPre s q h).2 = .ok x →
        let s1 := (catPre s q h).1
        let s2 := (catNode s1 x.k n).1
        let s3 := (lastNode s2 x.sr).1
        let v := (loanStep s q h n sm).2
        let node : Prop := n ≠ 0 ∧ n < x.k.nodelen
        (∀ w, v = .ok w → w % 256 ≠ 0 → KeepsMemory s (loanStep s q h n sm).1) ∧
        (¬ node → v = .error catInvalid) ∧
        (node → x.sr.len ≠ 64 * x.sr.npath → v = .ok 0x07) ∧
        (node → x.sr.len = 64 * x.sr.npath → ∀ nr, (catNode s1 x.k n).2 = .ok nr →
          (nr.nstate ≠ 1 → v = .ok 0x08) ∧
          (nr.nstate = 1 → nr.sm ≠ sm → v = .ok 0x09) ∧
          (nr.nstate = 1 → nr.sm = sm → ∀ pn, (lastNode s2 x.sr).2 = .ok pn →
            (nr.parent ≠ pn → v = .ok 0x06) ∧
            (nr.parent = pn → (namesNode s3 x.c sm n x.sr).2 = .ok false → v = .ok 0x0A))))) ∧
  (
    ∀ (s : State) (core part seq id : Nat) (x : KvOp), Engaged s core part seq id x → (x.op = 0x0B ∨ x.op = 0x0C) →
      let y := if x.op = 0x0B then loanStep s x.queue x.seqH (x.word 1 % 2 ^ 32) (x.word 2 + x.word 3 * 2 ^ 64)
        else unloanStep s x.queue x.seqH (x.word 1 % 2 ^ 32) (x.sh == 1) id
      ∃ t, exec (.resultWrite core part seq) s = .next t ∧ mget t.kvs id = none ∧ t.catOps = s.catOps ∧ (∀ a, peek t a = peek y.1 a) ∧
        (∀ v, y.2 = .ok v → EngineEnds core part seq (BitVec.ofNat 64 v) [] s t ∧ (getCore t core).cache = []) ∧
        (∀ c, y.2 = .error c → ∃ ta, EngineFails core part seq c ta s t ∧ (0x18 ≤ c → ta = x.opd.getD 0 0))) ∧
  (
    ∀ (s : State) (f : CQ) (a : W64), readS s f.a = (a, false) →
      let loc := BitVec.ofNat 64 (a.toNat % 2 ^ 32)
      let i := Instr.coll f
      let answers (v : Nat) (t : State) : Prop := LeavesIn .engine i (lat7 f.lat) [sDest s f.d (BitVec.ofNat 64 v) false] 0 s t
      ((loc.toNat % 64 ≠ 0 ∨ localOk (cur s) (curCore s) loc 64 = false) → ∃ t, exec i s = .next t ∧
        FaultsAs i (lat7 f.lat) cLocalRange (BitVec.ofNat 64 (spOff loc)) s t) ∧
      (loc.toNat % 64 = 0 → localOk (cur s) (curCore s) loc 64 = true →
        let x : Coll := { copyKey := 4096 * s.iss.core, queue := (cur s).queue, op := f.sh.toNat, desc := ofBytes (localBytes s s.iss.core (cur s) loc 64)
                          gid := 0, rank := 0, chips := [], members := [], since := s.uclock, sent := false }
        let g := readGroup s x
        let rd := Coll.recs g.1 x
        ∃ t, exec i s = .next t ∧
          ((x.rsvBad = true ∨ g.2 = .ok none ∨ ∃ r, rd.2 = .ok r ∧ x.badFmt r.1 r.2 = true) → answers 3 t ∧ Accessed 1 s t ∧ KeepsMemory s t) ∧
          (∀ gid chips r, x.rsvBad = false → g.2 = .ok (some (gid, chips)) → rd.2 = .ok r → x.badFmt r.1 r.2 = false →
            let c := catOf rd.1 x.queue
            let chip := (c.2.map (·.chipno)).getD 1024
            (chip ∉ chips → answers 9 t ∧ Accessed 1 s t ∧ KeepsMemory s t) ∧
            (chip ∈ chips → ∀ st, refuses c.1 x.bar = some st → answers st t ∧ Accessed 1 s t ∧ KeepsMemory s t) ∧
            (chip ∈ chips → refuses c.1 x.bar = none → (x.bar = 0xFFFF ∨ rangeInShare (cur s) (curCore s) (8 * x.bar) 8 = true) →
              answers 0 t ∧ ∃ z y, mget t.colls s.nextId = some z ∧ z.desc = x.desc ∧ z.op = x.op ∧ z.gid = gid ∧ z.chips = chips ∧
                chips[z.rank]? = some chip ∧ mget s.copies z.copyKey = none ∧ mget t.copies z.copyKey = some y ∧ y.op = 0x12))))

/-! The partitions. -/

/-- PARTITION_SELECT (R358 to R361) acts on the core whose turn it is. Its partitions first come to their boundaries; then the steward
issues alone where it is ready and may take the clock, or the first ready one in the order of R359 issues, with the first whose slots
are apart from its own beside it, and the others grow older; the order is by rank, by age among partitions at AGE_LIMIT, by the last
issue, and by number. The core clock advances once for every 128 cores, and the uncore clock at its own rate; that a step acts on one
core, and how the two clocks keep their ratio, is the model's choice (DESIGN CHOICE, log entry 16). -/
def Obligations.PartitionSelection : Prop :=
  (∀ (s : State) (core : Nat) (ws : List W32), core ≠ s.nextCore → exec (.partitionSelect core ws) s = .next { s with epoch := s.epoch + 1 }) ∧
  (∀ (s : State) (ws : List W32), s.coreMHz = 0 →
    exec (.partitionSelect s.nextCore ws) s = .next { tick (wakeLines s) with epoch := s.epoch + 1 }) ∧
  (∀ (s : State) (ws : List W32), s.coreMHz ≠ 0 →
    let core := s.nextCore
    let w := bringBundle (wakeLines s) core ws
    let away := w.shadow.foldl (fun s e => pollShadow s core e.1 e.2) w
    let flags := (List.range 17).foldl (fun s i => pollFlags s core i (endsNext (getPart s core i))) away
    let u := (List.range 17).foldl (fun s i => prep s core i) flags
    let ready := readyParts u core
    let limit := (getCore u core).ageLimit
    let steward := (getPart u core 16).ps = .ready ∧ (stewardMay u core (!ready.isEmpty)).1 = true
    (steward → ∃ t, exec (.partitionSelect core ws) s = .next t ∧ t.iss.isOpen = true ∧ t.iss.core = core ∧ t.iss.part = 16 ∧
      t.iss.second = none ∧ ∀ x ∈ ready, (getPart t core x.1).age = x.2.age + 1) ∧
    (¬ steward → ready = [] → exec (.partitionSelect core ws) s = .next { tick u with epoch := s.epoch + 1 }) ∧
    (∀ a, ¬ steward → firstOf limit ready = some a → ∃ t, exec (.partitionSelect core ws) s = .next t ∧
      t.iss.isOpen = true ∧ t.iss.core = core ∧ t.iss.part = a.1 ∧
      t.iss.second = (firstOf limit (ready.filter fun x => x.2.slots &&& a.2.slots == 0)).map (·.1) ∧ (getPart t core a.1).age = 0 ∧
      ∀ x ∈ ready, x.1 ≠ a.1 → some x.1 ≠ t.iss.second → (getPart t core x.1).age = x.2.age + 1)) ∧
  (∀ (limit : Nat) (l : List (Nat × Part)) (a : Nat × Part), firstOf limit l = some a → a ∈ l ∧ ∀ b ∈ l, beats limit b a = false) ∧
  (∀ (limit i j : Nat) (p q : Part),
    (p.age ≥ limit → q.age < limit → beats limit (i, p) (j, q) = true) ∧
    (p.age < limit → q.age < limit → p.role < q.role → beats limit (i, p) (j, q) = true) ∧
    (p.age ≥ limit → q.age < p.age → beats limit (i, p) (j, q) = true) ∧
    (p.age < limit → q.age < limit → p.role = q.role → p.lastIssue < q.lastIssue → beats limit (i, p) (j, q) = true) ∧
    (p.age ≥ limit → q.age = p.age → p.lastIssue < q.lastIssue → beats limit (i, p) (j, q) = true) ∧
    (p.age < limit → q.age < limit → p.role = q.role → p.lastIssue = q.lastIssue → i < j → beats limit (i, p) (j, q) = true) ∧
    (p.age ≥ limit → q.age = p.age → p.lastIssue = q.lastIssue → i < j → beats limit (i, p) (j, q) = true) ∧
    (beats limit (i, p) (j, q) = true → beats limit (j, q) (i, p) = false)) ∧
  ∀ (s : State), (s.nextCore < 127 → tick s = { s with nextCore := s.nextCore + 1 }) ∧
    (127 ≤ s.nextCore → (tick s).clock = s.clock + 1 ∧ (tick s).nextCore = 0 ∧
      (tick s).uclock = s.uclock + (s.uacc + 1500) / s.coreMHz)

/-- RESULT_WRITE, SEGMENT_EXPAND, BUCKET_TABLE_READ, and the ends of waits: the result of an engine is ready (R18, R370), one more
stored bundle is expanded (R75), the table of the next BKSEL is read (R268), a CWAIT or WAITM ends at its timeout (R203, R245). The
result of a task that is swapped out enters its late-write entry (R380); by the number 32 above its key such a task is named. The
steward's control of a partition: PREEMPT_REQUEST (R379), PARTITION_RESUME (R371), SINGLE_STEP_SET (R385), TASK_KILL (R378) and
DEBUG_HOLD (R407); and the services of Table 16.7 (R405), whose answer is an acquire at DEV. The cause that a commanded kill reports has
no number in the spec and is free (log entry 134). A debugger reads and writes the contexts of the partitions that it holds, in their
images in the shadow store (R407): a byte of an image of such a partition is written where it lies in Table 15.6, and read back; an
image of another partition is not written. In recovery it does nothing (R401). The bytes of the shadow store that no image covers are
free (log entry 90). What a partition that takes part in issue does on each clock (R18, R19, R20, R44, R369): a ready result that is due
is written into its registers, with its poison, and its flags are then ORed into FPCTL; the flags of one written before its deadline
follow at the deadline; the waits are looked at, and what has become due is written; then comes the boundary. While an operation that is
due has no result the partition is frozen. Where the next issue would pass the limits of R369 the results that have come are written
early, and it is frozen if it would pass them still. What stops a partition at its boundary. A stop (R379) wakes a waiting WAITM, ends
the freezes, and leaves the pending operations as entries. A pre-emption that has been asked for is taken before the next bundle, unless
that bundle traps or is an END (R377); inside a bundle that is re-entered it waits (DEDUCED, log entry 64). A single step stops when it
is over, and the steward is told (R385). At a yield point the task is to be pre-empted for the waiting candidate of the choice, where
its next run does not fit the slice, and what it frees is held for that candidate (R356); else it goes on. -/
def Obligations.PartitionAndStewardEvents : Prop :=
  (
    ∀ (s : State) (core part seq : Nat), part < 17 →
      let p := getPart s core part
      let same := exec (.resultWrite core part seq) s = .next { s with epoch := s.epoch + 1 }
      let found (e : Pend) : Prop := p.pends.find? (fun e => e.seq == seq) = some e
      (∀ e, found e → e.st = .engine → e.eng = none → exec (.resultWrite core part seq) s =
        .next { setPart s core part (updPend p seq fun e => { e with st := .ready }) with epoch := s.epoch + 1 }) ∧
      (∀ k x e, mget s.shadow k = some x → x.core = core → x.ctx.pends.find? (fun e => e.seq == seq) = some e → e.st = .engine → e.eng = none →
        ∃ t, exec (.resultWrite core (32 + k) seq) s = .next t ∧
          mget t.shadow k = some { x with ctx := updPend x.ctx seq fun e => { e with st := .ready } } ∧
          (∀ n, n ≠ partKey core 31 → mget t.parts n = mget s.parts n) ∧ ∀ a, peek t a = peek s a) ∧
      (∀ e, found e → (e.st ≠ .engine ∨ ∃ k, e.eng = some k ∧ k < 2 ^ 24) → same) ∧
      (∀ e, found e → e.st = .engine → e.eng = none → p.level = e.level → e.due ≤ p.tc → isDue p { e with st := .ready } = true) ∧
      (expandable p = false → exec (.segmentExpand core part) s = .next { s with epoch := s.epoch + 1 }) ∧
      (∀ g b w, p.cur = some g → g.rest = b :: w → exec (.segmentExpand core part) s =
        .next { setPart s core part { p with cur := some { g with
          bundles := g.bundles ++ [{ hdr := b, words := w.take (b.toNat / 2 ^ 10 % 16) }], rest := w.drop (b.toNat / 2 ^ 10 % 16) } } with
          epoch := s.epoch + 1 }) ∧
      (∀ o, bucketNamed p = some o → exec (.bucketTableRead core part) s =
        .next { setPart s core part { p with bucket := some (o, bucketWords (getCore s core) o) } with epoch := s.epoch + 1 }) ∧
      (∀ e i t, found e → e.st = .wait (.cwaitBar i (some t)) → t ≤ s.clock →
        exec (.cwaitTimeout core part seq) s = .next { answerPend s core part seq 2 with epoch := s.epoch + 1 }) ∧
      (∀ e r k t, found e → e.st = .wait (.cwaitRing r k (some t)) → t ≤ s.clock → exec (.cwaitTimeout core part seq) s =
        .next { answerPend s core part seq (BitVec.ofNat 64 (2 + peekNat s (ringAddr s p.queue r) 4 * 2 ^ 32)) (poisonedAt s (ringAddr s p.queue r) 4) with epoch := s.epoch + 1 }) ∧
      (∀ e l sg sc tm, found e → e.st = .wait (.waitm l sg sc tm) →
        exec (.waitmWake core part seq) s = .next { wakeWaitm s core part e with epoch := s.epoch + 1 } ∧
        (∀ t, tm = some t → t ≤ s.clock → exec (.waitmTimeout core part seq) s = .next { wakeWaitm s core part e with epoch := s.epoch + 1 }) ∧
        (∀ t, tm = some t → s.clock < t → exec (.waitmTimeout core part seq) s = .next { s with epoch := s.epoch + 1 }) ∧
        (s.memoryOk = true → ∃ po, getPart (wakeWaitm s core part e) core part = { p with
            monitor := none, pends := p.pends.map fun y => if y.seq = seq then { e with
              st := .ready, dst := none, writes := (e.dst.map fun d => RegWrite.s d.1 d.2 (extend sg l.length (peekCells s l)) po).toList } else y } ∧
          (∀ a, peek (wakeWaitm s core part e) a = peek s a)))) ∧
  (
    ∀ (s : State) (core part seq : Nat), part < 16 →
      let p := getPart s core part
      (isActive p = true → exec (.preemptRequest core part) s = .next { setPart s core part { p with preempt := some true } with epoch := s.epoch + 1 }) ∧
      (isActive p = false → exec (.preemptRequest core part) s = .next { s with epoch := s.epoch + 1 }) ∧
      (p.ps = .stopped → exec (.partitionResume core part) s =
        .next { setPart s core part { p with ps := .ready, age := 0, preempt := if p.at_.slot = 0 then none else p.preempt } with
          epoch := s.epoch + 1 }) ∧
      (p.ps = .placed → p.entered ≠ 0 → exec (.partitionResume core part) s =
        .next { setPart s core part { p with ps := .ready, age := 0, preempt := if p.at_.slot = 0 then none else p.preempt } with
          epoch := s.epoch + 1 }) ∧
      (∀ on, exec (.singleStepSet core part on) s = .next { setPart s core part { p with single := on } with epoch := s.epoch + 1 }) ∧
      exec (.debugHold core (.hold part)) s =
        .next { (if s.recovery then s else setPart s core part { p with single := true, debugged := true }) with epoch := s.epoch + 1 } ∧
      (p.ps ≠ .free → p.ps ≠ .ending → ∃ cause, cause < 256 ∧
        exec (.taskKill core part) s = .next { killTask s core part [cause] with epoch := s.epoch + 1 }) ∧
      (p.ps = .free ∨ p.ps = .ending → exec (.taskKill core part) s = .next { s with epoch := s.epoch + 1 }) ∧
      (∀ e n arg, p.pends.find? (fun e => e.seq == seq) = some e → e.st = .wait (.answer n arg) →
        let answered (u : State) (x : W64) : Out := .next { dropCache (answerPend u core part seq x) core with epoch := s.epoch + 1 }
        (n = 0 → exec (.svcFwver core part seq) s = answered s (fwver s p.queue) ∧
          exec (.svcAnswer core part seq (fwver s p.queue)) s = answered s (fwver s p.queue)) ∧
        (n = 1 → exec (.svcCatclk core part seq) s = answered s (BitVec.ofNat 64 (s.uclock / 1500 % 2 ^ 32))) ∧
        (n = 2 → exec (.svcDirhome core part seq) s = answered (dirhome s p.queue arg).1 (dirhome s p.queue arg).2 ∧
          ∀ c, (catOf s p.queue).2 = some c → (dirhome s p.queue arg).2 = BitVec.ofNat 64 (arg.toNat % 1024 % c.nchip)) ∧
        (n = 3 → exec (.svcEvent core part seq) s =
          answered (addEvent s { code := 0x80, loc := partKey core part, detail := [arg.toNat] }) 0) ∧
        (4 ≤ n.toNat → exec (.svcUnknown core part seq) s = answered s (BitVec.allOnes 64)))) ∧
  (
    ∀ (s : State) (core : Nat),
      (∀ r, s.recovery = true → exec (.debugHold core r) s = .next { s with epoch := s.epoch + 1 }) ∧
      (s.recovery = false →
        (∀ o n, exec (.debugHold core (.read o n)) s =
          .next { s with hostOut := some (.data (tab n fun i => debugByte s core (o + i))), epoch := s.epoch + 1 }) ∧
        (∀ o b k x i, imageAt s core o = some (k, x, i) → x.ctx.debugged = true →
          exec (.debugHold core (.write o [b])) s =
            .next { s with shadow := mput s.shadow k { x with patch := mput x.patch i b }, epoch := s.epoch + 1 }) ∧
        (∀ o b k x i, imageAt s core o = some (k, x, i) → x.ctx.debugged = false →
          exec (.debugHold core (.write o [b])) s = .next { s with epoch := s.epoch + 1 })) ∧
      (∀ o k x i, imageAt s core o = some (k, x, i) → debugByte s core o = (imageBytes x).getD i 0) ∧
      ∀ (x : SavedCtx) i b, i < (savedImage x).length →
        (imageBytes { x with patch := mput x.patch i b }).getD i 0 = b ∧
        ∀ j, j ≠ i → (imageBytes { x with patch := mput x.patch i b }).getD j 0 = (imageBytes x).getD j 0) ∧
  (
    (∀ (s : State) (core part : Nat), isActive (getPart s core part) = true →
      prep s core part =
        boundary (writeDue (pollAll (writeDue s core part) core part (endsNext (getPart s core part))) core part) core part) ∧
    (∀ (s : State) (core part : Nat),
      let p := getPart s core part
      let q := getPart (writeDue s core part) core part
      (∀ e, p.pends.filter (fun x => isDue p x && x.st == .ready) = [e] → e.late = false → e.lost = [] →
        (∀ x ∈ p.pends, x.seq = e.seq → x = e) → (∀ x ∈ p.early, isDue p x = false) →
        q = { orFlags (writeRegs p e.writes) e.flags with pends := (p.pends.filter fun x => x.seq != e.seq).map fun x => x.loses e e.writes } ∧
          q.fpctl = (writeRegs p e.writes).fpctl ||| (e.flags.setWidth 64 <<< 8) ∧ ∀ a, peek (writeDue s core part) a = peek s a) ∧
      ((∀ x ∈ p.pends, isDue p x = true → x.st ≠ .ready) → (∀ x ∈ p.early, isDue p x = false) → writeDue s core part = s) ∧
      (∀ e, (∀ x ∈ p.pends, isDue p x = true → x.st ≠ .ready) → p.early = [e] → isDue p e = true →
        q = { p with early := [], fpctl := p.fpctl ||| (e.flags.setWidth 64 <<< 8) })) ∧
    (∀ (c : CoreSt) (p : Part) (full : Bool), p.at_.done = false → (∃ e ∈ p.pends, isDue p e = true) → standing c p full = .frozen) ∧
    (∀ (s : State) (core part : Nat),
      let p := getPart s core part
      let q := getPart (boundary s core part) core part
      p.atYield = false → p.reports = [] → p.single = false → p.preempt = none → uiDue p = false → p.at_.done = false →
        (∃ e ∈ p.pends, isDue p e = true) →
        q.ps = .frozen ∧ q.age = 0 ∧ q.pends = p.pends ∧ q.at_ = p.at_ ∧ q.tc = p.tc ∧ q.s = p.s) ∧
    (∀ (s : State) (core part : Nat), (getPart s core part).steward = false →
      let c := getCore s core
      let p := ensureSeg c (getPart s core part)
      let w := setPart s core part p
      let u := writeEarly w core part fun _ => true
      (standing c p false = .ready → (crowded p && overAhead w core part) = false → settle s core part = (w, .ready)) ∧
      (standing c p false = .ready → (crowded p && overAhead w core part) = true → settle s core part =
        (u, if crowded (getPart u core part) && overAhead u core part then .frozen else .ready)) ∧
      (standing c p false = .exitWait → p.at_.done = true → settle s core part = (u, standing c (getPart u core part) false))) ∧
    (∀ (s : State) (core part : Nat) (p : Part),
      (overAhead s core part = true ↔ 64 < (getPart (ahead s core part) core part).pends.length ∨
        20 < ((getPart (ahead s core part) core part).pends.filter (·.vec)).length) ∧
      (crowded p = false → p.pends.length + 8 ≤ 64 ∧ (p.pends.filter (·.vec)).length + 2 ≤ 20))) ∧
  (
    (∀ (s : State) (core part : Nat),
      let u := wakeAllWaitm s core part
      let t := stopPart s core part
      getPart t core part = { getPart u core part with
        ps := .stopped, age := 0, pends := (getPart u core part).pends.map Pend.unmarked } ∧
      (∀ k, k ≠ partKey core part → mget t.parts k = mget u.parts k) ∧ ∀ a, peek t a = peek u a) ∧
    (∀ (s : State) (core part : Nat),
      let p := getPart s core part
      let u := (settle s core part).1
      let st := (settle s core part).2
      let quiet : Prop := st = .frozen ∨ st = .fetch ∨ st = .exitWait ∨
        (st = .ready ∧ ((bundleAt (getPart u core part)).map Bundle.isEnd).getD false = false ∧ trapsAhead u core part = false)
      p.atYield = false → p.reports = [] → quiet →
        (p.preempt ≠ none → p.at_.slot = 0 → (p.single = true → p.stepped = true → stepOver p = true) → boundary s core part = stopPart u core part) ∧
        (p.at_.slot ≠ 0 → p.single = false → boundary s core part = setPs u core part st.ps) ∧
        (p.preempt = none → p.single = true → p.stepped = true → stepOver p = true → boundary s core part =
          tellSteward (stopPart (setPart u core part { getPart u core part with stepped := false }) core part)
            { code := 1, loc := partKey core part, detail := [] }) ∧
        (p.single = true → p.stepped = true → stepOver p = false → boundary s core part = setPs s core part .frozen)) ∧
    (∀ (s : State) (core part : Nat),
      let p := getPart s core part
      let t := yieldSwap s core part
      (p.atYield = true → boundary s core part = boundary t core part) ∧
      (yieldsTo s core part = if p.atYield = false ∨ runFits s p.nexty = true ∨ shadowRoom s core (imageLen p) = false then none
        else chosen s (waitersAbove s core part)) ∧
      (yieldsTo s core part = none → t = setPart s core part { p with atYield := false }) ∧
      (∀ c, yieldsTo s core part = some c →
        getPart t core part = { p with atYield := false, preempt := some (p.preempt.getD false) } ∧
        (∀ gid g, c.gang = some gid → mget s.gangs gid = some g → mget t.gangs gid = some { g with holds := g.holds ++ [core] }) ∧
        (c.gang = none → t.gangs = s.gangs ∧
          t.shadow = s.shadow.map fun e => (e.1, { e.2 with held := e.2.held || e.2.ctx.entered == c.order })) ∧
        ∀ a, peek t a = peek s a)))

/-! Engines. -/

/-- LAYOUT_READ and LAYOUT_WRITE (R91, R92) of an object without a residency bitmap that lies in HBM: a read delivers the elements of
the request in the order of the layout, the pad value for one outside the shape under PAD, and writes nothing; a write of one element
changes the bytes of that element alone, and none outside the shape; data that disagrees with the check values it came with is not
written (R94, R198); under FAULT a request that names an element outside the shape moves nothing and names it. -/
def Obligations.LayoutUnits : Prop :=
  ∀ (s u : State) (q : TileReq) (r : ObjRec) (cls : TrafficClass) (data : List Byte) (cvs : List W32), s.memoryOk = true →
    reqRec q s = (u, some r) → r.rbmp = 0 →
    let cs := reqCoords q r
    let at_ (c : Coord) : Nat := 8 * r.base + r.bitOff c
    let served := ∀ c ∈ cs, r.inShape c = true → ∀ a ∈ elemAddrs r (at_ c), a < hbmTop
    (∀ c, shapeFault r cs = some c → ∃ t, exec (.layoutRead q) s = .next t ∧ exec (.layoutWrite q cls ⟨data, cvs⟩) s = .next t ∧ KeepsMemory s t ∧
      t.layoutOut = some { data := [], cvs := [], bad := [], fault := some [c.c0, c.c1, c.c2, c.c3] }) ∧
    (shapeFault r cs = none → ¬ served → ∃ t, exec (.layoutRead q) s = .next t ∧ exec (.layoutWrite q cls ⟨data, cvs⟩) s = .next t ∧
      KeepsMemory s t ∧ t.layoutOut = s.layoutOut) ∧
    (shapeFault r cs = none → served → ∃ t o, exec (.layoutRead q) s = .next t ∧ KeepsMemory s t ∧
      t.layoutOut = some o ∧ o.fault = none ∧ o.data.length = ceilDiv (r.w * cs.length) 8 ∧
      ∀ k (h : k < cs.length), elem (ofBytes o.data) r.w k =
        (if r.inShape cs[k] then peekElem s r (at_ cs[k]) else r.padCode) % 2 ^ r.w) ∧
    (shapeFault r cs = none → served → cvMismatch data cvs ≠ [] → ∃ t o, exec (.layoutWrite q cls ⟨data, cvs⟩) s = .next t ∧ KeepsMemory s t ∧
      t.layoutOut = some o ∧ o.data = [] ∧ o.fault = none ∧ ∀ i, i < cvs.length → o.bad[i]? = some ((cvMismatch data cvs).contains i)) ∧
    (∀ c, cs = [c] → shapeFault r cs = none → r.inShape c = false → ∃ t, exec (.layoutWrite q cls ⟨data, cvs⟩) s = .next t ∧ KeepsMemory s t) ∧
    (∀ c, cs = [c] → r.inShape c = true → served → cvMismatch data cvs = [] →
      ∃ t, exec (.layoutWrite q cls ⟨data, cvs⟩) s = .next t ∧ t.memoryOk = true ∧ peekElem t r (at_ c) = elem (ofBytes data) r.w 0 ∧
        ∀ a, a ∉ elemAddrs r (at_ c) → peek t a = peek s a)

/-- Reductions and merges (R93 to R96, R99): a reduction at the base die or at the I/O die leaves Round(old + x) in its element, as a
read finds it, and no other byte changed; in a write-combining entry the sum is carried in FP32, and the entry is RAW once a reduction
came through an object that is not compressible (R87); and a merge command drops the entries of its chunks and leaves every byte as a
read found it. -/
def Obligations.ReductionsAndMerges : Prop :=
  ∀ (s : State) (addr : Nat) (f32 : Bool) (x : W32) (cls : TrafficClass) (cmpr : Bool), s.memoryOk = true →
    let n := redWidth f32
    let c := addr / 2048
    let sum := redEncode f32 (numAdd .rne (redDecode f32 (peekNat s addr n)) (ofF32 x)).1
    (addr % n = 0 → addr + n ≤ hbmTop → mget s.wc c = none → ∃ t, exec (.memorySideReduction addr f32 x ⟨cls, cmpr⟩) s = .next t ∧
      t.memoryOk = true ∧ peekNat t addr n = sum ∧ ∀ a, a < addr ∨ addr + n ≤ a → peek t a = peek s a) ∧
    (∀ w e, addr % n = 0 → addr + n ≤ hbmTop → mget s.wc c = some w → w.cls = cls → mget w.red (addr % 2048) = some e → e.f32 = f32 →
      ∃ t w', exec (.memorySideReduction addr f32 x ⟨cls, cmpr⟩) s = .next t ∧ mget t.wc c = some w' ∧ w'.raw = (w.raw || !cmpr) ∧
        mget w'.red (addr % 2048) = some { e with val := toF32 (numAdd .rne (ofF32 e.val) (ofF32 x)).1 } ∧
        ∀ k, k ≠ addr % 2048 → mget w'.red k = mget w.red k) ∧
    (hbmTop ≤ addr → addr % n = 0 → populated s addr = true → ∃ t, exec (.ioDieReduction addr f32 x) s = .next t ∧
      t.memoryOk = true ∧ peekNat t addr n = sum ∧
      ∀ a, (∀ i, i < n → cellOf s a ≠ cellOf s (addr + i)) → peek t a = peek s a) ∧
    ∀ chunks : List Nat, ∃ t, exec (.stewardMergeCommand chunks) s = .next t ∧ KeepsMemory s t ∧
      (∀ k, mget t.wc k = if k ∈ chunks then none else mget s.wc k) ∧ t.parts = s.parts ∧ t.cores = s.cores

/-- The capture region (R98, R99): a home whose counter is due moves into it, its write-combining entry merged into the capture entry,
which has then been written; where the stack's entries are all taken the least recently accessed is released, and the capture waits
while one is stored back; a store-back ends; and a refresh window clears the trackers and releases the entries that stood idle in it.
None of these changes what a read finds. Scrub, retirement and the core cache (R100, R101, R239): a corrected error puts its home on the
hot list and adds 1 to its score, or 16 in the same pass (log entry 115), and 32 retires it; an uncorrectable one poisons its sectors,
but not the copy of a captured chunk (DEDUCED, log entry 50), and retires the home; the reports name the spare row pair that the home
takes, as the row remap table then says; with no spare left the home stays, which is reported once (DESIGN CHOICE, log entry 126); how
many spares there are is free (log entry 49), and scrub counts as an activation of its row (log entry 7); metadata rows are scrubbed
too, and poison alone comes of it (log entry 117); each period halves the scores; and a line of the core cache goes 65,536 core clocks
after its fill. -/
def Obligations.CaptureScrubAndRetirement : Prop :=
  (
    ∀ (s : State) (c : Nat), s.memoryOk = true →
      let mine := s.capture.filter fun e => stackOf e.1 == stackOf c
      let idle := mine.filter fun e => !e.2.storing
      let enters (t : State) : Prop := (∀ k, k ≠ c → t.capDue.contains k = s.capDue.contains k) ∧ mget t.wc c = none ∧ ∃ e,
        mget t.capture c = some e ∧ e.dirty = (mget s.wc c).isSome ∧ e.used = s.clock ∧ e.storing = false ∧
        e.raw = (mget s.wc c).any (·.raw) ∧ e.fmts = ((mget s.wc c).map (·.fmts)).getD []
      (s.capDue.contains c = false → exec (.chunkCapture c) s = .next { s with epoch := s.epoch + 1 }) ∧
      (s.capDue.contains c = true → mget s.capture c = none → ∃ t, exec (.chunkCapture c) s = .next t ∧ KeepsMemory s t ∧
        (mine.length < captureEntries → enters t) ∧
        (captureEntries ≤ mine.length → idle.length < mine.length → t = { s with epoch := s.epoch + 1 }) ∧
        ∀ v e, captureEntries ≤ mine.length → idle = mine → oldestCapture idle = some (v, e) →
          (e.dirty = true → mget t.capture v = some { e with storing := true } ∧ mget t.capture c = none ∧ t.capDue = s.capDue) ∧
          (e.dirty = false → mget t.capture v = none ∧ enters t)) ∧
      (∀ e, mget s.capture c = some e → e.storing = true → ∃ t, exec (.captureStoreBackDone c) s = .next t ∧ KeepsMemory s t ∧
        mget t.capture c = none ∧ ∀ k, k ≠ c → mget t.capture k = mget s.capture k) ∧
      ∃ t, exec .refreshWindowEnd s = .next t ∧ KeepsMemory s t ∧ t.tracker = [] ∧ t.capDue = s.capDue ∧ t.winClock = s.clock ∧
        ∀ k e, mget s.capture k = some e → mget t.capture k =
          if e.used < s.winClock ∧ e.storing = false then (if e.dirty then some { e with storing := true } else none) else some e) ∧
  (
    ∀ (s : State) (c core line : Nat) (sec : BitVec 8),
      let b := bankPairOf c
      let mine := s.hot.filter fun e => pseudoOf e.1 == pseudoOf c
      let poisons (t : State) : Prop :=
        (mget s.capture c = none → ∀ i, i < 8 → sec.getLsbD i = true → mget t.pois (8 * c + i) = some true) ∧
          (∀ e, mget s.capture c = some e → t.pois = s.pois) ∧ ∀ a, peek t a = peek s a
      exec (.patrolScrub (.home c) .clean) s = .next { trackRow s c with epoch := s.epoch + 1 } ∧
      (∀ h, mget s.hot c = some h →
        let n := h.score + if h.corrected then 16 else 1
        (n < 32 → exec (.patrolScrub (.home c) .corrected) s =
          .next { trackRow s c with hot := mput s.hot c { score := n, corrected := true }, epoch := s.epoch + 1 }) ∧
        (32 ≤ n → mget s.retiring c = none → ∃ t, exec (.patrolScrub (.home c) .corrected) s = .next t ∧
          (∀ k, spareFor s b = some k → t.retiring = mput s.retiring c k ∧ mget t.hot c = none ∧ mget t.spares b = some (k + 1) ∧
            t.events = s.events ++ [{ code := 0x03, loc := c, detail := [n, k] }]) ∧
          (spareFor s b = none → t.retiring = s.retiring ∧ mget t.hot c = some { score := n, corrected := true } ∧
            ((∀ e ∈ s.events, e.code = 0x04 → e.loc ≠ b) → t.events = s.events ++ [{ code := 0x04, loc := b, detail := [] }]) ∧
            ((∃ e ∈ s.events, e.code = 0x04 ∧ e.loc = b) → t.events = s.events)))) ∧
      (spareFor s b = let used := (mget s.spares b).getD 0
        if used < spareRows b then some used else none) ∧
      (mget s.hot c = none → mine.length < 64 → exec (.patrolScrub (.home c) .corrected) s = .next { trackRow s c with
        hot := mput (mput s.hot c { score := 0, corrected := false }) c { score := 1, corrected := true }
        events := s.events ++ [{ code := 0x01, loc := c, detail := [] }], epoch := s.epoch + 1 }) ∧
      (∃ t, exec (.patrolScrub (.home c) (.uncorrectable sec)) s = .next t ∧ poisons t ∧
        (mget s.retiring c = none → ∀ k, spareFor s b = some k → t.retiring = mput s.retiring c k ∧
          t.events = s.events ++ [{ code := 0x02, loc := c, detail := [sec.toNat, k] }]) ∧
        (mget s.retiring c = none → spareFor s b = none → t.retiring = s.retiring ∧ { code := 0x02, loc := c, detail := [sec.toNat] } ∈ t.events)) ∧
      exec (.patrolScrub (.metadata c) .clean) s = .next { s with epoch := s.epoch + 1 } ∧
      exec (.patrolScrub (.metadata c) .corrected) s = .next { s with epoch := s.epoch + 1 } ∧
      (∃ t, exec (.patrolScrub (.metadata c) (.uncorrectable sec)) s = .next t ∧ poisons t ∧ t.retiring = s.retiring ∧ t.hot = s.hot) ∧
      (∀ k, mget s.retiring c = some k → exec (.retirementCopyDone c) s =
        .next { s with retiring := mdel s.retiring c, remap := mput s.remap c k, epoch := s.epoch + 1 }) ∧
      exec .scrubPeriodEnd s = .next { s with
        hot := s.hot.map fun e => (e.1, { score := e.2.score / 2, corrected := false }), epoch := s.epoch + 1 } ∧
      ∀ l, mget (getCore s core).cache line = some l → exec (.coreCacheLineExpiry core line) s =
        .next { (if s.clock < l.filled + 65536 then s else setCore s core { getCore s core with cache := mdel (getCore s core).cache line }) with
          epoch := s.epoch + 1 })

/-- COPY_UNIT_DONE (R187, R188, R195 to R197): a copy whose pieces have been moved counts its units one by one, in its count and in its
barrier; a unit that fails its check values twice makes the status CHECK and poisons the barrier; and a copy with none left ends: a
bound one answers its status and count, a detached one frees its entry, or holds its record. A barrier word outside the share is never
counted into (R229). Units of OSTORE, whose data comes from the scratchpad, have no check values to fail (DEDUCED, log entry 53). The
piece of a copy that comes next (R186, R187, R207), while the record keeps the shape of the checks: the elements of a piece go to the
scratchpad, to the tile store, or to their places in memory; a TLOAD goes on to its last piece at once, so that its lines change whole
(R227); the scales of E2M1 elements go with them; a piece that faults, in an element or in the place of a scale (R116), is reported, by
COPY_FAULT_REPORT as by COPY_UNIT_DONE, and the copy holds there. -/
def Obligations.CopyEngine : Prop :=
  (
    ∀ (s : State) (core entry : Nat) (failed : Bool) (x : Copy),
      let key := 4096 * core + entry
      entry < 64 → mget s.copies key = some x → x.op ≤ 5 → copyReady s key x = true → x.holding = false → x.pieces = some [] →
      let ev : Instr := .copyUnitDone core entry failed
      let alone : Prop := ∀ k ∈ mkeys s.copies, k / 4096 = core → k % 4096 < 64
      (∀ q i e, x.units = [] → x.seq = some q → homeOf s core x.task = some (.part i) → findPend s core i q = some e → alone →
        ∃ t, exec ev s = .next t ∧ mget t.copies key = none ∧ (∀ a, peek t a = peek s a) ∧
          getPart t core i = updPend (getPart s core i) q fun e =>
            { e.answer (BitVec.ofNat 64 (x.status + x.counted * 2 ^ 32)) .ready with eng := none }) ∧
      (x.units = [] → x.seq = none → x.recd = true → ∃ t r, exec ev s = .next t ∧ mget t.copies key = some { x with ended := true } ∧
        t.held = s.held ++ [r] ∧ r.queue = x.queue ∧ r.ring = x.ring ∧ r.entry = some key ∧ r.body = x.record ∧ ∀ a, peek t a = peek s a) ∧
      (x.units = [] → x.seq = none → x.recd = false → alone → ∃ t, exec ev s = .next t ∧ mget t.copies key = none ∧ ∀ a, peek t a = peek s a) ∧
      ∀ b u us, x.units = (b, u) :: us →
        let bad := (u.bad || failed) && x.op != 4 && decide (b < 2 ^ 80)
        let n := u.bytes
        (bad = false → ∃ t, exec ev s = .next t ∧ mget t.copies key = some { x with units := mdel x.units b, counted := x.counted + n } ∧
          (x.bar ≠ noBar → x.barBad = false → barWord (getCore t core) x.bar = countBar (barWord (getCore s core) x.bar) n) ∧
          (x.barBad = true → t.cores = s.cores) ∧ ∀ a, peek t a = peek s a) ∧
        (bad = true → ∃ t z, exec ev s = .next t ∧ mget t.copies key = some z ∧ z.status = 4 ∧ z.fcode = 0x20 ∧ z.counted = x.counted ∧
          z.units = mdel x.units b ∧ (x.bar ≠ noBar → x.barBad = false → (barWord (getCore t core) x.bar).testBit 57 = true))) ∧
  (
    ∀ (s u v : State) (core entry : Nat) (x : Copy) (r : ObjRec) (d : Option ObjRec) (p : Nat) (ps : List Nat),
      let key := 4096 * core + entry
      entry < 64 → mget s.copies key = some x → x.op ≤ 5 → copyReady s key x = true → x.holding = false → x.shape.isSome = true → x.units = [] →
      s.memoryOk = true →
      let ev : Instr := .copyUnitDone core entry false
      let held (fc : List Nat) (c : Nat) (t : State) : Prop := ∃ z, mget t.copies key = some z ∧ z.holding = true ∧ z.pcode = c ∧ z.pfc = fc
      let mode := spSwz (BitVec.ofNat 64 x.loc)
      let off := spOff (BitVec.ofNat 64 x.loc)
      let bo (e : PieceElem) : Nat := 8 * x.pitch r.w * e.row + r.w * e.col
      let here (o : ObjRec) (ba : Nat) : Prop := ∀ a ∈ elemAddrs o ba, a < hbmTop
      let band := x.bandMoves v r d p
      let scales (es : List PieceElem) : List ScaleMove := if x.scaled r d then x.blockMoves r d es ++ band.2 else []
      let lost (es : List PieceElem) : Option ScaleMove := (scales es).find? fun q => !q.populated (if x.scaled r d then band.1 else v)
      exec (.copyFaultReport core entry) s = exec ev s ∧
      (∀ c q i e, x.pieces = some (p :: ps) → x.recs s core = (u, .error c) → x.seq = some q → homeOf s core x.task = some (.part i) →
        findPend s core i q = some e → ∃ t rp, exec ev s = .next t ∧ held (if x.untouched then (x.coord 0 0).list else x.pieceFirst p) c t ∧
          (getPart t core i).reports = (getPart s core i).reports ++ [rp] ∧ rp.code = c ∧ rp.id = q ∧ rp.pc = e.pc) ∧
      (x.recs s core = (u, .ok (r, d)) → x.shape = some r.shape → x.dshape = d.map (·.shape) →
        (x.pieces = none → (∀ y, taskPart s core x.task = some y → x.localOk y (getCore s core) r = true) → ∃ t z, exec ev s = .next t ∧
          mget t.copies key = some z ∧ z.pieces = some (x.pieceList r) ∧ z.foot = x.footprint r d ∧ KeepsMemory s t) ∧
        (∀ c row col, x.pieces = some (p :: ps) → xlatePiece u x r d (x.pieceElems r p) = (v, .error (c, row, col)) → x.seq ≠ none →
          ∃ t, exec ev s = .next t ∧ held (x.coord row col).list c t) ∧
        (∀ es q, x.pieces = some (p :: ps) → xlatePiece u x r d (x.pieceElems r p) = (v, .ok es) → lost es = some q → x.seq ≠ none →
          ∃ t, exec ev s = .next t ∧ held q.fc oBase t) ∧
        ∀ es, x.pieces = some (p :: ps) → xlatePiece u x r d (x.pieceElems r p) = (v, .ok es) → lost es = none → x.seq ≠ none → ∃ t z, exec ev s = .next t ∧
          mget t.copies key = some z ∧ z.counted = x.counted ∧
          (x.op ≠ 5 → z.pieces = some ps) ∧ (x.op = 5 → z.holding = true ∨ z.pieces = some []) ∧
          (x.op = 3 → mode = 0 → x.rowBytes r.w ≤ x.pitch r.w → KeepsMemory s t ∧
            ∀ e ∈ es, scratchBits (getCore t core) 0 off (bo e) r.w = e.src.read s r % 2 ^ r.w) ∧
          (∀ i, x.op = 5 → ps = [] → homeOf s core x.task = some (.part i) → KeepsMemory s t ∧ ∀ e ∈ es, ∀ j, j < r.w →
            (tileLine (getPart t core i) ((x.region r).base + (x.region r).rows * j + e.row)).getLsbD e.col = (e.src.read s r).testBit j) ∧
          (∀ row col ba, x.op = 4 → x.red = false → r.isE2M1 = false → here r ba → es = [{ row := row, col := col, src := .at ba, dst := .pad }] →
            s.relocs = [] → peekElem t r ba = scratchBits (getCore s core) mode off (8 * x.pitch r.w * row + r.w * col) r.w % 2 ^ r.w) ∧
          ∀ o row col ba bd, x.op = 2 → d = some o → o.fmt = r.fmt → r.isE2M1 = false → here o bd → s.relocs = [] →
            es = [{ row := row, col := col, src := .at ba, dst := .at bd }] → peekElem t o bd = peekElem s r ba))

/-- Completion records and the host's interrupts (R202, R204, R406): the oldest record held for a ring goes into its next slot, the
phase bit that of the slot's pass, and then PROD moves; a full ring is marked so and keeps its record back; a timer raises the vector of
a ring whose records have waited. The steward's event ring takes the events in the same way, one of more detail than a record holds in
several; where the fields of its location lie in a record is the model's choice (DESIGN CHOICE, log entry 135). -/
def Obligations.RecordsAndInterrupts : Prop :=
  ∀ (s : State) (q ring : Nat), s.memoryOk = true →
    let ev : Instr := .completionRecordWrite q ring
    let a := if q = eventQueue then s.eventRing else ringAddr s q ring
    let h := peekNat s a 64
    let len := nbits h 64 17
    let k := nbits h 0 32
    let slot := a + 64 + 32 * (k % len)
    let phase := if k / len % 2 = 0 then 2 ^ 31 else 0
    let ringHere := a ≠ 0 ∧ a + 64 + 32 * len ≤ hbmTop ∧ ringOk h = true
    let rest (t : State) : Prop := ∀ b, ¬ (slot ≤ b ∧ b < slot + 32) → ¬ (a ≤ b ∧ b < a + 4) → peek t b = peek s b
    exec (.ringConsAdvance q ring) s = exec ev s ∧
    (∀ r, q ≠ eventQueue → heldFor s q ring = some r → r.body.length = 32 → ofBytes (r.body.take 4) < 2 ^ 31 → ringHere →
      (ringFull h = false → ∃ t, exec ev s = .next t ∧ t.memoryOk = true ∧ peekNat t a 4 = (k + 1) % 2 ^ 32 ∧
        peekNat t slot 4 = ofBytes (r.body.take 4) + phase ∧ peekBytes t (slot + 4) 28 = r.body.drop 4 ∧ rest t ∧ t.held = s.held.erase r) ∧
      (ringFull h = true → h.testBit 96 = false → ∃ t, exec ev s = .next t ∧ t.held = s.held ∧ (peekNat t a 64).testBit 96 = true ∧
        ∀ b, b ≠ a + 12 → peek t b = peek s b)) ∧
    (q ≠ eventQueue → heldFor s q ring = none → exec ev s = .next { s with epoch := s.epoch + 1 }) ∧
    (∀ e, q = eventQueue → (eventRecords s)[s.eventsOut]? = some e → ringHere → ringFull h = false → ∃ t, exec ev s = .next t ∧
      t.eventsOut = s.eventsOut + 1 ∧ peekNat t a 4 = (k + 1) % 2 ^ 32 ∧ peekNat t slot 4 = e.code % 2 ^ 8 + phase ∧
      peekBytes t (slot + 4) 28 = (e.bytes s (s.uclock / 1500 % 2 ^ 32)).drop 4 ∧ rest t) ∧
    (∀ e : EventRec, (e.split e.detail.length).flatMap (·.detail) = e.detail ∧ (e.detail.length ≤ 2 → e.split e.detail.length = [e]) ∧
      ∀ r ∈ e.split e.detail.length, r.code = e.code ∧ r.loc = e.loc ∧ r.detail.length ≤ 2) ∧
    (∀ x, (s.irqs.find? fun x => x.queue == q && x.ring == ring && irqDue s x) = some x → exec (.hostInterruptTimer q ring) s =
      .next { s with irqs := s.irqs.erase x, raised := s.raised ++ [nbits (ringHeader s q ring) 160 11], epoch := s.epoch + 1 }) ∧
    ((∀ x ∈ s.irqs, x.queue = q → x.ring = ring → irqDue s x = false) →
      exec (.hostInterruptTimer q ring) s = .next { s with epoch := s.epoch + 1 })

/-- KV_FAULT_REPORT (R141) reports the fault of a KV operation to its task. RELOC_SUBTILE_COPY and RELOC_FINISH (R119), by the record
that the relocation was accepted with: the next sub-tile is marked COPYING once the writes translated to its old place have performed
(log entry 103), then goes to its new place and has MOV set; after the last the record names the new base with a new generation and no
move, and a completion record is due; a relocation whose record or bitmap fails its check values ends with outcome 0x13 (R419, log entry
109). -/
def Obligations.KvFaultsAndRelocation : Prop :=
  ∀ (s : State),
    (∀ core part seq id e x code taddr, findPend s core part seq = some e → kvIdOf e = some id → mget s.kvs id = some x →
      x.fault = some (code, taddr) → x.core = core → x.seq = seq → homeOf s core x.task = some (.part part) →
      ∃ t r, exec (.kvFaultReport core part seq) s = .next t ∧ mget t.kvs id = some { x with fault := none } ∧
        getPart t core part = { updPend (getPart s core part) seq (fun e => { e with st := .fault code taddr 0 0 }) with
          reports := (getPart s core part).reports ++ [r] } ∧
        r.code = code ∧ r.taddr = taddr ∧ r.id = seq ∧ r.copy = false ∧ r.pc = e.pc ∧ ∀ a, peek t a = peek s a) ∧
    ∀ slot x, mget s.relocs slot = some x → s.memoryOk = true →
      let u := (relocRec s x).1
      let outcome (st moved : Nat) (t : State) : Prop := mget t.relocs slot = none ∧ ∃ h tag, t.held = s.held ++ [h] ∧ h.queue = x.queue ∧
        h.ring = x.ring ∧ h.body = recBytes st 0 5 tag moved 0 []
      ((relocRec s x).2 = none → ∃ t t', exec (.relocSubtileCopy slot) s = .next t ∧ outcome 0x13 (x.moved / 8) t ∧ KeepsMemory s t ∧
        exec (.relocFinish slot) s = .next t' ∧ outcome 0x13 (x.moved / 8) t' ∧ KeepsMemory s t') ∧
      ∀ r, (relocRec s x).2 = some r →
        let a := (tabOf s x.queue).tbase + 64 * x.handle
        let mb := r.rbmp + (2 * x.next + 1) / 8
        (x.next < x.total → x.copying = false → ∃ t, exec (.relocSubtileCopy slot) s = .next t ∧ KeepsMemory s t ∧
          mget t.relocs slot = some { x with copying := !unitPending u r x.next }) ∧
        (∀ res mov, x.next < x.total → x.copying = true → r.isE2M1 = false → mb < hbmTop → (resMov u r x.next).2 = some (res, mov) →
          ∃ t y, exec (.relocSubtileCopy slot) s = .next t ∧ t.memoryOk = true ∧ mget t.relocs slot = some y ∧ y.next = x.next + 1 ∧
            y.copying = false ∧ (peek t mb).getLsbD ((2 * x.next + 1) % 8) = true ∧
            ∀ c, r.subCoords x.next = [c] → res = true →
              let dst := 8 * r.nbase + r.bitOff c
              (∀ b ∈ elemAddrs r dst, b < hbmTop) → mb ∉ elemAddrs r dst →
              y.moved = x.moved + r.w ∧ peekElem t r dst = peekElem s r (8 * r.base + r.bitOff c)) ∧
        ((x.next < x.total ∨ oldPending u r.base r.footSpan = true) → ∃ t, exec (.relocFinish slot) s = .next t ∧ KeepsMemory s t ∧
          t.relocs = s.relocs) ∧
        (x.total ≤ x.next → oldPending u r.base r.footSpan = false →
          let w := wakeOld u r.base r.footSpan
          ∃ t, exec (.relocFinish slot) s = .next t ∧
            ((bitmapFails w r).2 = true → outcome 0x13 (x.moved / 8) t ∧ KeepsMemory s t) ∧
            ((bitmapFails w r).2 = false → outcome 0 (x.moved / 8) t ∧
              (a + 64 ≤ hbmTop → (r.rbmp + r.bitmapLen ≤ a ∨ a + 64 ≤ r.rbmp) → t.memoryOk = true ∧
                peekNat t a 6 = x.nbase % 2 ^ 48 ∧ peekNat t (a + 6) 2 = (r.gen + 1) % 2 ^ 16 ∧ nbits (peekNat t (a + 49) 1) 3 2 = 0)))

/-- The host's view (R387 to R389): an aperture read answers the object's bytes, poisoned data, or Unsupported Request with an event; an
aperture write changes the bytes that it names and no others; BAR0 takes words but for its reserved bits; a snoop, an invalidation or an
eviction takes the host line from the shelf cache, wakes the monitors on it, and leaves every byte as it was read; and an invalidation
may bring a write of the host's own, which a read then finds (R252). The model's choices: that an invalidation carries that write (log
entry 19), the poisoned completion (log entry 81), and the register of the queue table with the offsets at which the host reads BAR0
(log entry 15). -/
def Obligations.HostAccesses : Prop :=
  ∀ (s u : State) (o n : Nat), s.memoryOk = true →
    (apertureTarget s o n = none → o < 2 ^ 38 → ∃ t, exec (.hostApertureRead o n) s = .next t ∧ t.hostOut = some .unsupported ∧
      t.events.length = s.events.length + 1 ∧ ∀ a, peek t a = peek s a) ∧
    (∀ bs, apertureTarget s o bs.length = none → ∃ t, exec (.hostApertureWrite o bs) s = .next t ∧
      t.events.length = s.events.length + 1 ∧ ∀ a, peek t a = peek s a) ∧
    (∀ q addr r l, apertureTarget s o n = some (q, addr) →
      xlateAl s ioDie q addr n 1 { cls := clsHost, rd := true, wr := false } = (u, .ok (r, l)) → ∃ t, exec (.hostApertureRead o n) s = .next t ∧
        KeepsMemory s t ∧ t.hostOut = some (if (linesOf l).any fun i => poisonedAt t (64 * i) 64 then .poisoned else .data (l.map (memByte s)))) ∧
    (∀ q addr bs r p, apertureTarget s o bs.length = some (q, addr) → s.relocs = [] → p + bs.length ≤ hbmTop →
      xlateAl s ioDie q addr bs.length 1 { cls := clsHost, rd := false, wr := true } = (u, .ok (r, plainCells p bs.length)) →
      ∃ t, exec (.hostApertureWrite o bs) s = .next t ∧ t.memoryOk = true ∧ peekBytes t p bs.length = bs ∧
        ∀ a, a < p ∨ p + bs.length ≤ a → peek t a = peek s a) ∧
    (∀ x put, put = { s with bar0 := mput s.bar0 (o / 4) (x &&& bar0Mask o) } →
      (o % 4 = 0 ∧ o < 2 ^ 26 → exec (.bar0RegisterWrite o x) s =
        .next { put with qtab := (if o / 8 = qtabReg / 8 then qtabOf put else s.qtab), epoch := s.epoch + 1 }) ∧
      (¬ (o % 4 = 0 ∧ o < 2 ^ 26) → exec (.bar0RegisterWrite o x) s = .next { s with epoch := s.epoch + 1 })) ∧
    (let read (out) : Prop := exec (.hostApertureRead (2 ^ 38 + o) n) s = .next { s with hostOut := some out, epoch := s.epoch + 1 };
      (n = 4 → o % 4 = 0 → o < 2 ^ 26 → read (.data (toBytes (bar0Read s o) 4))) ∧
      (0x100000 ≤ o ∧ o < 0x110000 → o % 4 = 0 → ∀ x, mget s.bar0 (o / 4) = some x → bar0Read s o = x.toNat) ∧
      (¬ (n ∈ [1, 2, 4, 8, 16, 32, 64] ∧ o % n = 0 ∧ o < 2 ^ 26) → read .unsupported)) ∧
    (∀ line, mget s.hostLines line = none → exec (.hostSnpdata line) s = .next { s with epoch := s.epoch + 1 } ∧
      exec (.hostSnpinv ⟨line, []⟩) s = .next { s with epoch := s.epoch + 1 } ∧ exec (.hostLineEviction line) s = .next { s with epoch := s.epoch + 1 }) ∧
    (∀ line data, data.length = 64 → ∃ t, exec (.hostSnpinv ⟨line, data⟩) s = .next t ∧ t.memoryOk = true ∧ mget t.hostLines line = none ∧
      hostBase / 64 + line ∈ t.woken ∧ (∀ i, i < 64 → hostByte t (64 * line + i) = data.getD i 0) ∧
      ∀ h, h < 64 * line ∨ 64 * line + 64 ≤ h → hostByte t h = hostByte s h) ∧
    ∀ line x, mget s.hostLines line = some x →
      (∃ t, exec (.hostSnpdata line) s = .next t ∧ KeepsMemory s t ∧ mget t.hostLines line = some { x with st := .S } ∧
        ∀ i, i < 64 → byteAt t.hostMem (64 * line + i) = if x.st = .M then x.data.getD i 0 else byteAt s.hostMem (64 * line + i)) ∧
      (x.st = .M ∨ x.data = bytesAt s.hostMem (64 * line) 64 →
        (∃ t, exec (.hostSnpinv ⟨line, []⟩) s = .next t ∧ KeepsMemory s t ∧ mget t.hostLines line = none ∧ t.woken = s.woken ++ [hostBase / 64 + line]) ∧
        ∃ t, exec (.hostLineEviction line) s = .next t ∧ KeepsMemory s t ∧ mget t.hostLines line = none ∧
          t.woken = s.woken ++ [hostBase / 64 + line])

/-- The mailbox (R401 to R404, R406): a module record or a firmware image is taken only where its signatures verify; keys are set and
cleared inside a secure session only, which a device whose identity record was accepted opens; measurements end with the requester's
nonce and are signed with each device key; and an event ring is named by the 64-byte aligned address of its header in HBM. In recovery
the steward's mailbox services are not there. RESET, power and heat (R400 to R402, R408, R409): a reset leaves the reset state with the
settings of the module record, or in recovery with the defaults where the record does not verify, and tells whether the identity record
verifies; the core clock goes down by 50 MHz, at least to 350, under power and heat and up again to 700; and at a thermal trip an event
is recorded and all issue stops until a reset. The model's choices: that host memory, annex memory, host maps and inputs stand through a
reset (log entry 18), that an empty flash stands for a record of the defaults (log entry 40), and the order of the identity record's
bytes (log entry 100). -/
def Obligations.MailboxAndModule : Prop :=
  (
    ∀ (s : State) (slot : Nat) (nsid : W32) (key : BitVec 256) (bs : List Byte) (addr : W64),
      let same (i : Instr) : Prop := exec i s = .next { s with epoch := s.epoch + 1 }
      exec .spdmSecureSession s = .next { s with spdm := s.identified, epoch := s.epoch + 1 } ∧
      (s.spdm = true → s.recovery = false → slot < 4096 →
        (slot = nsid.toNat → exec (.setkey slot nsid key) s =
          .next { s with nskeys := mput s.nskeys slot (toBytes key.toNat 32), epoch := s.epoch + 1 }) ∧
        exec (.clearkey slot) s = .next { s with nskeys := mdel s.nskeys slot, epoch := s.epoch + 1 }) ∧
      (s.spdm = false → same (.setkey slot nsid key) ∧ same (.clearkey slot)) ∧
      exec (.mailboxModuleRecord bs slot) s = .next { s with flash := if recordOk bs then bs else s.flash, epoch := s.epoch + 1 } ∧
      (s.recovery = false → ∃ f : FwImage, f.digest = blake3 bs ∧ exec (.mailboxFirmwareStage bs) s =
        .next { s with fws := if Config.verifies 0 bs [] ∧ Config.verifies 1 bs [] then s.fws ++ [f] else s.fws, epoch := s.epoch + 1 }) ∧
      (∃ body, body.drop (body.length - bs.length) = bs ∧ exec (.getMeasurements bs) s =
        .next { s with measured := if s.identified then some { body := body, sigs := [Config.sign 0 body, Config.sign 1 body] } else none
                       epoch := s.epoch + 1 }) ∧
      (s.recovery = false → addr.toNat % 64 = 0 → addr.toNat < hbmTop →
        exec (.eventRingName addr slot) s = .next { s with eventRing := addr.toNat, epoch := s.epoch + 1 }) ∧
      (addr.toNat % 64 ≠ 0 ∨ hbmTop ≤ addr.toNat → same (.eventRingName addr slot)) ∧
      (s.recovery = true → same (.setkey slot nsid key) ∧ same (.mailboxFirmwareStage bs) ∧ same (.eventRingName addr slot))) ∧
  (
    ∀ (s : State),
      let kept (r : State) : State := { r with epoch := s.epoch + 1, inputs := s.inputs, flash := s.flash, ident := s.ident
                                               identified := identOk s.ident, hostMem := s.hostMem, hostMaps := s.hostMaps, cxlCache := s.cxlCache, annexMem := s.annexMem }
      (s.flash = [] → exec .reset s = .next (kept State.reset)) ∧
      (s.flash ≠ [] → ∃ t, exec .reset s = .next t ∧
        if recordOk s.flash then
          t.recovery = false ∧ t.limits = limitsOf (ofBytes (s.flash.take 256)) ∧ t = kept { State.reset with limits := t.limits, cores := t.cores } ∧
            ∀ c, c < 128 → getCore t c = { CoreSt.empty with ageLimit := t.limits.ageLimit, b3 := 0x200000 - t.limits.stewardArea }
        else t = kept { State.reset with recovery := true }) ∧
      (s.coreMHz ≠ 0 →
        let lower : Out := .next { s with coreMHz := max 350 (s.coreMHz - 50), epoch := s.epoch + 1 }
        let higher : Out := .next { s with coreMHz := min 700 (s.coreMHz + 50), epoch := s.epoch + 1 }
        exec .powerOverCap s = lower ∧ exec .thermalThrottle s = lower ∧ exec .powerBelowCap s = higher ∧ exec .thermalRecovery s = higher) ∧
      (∀ t, exec .reset s = .next t → (t.identified = true ↔ s.ident.iver = 1 ∧ Config.verifies 0 s.ident.bytes (s.ident.sigs.getD 0 []) = true ∧
        Config.verifies 1 s.ident.bytes (s.ident.sigs.getD 1 []) = true)) ∧
      ∃ t e, exec .thermalTrip s = .next t ∧ t.coreMHz = 0 ∧ t.iss.isOpen = false ∧ s.events ++ [e] <+: t.events ∧
        (s.eventRing = 0 → t.events = s.events ++ [e] ∧ t.parts = s.parts ∧ ∀ a, peek t a = peek s a))

/-- The annex and the repository (R390 to R395): a shareable extent is refused and another of one of the 8 regions mapped in 256 MiB
granules, as is a static range; a release begins a grace with its promotions, after which new translations fault, and then the extent is
gone; a forced release does so at once, with an event that names every dropped line; queue pairs are handed over; and a Read ends with
its data, with an error, or at REPOTO. -/
def Obligations.AnnexAndRepository : Prop :=
  ∀ (s : State),
    (∀ port base size region, exec (.annexExtentOffer port base size (.extent region true)) s = .next { s with epoch := s.epoch + 1 } ∧
      (8 ≤ region → exec (.annexExtentOffer port base size (.extent region false)) s = .next { s with epoch := s.epoch + 1 })) ∧
    (∀ port first n b e, port < 4 → 0 < n → b < granuleBytes → b ≤ first * granuleBytes → e < granuleBytes → (∃ p ∈ windowPlaces s, windowFits s n p = true) →
      ∃ t p, windowFits s n p = true ∧
        exec (.annexExtentOffer port (first * granuleBytes - b) (b + n * granuleBytes + e) .hdm) s = .next t ∧ t.extents = s.extents ∧
        ∀ g, mget t.annexMap g = if p ≤ g ∧ g < p + n then some { v := true, port := port, base := (first + (g - p)) * granuleBytes } else
          mget s.annexMap g) ∧
    (∀ port base n region, port < 4 → region < 8 → 0 < n → base % granuleBytes = 0 → (∃ p ∈ windowPlaces s, windowFits s n p = true) →
      ∃ t p, windowFits s n p = true ∧ exec (.annexExtentOffer port base (n * granuleBytes) (.extent region false)) s = .next t ∧
        (∀ g, mget t.annexMap g = if p ≤ g ∧ g < p + n then some { v := true, port := port, base := base + (g - p) * granuleBytes } else
          mget s.annexMap g) ∧
        mget t.extents s.nextId = some { first := p, count := n, since := none, grace := [] }) ∧
    (∀ id x, mget s.extents id = some x →
      let here (g : Nat) : Prop := x.first ≤ g ∧ g < x.first + x.count
      let gone (t : State) : Prop := mget t.extents id = none ∧ ∀ g, here g → mget t.annexMap g = none
      (x.since = none → ∃ t y, exec (.annexReleaseRequest id) s = .next t ∧ mget t.extents id = some y ∧
        y = { x with since := some s.uclock, grace := y.grace } ∧ y.grace.length = (gracePromotions s x).length ∧
        t.events.length = s.events.length + 1 ∧ ∀ j ∈ y.grace, ∃ z, mget t.catOps j = some z ∧ z.kind = 3) ∧
      (∀ since, x.since = some since → s.uclock < since + s.limits.annexGrace * 1500000000 →
        exec (.annexgraceExpiry id) s = .next { s with epoch := s.epoch + 1 }) ∧
      (∀ since, x.since = some since → since + s.limits.annexGrace * 1500000000 ≤ s.uclock →
        (stillToExtent s x = true → ∃ t, exec (.annexgraceExpiry id) s = .next t ∧ mget t.extents id = some x ∧
          ∀ g, here g → mget t.annexMap g = (mget s.annexMap g).map fun e => { e with v := false }) ∧
        (stillToExtent s x = false → ∃ t, exec (.annexgraceExpiry id) s = .next t ∧ gone t)) ∧
      (∃ t, exec (.annexForcedRelease id) s = .next t ∧ gone t ∧
        { code := 0x0B, loc := x.lo, detail := [x.lo, x.hi] ++ (bufferLines s x).map (lineAddr s x) : EventRec } ∈ t.events)) ∧
    (∀ sq cq depth, sq < 512 → 1 ≤ depth → depth ≤ 1024 → (∀ e ∈ s.nvmeQs, e.1 ≠ sq) → exec (.nvmeQueueHandoff sq cq depth) s =
      .next { s with nvmeQs := s.nvmeQs ++ [(sq, cq, depth)], epoch := s.epoch + 1 }) ∧
    ∀ cmd x data, mget s.nvme cmd = some x →
      (∀ f, x.kind = 0 → mget s.fetches x.owner = some f →
        let ends (g : Fetch) : Out := .next { s with nvme := mdel s.nvme cmd, fetches := mput s.fetches x.owner g, epoch := s.epoch + 1 }
        exec (.nvmeCompletion cmd true data) s = ends { f with data := data.take x.bytes, full := true } ∧
        exec (.nvmeCompletion cmd false data) s = ends { f with failed := true } ∧
        (x.since + s.limits.repoto * 1500000000 ≤ s.uclock → exec (.repotoExpiry cmd) s = ends { f with failed := true })) ∧
      (x.kind ≠ 0 ∨ s.uclock < x.since + s.limits.repoto * 1500000000 → exec (.repotoExpiry cmd) s = .next { s with epoch := s.epoch + 1 }) ∧
      ∀ r kc, x.kind = 1 → mget s.recalls x.owner = some r → r.stage = 1 → (spacesOf s r.queue).2 = some kc →
        ∃ t, exec (.nvmeCompletion cmd true data) s = .next t ∧ mget t.recalls x.owner = some { r with stage := 2 }

/-- QUEUE_VISIT, PACKET_FETCH and QUEUE_RESUME (R338 to R342): the window of a queue begins at CONS; a slot whose phase shows it filled
is copied with its job card, and one that breaks a rule of its tables stops the queue; and a queue goes on once software has cleared
QERR: all that it stands stopped at is to be read again whole. That a packet which has already issued goes on without being read again
is the model's choice (log entry 70). A running graph fetches its nodes in order, and a packet retires with its work done (R345, R354):
a launch with its tasks and its children and no result of a killed task in flight, a graph past its last node with none of them open, a
flush with nothing translated before it still to perform. A launch or a graph whose own work is done stands ended until then (Table
14.6). -/
def Obligations.QueueServiceAndGraphs : Prop :=
  (
    ∀ (s u v w : State) (q k : Nat), s.memoryOk = true →
      (served s q = false → exec (.queueVisit q) s = .next { s with epoch := s.epoch + 1 } ∧
        exec (.packetFetch q k) s = .next { s with epoch := s.epoch + 1 }) ∧
      (∀ r l h, served s q = true → queueHead s q = (u, some (r, l, h)) → mget s.queues q = none →
        (∀ e ∈ s.pkts, ¬ (e.2.isRing = true ∧ e.2.queue = q)) → ∃ t, exec (.queueVisit q) s = .next t ∧ KeepsMemory s t ∧ mget t.queues q =
          some { base := qCons h, retired := [], lastRead := qCons h, stopped := [], visited := s.uclock, fw := newestFw u }) ∧
      (∀ qs r l h x, served s q = true → mget s.queues q = some qs → qs.base ≤ k → k < qs.base + 16 → qs.retired.contains k = false →
        ringPkt s q k = none → queueHead s q = (u, some (r, l, h)) → k < qs.lastRead + qSize h → slotWords u q k (qSize h) = (v, some x) →
        (pktPhase x ≠ phaseOf k (qSize h) → ∃ t, exec (.packetFetch q k) s = .next t ∧ t.pkts = s.pkts ∧ KeepsMemory s t) ∧
        (pktPhase x = phaseOf k (qSize h) → pktOk x = true → pktType x ≠ 3 →
          (∀ card, readCard v q (cardAddr x) = (w, .ok card) → ∃ t p, exec (.packetFetch q k) s = .next t ∧ KeepsMemory s t ∧
            mget t.pkts s.nextId = some p ∧ p.queue = q ∧ p.k = k ∧ p.words = pktWords x ∧ p.card = card ∧ p.st = .fetched) ∧
          (∀ e, readCard v q (cardAddr x) = (w, .error e) → ∃ t, exec (.packetFetch q k) s = .next t ∧ t.pkts = s.pkts ∧
            (queueSt t q).stopped ≠ [])) ∧
        (pktPhase x = phaseOf k (qSize h) → pktOk x = false ∨ pktType x = 3 → ∃ t, exec (.packetFetch q k) s = .next t ∧ t.pkts = s.pkts ∧
          (queueSt t q).stopped ≠ [])) ∧
      ((queueSt s q).stopped ≠ [] →
        let back := { s with queues := mput s.queues q { queueSt s q with stopped := [] } }
        (peekNat s (queueAddr s q + 0x70) 1 ≠ 0 → exec (.queueResume q) s = .next { s with epoch := s.epoch + 1 }) ∧
        (peekNat s (queueAddr s q + 0x70) 1 = 0 →
          ((∀ id ∈ (queueSt s q).stopped, ∀ p, mget s.pkts id = some p → p.st ≠ .fetched ∨ p.isRing = true) →
            ∃ t, exec (.queueResume q) s = .next t ∧ t = { back with pkts := t.pkts, epoch := s.epoch + 1 } ∧
              ∀ id, mget t.pkts id = if id ∈ (queueSt s q).stopped ∧ (mget s.pkts id).any (fun p => p.st == .fetched) = true then none
                else mget s.pkts id) ∧
          ∀ id p g r ws card, (queueSt s q).stopped = [id] → mget s.pkts id = some p → p.st = .fetched → p.isRing = false →
            graphOf s p = some (g, r) → readNode back q (r.base + 64 * p.node) = (u, .ok (ws, card)) →
            ∃ t, exec (.queueResume q) s = .next t ∧ KeepsMemory s t ∧ (queueSt t q).stopped = [] ∧
              mget t.pkts id = some { p with words := ws, card := card }))) ∧
  (
    ∀ (s u : State) (id : Nat) (p : Pkt), mget s.pkts id = some p → s.memoryOk = true →
      let nodes := s.pkts.filter fun e => e.2.graph == some id
      (∀ r ws card, p.type = 2 → p.run = some r → enabled s p.queue = true → standsStopped s p.queue id = false → r.ptr < r.nnode →
        (∀ e ∈ nodes, r.execs < e.2.k + 16 ∧ e.2.type ≠ 3) → s.nextId ≠ id → readNode s p.queue (r.base + 64 * r.ptr) = (u, .ok (ws, card)) →
        ∃ t n y, exec (.pktGraph id) s = .next t ∧ KeepsMemory s t ∧ mget t.pkts s.nextId = some n ∧ n.words = ws ∧ n.card = card ∧
          n.graph = some id ∧ n.node = r.ptr ∧ n.k = r.execs ∧ n.st = .fetched ∧ mget t.pkts id = some y ∧
          y.run = some { r with ptr := if n.type = 3 then r.ptr else r.ptr + 1, execs := r.execs + 1 }) ∧
      (∀ g gg, p.type = 1 → p.gang = some g → mget s.gangs g = some gg →
        (gg.released = false ∨ gg.live ≠ 0 → exec (.packetRetire id) s = .next { s with epoch := s.epoch + 1 }) ∧
        (gg.released = true → gg.live = 0 → (childrenOf s g ≠ [] ∨ resultsLeft s gg = true → exec (.packetRetire id) s =
            .next { s with pkts := mput s.pkts id { p with st := .ended }, epoch := s.epoch + 1 }) ∧
          (childrenOf s g = [] → resultsLeft s gg = false → ∃ t, exec (.packetRetire id) s = .next t ∧ mget t.pkts id = none ∧ mget t.gangs g = none ∧
            ∀ j, j ≠ id → mget t.pkts j = mget s.pkts j))) ∧
      (∀ r, p.type = 2 → p.run = some r →
        (r.ptr < r.nnode → exec (.packetRetire id) s = .next { s with epoch := s.epoch + 1 }) ∧
        (r.nnode ≤ r.ptr → nodes ≠ [] → exec (.packetRetire id) s =
          .next { s with pkts := mput s.pkts id { p with st := .ended }, epoch := s.epoch + 1 }) ∧
        (r.nnode ≤ r.ptr → nodes = [] → ∃ t, exec (.packetRetire id) s = .next t ∧ mget t.pkts id = none ∧ t.gangs = s.gangs)) ∧
      (p.type = 5 → p.st = .issued →
        ((∀ o ∈ p.ops, opLeft s o = false) → ∃ t, exec (.packetRetire id) s = .next t ∧ mget t.pkts id = none ∧ t.gangs = s.gangs) ∧
        ((∃ o ∈ p.ops, opLeft s o = true) → exec (.packetRetire id) s = .next { s with epoch := s.epoch + 1 })))

/-- The packets (R341 to R346): a packet on which nothing that it depends on stands open, and whose slot still reads the same, has its
effect, and then its slot is released: NOP and WRITE retire, WRITE with its word stored; FLUSH drops the cached records of its queue's
table and stands issued; GRAPH begins its run; COND moves the node pointer; LAUNCH makes its gang a candidate. -/
def Obligations.PacketsIssue : Prop :=
  ∀ (s u v : State) (id : Nat) (p : Pkt), mget s.pkts id = some p → mayIssue s id p = true → s.memoryOk = true →
    let x := p.value
    let released (i : Instr) (w : State) : Prop := exec i s = .next { releaseSlots w p.queue with epoch := s.epoch + 1 }
    (p.type = 0 → rereadSlot s id p = (u, true) → ∃ w, released (.pktNop id) w ∧ mget w.pkts id = none ∧ KeepsMemory s w) ∧
    (∀ r a, p.type = 4 → s.relocs = [] → a + 8 ≤ hbmTop → rereadSlot u id p = (v, true) →
      xlateAl s ioDie p.queue (BitVec.ofNat 64 (pktAddr x + nbits x 112 16 * 2 ^ 48)) 8 8 { cls := clsCopy, rd := false, wr := true } =
        (u, .ok (r, plainCells a 8)) →
      ∃ w, released (.pktWrite id) w ∧ mget w.pkts id = none ∧ peekNat w a 8 = nbits x 192 64 ∧
        ∀ b, b < a ∨ a + 8 ≤ b → peek w b = peek s b) ∧
    (p.type = 5 → rereadSlot s id p = (u, true) → ∃ w y, released (.pktFlush id) w ∧ mget w.pkts id = some y ∧
      y = { p with st := .issued, ops := y.ops } ∧ KeepsMemory s w ∧
      (x.testBit 64 = true → ∀ o ∈ inFlightOps u (List.range 128) (tabOf s p.queue).ctx none, o ∈ y.ops) ∧ (x.testBit 64 = true → ∀ c, c ≤ 128 → ∀ e ∈ (getCore w c).olc, e.ctx ≠ (tabOf s p.queue).ctx)) ∧
    (p.type = 2 → p.run = none → rereadSlot s id p = (u, true) → ∃ w, released (.pktGraph id) w ∧ KeepsMemory s w ∧ mget w.pkts id =
      some { p with st := .issued, run := some { base := pktAddr x, nnode := nbits x 192 13, ptr := 0, taken := [], execs := 0 } }) ∧
    (∀ r l g gp, p.type = 3 → p.isRing = false → graphOf s p = some (g, gp) → g ≠ id →
      xlateAl s ioDie p.queue (BitVec.ofNat 64 (nbits x 64 64)) 8 8 { cls := clsCopy, rd := true, wr := false } = (u, .ok (r, l)) →
      let n := (mget gp.taken p.node).getD 0
      let holds := condHolds (nbits x 192 4) 64 (ofBytes (l.map (memByte s))) (nbits x 128 64) && n < nbits x 224 32
      ∃ t y z, exec (.pktCond id) s = .next t ∧ mget t.pkts id = none ∧ KeepsMemory s t ∧ mget t.pkts g = some y ∧ y.run = some z ∧
        (l.length = 8 → holds = true → z = { gp with ptr := nbits x 208 12, taken := mput gp.taken p.node (n + 1) }) ∧
        (l.length = 8 → holds = false → z = { gp with ptr := p.node + 1 })) ∧
    (p.type = 1 → cardDue p = false →
      let a := pktAddr x
      let y := peekNat s a 128
      let im := lrImage y
      let h := peekNat s im 64
      let good := launchOk s.limits.stewardArea y && imageOk s im (lrImofs y) h && placeable s y (thShape h)
      (a + 128 ≤ hbmTop → good = true →
        rereadSlot (touchRead (touchRead (touchRead s a 128) im 64) im (areaOff h + thImlen h)) id p = (u, true) →
        ∃ w g, released (.pktLaunch id) w ∧ KeepsMemory s w ∧ mget w.pkts id = some { p with st := .issued, gang := some s.nextId } ∧
          mget w.gangs s.nextId = some g ∧ g.waiting = true ∧ g.released = false ∧ g.pkt = id ∧ g.queue = p.queue ∧ g.lrec = y ∧
          g.live = (launchCores y).length * launchParts y ∧ g.waits = s.uclock) ∧
      (p.parent = none → hbmTop < a + 128 ∨ good = false →
        ∃ t, exec (.pktLaunch id) s = .next t ∧ id ∈ (queueSt t p.queue).stopped ∧ t.gangs = s.gangs))

/-- Gangs (R215, R216, R352, R353, R355 to R357): a gang that can be placed, and that the order of R355 puts first among those with a
claim to its room, is placed whole, in free partitions; at its release its image lies in instruction memory and its flags are preset,
and its tasks become ready on one clock, with the registers of Table 14.10; a gang that has waited too long or wants other boundaries
closes its cores; a boundary change is made on a quiet core and empties the core cache; and slices are counted from reset.
FIRMWARE_ACTIVATION (R383) needs an image that takes every saved layout. That swapped-out tasks do not keep a core from being quiet is
the model's choice (log entry 69), and so is the start of the undefined registers and windows (log entry 6). -/
def Obligations.Gangs : Prop :=
  ∀ (s : State) (gid : Nat) (g : Gang), mget s.gangs gid = some g →
    (placeDue s gid g = true → g.parent ≠ some gid → launchOk s.limits.stewardArea g.lrec = true → ∃ t y,
      exec (.gangPlace gid) s = .next t ∧ mget t.gangs gid = some y ∧ y = { g with placed := true, tasks := y.tasks, closed := none, holds := [] } ∧
      y.tasks.length = (launchCores g.lrec).length * launchParts g.lrec ∧ (∀ a, peek t a = peek s a) ∧
      ∀ k i, (k, i) ∈ y.tasks → (getPart s (k / 32) (k % 32)).ps = .free ∧ (getPart t (k / 32) (k % 32)).ps = .placed ∧
        (getPart t (k / 32) (k % 32)).gang = some gid ∧ (getPart t (k / 32) (k % 32)).queue = g.queue ∧ i < launchParts g.lrec ∧
        (getPart t (k / 32) (k % 32)).spbase = lrSpb g.lrec ∧ (getPart t (k / 32) (k % 32)).splen = lrSpl g.lrec ∧
        (getPart t (k / 32) (k % 32)).tslen = thTslen g.head ∧ (getPart t (k / 32) (k % 32)).wregs = thW g.head) ∧
    (placeDue s gid g = true → msorted s.gangs = true → ∀ c ∈ rivals s g.cores g.kids,
      let me := gangCand s gid g
      (runFits s c.run = true → runFits s me.run = true) ∧
      (runFits s c.run = runFits s me.run → c.rank ≤ me.rank ∧ (c.rank = me.rank → me.queue ≤ c.queue ∧
        (c.queue = me.queue → me.cls ≤ c.cls ∧ (c.cls = me.cls → me.order ≤ c.order))))) ∧
    (placeDue s gid g = false → exec (.gangPlace gid) s = .next { s with epoch := s.epoch + 1 }) ∧
    (g.placed = true → g.released = false → s.memoryOk = true → (g.tasks.map (·.1)).Nodup → ∃ t, exec (.gangRelease gid) s = .next t ∧
      KeepsMemory s t ∧ mget t.gangs gid = some { g with released := true, numbers := tab g.tasks.length fun i => s.nextId + i } ∧
      (∀ c, c ∈ g.cores → (getCore t c).cache = [] ∧
        (∀ f, f < 64 → (lrFmask g.lrec).testBit f = true → flagOf (getCore t c) f = lrFval g.lrec) ∧
        (∀ f, (lrFmask g.lrec).testBit f = false → flagOf (getCore t c) f = flagOf (getCore s c) f) ∧
        (lrKeep g.lrec = true → (getCore t c).imem = (getCore s c).imem) ∧
        (lrKeep g.lrec = false → ∀ j, j < thImlen g.head / 4 → (mget (getCore t c).imem (4 * lrImofs g.lrec + j)).getD 0 =
          BitVec.ofNat 32 (peekNat s (lrImage g.lrec + areaOff g.head + 4 * j) 4))) ∧
      ∀ k i, (k, i) ∈ g.tasks →
        let p := getPart t (k / 32) (k % 32)
        let o := getPart s (k / 32) (k % 32)
        p.ps = .ready ∧ p.age = 0 ∧ p.AtStart ∧ p.s = startS (((mget s.pkts g.pkt).map Pkt.value).getD 0) ∧
          p.at_ = Point.start (absAddr (lrImofs g.lrec) (thEntry g.head)) ∧ p.ft = startFt g ∧
          (∀ l : Fin 8, p.coord[l] = coordOf g.lrec (k / 32) i l) ∧
          p.tvec = (if thTv g.head then absAddr (lrImofs g.lrec) (thTrap g.head) else 0x80000000) ∧
          p.gang = o.gang ∧ p.queue = o.queue ∧ p.role = o.role ∧ p.slots = o.slots ∧ p.accs = o.accs ∧ p.wregs = o.wregs ∧
          p.tslen = o.tslen ∧ p.segmax = o.segmax ∧ p.wbase = o.wbase ∧ p.tsbase = o.tsbase ∧ p.spbase = o.spbase ∧ p.splen = o.splen) ∧
    (closeDue s g = true → exec (.gangClose gid) s =
      .next { s with gangs := mput s.gangs gid { g with closed := some s.uclock }, epoch := s.epoch + 1 }) ∧
    (closeDue s g = false → exec (.gangClose gid) s = .next { s with epoch := s.epoch + 1 }) ∧
    (∀ core b, lrBounds g.lrec = some b → changeDue s gid g core = true → exec (.poolBoundaryChange core b.1 b.2.1 b.2.2) s =
      .next { setCore s core { getCore s core with b1 := b.1, b2 := b.2.1, b3 := b.2.2, cache := [], scratch := [], spWas := [], bepoch := s.epoch + 1 } with
        epoch := s.epoch + 1 }) ∧
    (∀ core b, lrBounds g.lrec = some b → coreQuiet s core = false →
      exec (.poolBoundaryChange core b.1 b.2.1 b.2.2) s = .next { s with epoch := s.epoch + 1 }) ∧
    exec .sliceStart s = .next { s with slice := s.clock / s.limits.slice, epoch := s.epoch + 1 } ∧
    ∀ q f, s.fws.getLast? = some f →
      let others := (s.queues.filter fun e => e.1 != q).map fun e => e.2.fw
      (layoutsListed s q f = true → (∀ a ∈ others, ∀ b ∈ others, a ≠ s.fws.length → b ≠ s.fws.length → a = b) →
        exec (.firmwareActivation q) s = .next { s with queues := mput s.queues q { queueSt s q with fw := s.fws.length }, epoch := s.epoch + 1 }) ∧
      (layoutsListed s q f = false → exec (.firmwareActivation q) s = .next { s with epoch := s.epoch + 1 })

/-- SEAL_RUN (R157 to R159): the shelfmark of the tail's tokens, chained from the last node of the path, is probed; with no match the
tail's node is sealed in its place, and with a match its layers are merged one by one into those of the node found, the tail's node is
released, and the outcome tells whether any layer diverges; a match that is being recalled makes the seal wait, and one whose loans are
at their limit ends it; and at the end the path names the node, with the sequence's new position, and the record is due. -/
def Obligations.Seals : Prop :=
  ∀ (s s1 s2 s3 s4 s5 s6 s7 s8 : State) (id : Nat) (op : CatOp) (x : CatAt), mget s.catOps id = some op → op.kind = 0 →
    let ended (st : Nat) (t : State) : Prop := mget t.catOps id = none ∧
      ∃ r, t.held = s.held ++ [r] ∧ r.queue = op.queue ∧ r.ring = op.ring ∧ r.body.head? = some (BitVec.ofNat 8 st)
    (∀ e, catPre s op.queue op.seqH = (s1, .error e) → ∃ t, exec (.sealRun id) s = .next t ∧ ended 0x13 t) ∧
    (catPre s op.queue op.seqH = (s1, .ok x) → nodeRec s1 x.k x.sr.tail = (s2, none) → ∃ t, exec (.sealRun id) s = .next t ∧ ended 0x13 t) ∧
    (∀ n tl ls parent psm, catPre s op.queue op.seqH = (s1, .ok x) → nodeRec s1 x.k x.sr.tail = (s2, some n) →
      lastNode s2 x.sr = (s3, .ok parent) → layersOf s3 x.k x.sr.tail = (s4, .ok tl) →
      (parent = 0 ∧ psm = 0 ∧ s5 = s4 ∨ parent ≠ 0 ∧ ∃ pr, nodeRec s4 x.k parent = (s5, some pr) ∧ psm = pr.sm) →
      (digestTail (touchRead s5 n.tokens 256) x.k tl = (s6, none) → ∃ t, exec (.sealRun id) s = .next t ∧ ended 0x13 t) ∧
      (digestTail (touchRead s5 n.tokens 256) x.k tl = (s6, some ls) →
        let toks := tokensAt s6 n.tokens
        let sm := shelfmarkOf op.key psm x.sr.fprint toks
        let pr := probe s6 x.k x.c sm x.sr.nsid x.sr.fprint toks parent
        let st := (accession s7 op.queue x n sm parent ls).2
        (pr = (s7, none) → ∃ t, exec (.sealRun id) s = .next t ∧ ended 0x13 t) ∧
        (pr = (s7, some none) → ∃ t, exec (.sealRun id) s = .next t ∧ ended st t ∧ (st = 0 ∨ st = 0x12) ∧
          t = { sealFinish (accession s7 op.queue x n sm parent ls).1 id op x x.sr.tail st with epoch := s.epoch + 1 }) ∧
        (∀ m ml, pr = (s7, some (some m)) → layersOf s7 x.k m = (s8, .ok ml) →
          ((∃ h ∈ ml.filterMap fun l => l, h.2.fstate = fRecalling) → exec (.sealRun id) s = .next { s with epoch := s.epoch + 1 }) ∧
          ((∀ h ∈ ml.filterMap fun l => l, h.2.fstate ≠ fRecalling) → (∃ h ∈ ml.filterMap fun l => l, h.2.loans = loanTop) →
            ∃ t, exec (.sealRun id) s = .next t ∧ ended 0x0B t) ∧
          ((∀ h ∈ ml.filterMap fun l => l, h.2.fstate ≠ fRecalling ∧ h.2.loans ≠ loanTop) →
            let merged := (List.zip (List.range ls.length) ls).foldl (fun acc e => dedupLayer x m e.1 acc e.2) (s8, false)
            let st := if merged.2 then 0x11 else 0x10
            ∃ t, exec (.sealRun id) s = .next t ∧ ended st t ∧
              t = { sealFinish (release merged.1 x.c 1 x.sr.tail) id op x m st with epoch := s.epoch + 1 })))) ∧
    (∀ (n l : Nat) (d : Bool) (y : TailLayer),
      let f := folioNo s x.k n l
      let h := folHdr s x.k f
      (dedupLayer x n l (s, d) y).2 =
        (d || (f != 0 && h.fstate != fAbsent && h.fstate != fDamaged && decide (2 ≤ h.tier) && h.digest != y.digest))) ∧
    ∀ n st, s.memoryOk = true →
      let t := sealFinish s id op x n st
      let a := x.k.seqAddr op.seqH
      let e := x.sr.path + 8 * x.sr.npath
      a + 64 ≤ hbmTop → e + 8 ≤ hbmTop → (e + 8 ≤ a ∨ a + 64 ≤ e) →
      t.memoryOk = true ∧ peekNat t e 8 = (n + 2 ^ 32) % 2 ^ 64 ∧ peekNat t (a + 0x0C) 4 = (x.sr.npath + 1) % 2 ^ 32 ∧
        peekNat t (a + 0x18) 4 = op.args.getD 0 0 % 2 ^ 32 ∧
        ∀ b, ¬ (e ≤ b ∧ b < e + 8) → ¬ (a + 0x0C ≤ b ∧ b < a + 0x10) → ¬ (a + 0x18 ≤ b ∧ b < a + 0x1C) → peek t b = peek s b

/-- CATLOOK_RUN (R149, R165, R175): a lookup goes node by node, each shelfmark chained from the node before: a match is listed with its
shelfmark, number and layers, a miss ends it with what has been listed, and so do the end of the tokens and a fault. That tokens which
come poisoned end it with DAMAGED is the model's choice (log entry 45). -/
def Obligations.Lookups : Prop :=
  ∀ (s u0 u : State) (id psm : Nat) (op : CatOp), mget s.catOps id = some op → op.kind = 1 →
    let ended (st : Nat) (t : State) : Prop := mget t.catOps id = none ∧
      ∃ r, t.held = s.held ++ [r] ∧ r.queue = op.queue ∧ r.ring = op.ring ∧ r.body.head? = some (BitVec.ofNat 8 st)
    (spacesOf s op.queue = (u, none) → ∃ t, exec (.catlookRun id) s = .next t ∧ ended 0x13 t) ∧
    ∀ k c, spacesOf s op.queue = (u0, some (k, c)) →
      (op.step < op.args.getD 1 0 / 64 → op.parent ≠ 0 → (nodeRec u0 k op.parent).2 = none →
        ∃ t, exec (.catlookRun id) s = .next t ∧ ended 0x13 t) ∧
      (op.args.getD 1 0 / 64 ≤ op.step → ∃ t, exec (.catlookRun id) s = .next t ∧ (op.fault = none → ended op.status t)) ∧
      (op.step < op.args.getD 1 0 / 64 →
        (op.parent = 0 ∧ psm = 0 ∧ u = u0 ∨ op.parent ≠ 0 ∧ ∃ pr, nodeRec u0 k op.parent = (u, some pr) ∧ psm = pr.sm) →
        let tok := op.args.getD 0 0
        let x := xlateAl u ioDie op.queue (objAddr (tok / 2 ^ 44) (tok % 2 ^ 44 + 256 * op.step)) 256 1 { cls := clsCopy, rd := true, wr := false }
        (∀ e, x.2 = .error e → ∃ t r, exec (.catlookRun id) s = .next t ∧ mget t.catOps id = none ∧ t.held = s.held ++ [r] ∧
          (r.body.drop 1).head? = some (BitVec.ofNat 8 e.code)) ∧
        (∀ r l, x.2 = .ok (r, l) →
          let v := (readCells x.1 l).1
          let toks := tab 64 fun i => nbits (readCells x.1 l).2 (32 * i) 32
          let fp := op.args.getD 4 0
          let nsid := op.args.getD 5 0
          let sm := shelfmarkOf op.key psm fp toks
          let pr := probe v k c sm nsid fp toks op.parent
          let bad := (linesOf l).any fun n => poisonedAt v (64 * n) 64
          (bad = true → ∃ t, exec (.catlookRun id) s = .next t ∧ (op.fault = none → ended 0x13 t)) ∧
          (bad = false → mget s.fetches id = none → op.fault = none →
            (pr.2 = some none → op.args.getD 2 0 ≠ 1 → ∃ t, exec (.catlookRun id) s = .next t ∧ ended op.status t) ∧
            (∀ n ls w p, pr.2 = some (some n) → (layersOf pr.1 k n).2 = .ok ls → s.relocs = [] → s.memoryOk = true → p + 24 ≤ hbmTop →
              let out := op.args.getD 3 0
              let a := objAddr ((BitVec.ofNat 64 out).toNat / 2 ^ 44) ((BitVec.ofNat 64 out).toNat % 2 ^ 44 + 24 * op.step)
              (xlateAl (layersOf pr.1 k n).1 ioDie op.queue a 24 1 { cls := clsCopy, rd := false, wr := true }).2 = .ok (w, plainCells p 24) →
              ∃ t, exec (.catlookRun id) s = .next t ∧ mget t.catOps id = some { op with step := op.step + 1, bytes := op.bytes + 24, parent := n } ∧
                peekNat t p 16 = sm % 2 ^ 128 ∧ peekNat t (p + 16) 4 = n % 2 ^ 32 ∧ peekNat t (p + 20) 2 = lowLayers ls % 2 ^ 16 ∧
                peekNat t (p + 22) 2 = 0 ∧ ∀ b, b < p ∨ p + 24 ≤ b → peek t b = peek s b))))

/-- DEMOTION_PASS and RECALL_DATA_MOVE (R154, R155, R168): where the occupancy of a tier is above the high watermark, the first
candidate of the order is committed to its next stop; and a committed recall ends with its folio in the stacks, dropped, or in the annex
once its image stands there, while one to the repository writes its image by NVM Express first; the header then names the new place, and
the old storage is freed. That the recalls under way count as gone from the occupancy is the model's choice (log entry 98). DEACCESSION
(R166): a node that has data, loans or work in progress stays; another leaves the catalogue, its numbers released. PROMOTION_RUN (R161,
R176): a layer at its target ends well; one whose folio is damaged or open does not, nor one that a loan keeps from going down or the
want of a loan from going up (the outcomes of a damaged and of an open folio are the model's choice, log entry 73); and verified data
fills the block that its header then names. REPLICA_REPAIR (R142): a folio that no replica repairs is damaged and its load faults; one
that a replica repairs has its data at the same place, and the load completes from the folio that it translated. -/
def Obligations.CirculationAndPromotion : Prop :=
  (
    ∀ (s u : State) (q : Nat) (k : KvSpace) (c : CatDesc), spacesOf s q = (u, some (k, c)) → s.memoryOk = true →
      (∀ cat t, (leftAfter s t ≤ highMark t ∨ candidatesOf s t = [] → exec (.demotionPass cat t) s = .next { s with epoch := s.epoch + 1 }) ∧
        ∀ x xs, highMark t < leftAfter s t → lowMark t < leftAfter s t → candidatesOf s t = x :: xs → ∃ v, exec (.demotionPass cat t) s = .next v ∧
          mget v.recalls s.nextId = some (Recall.mk x.queue x.node x.layer x.fol (destNo (destOf s x.hdr.rclass 4 t)) 0 0 0 [] none) ∧
          (∀ id, id < s.nextId → mget v.recalls id = mget s.recalls id)) ∧
      (∀ id r, mget s.recalls id = some r → r.queue = q → r.stage = 0 → r.up = none →
        (loadHeld s q r.fol = true → exec (.recallDataMove id) s = .next { s with epoch := s.epoch + 1 }) ∧
        (loadHeld s q r.fol = false → (folRec u k r.fol).2 = none → ∃ t, exec (.recallDataMove id) s = .next t ∧ mget t.recalls id = none) ∧
        (∀ v h, loadHeld s q r.fol = false → k.folAddr r.fol + 64 ≤ hbmTop → folRec u k r.fol = (v, some h) →
          (∀ w z n img p, nodeRec v k r.node = (w, some n) → recallImage w k r n h = (z, some img) →
            placeImage z r.dest (img.1.length + img.2.length) = some p →
            let y := { r with place := p, len := img.1.length + img.2.length, stage := 1, image := img.1 }
            (r.dest = 2 → ∃ t, exec (.recallDataMove id) s = .next { landImage t id y k c with epoch := s.epoch + 1 } ∧ t.memoryOk = true ∧
              mget t.images (imageKey 2 p) = some y.len) ∧
            (r.dest = 3 → ∃ t j, exec (.recallDataMove id) s = .next t ∧ mget t.recalls id = some y ∧ mget t.images (imageKey 3 p) = some y.len ∧
              mget t.nvme j = some { kind := 1, drive := (p + img.1.length / 4096) / 2 ^ 40, block := (p + img.1.length / 4096) % 2 ^ 40
                                     bytes := img.2.length, data := pad4096 img.2, owner := id, since := s.uclock })) ∧
          (r.dest = 0 → ∃ t, exec (.recallDataMove id) s = .next t ∧ mget t.recalls id = none ∧ (folHdr t k r.fol).fstate = fSealed ∧
            (folHdr t k r.fol).loans = 0 ∧ (folHdr t k r.fol).tier = 0 ∧ (folHdr t k r.fol).dbase = h.dbase) ∧
          (r.dest = 1 → h.fstate ≠ fAbsent → 2 ≤ h.tier → ∃ t, exec (.recallDataMove id) s = .next t ∧ mget t.recalls id = none ∧
            (folHdr t k r.fol).fstate = fAbsent ∧ (folHdr t k r.fol).loans = 0 ∧ (folHdr t k r.fol).dbase = 0))) ∧
      (∀ id y v h, y.up = none → y.dest < 4 → y.place < 2 ^ 48 → k.folAddr y.fol + 64 ≤ hbmTop → folRec s k y.fol = (v, some h) → ∃ w,
        landImage s id y k c = recallOver (freeStorage w k c { h with fstate := fSealed }) id 0 (y.len - k.hdrLen) ∧ w.memoryOk = true ∧
          folHdr w k y.fol = { h with fstate := fSealed, loans := 0, tier := y.dest, dbase := y.place }) ∧
      ∀ n v r w ls, nodeRec u k n = (v, some r) → layersOf v k n = (w, .ok ls) →
        let gone := ls.all fun l => l.all fun e => e.2.fstate == fAbsent && e.2.loans == 0
        (r.nstate ≠ 1 ∨ gone = false ∨ nodeBusy s q n = true → ∃ t, exec (.deaccession q n) s = .next t ∧ KeepsMemory s t) ∧
        (∀ a e, r.nstate = 1 → gone = true → nodeBusy s q n = false → a + 64 ≤ hbmTop →
          (visits w c r.sm).2.2.find? (fun e => e.2.estate == eLive && e.2.node == n) = some (a, e) →
          ∃ x, peekBytes x a 64 = ({ e with estate := eGone } : CatEntry).bytes ∧ (∀ b, b < a ∨ a + 64 ≤ b → peek x b = peek s b) ∧
            exec (.deaccession q n) s = .next { ls.foldl (fun s l => match l with
              | some (f, _) => release s c 2 f
              | none => s) (release x c 1 n) with epoch := s.epoch + 1 })) ∧
  (
    ∀ (s s1 s2 s3 s4 : State) (id : Nat),
      (∀ x k c n f h, mget s.catOps id = some x → x.kind = 2 → x.awaited = none → graceWaits s id = false → x.status = 0 → x.fault = none →
        spacesOf s x.queue = (s1, some (k, c)) → nodeRec s1 k (x.args.getD 0 0) = (s2, some n) →
        folioRef s2 k (x.args.getD 0 0) (x.args.getD 1 0 + x.step) = (s3, some f) → f ≠ 0 → folRec s3 k f = (s4, some h) → mget s.fetches id = none →
        let target := x.args.getD 4 0
        let done (st : Nat) : Prop := ∃ t, exec (.promotionRun id) s = .next t ∧
          (x.step + 1 ≤ x.args.getD 2 0 → mget t.catOps id = some { x with step := x.step + 1, status := st, awaited := none, block := none }) ∧
          (x.args.getD 2 0 < x.step + 1 → mget t.catOps id = none ∧ ∃ r, t.held = s.held ++ [r] ∧ r.queue = x.queue ∧ r.ring = x.ring ∧
            r.body.head? = some (BitVec.ofNat 8 st))
        s.memoryOk = true →
        (h.fstate = fDamaged → done 0x13) ∧ (h.fstate = fOpen → done 0x14) ∧ (h.fstate = fSealed → h.tier = target → done 0) ∧
          (h.fstate = fAbsent ∨ (h.fstate = fSealed ∧ tierUp h.tier ≤ tierUp target ∧ h.tier ≠ target) → h.loans = 0 →
            x.args.getD 3 0 ≠ 1 ∨ target ≠ 0 → done 0x16) ∧
          (h.fstate = fSealed → tierUp target < tierUp h.tier →
            (h.loans ≠ 0 → done 0x18) ∧ (h.loans = 0 → attached s target = false ∨ onPath h.rclass h.tier target = false → done 0x17)) ∧
          (h.fstate = fRecalling → ∃ t, exec (.promotionRun id) s = .next t ∧ mget t.catOps id = some x ∧ t.held = s.held)) ∧
      (∀ x k c n f b surv data m, c.fabon = false → x.args.getD 4 0 = 0 → s.memoryOk = true → b + data.length ≤ hbmTop → k.folAddr f + 64 ≤ hbmTop →
        (k.folAddr f + 64 ≤ b ∨ b + data.length ≤ k.folAddr f) →
        let t := landData s id x k c n f b surv data m
        t.memoryOk = true ∧ peekBytes t b data.length = data ∧ (folHdr t k f).fstate = fSealed ∧ (folHdr t k f).tier = 0 ∧
          (folHdr t k f).dbase = b ∧ (folHdr t k f).surv = surv % 2 ^ 64 ∧ (folHdr t k f).digest = (folHdr s k f).digest) ∧
      ∀ x h k y, mget s.kvs id = some x → x.repair = some h → kvSpaceOf s x.queue = (s1, some k) → mget s.fetches id = some y →
        (y.failed = true → (taskPart s x.core x.task).isSome = true → ∃ t, exec (.replicaRepair id) s = .next t ∧
          mget t.kvs id = some { x with fault := some (kvDamaged, x.taddr (64 * h.node)), repair := none } ∧
          (s.memoryOk = true → k.folAddr h.fol + 64 ≤ hbmTop → (folHdr t k h.fol).fstate = fDamaged)) ∧
        (y.failed = false → y.full = false → ∃ t, exec (.replicaRepair id) s = .next t ∧ t.kvs = s.kvs ∧ t.fetches = s.fetches) ∧
        ∀ data surv, y.failed = false → y.full = true → s.memoryOk = true → fabricData k (folHdr s k h.fol).digest y.data = some (data, surv) →
          h.dbase + data.length ≤ hbmTop → ∃ w, peekBytes w h.dbase data.length = data ∧
            exec (.replicaRepair id) s = .next { kvEnter (kvGive w x k h).1 x id (some k) (kvGive w x k h).2 with epoch := s.epoch + 1 } ∧
            ∀ a, a < h.dbase ∨ h.dbase + data.length ≤ a → peek w a = peek s a)

/-- A frame that arrives on an open connection (R396, R398): in its turn, and with sectors that verify, it has the effect of its type,
and is acknowledged; out of its turn, or with a sector that fails, it has none; and without an open connection, or a port that carries
its class, nothing happens. A frame that leaves has the header of Table 16.3. The number that an acknowledgement stands at and the bytes
of a payload are the model's layout (log entry 30), and so is the choice among several ports of a class, and that one without a port
neither comes nor leaves (log entry 125); and that PDATA and PREFUSE change nothing (log entry 76). Table 16.3: the header of a frame
that leaves names version 1.0, type, class, chips, numbers, lengths, queue or group and operand, and the payload follows; the frame that
it is read as is the frame that was sent. What the messages of the directory, of folios and of peers do once they arrive (R162, R163,
R165, R198). Their payloads beyond Table 16.4 are the model's own layout (log entry 30); that a read of poison is refused with CHECK,
and that the sectors which do not compare are a free choice, is the model's (log entry 76). -/
def Obligations.FabricMessages : Prop :=
  (
    ∀ (s : State) (chip : Nat) (bs : List Byte) (m : Itk), Itk.of bs = some m → m.src = chip →
      let key := connKey chip m.cls
      let types : List (Instr × Nat × (Itk → State → State)) :=
        [(.itkDreg chip bs, 0x10, dregStep chip), (.itkDquery chip bs, 0x11, dqueryStep chip), (.itkDlist chip bs, 0x12, dlistStep chip),
         (.itkFetch chip bs, 0x13, fetchFolio chip), (.itkFdata chip bs, 0x14, fdataStep chip), (.itkNohold chip bs, 0x15, noholdStep chip),
         (.itkNodeinfo chip bs, 0x16, nodeinfoStep chip), (.itkPread chip bs, 0x20, preadStep chip), (.itkPwrite chip bs, 0x21, pwriteStep chip),
         (.itkPdata chip bs, 0x22, fun _ s => s), (.itkPrefuse chip bs, 0x23, fun _ s => s), (.itkCjoin chip bs, 0x30, cjoinStep chip),
         (.itkCdata chip bs, 0x31, cdataStep chip)]
      ∀ p ∈ types, m.type = p.2.1 →
        (∀ c, mget s.conns key = some c → c.up = true → c.lost = false → carried s m.cls = true →
          (m.seq = c.expect → (carriesData m.type = true → (payloadData m.payload).isSome = true) →
            ∃ u d, exec p.1 s = .next { p.2.2 m u with epoch := s.epoch + 1 } ∧ u = { s with conns := u.conns, outbox := u.outbox } ∧
              mget u.conns key = some d ∧ d.up = true ∧ d.expect = (c.expect + 1) % 2 ^ 32 ∧ d.heard = s.uclock ∧
              ∃ w, u.outbox.getLast? = some w ∧ w.ack = (c.expect + 1) % 2 ^ 32 ∧ w.udp = s.limits.itkPort ∧ w.port ∈ portsOf s m.cls ∧
                w.frame = { type := 2, cls := m.cls, dst := chip, seq := d.next, qg := 0, opnd := 0, payload := [] }) ∧
          (m.seq ≠ c.expect ∨ (carriesData m.type = true ∧ payloadData m.payload = none) →
            ∃ t d, exec p.1 s = .next t ∧ t = { s with conns := t.conns, outbox := t.outbox, epoch := s.epoch + 1 } ∧
              mget t.conns key = some d ∧ d.expect = c.expect)) ∧
        ((carried s m.cls = false ∨ ∀ c, mget s.conns key = some c → c.up = false ∨ c.lost = true) → exec p.1 s = .next { s with epoch := s.epoch + 1 })) ∧
  (
    ∀ (w : Wire) (f : Frame), w.frame = f → f.type < 256 → f.cls < 4 → w.src < 1024 → f.dst < 1024 → f.seq < 2 ^ 32 → w.ack < 2 ^ 32 →
      f.qg < 2 ^ 32 → f.opnd < 2 ^ 64 → f.payload.length ≤ 9184 → Itk.of w.bytes =
        some { vmaj := 1, vmin := 0, type := f.type, cls := f.cls, src := w.src, dst := f.dst, seq := f.seq, ack := w.ack, qg := f.qg
               opnd := f.opnd, payload := f.payload }) ∧
  (
    ∀ (s : State) (chip : Nat) (m : Itk), s.memoryOk = true →
      let layer := ofBytes ((m.payload.drop 8).take 2)
      let asks (t : State) (id : Nat) (x : Fetch) (h : Nat) (hs : List Nat) : Prop :=
        mget t.fetches id = some { x with holders := some hs, asked := some h, data := [], full := false } ∧
          Carries t h 1 0x13 x.queue (x.sm % 2 ^ 64) (smHigh x.sm ++ toBytes (x.layer.getD 0xFFFF) 2)
      let waits (x : Fetch) : Prop := x.asked = some chip ∧ x.queue = m.qg ∧ x.full = false ∧ x.failed = false
      let named (i : Nat) : List Nat := tab i fun j => ofBytes ((m.payload.drop (8 + 2 * j)).take 2)
      (∀ u c, catOf s m.qg = (u, some c) →
        (homeChip c m.sm ≠ c.chipno → KeepsMemory s (dregStep chip m s)) ∧
        (∀ v a e, homeEntry u c m.sm = (v, some (a, e)) → a + 64 ≤ hbmTop →
          (homeChip c m.sm = c.chipno → peekBytes (dregStep chip m s) a 64 = ({ e with hold := listHolder e.hold chip } : CatEntry).bytes) ∧
          (Reachable s chip 0 → Carries (dqueryStep chip m s) chip 0 0x12 m.qg m.opnd (smHigh m.sm ++ e.hold.flatMap fun h => toBytes h 2))) ∧
        (∀ id x, mget s.fetches id = some x → waits x → x.holders = none → x.sm = m.sm →
          (holderChips (named 6) c.chipno = [] → mget (dlistStep chip m s).fetches id = some { x with holders := some [], asked := none, failed := true }) ∧
          ∀ h hs, holderChips (named 6) c.chipno = h :: hs → Reachable s h 1 → asks (dlistStep chip m s) id x h hs)) ∧
      (∀ id x h hs, mget s.fetches id = some x → waits x → x.holders = some (h :: hs) → x.sm = m.sm → x.layer.getD 0xFFFF = layer → Reachable s h 1 →
        asks (noholdStep chip m s) id x h hs) ∧
      (∀ id x, mget s.fetches id = some x → waits x →
        (∀ u k d, kvSpaceOf s m.qg = (u, some k) → payloadData m.payload = some d → x.layer = some (nbits m.opnd 32 8) →
          x.sm % 2 ^ 24 = m.opnd / 2 ^ 40 → x.data.length = nbits m.opnd 0 32 →
          mget (fdataStep chip m s).fetches id = some { x with data := x.data ++ d, full := decide (k.fsz + 8 ≤ (x.data ++ d).length) }) ∧
        (x.layer = none → x.holders ≠ none → x.sm % 2 ^ 64 = m.opnd →
          mget (nodeinfoStep chip m s).fetches id = some { x with data := m.payload, full := true })) ∧
      (Reachable s chip 1 →
        (∀ u, spacesOf s m.qg = (u, none) →
          Carries (fetchFolio chip m s) chip 1 0x15 m.qg m.opnd (smHigh m.sm ++ toBytes layer 2 ++ toBytes 0 2)) ∧
        ∀ u v k c n r, spacesOf s m.qg = (u, some (k, c)) → nodeNamed u k c m.sm = (v, some (n, r)) →
          (layer = 0xFFFF → Carries (fetchFolio chip m s) chip 1 0x16 m.qg m.opnd (nodeInfo v k n r)) ∧
          (∀ bs, layer ≠ 0xFFFF → (heldFolio v k n layer).2 = some bs → bs ≠ [] →
            Carries (fetchFolio chip m s) chip 1 0x14 m.qg (fdataOpnd m.sm layer 0) (dataPayload (bs.take 4096))) ∧
          (layer ≠ 0xFFFF → (heldFolio v k n layer).2 = none →
            Carries (fetchFolio chip m s) chip 1 0x15 m.qg m.opnd (smHigh m.sm ++ toBytes layer 2 ++ toBytes c.chipno 2))) ∧
      (let n := min 4096 (ofBytes (m.payload.take 4))
       let x := xlateAl s ioDie (m.qg % 1024) (BitVec.ofNat 64 m.opnd) n 1 { cls := clsPeer, rd := true, wr := false }
       let t := preadStep chip m s
       Reachable s chip 3 →
        (∀ e, x.2 = .error e → Carries t chip 3 0x23 m.qg m.opnd (toBytes e.code 1)) ∧
        ∀ r l, x.2 = .ok (r, l) → KeepsMemory s t ∧
          (((linesOf l).any fun i => poisonedAt (readCells x.1 l).1 (64 * i) 64) = false →
            Carries t chip 3 0x22 m.qg m.opnd (dataPayload (l.map (memByte s)))) ∧
          (((linesOf l).any fun i => poisonedAt (readCells x.1 l).1 (64 * i) 64) = true → Carries t chip 3 0x23 m.qg m.opnd (toBytes 0x20 1))) ∧
      ∀ bs r p, payloadData m.payload = some bs → s.relocs = [] → p + bs.length ≤ hbmTop →
        let x := xlateAl s ioDie (m.qg % 1024) (BitVec.ofNat 64 m.opnd) bs.length 1 { cls := clsPeer, rd := false, wr := true }
        x.2 = .ok (r, plainCells p bs.length) →
        let t := pwriteStep chip m s
        -- the sectors that do not compare, each a free choice
        let bad := ((linesOf (plainCells p bs.length)).map (· / 4)).eraseDups.filter fun k => Config.freeBool s.epoch (7000 + k)
        if bad ≠ [] then KeepsMemory s t ∧ (Reachable s chip 3 → Carries t chip 3 0x23 m.qg m.opnd (toBytes 0x20 1)) ∧
          t.events = x.1.events ++ bad.map fun k => { code := 0x06, loc := k, detail := [] }
        else t.memoryOk = true ∧ peekBytes t p bs.length = bs ∧ ∀ a, a < p ∨ p + bs.length ≤ a → peek t a = peek s a)

/-- Connections and collectives (R199, R212, R396 to R399): HELLO opens a connection or refuses the peer; an acknowledgement clears the
frames before it; a frame of an unknown type is told once; unacknowledged frames are sent again after 64 µs; a peer that is silent in
every class is lost in every class; joins and data are kept with their member; and a collective that not every member joins in time ends
with TIMEOUT and a poisoned barrier. FOLIO ports carry every class but 2, COLLECTIVE ports class 2, MIXED ports all. The model's
choices: that a frame of a class which no port carries neither comes nor leaves (log entry 125), the bytes of HELLO and CJOIN and the
chips with which the ports open connections (log entry 30), and that a chip's n-th join under a name belongs to the n-th collective of
it here (log entry 133). -/
def Obligations.ConnectionsAndCollectives : Prop :=
  ∀ (s : State) (chip : Nat) (bs : List Byte),
    (∀ m, Itk.parse bs = some m → m.src = chip →
      let key := connKey chip m.cls
      let lo := ofBytes (m.payload.take 1)
      let hi := ofBytes ((m.payload.drop 1).take 1)
      (m.type = 1 → carried s m.cls = true → 1 < lo ∨ hi < 1 → ∃ t, exec (.itkHello chip bs) s = .next t ∧
        (∀ cls, cls < 4 → ∃ d, mget t.conns (connKey chip cls) = some d ∧ d.lost = true ∧ d.up = false) ∧
        t.events.length = s.events.length + 1) ∧
      (m.type = 1 → carried s m.cls = true → lo ≤ 1 → 1 ≤ hi → mget s.conns key = none → ∃ t d v w, exec (.itkHello chip bs) s = .next t ∧
        mget t.conns key = some d ∧ d.up = true ∧ d.lost = false ∧ d.expect = (m.seq + 1) % 2 ^ 32 ∧ t.outbox = s.outbox ++ [v, w] ∧
          v.frame = helloFrame chip m.cls ∧ w.ack = (m.seq + 1) % 2 ^ 32 ∧
          w.frame = { type := 2, cls := m.cls, dst := chip, seq := d.next, qg := 0, opnd := 0, payload := [] }) ∧
      (carried s m.cls = false → exec (.itkHello chip bs) s = .next { s with epoch := s.epoch + 1 } ∧
        exec (.itkAck chip bs) s = .next { s with epoch := s.epoch + 1 })) ∧
    (∀ m, Itk.of bs = some m → m.src = chip →
      let key := connKey chip m.cls
      (∀ c, m.type = 2 → carried s m.cls = true → mget s.conns key = some c → c.up = true → c.lost = false → ∃ t d, exec (.itkAck chip bs) s = .next t ∧
        mget t.conns key = some d ∧ d.heard = s.uclock ∧
        (c.sent.filter fun f => 2 ^ 31 ≤ (f.seq + 2 ^ 32 - m.ack + 2 ^ 31) % 2 ^ 32) <+: d.sent) ∧
      (knownTypes.contains m.type = true → exec (.itkUnknownType chip bs) s = .next { s with epoch := s.epoch + 1 }) ∧
      (∀ c, knownTypes.contains m.type = false → carried s m.cls = true → mget s.conns key = some c → c.up = true → c.lost = false → m.seq = c.expect →
        ∃ t d, exec (.itkUnknownType chip bs) s = .next t ∧ mget t.conns key = some d ∧ d.told = true ∧
          t.events.length = s.events.length + if c.told then 0 else 1)) ∧
    (∀ cls c, cls < 4 → mget s.conns (connKey chip cls) = some c →
      (c.sent ≠ [] → c.sentAt + 64 * 1500 ≤ s.uclock → ∃ t, exec (.itkRetransmitTimeout chip bs) s = .next t ∧
        mget t.conns (connKey chip cls) = some { c with sentAt := s.uclock } ∧ (carried s cls = true → ∀ f ∈ c.sent, ∃ w ∈ t.outbox, w.frame = f))) ∧
    (∀ cls, cls < 4 → carried s cls = true → mget s.conns (connKey chip cls) = none → chip ∈ fabricChips s → ∃ t d,
      exec (.itkRetransmitTimeout chip bs) s = .next t ∧ mget t.conns (connKey chip cls) = some d ∧ d.sent = [helloFrame chip cls] ∧
        ∃ w ∈ t.outbox, w.frame = helloFrame chip cls) ∧
    (let stands (cls : Nat) (c : Conn) : Prop := cls < 4 ∧ mget s.conns (connKey chip cls) = some c ∧ c.lost = false
     let silent (c : Conn) : Prop := c.heard + s.limits.peerto * 1500000000 ≤ s.uclock
     ((∃ cls c, stands cls c) → (∀ cls c, stands cls c → silent c) → ∃ t, exec (.peertoExpiry chip) s = .next t ∧
        ∀ cls, cls < 4 → ∃ d, mget t.conns (connKey chip cls) = some d ∧ d.lost = true ∧ d.up = false ∧ d.sent = [] ∧ d.later = []) ∧
     ((¬ (∃ cls c, stands cls c) ∨ ∃ cls c, stands cls c ∧ ¬ silent c) → exec (.peertoExpiry chip) s = .next { s with epoch := s.epoch + 1 })) ∧
    (∀ cls, cls < 4 → (carried s cls = true ↔ ∃ n, n < 8 ∧
      (nbits s.limits.portRole (2 * n) 2 = 0 ∧ cls ≠ 2 ∨ nbits s.limits.portRole (2 * n) 2 = 1 ∧ cls = 2 ∨ 2 ≤ nbits s.limits.portRole (2 * n) 2))) ∧
    (∀ (m : Itk),
      let st := ofBytes (m.payload.take 1)
      let key := earlyKey m.qg (m.opnd / 2 ^ 48) chip
      let mine := collFor s m.qg (m.opnd / 2 ^ 48) chip
      let t := cjoinStep chip m s
      let j := peerJoins s key
      let terms := (m.payload.drop 1).map (·.toNat)
      (st = 0 → j.owed ≠ 0 → t.colls = s.colls ∧ peerJoins t key = { j with owed := j.owed - 1 }) ∧
      (∀ id x r, st = 0 → j.owed = 0 → mine (fun e => !e.joined) = some (id, x, r) → ∃ y,
        mget t.colls id = some y ∧ y.member r = { joined := true, desc := terms, bad := 0, data := (x.member r).data }) ∧
      (st = 0 → j.owed = 0 → mine (fun e => !e.joined) = none → t.colls = s.colls ∧
        peerJoins t key = { j with joins := j.joins ++ [{ joined := true, desc := terms, bad := 0, data := [] }] }) ∧
      (∀ id x r, st ≠ 0 → j.joins = [] → mine (fun e => e.joined && e.bad == 0) = some (id, x, r) → ∃ y,
        mget t.colls id = some y ∧ y.member r = { x.member r with bad := st }) ∧
      (∀ y, st ≠ 0 → j.joins.getLast? = some y → y.bad = 0 → t.colls = s.colls ∧
        peerJoins t key = { j with joins := j.joins.dropLast ++ [{ y with bad := st }] })) ∧
    (∀ (m : Itk) id x r,
      (∀ d, collFor s m.qg (m.opnd / 2 ^ 48) chip (fun e => e.joined) = some (id, x, r) → payloadData m.payload = some d → ∃ y,
        mget (cdataStep chip m s).colls id = some y ∧ ∀ i, mget (y.member r).data i =
          if m.opnd % 2 ^ 48 ≤ i ∧ i < m.opnd % 2 ^ 48 + d.length then d[i - m.opnd % 2 ^ 48]? else mget (x.member r).data i)) ∧
    ∀ id x y, mget s.colls id = some x → mget s.copies x.copyKey = some y → y.seq = none → y.recd = true → x.allJoined = false →
      x.since + s.limits.collLimit * 1500000000 ≤ s.uclock → ∃ t r, exec (.collectiveTimeout id) s = .next t ∧
        mget t.colls id = none ∧ t.held = s.held ++ [r] ∧ r.queue = y.queue ∧ r.ring = y.ring ∧ r.body.head? = some 0x0B ∧
        (y.bar ≠ noBar → (barWord (getCore t (x.copyKey / 4096)) y.bar).testBit 57 = true)
end

