-- ==== Sys2Proof/Laws/Map.lean ====
section
/-! SUPPORT. Laws of the sparse tables: what a read gives after a write or a removal, and the canonical form of a memory,
which every memory operation keeps. -/

namespace Sys2Proof.Machine

/-! Reads after writes. -/

theorem mget_mput_same {α : Type} (m : TMap α) (k : Nat) (v : α) : mget (mput m k v) k = some v := by
  induction m with
  | nil => simp [mput, mget]
  | cons e m ih =>
    obtain ⟨a, b⟩ := e
    simp only [mput]
    split
    · simp [mget]
    · split
      · simp [mget]
      · simp only [mget]
        rw [if_neg (by omega), ih]

theorem mget_mput_ne {α : Type} (m : TMap α) (k j : Nat) (v : α) (h : j ≠ k) : mget (mput m k v) j = mget m j := by
  induction m with
  | nil =>
    simp only [mput, mget]
    rw [if_neg (by omega)]
  | cons e m ih =>
    obtain ⟨a, b⟩ := e
    simp only [mput]
    split
    · simp only [mget]
      rw [if_neg (by omega)]
    · split
      · subst_vars
        simp only [mget]
        rw [if_neg (by omega)]
        rw [if_neg (c := a = j) (by omega)]
      · simp only [mget, ih]

theorem mget_mput {α : Type} (m : TMap α) (k j : Nat) (v : α) : mget (mput m k v) j = if j = k then some v else mget m j := by
  by_cases h : j = k
  · subst h; simp [mget_mput_same]
  · rw [mget_mput_ne _ _ _ _ h, if_neg h]

/-! The canonical order. -/

theorem sortedFrom_mono {α : Type} (m : TMap α) (a b : Nat) (h : a ≤ b) (hs : sortedFrom b m = true) : sortedFrom a m = true := by
  cases m with
  | nil => rfl
  | cons e m =>
    simp only [sortedFrom, Bool.and_eq_true, decide_eq_true_eq] at hs ⊢
    exact ⟨by omega, hs.2⟩

theorem sortedFrom_mput {α : Type} (m : TMap α) (lo k : Nat) (v : α) (h : lo ≤ k) (hs : sortedFrom lo m = true) :
    sortedFrom lo (mput m k v) = true := by
  induction m generalizing lo with
  | nil => simp [mput, sortedFrom, h]
  | cons e m ih =>
    obtain ⟨a, b⟩ := e
    simp only [sortedFrom, Bool.and_eq_true, decide_eq_true_eq] at hs
    simp only [mput]
    split
    · simp only [sortedFrom, Bool.and_eq_true, decide_eq_true_eq]
      exact ⟨h, by omega, hs.2⟩
    · split
      · subst_vars
        simp only [sortedFrom, Bool.and_eq_true, decide_eq_true_eq]
        exact ⟨h, hs.2⟩
      · simp only [sortedFrom, Bool.and_eq_true, decide_eq_true_eq]
        exact ⟨hs.1, ih _ (by omega) hs.2⟩

theorem sortedFrom_mdel {α : Type} (m : TMap α) (lo k : Nat) (hs : sortedFrom lo m = true) : sortedFrom lo (mdel m k) = true := by
  induction m generalizing lo with
  | nil => rfl
  | cons e m ih =>
    obtain ⟨a, b⟩ := e
    simp only [sortedFrom, Bool.and_eq_true, decide_eq_true_eq] at hs
    simp only [mdel]
    split
    · exact sortedFrom_mono _ _ _ (by omega) (ih _ hs.2)
    · simp only [sortedFrom, Bool.and_eq_true, decide_eq_true_eq]
      exact ⟨hs.1, ih _ hs.2⟩

theorem mget_below {α : Type} (m : TMap α) (lo k : Nat) (h : k < lo) (hs : sortedFrom lo m = true) : mget m k = none := by
  induction m generalizing lo with
  | nil => rfl
  | cons e m ih =>
    obtain ⟨a, b⟩ := e
    simp only [sortedFrom, Bool.and_eq_true, decide_eq_true_eq] at hs
    simp only [mget]
    rw [if_neg (by omega), ih _ (by omega) hs.2]

/-- A removed key has no entry; the others keep theirs. -/
theorem mget_mdel {α : Type} (m : TMap α) (k j : Nat) : mget (mdel m k) j = if j = k then none else mget m j := by
  induction m with
  | nil => simp [mdel, mget]
  | cons e m ih =>
    obtain ⟨a, b⟩ := e
    by_cases h : j = k
    · subst h
      simp only [mdel, if_true] at ih ⊢
      split
      · exact ih
      · rename_i hk
        simp only [mget, if_neg hk, ih]
    · simp only [if_neg h] at ih ⊢
      simp only [mdel]
      split
      · subst_vars
        rw [ih]
        simp only [mget]
        rw [if_neg (by omega)]
      · simp only [mget, ih]

/-! The canonical form of a memory. -/

theorem all_mput (m : TMap Byte) (k : Nat) (b : Byte) (hb : b ≠ 0) (h : m.all (fun c => c.2 != 0) = true) :
    (mput m k b).all (fun c => c.2 != 0) = true := by
  induction m with
  | nil => simpa [mput] using hb
  | cons e m ih =>
    simp only [List.all_cons, Bool.and_eq_true] at h
    simp only [mput]
    split
    · simp only [List.all_cons, Bool.and_eq_true]
      exact ⟨by simpa using hb, h⟩
    · split
      · simp only [List.all_cons, Bool.and_eq_true]
        exact ⟨by simpa using hb, h.2⟩
      · simp only [List.all_cons, Bool.and_eq_true]
        exact ⟨h.1, ih h.2⟩

theorem all_mdel (m : TMap Byte) (k : Nat) (h : m.all (fun c => c.2 != 0) = true) : (mdel m k).all (fun c => c.2 != 0) = true := by
  induction m with
  | nil => rfl
  | cons e m ih =>
    simp only [List.all_cons, Bool.and_eq_true] at h
    simp only [mdel]
    split
    · exact ih h.2
    · simp only [List.all_cons, Bool.and_eq_true]
      exact ⟨h.1, ih h.2⟩

/-- Writing one byte keeps the canonical form. -/
theorem memWf_setByte (m : TMap Byte) (a : Nat) (b : Byte) (h : memWf m = true) : memWf (setByte m a b) = true := by
  simp only [memWf, msorted, Bool.and_eq_true] at h ⊢
  simp only [setByte]
  split
  · exact ⟨sortedFrom_mdel _ _ _ h.1, all_mdel _ _ h.2⟩
  · rename_i hb
    exact ⟨sortedFrom_mput _ _ _ _ (Nat.zero_le _) h.1, all_mput _ _ _ hb h.2⟩

/-- Writing bytes keeps the canonical form. -/
theorem memWf_setBytes (bs : List Byte) : ∀ (m : TMap Byte) (a : Nat), memWf m = true → memWf (setBytes m a bs) = true := by
  induction bs with
  | nil => intro m a h; exact h
  | cons b bs ih => intro m a h; exact ih _ _ (memWf_setByte _ _ _ h)

theorem memWf_applyData (base : Nat) (d : TMap Byte) : ∀ m : TMap Byte, memWf m = true → memWf (applyData m base d) = true := by
  induction d with
  | nil => intro m h; exact h
  | cons e d ih => intro m h; exact ih _ (memWf_setByte _ _ _ h)

theorem memWf_applyRed (base : Nat) (d : TMap RedElem) : ∀ m : TMap Byte, memWf m = true → memWf (applyRed m base d) = true := by
  induction d with
  | nil => intro m h; exact h
  | cons e d ih => intro m h; exact ih _ (memWf_setBytes _ _ _ h)

/-! Bytes after writes. -/

theorem byteAt_setByte (m : TMap Byte) (a j : Nat) (b : Byte) : byteAt (setByte m a b) j = if j = a then b else byteAt m j := by
  simp only [byteAt, setByte]
  split
  · rename_i hb
    rw [mget_mdel]
    split
    · simp [hb]
    · rfl
  · rw [mget_mput]
    split <;> rfl

/-- An entry's plain bytes stand where it brings them; every other byte keeps its value. -/
theorem byteAt_applyData (base : Nat) (d : TMap Byte) (m : TMap Byte) {lo : Nat} (hd : sortedFrom lo d = true) (j : Nat) :
    byteAt (applyData m base d) j = if base ≤ j then (mget d (j - base)).getD (byteAt m j) else byteAt m j := by
  induction d generalizing m lo with
  | nil => simp [applyData, mget]
  | cons e d ih =>
    obtain ⟨o, b⟩ := e
    simp only [sortedFrom, Bool.and_eq_true, decide_eq_true_eq] at hd
    rw [applyData, ih _ hd.2, byteAt_setByte, mget]
    by_cases h : j = base + o
    · subst h
      rw [if_pos (Nat.le_add_right _ _), if_pos (by omega), if_pos (Nat.le_add_right _ _), Nat.add_sub_cancel_left, mget_below d (o + 1) o (by omega) hd.2]
      simp
    · rw [if_neg h]
      split
      · rw [if_neg (by omega)]
      · rfl

/-- The first bytes of a read. -/
theorem bytesAt_take (m : TMap Byte) (k : Nat) : ∀ (a n : Nat), k ≤ n → (bytesAt m a n).take k = bytesAt m a k := by
  induction k with
  | zero => intro a n _; simp [bytesAt]
  | succ k ih =>
    intro a n h
    obtain ⟨n, rfl⟩ : ∃ i, n = i + 1 := ⟨n - 1, by omega⟩
    simp only [bytesAt, List.take_succ_cons, ih (a + 1) n (by omega)]

/-- Bytes outside a write keep their values. -/
theorem byteAt_setBytes_out (bs : List Byte) : ∀ (m : TMap Byte) (a j : Nat), (j < a ∨ a + bs.length ≤ j) →
    byteAt (setBytes m a bs) j = byteAt m j := by
  induction bs with
  | nil => intro m a j _; rfl
  | cons b bs ih =>
    intro m a j hj
    simp only [List.length_cons] at hj
    simp only [setBytes]
    rw [ih _ _ _ (by omega), byteAt_setByte, if_neg (by omega)]

/-- Bytes inside a write are the written ones. -/
theorem byteAt_setBytes_in (bs : List Byte) : ∀ (m : TMap Byte) (a i : Nat), (hi : i < bs.length) →
    byteAt (setBytes m a bs) (a + i) = bs[i] := by
  induction bs with
  | nil => intro m a i hi; simp at hi
  | cons b bs ih =>
    intro m a i hi
    simp only [setBytes]
    cases i with
    | zero =>
      rw [byteAt_setBytes_out _ _ _ _ (by omega), byteAt_setByte]
      simp
    | succ i =>
      have := ih (setByte m a b) (a + 1) i (by simpa using hi)
      rw [show a + (i + 1) = a + 1 + i by omega, this]
      simp

end Sys2Proof.Machine
end

