-- ==== Sys2Proof/Laws/Ops.lean ====
section
/-! SUPPORT. What the shared operations of a partition do: reading back a partition, leaving a pending result, committing a
syllable. -/

namespace Sys2Proof.Machine

@[simp] theorem getPart_setPart (s : State) (c p : Nat) (x : Part) : getPart (setPart s c p x) c p = x := by
  simp [getPart, setPart, mget_mput_same]
@[simp] theorem cur_setCur (s : State) (x : Part) : cur (setCur s x) = x := getPart_setPart s _ _ x
@[simp] theorem getCore_setCore (s : State) (c : Nat) (x : CoreSt) : getCore (setCore s c x) c = x := by
  simp [getCore, setCore, mget_mput_same]

/-- What memory reads as depends on these fields alone. -/
theorem peek_congr (s t : State) (h1 : t.mem = s.mem) (h2 : t.wc = s.wc) (h3 : t.annexMap = s.annexMap) (h4 : t.annexBuf = s.annexBuf)
    (h5 : t.annexMem = s.annexMem) (h6 : t.hostMem = s.hostMem) (h7 : t.hostLines = s.hostLines) (a : Nat) : peek t a = peek s a := by
  simp only [peek, hbmByte, annexByte, hostByte, annexKey, *]

theorem cur_congr (s t : State) (h1 : t.parts = s.parts) (h2 : t.iss.core = s.iss.core) (h3 : t.iss.part = s.iss.part) : cur t = cur s := by
  simp only [cur, getPart, *]

@[simp] theorem cur_iss (s : State) (e : Nat) (i : Issue) (h1 : i.core = s.iss.core) (h2 : i.part = s.iss.part) :
    cur { s with epoch := e, iss := i } = cur s := cur_congr _ _ rfl h1 h2

/-- Adding a pending operation keeps those that were there, but for their marks, and puts it last. -/
theorem pushPend_pends (p : Part) (e : Pend) :
    ((pushPend p e).pends.take p.pends.length).map Pend.unmarked = p.pends.map Pend.unmarked ∧
      (pushPend p e).pends.length = p.pends.length + 1 ∧ (pushPend p e).pends.getLast? = some { e with seq := p.nextSeq } := by
  refine ⟨?_, ?_, ?_⟩
  · simp only [pushPend]
    rw [List.take_left' (by simp)]
    rw [List.map_map]
    apply List.map_congr_left
    intro x _
    simp only [Function.comp_apply]
    split <;> simp [Pend.unmarked]
  · simp [pushPend]
  · simp [pushPend]

@[simp] theorem commitSyl_cur (k : Option Sticky) (s : State) : cur (commitSyl k s) = setSticky (cur s) s.iss.slot k := by
  simp only [commitSyl]
  exact (cur_congr _ _ rfl rfl rfl).trans (cur_setCur s _)

/-- A body that only changes the partition that issues, committed. -/
theorem onlyCur_commit (k : Option Sticky) (s : State) (q : Part) : OnlyCur s (commitSyl k (setCur s q)) := by
  refine ⟨rfl, ?_, fun a => peek_congr _ _ rfl rfl rfl rfl rfl rfl rfl a⟩
  intro j hj
  simp only [commitSyl, setCur, setPart]
  rw [mget_mput_ne _ _ _ _ hj, mget_mput_ne _ _ _ _ hj]

theorem onlyPends_setSticky (n : Nat) (p q : Part) (i : Nat) (k : Option Sticky) (h : OnlyPends n p q) : OnlyPends n p (setSticky q i k) := by
  obtain ⟨h1, h2, h3⟩ := h
  refine ⟨?_, h2, h3⟩
  simp only [setSticky]
  rw [h1]

theorem onlyPends_push (p : Part) (e : Pend) : OnlyPends 1 p (pushPend p e) :=
  ⟨rfl, (pushPend_pends p e).1, (pushPend_pends p e).2.1⟩

theorem onlyPends_self (p : Part) : OnlyPends 0 p p := ⟨rfl, by simp, rfl⟩

/-- A syllable that does nothing commits. -/
theorem committed_id (k : Option Sticky) (s : State) : Committed 0 s (commitSyl k s) := by
  refine ⟨⟨rfl, ?_, fun a => peek_congr _ _ rfl rfl rfl rfl rfl rfl rfl a⟩, ?_⟩
  · intro j hj
    simp only [commitSyl, setCur, setPart]
    rw [mget_mput_ne _ _ _ _ hj]
  · rw [commitSyl_cur]
    exact onlyPends_setSticky _ _ _ _ _ (onlyPends_self _)

/-- What a syllable does that leaves results pending and has no other effect. -/
theorem gives_result (i : Instr) (lat : Nat) (ws : List RegWrite) (fl : Flags) (k : Option Sticky) (s : State) :
    Gives i lat ws fl s (commitSyl k (result i lat ws fl s)) := by
  refine ⟨?_, onlyCur_commit k s _, ?_⟩
  · simp only [Leaves, LeavesIn]
    rw [commitSyl_cur]
    simp only [setSticky, result, cur_setCur]
    exact ⟨_, (pushPend_pends _ _).2.2, ⟨rfl, rfl, rfl, rfl, rfl⟩, rfl, rfl, rfl⟩
  · rw [commitSyl_cur]
    apply onlyPends_setSticky
    simp only [result, cur_setCur]
    exact onlyPends_push _ _

theorem gives_resultS (i : Instr) (lat : Nat) (d : BitVec 6) (x : W64) (po : Bool) (k : Option Sticky) (s : State) :
    Gives i lat [sDest s d x po] 0 s (commitSyl k (resultS i lat d x po s)) := gives_result i lat _ 0 k s

/-- A syllable whose body succeeds commits. -/
theorem runSyl_ok {i : Instr} {body : State → Except TrapReq State} {s t : State} (h : body s = .ok t) :
    runSyl i body s = .next (commitSyl (stickyAfter i s) t) := by
  simp only [runSyl, h]

/-- A syllable whose body traps takes the precise trap. -/
theorem runSyl_error {i : Instr} {body : State → Except TrapReq State} {s : State} {r : TrapReq} (h : body s = .error r) :
    runSyl i body s = event (fun s => preciseTrap i r (if r.commits then setCur s (setSticky (cur s) s.iss.slot (stickyAfter i s)) else s)) s := by
  simp only [runSyl, h]

end Sys2Proof.Machine
end

