-- ==== Sys2Proof/Laws/Exec.lean ====
section
/-! SUPPORT. What a meaning can answer. -/

namespace Sys2Proof.Machine

/-- A syllable either commits or takes its precise trap; there is nothing else that it can do. -/
theorem runSyl_cases (i : Instr) (body : State → Except TrapReq State) (s : State) :
    (∃ t, body s = .ok t ∧ runSyl i body s = .next (commitSyl (stickyAfter i s) t)) ∨
    (∃ r, body s = .error r ∧ runSyl i body s =
      .next { preciseTrap i r (if r.commits then setCur s (setSticky (cur s) s.iss.slot (stickyAfter i s)) else s) with epoch := s.epoch + 1 }) := by
  unfold runSyl
  cases body s with
  | ok t => exact .inl ⟨t, rfl, rfl⟩
  | error r => exact .inr ⟨r, rfl, rfl⟩

theorem runSyl_answers (i : Instr) (body : State → Except TrapReq State) (s : State) : ∃ t, runSyl i body s = .next t := by
  rcases runSyl_cases i body s with ⟨t, _, h⟩ | ⟨r, _, h⟩ <;> exact ⟨_, h⟩

/-- An event always has its effect, and the epoch advances. -/
theorem event_eq (f : State → State) (s : State) : event f s = .next { f s with epoch := s.epoch + 1 } := rfl

/-- LAUNCH's packet runs one event, whatever the packet is. -/
theorem launchStep_answers (id : Nat) (s : State) : ∃ t, launchStep id s = .next t := by
  unfold launchStep
  repeat' split
  all_goals exact ⟨_, rfl⟩

/-- No meaning ends in a fault or a refusal. -/
theorem exec_answers (i : Instr) (s : State) : ∃ t, exec i s = .next t := by
  cases i <;> first
    | exact runSyl_answers _ _ _
    | exact ⟨_, rfl⟩
    | exact launchStep_answers _ _
    | (simp only [exec, execBrk, execRett, execUiret, execPcnt]
       repeat' split
       all_goals first
         | exact runSyl_answers _ _ _
         | exact ⟨_, rfl⟩)

end Sys2Proof.Machine
end

