-- ==== Sys2Proof/Laws/Mem.lean ====
section
/-! SUPPORT. Every operation over memory keeps the three byte stores in canonical form. -/

namespace Sys2Proof.Machine

/-- What a fold's every step keeps, the fold keeps. -/
theorem foldl_keeps {α β : Type} (P : α → Prop) (f : α → β → α) (hf : ∀ a b, P a → P (f a b)) :
    ∀ (l : List β) (a : α), P a → P (l.foldl f a) := by
  intro l
  induction l with
  | nil => intro a h; exact h
  | cons b l ih => intro a h; exact ih _ (hf a b h)

/-- The form depends on the byte stores alone. -/
theorem memOk_congr (s t : State) (h1 : t.mem = s.mem) (h2 : t.annexMem = s.annexMem) (h3 : t.hostMem = s.hostMem) (h : s.memOk = true) :
    t.memOk = true := by
  unfold State.memOk at h ⊢
  rw [h1, h2, h3]; exact h

theorem memOk_parts (s : State) (h : s.memOk = true) : memWf s.mem = true ∧ memWf s.annexMem = true ∧ memWf s.hostMem = true := by
  simp only [State.memOk, Bool.and_eq_true] at h
  exact ⟨h.1.1, h.1.2, h.2⟩

theorem memOk_of (s : State) (h1 : memWf s.mem = true) (h2 : memWf s.annexMem = true) (h3 : memWf s.hostMem = true) : s.memOk = true := by
  simp [State.memOk, h1, h2, h3]

theorem memOk_addEvent (s : State) (e : EventRec) (h : s.memOk = true) : (addEvent s e).memOk = true := memOk_congr s _ rfl rfl rfl h

theorem memOk_storeMeta (s : State) (c : Nat) (raw : Bool) (fmts : List Nat) (changed : Nat → Bool) (h : s.memOk = true) :
    (storeMeta s c raw fmts changed).memOk = true := memOk_congr s _ rfl rfl rfl h

theorem memOk_trackRow (s : State) (c : Nat) (h : s.memOk = true) : (trackRow s c).memOk = true :=
  foldl_keeps (fun t : State => t.memOk = true) (trackBank c) (fun a _ ha => memOk_congr a _ rfl rfl rfl ha) _ _ h

/-- What an entry brings keeps the form. -/
theorem memOk_applyEntry (s : State) (c : Nat) (w : WcEntry) (h : s.memOk = true) : (applyEntry s c w).memOk = true := by
  have hp := memOk_parts s h
  refine foldl_keeps (fun t : State => t.memOk = true) _ (fun a _ ha => memOk_addEvent a _ ha) _ _ ?_
  exact memOk_of _ (memWf_applyRed _ _ _ (memWf_applyData _ _ _ hp.1)) hp.2.1 hp.2.2

/-- A merge of a write-combining entry (R94) keeps the form. -/
theorem memOk_mergeChunk (s : State) (c : Nat) (h : s.memOk = true) : (mergeChunk s c).memOk = true := by
  unfold mergeChunk
  split
  · exact h
  · exact memOk_storeMeta _ _ _ _ _ (memOk_trackRow _ _ (memOk_applyEntry _ _ _ h))

theorem memOk_storeBack (s : State) (c : Nat) (h : s.memOk = true) : (storeBack s c).memOk = true := by
  unfold storeBack
  split
  · simp only
    split
    · exact memOk_storeMeta _ _ _ _ _ (memOk_trackRow _ _ (memOk_congr s _ rfl rfl rfl h))
    · exact memOk_congr s _ rfl rfl rfl h
  · exact h

theorem memOk_awaitStore (s : State) (c : Nat) (h : s.memOk = true) : (awaitStore s c).memOk = true := by
  unfold awaitStore
  split
  · split
    · exact memOk_storeBack s c h
    · exact h
  · exact h

theorem memOk_touchChunk (s : State) (c : Nat) (h : s.memOk = true) : (touchChunk s c).memOk = true := by
  have h1 := memOk_awaitStore _ c (memOk_mergeChunk s c h)
  simp only [touchChunk]
  split
  · exact memOk_congr _ _ rfl rfl rfl h1
  · exact memOk_trackRow _ _ h1

theorem memOk_mergeAnnexLine (s : State) (l : Nat) (h : s.memOk = true) : (mergeAnnexLine s l).memOk = true := by
  have hp := memOk_parts s h
  unfold mergeAnnexLine
  split
  · exact h
  · exact memOk_of _ hp.1 (memWf_applyData _ _ _ hp.2.1) hp.2.2

theorem memOk_hostReadLine (s : State) (l : Nat) (h : s.memOk = true) : (hostReadLine s l).memOk = true := by
  unfold hostReadLine
  split
  · exact h
  · split
    · exact h
    · exact memOk_congr s _ rfl rfl rfl h

/-- A read (R94, R99, R391) keeps the form. -/
theorem memOk_touchRead (s : State) (a n : Nat) (h : s.memOk = true) : (touchRead s a n).memOk = true := by
  unfold touchRead
  split
  · exact h
  · split
    · exact foldl_keeps (fun t : State => t.memOk = true) _ (fun t _ ht => memOk_touchChunk t _ ht) _ _ h
    · split
      · exact foldl_keeps (fun t : State => t.memOk = true) _ (fun t _ ht => memOk_mergeAnnexLine t _ ht) _ _ h
      · exact foldl_keeps (fun t : State => t.memOk = true) _ (fun t _ ht => memOk_hostReadLine t _ ht) _ _ h

theorem memOk_openEntry (s : State) (c : Nat) (cls : TrafficClass) (h : s.memOk = true) : (openEntry s c cls).1.memOk = true := by
  unfold openEntry
  simp only
  repeat' split
  all_goals first
    | exact h
    | exact memOk_mergeChunk _ _ h
    | exact memOk_mergeChunk _ _ (memOk_mergeChunk _ _ h)

/-- A write to one chunk of HBM keeps the form. -/
theorem memOk_hbmWriteChunk (s : State) (a : Nat) (bs : List Byte) (cls : TrafficClass) (cmpr : Bool) (fmt : Nat) (h : s.memOk = true) :
    (hbmWriteChunk s a bs cls cmpr fmt).memOk = true := by
  have h1 := memOk_awaitStore s (chunkOf a) h
  have hp := memOk_parts _ h1
  unfold hbmWriteChunk
  simp only
  split
  · exact memOk_of _ (memWf_setBytes _ _ _ hp.1) hp.2.1 hp.2.2
  · have h2 := memOk_openEntry _ (chunkOf a) cls h1
    split
    · have h3 := memOk_openEntry _ (chunkOf a) cls (memOk_mergeChunk
        { (openEntry (awaitStore s (chunkOf a)) (chunkOf a) cls).1 with
          wc := mput (openEntry (awaitStore s (chunkOf a)) (chunkOf a) cls).1.wc (chunkOf a) (openEntry (awaitStore s (chunkOf a)) (chunkOf a) cls).2 }
        (chunkOf a) (memOk_congr _ _ rfl rfl rfl h2))
      split
      · exact memOk_mergeChunk _ _ (memOk_congr _ _ rfl rfl rfl h3)
      · exact memOk_congr _ _ rfl rfl rfl h3
    · split
      · exact memOk_mergeChunk _ _ (memOk_congr _ _ rfl rfl rfl h2)
      · exact memOk_congr _ _ rfl rfl rfl h2

theorem memOk_hbmWrite (n : Nat) : ∀ (s : State) (a : Nat) (bs : List Byte) (cls : TrafficClass) (cmpr : Bool) (fmt : Nat), s.memOk = true →
    (hbmWrite n s a bs cls cmpr fmt).memOk = true := by
  induction n with
  | zero => intro s _ _ _ _ _ h; exact h
  | succ n ih =>
    intro s a bs cls cmpr fmt h
    unfold hbmWrite
    split
    · exact h
    · exact ih _ _ _ _ _ _ (memOk_hbmWriteChunk _ _ _ _ _ _ h)

theorem memOk_hostWriteByte (s : State) (a : Nat) (b : Byte) (h : s.memOk = true) : (hostWriteByte s a b).memOk = true := by
  have hp := memOk_parts s h
  unfold hostWriteByte
  split
  · exact memOk_congr s _ rfl rfl rfl h
  · exact memOk_of _ hp.1 hp.2.1 (memWf_setByte _ _ _ hp.2.2)

theorem memOk_hostGiveUp (s : State) (l : Nat) (h : s.memOk = true) : (hostGiveUp s l).memOk = true := by
  have hp := memOk_parts s h
  unfold hostGiveUp
  split
  · exact h
  · refine memOk_of _ hp.1 hp.2.1 ?_
    simp only
    split
    · exact memWf_setBytes _ _ _ hp.2.2
    · exact hp.2.2

theorem memOk_sendHost (s : State) (l : List Nat) (h : s.memOk = true) : (sendHost s l).memOk = true :=
  foldl_keeps (fun t : State => t.memOk = true) _ (fun t _ ht => memOk_hostGiveUp t _ ht) _ _ h

theorem memOk_annexRoom (s : State) (l : Nat) (h : s.memOk = true) : (annexRoom s l).memOk = true := by
  simp only [annexRoom]
  split
  · exact h
  · split
    · exact memOk_mergeAnnexLine _ _ h
    · exact h

theorem memOk_annexWriteByte (s : State) (a : Nat) (b : Byte) (h : s.memOk = true) : (annexWriteByte s a b).memOk = true :=
  memOk_congr _ _ rfl rfl rfl (memOk_annexRoom s (annexKey s a / 64) h)

theorem memOk_clearSectors (s : State) (a n : Nat) (h : s.memOk = true) : (clearSectors s a n).memOk = true := memOk_congr s _ rfl rfl rfl h

/-- A plain write to any device memory keeps the form. -/
theorem memOk_writeMem (s : State) (a : Nat) (bs : List Byte) (cls : TrafficClass) (cmpr : Bool) (fmt : Nat) (h : s.memOk = true) :
    (writeMem s a bs cls cmpr fmt).memOk = true := by
  have h1 : ({ s with woken := s.woken ++ tab ((a + bs.length + 63) / 64 - a / 64) fun i => a / 64 + i } : State).memOk = true := h
  unfold writeMem
  simp only
  split
  · exact memOk_hbmWrite _ _ _ _ _ _ _ h1
  · have h2 := memOk_clearSectors _ a bs.length h1
    split
    · exact foldl_keeps (fun t : State => t.memOk = true) _ (fun t _ ht => memOk_annexWriteByte t _ _ ht) _ _ h2
    · exact foldl_keeps (fun t : State => t.memOk = true) _ (fun t _ ht => memOk_hostWriteByte t _ _ ht) _ _ h2

theorem memOk_failBytes (s : State) (a n : Nat) (h : s.memOk = true) : (failBytes s a n).memOk = true := by
  unfold failBytes
  simp only
  split <;> exact memOk_congr s _ rfl rfl rfl h

/-- A run of deferred bytes keeps the form. -/
theorem memOk_writeRun (cls : TrafficClass) (s : State) (g : List DefWrite) (h : s.memOk = true) : (writeRun cls s g).memOk = true := by
  unfold writeRun
  split
  · exact h
  · split
    · exact foldl_keeps (fun t : State => t.memOk = true) _ (fun t _ ht => memOk_failBytes t _ _ ht) _ _ (memOk_writeMem _ _ _ _ _ _ h)
    · simp only
      split
      · exact memOk_failBytes _ _ _ (memOk_writeMem _ _ _ _ _ _ (memOk_touchRead _ _ _ h))
      · exact memOk_writeMem _ _ _ _ _ _ (memOk_touchRead _ _ _ h)

theorem memOk_engineWrite (s : State) (a : Nat) (bs : List Byte) (h : s.memOk = true) : (engineWrite s a bs).memOk = true :=
  memOk_writeMem _ _ _ _ _ _ h

/-- The write-combining entries are no part of the form. -/
theorem memOk_wc (s : State) (m : TMap WcEntry) (h : s.memOk = true) : ({ s with wc := m } : State).memOk = true := h

theorem memOk_ite {α : Type} (b : Bool) (x y : State × α) (hx : x.1.memOk = true) (hy : y.1.memOk = true) :
    (if b = true then x else y).1.memOk = true := by cases b <;> assumption

/-- A reduction in HBM (R96) keeps the form. -/
theorem memOk_reduceHbm (s : State) (a : Nat) (f32 : Bool) (x : W32) (cls : TrafficClass) (cmpr : Bool) (h : s.memOk = true) :
    (reduceHbm s a f32 x cls cmpr).memOk = true := by
  have h1 := memOk_awaitStore s (chunkOf a) h
  have hp := memOk_parts _ h1
  unfold reduceHbm
  simp only
  split
  · exact memOk_of _ (memWf_setBytes _ _ _ hp.1) hp.2.1 hp.2.2
  · have h2 := memOk_openEntry _ (chunkOf a) cls h1
    have h3 := memOk_openEntry _ (chunkOf a) cls (memOk_mergeChunk
      { (openEntry (awaitStore s (chunkOf a)) (chunkOf a) cls).1 with
        wc := mput (openEntry (awaitStore s (chunkOf a)) (chunkOf a) cls).1.wc (chunkOf a) (openEntry (awaitStore s (chunkOf a)) (chunkOf a) cls).2 }
      (chunkOf a) (memOk_congr _ _ rfl rfl rfl h2))
    exact memOk_wc _ _ (memOk_ite _ _ _ h3 h2)

/-- A reduction at the I/O die (R96) keeps the form. -/
theorem memOk_reduceIo (s : State) (a : Nat) (f32 : Bool) (x : W32) (h : s.memOk = true) : (reduceIo s a f32 x).memOk = true :=
  memOk_writeMem _ _ _ _ _ _ (memOk_touchRead _ _ _ h)

theorem memOk_reduceMem (s : State) (a : Nat) (f32 : Bool) (x : W32) (cls : TrafficClass) (cmpr : Bool) (h : s.memOk = true) :
    (reduceMem s a f32 x cls cmpr).memOk = true := by
  unfold reduceMem
  split
  · exact memOk_reduceHbm _ _ _ _ _ _ (memOk_congr s _ rfl rfl rfl h)
  · exact memOk_reduceIo _ _ _ _ h

end Sys2Proof.Machine
end

