-- ==== Sys2Proof/Laws/State.lean ====
section
/-! SUPPORT. What each update of a state, of a partition and of a core leaves as it was, field by field. -/

namespace Sys2Proof.Machine

/-! A partition is stored. -/

@[simp] theorem setPart_clock (s : State) (c i : Nat) (x : Part) : (setPart s c i x).clock = s.clock := rfl
@[simp] theorem setPart_uclock (s : State) (c i : Nat) (x : Part) : (setPart s c i x).uclock = s.uclock := rfl
@[simp] theorem setPart_epoch (s : State) (c i : Nat) (x : Part) : (setPart s c i x).epoch = s.epoch := rfl
@[simp] theorem setPart_cores (s : State) (c i : Nat) (x : Part) : (setPart s c i x).cores = s.cores := rfl
@[simp] theorem setPart_iss (s : State) (c i : Nat) (x : Part) : (setPart s c i x).iss = s.iss := rfl
@[simp] theorem setPart_inputs (s : State) (c i : Nat) (x : Part) : (setPart s c i x).inputs = s.inputs := rfl
@[simp] theorem setPart_mem (s : State) (c i : Nat) (x : Part) : (setPart s c i x).mem = s.mem := rfl
@[simp] theorem setPart_pois (s : State) (c i : Nat) (x : Part) : (setPart s c i x).pois = s.pois := rfl
@[simp] theorem setPart_wc (s : State) (c i : Nat) (x : Part) : (setPart s c i x).wc = s.wc := rfl
@[simp] theorem setPart_meta (s : State) (c i : Nat) (x : Part) : (setPart s c i x).meta_ = s.meta_ := rfl
@[simp] theorem setPart_capture (s : State) (c i : Nat) (x : Part) : (setPart s c i x).capture = s.capture := rfl
@[simp] theorem setPart_tracker (s : State) (c i : Nat) (x : Part) : (setPart s c i x).tracker = s.tracker := rfl
@[simp] theorem setPart_capDue (s : State) (c i : Nat) (x : Part) : (setPart s c i x).capDue = s.capDue := rfl
@[simp] theorem setPart_winClock (s : State) (c i : Nat) (x : Part) : (setPart s c i x).winClock = s.winClock := rfl
@[simp] theorem setPart_retiring (s : State) (c i : Nat) (x : Part) : (setPart s c i x).retiring = s.retiring := rfl
@[simp] theorem setPart_layoutOut (s : State) (c i : Nat) (x : Part) : (setPart s c i x).layoutOut = s.layoutOut := rfl
@[simp] theorem setPart_annexMap (s : State) (c i : Nat) (x : Part) : (setPart s c i x).annexMap = s.annexMap := rfl
@[simp] theorem setPart_annexMem (s : State) (c i : Nat) (x : Part) : (setPart s c i x).annexMem = s.annexMem := rfl
@[simp] theorem setPart_annexBuf (s : State) (c i : Nat) (x : Part) : (setPart s c i x).annexBuf = s.annexBuf := rfl
@[simp] theorem setPart_hostMem (s : State) (c i : Nat) (x : Part) : (setPart s c i x).hostMem = s.hostMem := rfl
@[simp] theorem setPart_hostMaps (s : State) (c i : Nat) (x : Part) : (setPart s c i x).hostMaps = s.hostMaps := rfl
@[simp] theorem setPart_hostLines (s : State) (c i : Nat) (x : Part) : (setPart s c i x).hostLines = s.hostLines := rfl
@[simp] theorem setPart_cxlCache (s : State) (c i : Nat) (x : Part) : (setPart s c i x).cxlCache = s.cxlCache := rfl
@[simp] theorem setPart_limits (s : State) (c i : Nat) (x : Part) : (setPart s c i x).limits = s.limits := rfl
@[simp] theorem setPart_woken (s : State) (c i : Nat) (x : Part) : (setPart s c i x).woken = s.woken := rfl
@[simp] theorem setPart_hot (s : State) (c i : Nat) (x : Part) : (setPart s c i x).hot = s.hot := rfl
@[simp] theorem setPart_remap (s : State) (c i : Nat) (x : Part) : (setPart s c i x).remap = s.remap := rfl
@[simp] theorem setPart_spares (s : State) (c i : Nat) (x : Part) : (setPart s c i x).spares = s.spares := rfl
@[simp] theorem setPart_copies (s : State) (c i : Nat) (x : Part) : (setPart s c i x).copies = s.copies := rfl
@[simp] theorem setPart_kvs (s : State) (c i : Nat) (x : Part) : (setPart s c i x).kvs = s.kvs := rfl
@[simp] theorem setPart_relocs (s : State) (c i : Nat) (x : Part) : (setPart s c i x).relocs = s.relocs := rfl
@[simp] theorem setPart_held (s : State) (c i : Nat) (x : Part) : (setPart s c i x).held = s.held := rfl
@[simp] theorem setPart_events (s : State) (c i : Nat) (x : Part) : (setPart s c i x).events = s.events := rfl
@[simp] theorem setPart_irqs (s : State) (c i : Nat) (x : Part) : (setPart s c i x).irqs = s.irqs := rfl
@[simp] theorem setPart_qtab (s : State) (c i : Nat) (x : Part) : (setPart s c i x).qtab = s.qtab := rfl
@[simp] theorem setPart_queues (s : State) (c i : Nat) (x : Part) : (setPart s c i x).queues = s.queues := rfl
@[simp] theorem setPart_pkts (s : State) (c i : Nat) (x : Part) : (setPart s c i x).pkts = s.pkts := rfl
@[simp] theorem setPart_gangs (s : State) (c i : Nat) (x : Part) : (setPart s c i x).gangs = s.gangs := rfl
@[simp] theorem setPart_nextId (s : State) (c i : Nat) (x : Part) : (setPart s c i x).nextId = s.nextId := rfl
@[simp] theorem setPart_slice (s : State) (c i : Nat) (x : Part) : (setPart s c i x).slice = s.slice := rfl
@[simp] theorem setPart_raised (s : State) (c i : Nat) (x : Part) : (setPart s c i x).raised = s.raised := rfl
@[simp] theorem setPart_nextCore (s : State) (c i : Nat) (x : Part) : (setPart s c i x).nextCore = s.nextCore := rfl
@[simp] theorem setPart_turn (s : State) (c i : Nat) (x : Part) : (setPart s c i x).turn = s.turn := rfl
@[simp] theorem setPart_coreMHz (s : State) (c i : Nat) (x : Part) : (setPart s c i x).coreMHz = s.coreMHz := rfl
@[simp] theorem setPart_uacc (s : State) (c i : Nat) (x : Part) : (setPart s c i x).uacc = s.uacc := rfl
@[simp] theorem setPart_told (s : State) (c i : Nat) (x : Part) : (setPart s c i x).told = s.told := rfl
@[simp] theorem setPart_shadow (s : State) (c i : Nat) (x : Part) : (setPart s c i x).shadow = s.shadow := rfl
@[simp] theorem setPart_nskeys (s : State) (c i : Nat) (x : Part) : (setPart s c i x).nskeys = s.nskeys := rfl
@[simp] theorem setPart_catOps (s : State) (c i : Nat) (x : Part) : (setPart s c i x).catOps = s.catOps := rfl
@[simp] theorem setPart_recalls (s : State) (c i : Nat) (x : Part) : (setPart s c i x).recalls = s.recalls := rfl
@[simp] theorem setPart_fetches (s : State) (c i : Nat) (x : Part) : (setPart s c i x).fetches = s.fetches := rfl
@[simp] theorem setPart_images (s : State) (c i : Nat) (x : Part) : (setPart s c i x).images = s.images := rfl
@[simp] theorem setPart_nvme (s : State) (c i : Nat) (x : Part) : (setPart s c i x).nvme = s.nvme := rfl
@[simp] theorem setPart_nvmeQs (s : State) (c i : Nat) (x : Part) : (setPart s c i x).nvmeQs = s.nvmeQs := rfl
@[simp] theorem setPart_conns (s : State) (c i : Nat) (x : Part) : (setPart s c i x).conns = s.conns := rfl
@[simp] theorem setPart_outbox (s : State) (c i : Nat) (x : Part) : (setPart s c i x).outbox = s.outbox := rfl
@[simp] theorem setPart_colls (s : State) (c i : Nat) (x : Part) : (setPart s c i x).colls = s.colls := rfl
@[simp] theorem setPart_early (s : State) (c i : Nat) (x : Part) : (setPart s c i x).early = s.early := rfl
@[simp] theorem setPart_extents (s : State) (c i : Nat) (x : Part) : (setPart s c i x).extents = s.extents := rfl
@[simp] theorem setPart_flash (s : State) (c i : Nat) (x : Part) : (setPart s c i x).flash = s.flash := rfl
@[simp] theorem setPart_ident (s : State) (c i : Nat) (x : Part) : (setPart s c i x).ident = s.ident := rfl
@[simp] theorem setPart_identified (s : State) (c i : Nat) (x : Part) : (setPart s c i x).identified = s.identified := rfl
@[simp] theorem setPart_recovery (s : State) (c i : Nat) (x : Part) : (setPart s c i x).recovery = s.recovery := rfl
@[simp] theorem setPart_bar0 (s : State) (c i : Nat) (x : Part) : (setPart s c i x).bar0 = s.bar0 := rfl
@[simp] theorem setPart_hostOut (s : State) (c i : Nat) (x : Part) : (setPart s c i x).hostOut = s.hostOut := rfl
@[simp] theorem setPart_spdm (s : State) (c i : Nat) (x : Part) : (setPart s c i x).spdm = s.spdm := rfl
@[simp] theorem setPart_measured (s : State) (c i : Nat) (x : Part) : (setPart s c i x).measured = s.measured := rfl
@[simp] theorem setPart_eventRing (s : State) (c i : Nat) (x : Part) : (setPart s c i x).eventRing = s.eventRing := rfl
@[simp] theorem setPart_eventsOut (s : State) (c i : Nat) (x : Part) : (setPart s c i x).eventsOut = s.eventsOut := rfl
@[simp] theorem setPart_fws (s : State) (c i : Nat) (x : Part) : (setPart s c i x).fws = s.fws := rfl
@[simp] theorem setPart_parts (s : State) (c i : Nat) (x : Part) : (setPart s c i x).parts = mput s.parts (partKey c i) x := rfl

/-! A core is stored. -/

@[simp] theorem setCore_clock (s : State) (c : Nat) (x : CoreSt) : (setCore s c x).clock = s.clock := rfl
@[simp] theorem setCore_uclock (s : State) (c : Nat) (x : CoreSt) : (setCore s c x).uclock = s.uclock := rfl
@[simp] theorem setCore_epoch (s : State) (c : Nat) (x : CoreSt) : (setCore s c x).epoch = s.epoch := rfl
@[simp] theorem setCore_parts (s : State) (c : Nat) (x : CoreSt) : (setCore s c x).parts = s.parts := rfl
@[simp] theorem setCore_iss (s : State) (c : Nat) (x : CoreSt) : (setCore s c x).iss = s.iss := rfl
@[simp] theorem setCore_inputs (s : State) (c : Nat) (x : CoreSt) : (setCore s c x).inputs = s.inputs := rfl
@[simp] theorem setCore_mem (s : State) (c : Nat) (x : CoreSt) : (setCore s c x).mem = s.mem := rfl
@[simp] theorem setCore_pois (s : State) (c : Nat) (x : CoreSt) : (setCore s c x).pois = s.pois := rfl
@[simp] theorem setCore_wc (s : State) (c : Nat) (x : CoreSt) : (setCore s c x).wc = s.wc := rfl
@[simp] theorem setCore_meta (s : State) (c : Nat) (x : CoreSt) : (setCore s c x).meta_ = s.meta_ := rfl
@[simp] theorem setCore_capture (s : State) (c : Nat) (x : CoreSt) : (setCore s c x).capture = s.capture := rfl
@[simp] theorem setCore_tracker (s : State) (c : Nat) (x : CoreSt) : (setCore s c x).tracker = s.tracker := rfl
@[simp] theorem setCore_capDue (s : State) (c : Nat) (x : CoreSt) : (setCore s c x).capDue = s.capDue := rfl
@[simp] theorem setCore_winClock (s : State) (c : Nat) (x : CoreSt) : (setCore s c x).winClock = s.winClock := rfl
@[simp] theorem setCore_retiring (s : State) (c : Nat) (x : CoreSt) : (setCore s c x).retiring = s.retiring := rfl
@[simp] theorem setCore_layoutOut (s : State) (c : Nat) (x : CoreSt) : (setCore s c x).layoutOut = s.layoutOut := rfl
@[simp] theorem setCore_annexMap (s : State) (c : Nat) (x : CoreSt) : (setCore s c x).annexMap = s.annexMap := rfl
@[simp] theorem setCore_annexMem (s : State) (c : Nat) (x : CoreSt) : (setCore s c x).annexMem = s.annexMem := rfl
@[simp] theorem setCore_annexBuf (s : State) (c : Nat) (x : CoreSt) : (setCore s c x).annexBuf = s.annexBuf := rfl
@[simp] theorem setCore_hostMem (s : State) (c : Nat) (x : CoreSt) : (setCore s c x).hostMem = s.hostMem := rfl
@[simp] theorem setCore_hostMaps (s : State) (c : Nat) (x : CoreSt) : (setCore s c x).hostMaps = s.hostMaps := rfl
@[simp] theorem setCore_hostLines (s : State) (c : Nat) (x : CoreSt) : (setCore s c x).hostLines = s.hostLines := rfl
@[simp] theorem setCore_cxlCache (s : State) (c : Nat) (x : CoreSt) : (setCore s c x).cxlCache = s.cxlCache := rfl
@[simp] theorem setCore_limits (s : State) (c : Nat) (x : CoreSt) : (setCore s c x).limits = s.limits := rfl
@[simp] theorem setCore_woken (s : State) (c : Nat) (x : CoreSt) : (setCore s c x).woken = s.woken := rfl
@[simp] theorem setCore_hot (s : State) (c : Nat) (x : CoreSt) : (setCore s c x).hot = s.hot := rfl
@[simp] theorem setCore_remap (s : State) (c : Nat) (x : CoreSt) : (setCore s c x).remap = s.remap := rfl
@[simp] theorem setCore_spares (s : State) (c : Nat) (x : CoreSt) : (setCore s c x).spares = s.spares := rfl
@[simp] theorem setCore_copies (s : State) (c : Nat) (x : CoreSt) : (setCore s c x).copies = s.copies := rfl
@[simp] theorem setCore_kvs (s : State) (c : Nat) (x : CoreSt) : (setCore s c x).kvs = s.kvs := rfl
@[simp] theorem setCore_relocs (s : State) (c : Nat) (x : CoreSt) : (setCore s c x).relocs = s.relocs := rfl
@[simp] theorem setCore_held (s : State) (c : Nat) (x : CoreSt) : (setCore s c x).held = s.held := rfl
@[simp] theorem setCore_events (s : State) (c : Nat) (x : CoreSt) : (setCore s c x).events = s.events := rfl
@[simp] theorem setCore_irqs (s : State) (c : Nat) (x : CoreSt) : (setCore s c x).irqs = s.irqs := rfl
@[simp] theorem setCore_qtab (s : State) (c : Nat) (x : CoreSt) : (setCore s c x).qtab = s.qtab := rfl
@[simp] theorem setCore_queues (s : State) (c : Nat) (x : CoreSt) : (setCore s c x).queues = s.queues := rfl
@[simp] theorem setCore_pkts (s : State) (c : Nat) (x : CoreSt) : (setCore s c x).pkts = s.pkts := rfl
@[simp] theorem setCore_gangs (s : State) (c : Nat) (x : CoreSt) : (setCore s c x).gangs = s.gangs := rfl
@[simp] theorem setCore_nextId (s : State) (c : Nat) (x : CoreSt) : (setCore s c x).nextId = s.nextId := rfl
@[simp] theorem setCore_slice (s : State) (c : Nat) (x : CoreSt) : (setCore s c x).slice = s.slice := rfl
@[simp] theorem setCore_raised (s : State) (c : Nat) (x : CoreSt) : (setCore s c x).raised = s.raised := rfl
@[simp] theorem setCore_nextCore (s : State) (c : Nat) (x : CoreSt) : (setCore s c x).nextCore = s.nextCore := rfl
@[simp] theorem setCore_turn (s : State) (c : Nat) (x : CoreSt) : (setCore s c x).turn = s.turn := rfl
@[simp] theorem setCore_coreMHz (s : State) (c : Nat) (x : CoreSt) : (setCore s c x).coreMHz = s.coreMHz := rfl
@[simp] theorem setCore_uacc (s : State) (c : Nat) (x : CoreSt) : (setCore s c x).uacc = s.uacc := rfl
@[simp] theorem setCore_told (s : State) (c : Nat) (x : CoreSt) : (setCore s c x).told = s.told := rfl
@[simp] theorem setCore_shadow (s : State) (c : Nat) (x : CoreSt) : (setCore s c x).shadow = s.shadow := rfl
@[simp] theorem setCore_nskeys (s : State) (c : Nat) (x : CoreSt) : (setCore s c x).nskeys = s.nskeys := rfl
@[simp] theorem setCore_catOps (s : State) (c : Nat) (x : CoreSt) : (setCore s c x).catOps = s.catOps := rfl
@[simp] theorem setCore_recalls (s : State) (c : Nat) (x : CoreSt) : (setCore s c x).recalls = s.recalls := rfl
@[simp] theorem setCore_fetches (s : State) (c : Nat) (x : CoreSt) : (setCore s c x).fetches = s.fetches := rfl
@[simp] theorem setCore_images (s : State) (c : Nat) (x : CoreSt) : (setCore s c x).images = s.images := rfl
@[simp] theorem setCore_nvme (s : State) (c : Nat) (x : CoreSt) : (setCore s c x).nvme = s.nvme := rfl
@[simp] theorem setCore_nvmeQs (s : State) (c : Nat) (x : CoreSt) : (setCore s c x).nvmeQs = s.nvmeQs := rfl
@[simp] theorem setCore_conns (s : State) (c : Nat) (x : CoreSt) : (setCore s c x).conns = s.conns := rfl
@[simp] theorem setCore_outbox (s : State) (c : Nat) (x : CoreSt) : (setCore s c x).outbox = s.outbox := rfl
@[simp] theorem setCore_colls (s : State) (c : Nat) (x : CoreSt) : (setCore s c x).colls = s.colls := rfl
@[simp] theorem setCore_early (s : State) (c : Nat) (x : CoreSt) : (setCore s c x).early = s.early := rfl
@[simp] theorem setCore_extents (s : State) (c : Nat) (x : CoreSt) : (setCore s c x).extents = s.extents := rfl
@[simp] theorem setCore_flash (s : State) (c : Nat) (x : CoreSt) : (setCore s c x).flash = s.flash := rfl
@[simp] theorem setCore_ident (s : State) (c : Nat) (x : CoreSt) : (setCore s c x).ident = s.ident := rfl
@[simp] theorem setCore_identified (s : State) (c : Nat) (x : CoreSt) : (setCore s c x).identified = s.identified := rfl
@[simp] theorem setCore_recovery (s : State) (c : Nat) (x : CoreSt) : (setCore s c x).recovery = s.recovery := rfl
@[simp] theorem setCore_bar0 (s : State) (c : Nat) (x : CoreSt) : (setCore s c x).bar0 = s.bar0 := rfl
@[simp] theorem setCore_hostOut (s : State) (c : Nat) (x : CoreSt) : (setCore s c x).hostOut = s.hostOut := rfl
@[simp] theorem setCore_spdm (s : State) (c : Nat) (x : CoreSt) : (setCore s c x).spdm = s.spdm := rfl
@[simp] theorem setCore_measured (s : State) (c : Nat) (x : CoreSt) : (setCore s c x).measured = s.measured := rfl
@[simp] theorem setCore_eventRing (s : State) (c : Nat) (x : CoreSt) : (setCore s c x).eventRing = s.eventRing := rfl
@[simp] theorem setCore_eventsOut (s : State) (c : Nat) (x : CoreSt) : (setCore s c x).eventsOut = s.eventsOut := rfl
@[simp] theorem setCore_fws (s : State) (c : Nat) (x : CoreSt) : (setCore s c x).fws = s.fws := rfl
@[simp] theorem setCore_cores (s : State) (c : Nat) (x : CoreSt) : (setCore s c x).cores = mput s.cores c x := rfl

/-! The partition that issues is stored. -/

@[simp] theorem setCur_clock (s : State) (x : Part) : (setCur s x).clock = s.clock := rfl
@[simp] theorem setCur_uclock (s : State) (x : Part) : (setCur s x).uclock = s.uclock := rfl
@[simp] theorem setCur_epoch (s : State) (x : Part) : (setCur s x).epoch = s.epoch := rfl
@[simp] theorem setCur_cores (s : State) (x : Part) : (setCur s x).cores = s.cores := rfl
@[simp] theorem setCur_iss (s : State) (x : Part) : (setCur s x).iss = s.iss := rfl
@[simp] theorem setCur_inputs (s : State) (x : Part) : (setCur s x).inputs = s.inputs := rfl
@[simp] theorem setCur_mem (s : State) (x : Part) : (setCur s x).mem = s.mem := rfl
@[simp] theorem setCur_pois (s : State) (x : Part) : (setCur s x).pois = s.pois := rfl
@[simp] theorem setCur_wc (s : State) (x : Part) : (setCur s x).wc = s.wc := rfl
@[simp] theorem setCur_meta (s : State) (x : Part) : (setCur s x).meta_ = s.meta_ := rfl
@[simp] theorem setCur_capture (s : State) (x : Part) : (setCur s x).capture = s.capture := rfl
@[simp] theorem setCur_tracker (s : State) (x : Part) : (setCur s x).tracker = s.tracker := rfl
@[simp] theorem setCur_capDue (s : State) (x : Part) : (setCur s x).capDue = s.capDue := rfl
@[simp] theorem setCur_winClock (s : State) (x : Part) : (setCur s x).winClock = s.winClock := rfl
@[simp] theorem setCur_retiring (s : State) (x : Part) : (setCur s x).retiring = s.retiring := rfl
@[simp] theorem setCur_layoutOut (s : State) (x : Part) : (setCur s x).layoutOut = s.layoutOut := rfl
@[simp] theorem setCur_annexMap (s : State) (x : Part) : (setCur s x).annexMap = s.annexMap := rfl
@[simp] theorem setCur_annexMem (s : State) (x : Part) : (setCur s x).annexMem = s.annexMem := rfl
@[simp] theorem setCur_annexBuf (s : State) (x : Part) : (setCur s x).annexBuf = s.annexBuf := rfl
@[simp] theorem setCur_hostMem (s : State) (x : Part) : (setCur s x).hostMem = s.hostMem := rfl
@[simp] theorem setCur_hostMaps (s : State) (x : Part) : (setCur s x).hostMaps = s.hostMaps := rfl
@[simp] theorem setCur_hostLines (s : State) (x : Part) : (setCur s x).hostLines = s.hostLines := rfl
@[simp] theorem setCur_cxlCache (s : State) (x : Part) : (setCur s x).cxlCache = s.cxlCache := rfl
@[simp] theorem setCur_limits (s : State) (x : Part) : (setCur s x).limits = s.limits := rfl
@[simp] theorem setCur_woken (s : State) (x : Part) : (setCur s x).woken = s.woken := rfl
@[simp] theorem setCur_hot (s : State) (x : Part) : (setCur s x).hot = s.hot := rfl
@[simp] theorem setCur_remap (s : State) (x : Part) : (setCur s x).remap = s.remap := rfl
@[simp] theorem setCur_spares (s : State) (x : Part) : (setCur s x).spares = s.spares := rfl
@[simp] theorem setCur_copies (s : State) (x : Part) : (setCur s x).copies = s.copies := rfl
@[simp] theorem setCur_kvs (s : State) (x : Part) : (setCur s x).kvs = s.kvs := rfl
@[simp] theorem setCur_relocs (s : State) (x : Part) : (setCur s x).relocs = s.relocs := rfl
@[simp] theorem setCur_held (s : State) (x : Part) : (setCur s x).held = s.held := rfl
@[simp] theorem setCur_events (s : State) (x : Part) : (setCur s x).events = s.events := rfl
@[simp] theorem setCur_irqs (s : State) (x : Part) : (setCur s x).irqs = s.irqs := rfl
@[simp] theorem setCur_qtab (s : State) (x : Part) : (setCur s x).qtab = s.qtab := rfl
@[simp] theorem setCur_queues (s : State) (x : Part) : (setCur s x).queues = s.queues := rfl
@[simp] theorem setCur_pkts (s : State) (x : Part) : (setCur s x).pkts = s.pkts := rfl
@[simp] theorem setCur_gangs (s : State) (x : Part) : (setCur s x).gangs = s.gangs := rfl
@[simp] theorem setCur_nextId (s : State) (x : Part) : (setCur s x).nextId = s.nextId := rfl
@[simp] theorem setCur_slice (s : State) (x : Part) : (setCur s x).slice = s.slice := rfl
@[simp] theorem setCur_raised (s : State) (x : Part) : (setCur s x).raised = s.raised := rfl
@[simp] theorem setCur_nextCore (s : State) (x : Part) : (setCur s x).nextCore = s.nextCore := rfl
@[simp] theorem setCur_turn (s : State) (x : Part) : (setCur s x).turn = s.turn := rfl
@[simp] theorem setCur_coreMHz (s : State) (x : Part) : (setCur s x).coreMHz = s.coreMHz := rfl
@[simp] theorem setCur_uacc (s : State) (x : Part) : (setCur s x).uacc = s.uacc := rfl
@[simp] theorem setCur_told (s : State) (x : Part) : (setCur s x).told = s.told := rfl
@[simp] theorem setCur_shadow (s : State) (x : Part) : (setCur s x).shadow = s.shadow := rfl
@[simp] theorem setCur_nskeys (s : State) (x : Part) : (setCur s x).nskeys = s.nskeys := rfl
@[simp] theorem setCur_catOps (s : State) (x : Part) : (setCur s x).catOps = s.catOps := rfl
@[simp] theorem setCur_recalls (s : State) (x : Part) : (setCur s x).recalls = s.recalls := rfl
@[simp] theorem setCur_fetches (s : State) (x : Part) : (setCur s x).fetches = s.fetches := rfl
@[simp] theorem setCur_images (s : State) (x : Part) : (setCur s x).images = s.images := rfl
@[simp] theorem setCur_nvme (s : State) (x : Part) : (setCur s x).nvme = s.nvme := rfl
@[simp] theorem setCur_nvmeQs (s : State) (x : Part) : (setCur s x).nvmeQs = s.nvmeQs := rfl
@[simp] theorem setCur_conns (s : State) (x : Part) : (setCur s x).conns = s.conns := rfl
@[simp] theorem setCur_outbox (s : State) (x : Part) : (setCur s x).outbox = s.outbox := rfl
@[simp] theorem setCur_colls (s : State) (x : Part) : (setCur s x).colls = s.colls := rfl
@[simp] theorem setCur_early (s : State) (x : Part) : (setCur s x).early = s.early := rfl
@[simp] theorem setCur_extents (s : State) (x : Part) : (setCur s x).extents = s.extents := rfl
@[simp] theorem setCur_flash (s : State) (x : Part) : (setCur s x).flash = s.flash := rfl
@[simp] theorem setCur_ident (s : State) (x : Part) : (setCur s x).ident = s.ident := rfl
@[simp] theorem setCur_identified (s : State) (x : Part) : (setCur s x).identified = s.identified := rfl
@[simp] theorem setCur_recovery (s : State) (x : Part) : (setCur s x).recovery = s.recovery := rfl
@[simp] theorem setCur_bar0 (s : State) (x : Part) : (setCur s x).bar0 = s.bar0 := rfl
@[simp] theorem setCur_hostOut (s : State) (x : Part) : (setCur s x).hostOut = s.hostOut := rfl
@[simp] theorem setCur_spdm (s : State) (x : Part) : (setCur s x).spdm = s.spdm := rfl
@[simp] theorem setCur_measured (s : State) (x : Part) : (setCur s x).measured = s.measured := rfl
@[simp] theorem setCur_eventRing (s : State) (x : Part) : (setCur s x).eventRing = s.eventRing := rfl
@[simp] theorem setCur_eventsOut (s : State) (x : Part) : (setCur s x).eventsOut = s.eventsOut := rfl
@[simp] theorem setCur_fws (s : State) (x : Part) : (setCur s x).fws = s.fws := rfl
@[simp] theorem setCur_parts (s : State) (x : Part) : (setCur s x).parts = mput s.parts (partKey s.iss.core s.iss.part) x := rfl

/-! The core that issues is stored. -/

@[simp] theorem setCurCore_clock (s : State) (x : CoreSt) : (setCurCore s x).clock = s.clock := rfl
@[simp] theorem setCurCore_uclock (s : State) (x : CoreSt) : (setCurCore s x).uclock = s.uclock := rfl
@[simp] theorem setCurCore_epoch (s : State) (x : CoreSt) : (setCurCore s x).epoch = s.epoch := rfl
@[simp] theorem setCurCore_parts (s : State) (x : CoreSt) : (setCurCore s x).parts = s.parts := rfl
@[simp] theorem setCurCore_iss (s : State) (x : CoreSt) : (setCurCore s x).iss = s.iss := rfl
@[simp] theorem setCurCore_inputs (s : State) (x : CoreSt) : (setCurCore s x).inputs = s.inputs := rfl
@[simp] theorem setCurCore_mem (s : State) (x : CoreSt) : (setCurCore s x).mem = s.mem := rfl
@[simp] theorem setCurCore_pois (s : State) (x : CoreSt) : (setCurCore s x).pois = s.pois := rfl
@[simp] theorem setCurCore_wc (s : State) (x : CoreSt) : (setCurCore s x).wc = s.wc := rfl
@[simp] theorem setCurCore_meta (s : State) (x : CoreSt) : (setCurCore s x).meta_ = s.meta_ := rfl
@[simp] theorem setCurCore_capture (s : State) (x : CoreSt) : (setCurCore s x).capture = s.capture := rfl
@[simp] theorem setCurCore_tracker (s : State) (x : CoreSt) : (setCurCore s x).tracker = s.tracker := rfl
@[simp] theorem setCurCore_capDue (s : State) (x : CoreSt) : (setCurCore s x).capDue = s.capDue := rfl
@[simp] theorem setCurCore_winClock (s : State) (x : CoreSt) : (setCurCore s x).winClock = s.winClock := rfl
@[simp] theorem setCurCore_retiring (s : State) (x : CoreSt) : (setCurCore s x).retiring = s.retiring := rfl
@[simp] theorem setCurCore_layoutOut (s : State) (x : CoreSt) : (setCurCore s x).layoutOut = s.layoutOut := rfl
@[simp] theorem setCurCore_annexMap (s : State) (x : CoreSt) : (setCurCore s x).annexMap = s.annexMap := rfl
@[simp] theorem setCurCore_annexMem (s : State) (x : CoreSt) : (setCurCore s x).annexMem = s.annexMem := rfl
@[simp] theorem setCurCore_annexBuf (s : State) (x : CoreSt) : (setCurCore s x).annexBuf = s.annexBuf := rfl
@[simp] theorem setCurCore_hostMem (s : State) (x : CoreSt) : (setCurCore s x).hostMem = s.hostMem := rfl
@[simp] theorem setCurCore_hostMaps (s : State) (x : CoreSt) : (setCurCore s x).hostMaps = s.hostMaps := rfl
@[simp] theorem setCurCore_hostLines (s : State) (x : CoreSt) : (setCurCore s x).hostLines = s.hostLines := rfl
@[simp] theorem setCurCore_cxlCache (s : State) (x : CoreSt) : (setCurCore s x).cxlCache = s.cxlCache := rfl
@[simp] theorem setCurCore_limits (s : State) (x : CoreSt) : (setCurCore s x).limits = s.limits := rfl
@[simp] theorem setCurCore_woken (s : State) (x : CoreSt) : (setCurCore s x).woken = s.woken := rfl
@[simp] theorem setCurCore_hot (s : State) (x : CoreSt) : (setCurCore s x).hot = s.hot := rfl
@[simp] theorem setCurCore_remap (s : State) (x : CoreSt) : (setCurCore s x).remap = s.remap := rfl
@[simp] theorem setCurCore_spares (s : State) (x : CoreSt) : (setCurCore s x).spares = s.spares := rfl
@[simp] theorem setCurCore_copies (s : State) (x : CoreSt) : (setCurCore s x).copies = s.copies := rfl
@[simp] theorem setCurCore_kvs (s : State) (x : CoreSt) : (setCurCore s x).kvs = s.kvs := rfl
@[simp] theorem setCurCore_relocs (s : State) (x : CoreSt) : (setCurCore s x).relocs = s.relocs := rfl
@[simp] theorem setCurCore_held (s : State) (x : CoreSt) : (setCurCore s x).held = s.held := rfl
@[simp] theorem setCurCore_events (s : State) (x : CoreSt) : (setCurCore s x).events = s.events := rfl
@[simp] theorem setCurCore_irqs (s : State) (x : CoreSt) : (setCurCore s x).irqs = s.irqs := rfl
@[simp] theorem setCurCore_qtab (s : State) (x : CoreSt) : (setCurCore s x).qtab = s.qtab := rfl
@[simp] theorem setCurCore_queues (s : State) (x : CoreSt) : (setCurCore s x).queues = s.queues := rfl
@[simp] theorem setCurCore_pkts (s : State) (x : CoreSt) : (setCurCore s x).pkts = s.pkts := rfl
@[simp] theorem setCurCore_gangs (s : State) (x : CoreSt) : (setCurCore s x).gangs = s.gangs := rfl
@[simp] theorem setCurCore_nextId (s : State) (x : CoreSt) : (setCurCore s x).nextId = s.nextId := rfl
@[simp] theorem setCurCore_slice (s : State) (x : CoreSt) : (setCurCore s x).slice = s.slice := rfl
@[simp] theorem setCurCore_raised (s : State) (x : CoreSt) : (setCurCore s x).raised = s.raised := rfl
@[simp] theorem setCurCore_nextCore (s : State) (x : CoreSt) : (setCurCore s x).nextCore = s.nextCore := rfl
@[simp] theorem setCurCore_turn (s : State) (x : CoreSt) : (setCurCore s x).turn = s.turn := rfl
@[simp] theorem setCurCore_coreMHz (s : State) (x : CoreSt) : (setCurCore s x).coreMHz = s.coreMHz := rfl
@[simp] theorem setCurCore_uacc (s : State) (x : CoreSt) : (setCurCore s x).uacc = s.uacc := rfl
@[simp] theorem setCurCore_told (s : State) (x : CoreSt) : (setCurCore s x).told = s.told := rfl
@[simp] theorem setCurCore_shadow (s : State) (x : CoreSt) : (setCurCore s x).shadow = s.shadow := rfl
@[simp] theorem setCurCore_nskeys (s : State) (x : CoreSt) : (setCurCore s x).nskeys = s.nskeys := rfl
@[simp] theorem setCurCore_catOps (s : State) (x : CoreSt) : (setCurCore s x).catOps = s.catOps := rfl
@[simp] theorem setCurCore_recalls (s : State) (x : CoreSt) : (setCurCore s x).recalls = s.recalls := rfl
@[simp] theorem setCurCore_fetches (s : State) (x : CoreSt) : (setCurCore s x).fetches = s.fetches := rfl
@[simp] theorem setCurCore_images (s : State) (x : CoreSt) : (setCurCore s x).images = s.images := rfl
@[simp] theorem setCurCore_nvme (s : State) (x : CoreSt) : (setCurCore s x).nvme = s.nvme := rfl
@[simp] theorem setCurCore_nvmeQs (s : State) (x : CoreSt) : (setCurCore s x).nvmeQs = s.nvmeQs := rfl
@[simp] theorem setCurCore_conns (s : State) (x : CoreSt) : (setCurCore s x).conns = s.conns := rfl
@[simp] theorem setCurCore_outbox (s : State) (x : CoreSt) : (setCurCore s x).outbox = s.outbox := rfl
@[simp] theorem setCurCore_colls (s : State) (x : CoreSt) : (setCurCore s x).colls = s.colls := rfl
@[simp] theorem setCurCore_early (s : State) (x : CoreSt) : (setCurCore s x).early = s.early := rfl
@[simp] theorem setCurCore_extents (s : State) (x : CoreSt) : (setCurCore s x).extents = s.extents := rfl
@[simp] theorem setCurCore_flash (s : State) (x : CoreSt) : (setCurCore s x).flash = s.flash := rfl
@[simp] theorem setCurCore_ident (s : State) (x : CoreSt) : (setCurCore s x).ident = s.ident := rfl
@[simp] theorem setCurCore_identified (s : State) (x : CoreSt) : (setCurCore s x).identified = s.identified := rfl
@[simp] theorem setCurCore_recovery (s : State) (x : CoreSt) : (setCurCore s x).recovery = s.recovery := rfl
@[simp] theorem setCurCore_bar0 (s : State) (x : CoreSt) : (setCurCore s x).bar0 = s.bar0 := rfl
@[simp] theorem setCurCore_hostOut (s : State) (x : CoreSt) : (setCurCore s x).hostOut = s.hostOut := rfl
@[simp] theorem setCurCore_spdm (s : State) (x : CoreSt) : (setCurCore s x).spdm = s.spdm := rfl
@[simp] theorem setCurCore_measured (s : State) (x : CoreSt) : (setCurCore s x).measured = s.measured := rfl
@[simp] theorem setCurCore_eventRing (s : State) (x : CoreSt) : (setCurCore s x).eventRing = s.eventRing := rfl
@[simp] theorem setCurCore_eventsOut (s : State) (x : CoreSt) : (setCurCore s x).eventsOut = s.eventsOut := rfl
@[simp] theorem setCurCore_fws (s : State) (x : CoreSt) : (setCurCore s x).fws = s.fws := rfl
@[simp] theorem setCurCore_cores (s : State) (x : CoreSt) : (setCurCore s x).cores = mput s.cores s.iss.core x := rfl

/-! An event is reported. -/

@[simp] theorem addEvent_clock (s : State) (e : EventRec) : (addEvent s e).clock = s.clock := rfl
@[simp] theorem addEvent_uclock (s : State) (e : EventRec) : (addEvent s e).uclock = s.uclock := rfl
@[simp] theorem addEvent_epoch (s : State) (e : EventRec) : (addEvent s e).epoch = s.epoch := rfl
@[simp] theorem addEvent_parts (s : State) (e : EventRec) : (addEvent s e).parts = s.parts := rfl
@[simp] theorem addEvent_cores (s : State) (e : EventRec) : (addEvent s e).cores = s.cores := rfl
@[simp] theorem addEvent_iss (s : State) (e : EventRec) : (addEvent s e).iss = s.iss := rfl
@[simp] theorem addEvent_inputs (s : State) (e : EventRec) : (addEvent s e).inputs = s.inputs := rfl
@[simp] theorem addEvent_mem (s : State) (e : EventRec) : (addEvent s e).mem = s.mem := rfl
@[simp] theorem addEvent_pois (s : State) (e : EventRec) : (addEvent s e).pois = s.pois := rfl
@[simp] theorem addEvent_wc (s : State) (e : EventRec) : (addEvent s e).wc = s.wc := rfl
@[simp] theorem addEvent_meta (s : State) (e : EventRec) : (addEvent s e).meta_ = s.meta_ := rfl
@[simp] theorem addEvent_capture (s : State) (e : EventRec) : (addEvent s e).capture = s.capture := rfl
@[simp] theorem addEvent_tracker (s : State) (e : EventRec) : (addEvent s e).tracker = s.tracker := rfl
@[simp] theorem addEvent_capDue (s : State) (e : EventRec) : (addEvent s e).capDue = s.capDue := rfl
@[simp] theorem addEvent_winClock (s : State) (e : EventRec) : (addEvent s e).winClock = s.winClock := rfl
@[simp] theorem addEvent_retiring (s : State) (e : EventRec) : (addEvent s e).retiring = s.retiring := rfl
@[simp] theorem addEvent_layoutOut (s : State) (e : EventRec) : (addEvent s e).layoutOut = s.layoutOut := rfl
@[simp] theorem addEvent_annexMap (s : State) (e : EventRec) : (addEvent s e).annexMap = s.annexMap := rfl
@[simp] theorem addEvent_annexMem (s : State) (e : EventRec) : (addEvent s e).annexMem = s.annexMem := rfl
@[simp] theorem addEvent_annexBuf (s : State) (e : EventRec) : (addEvent s e).annexBuf = s.annexBuf := rfl
@[simp] theorem addEvent_hostMem (s : State) (e : EventRec) : (addEvent s e).hostMem = s.hostMem := rfl
@[simp] theorem addEvent_hostMaps (s : State) (e : EventRec) : (addEvent s e).hostMaps = s.hostMaps := rfl
@[simp] theorem addEvent_hostLines (s : State) (e : EventRec) : (addEvent s e).hostLines = s.hostLines := rfl
@[simp] theorem addEvent_cxlCache (s : State) (e : EventRec) : (addEvent s e).cxlCache = s.cxlCache := rfl
@[simp] theorem addEvent_limits (s : State) (e : EventRec) : (addEvent s e).limits = s.limits := rfl
@[simp] theorem addEvent_woken (s : State) (e : EventRec) : (addEvent s e).woken = s.woken := rfl
@[simp] theorem addEvent_hot (s : State) (e : EventRec) : (addEvent s e).hot = s.hot := rfl
@[simp] theorem addEvent_remap (s : State) (e : EventRec) : (addEvent s e).remap = s.remap := rfl
@[simp] theorem addEvent_spares (s : State) (e : EventRec) : (addEvent s e).spares = s.spares := rfl
@[simp] theorem addEvent_copies (s : State) (e : EventRec) : (addEvent s e).copies = s.copies := rfl
@[simp] theorem addEvent_kvs (s : State) (e : EventRec) : (addEvent s e).kvs = s.kvs := rfl
@[simp] theorem addEvent_relocs (s : State) (e : EventRec) : (addEvent s e).relocs = s.relocs := rfl
@[simp] theorem addEvent_held (s : State) (e : EventRec) : (addEvent s e).held = s.held := rfl
@[simp] theorem addEvent_irqs (s : State) (e : EventRec) : (addEvent s e).irqs = s.irqs := rfl
@[simp] theorem addEvent_qtab (s : State) (e : EventRec) : (addEvent s e).qtab = s.qtab := rfl
@[simp] theorem addEvent_queues (s : State) (e : EventRec) : (addEvent s e).queues = s.queues := rfl
@[simp] theorem addEvent_pkts (s : State) (e : EventRec) : (addEvent s e).pkts = s.pkts := rfl
@[simp] theorem addEvent_gangs (s : State) (e : EventRec) : (addEvent s e).gangs = s.gangs := rfl
@[simp] theorem addEvent_nextId (s : State) (e : EventRec) : (addEvent s e).nextId = s.nextId := rfl
@[simp] theorem addEvent_slice (s : State) (e : EventRec) : (addEvent s e).slice = s.slice := rfl
@[simp] theorem addEvent_raised (s : State) (e : EventRec) : (addEvent s e).raised = s.raised := rfl
@[simp] theorem addEvent_nextCore (s : State) (e : EventRec) : (addEvent s e).nextCore = s.nextCore := rfl
@[simp] theorem addEvent_turn (s : State) (e : EventRec) : (addEvent s e).turn = s.turn := rfl
@[simp] theorem addEvent_coreMHz (s : State) (e : EventRec) : (addEvent s e).coreMHz = s.coreMHz := rfl
@[simp] theorem addEvent_uacc (s : State) (e : EventRec) : (addEvent s e).uacc = s.uacc := rfl
@[simp] theorem addEvent_told (s : State) (e : EventRec) : (addEvent s e).told = s.told := rfl
@[simp] theorem addEvent_shadow (s : State) (e : EventRec) : (addEvent s e).shadow = s.shadow := rfl
@[simp] theorem addEvent_nskeys (s : State) (e : EventRec) : (addEvent s e).nskeys = s.nskeys := rfl
@[simp] theorem addEvent_catOps (s : State) (e : EventRec) : (addEvent s e).catOps = s.catOps := rfl
@[simp] theorem addEvent_recalls (s : State) (e : EventRec) : (addEvent s e).recalls = s.recalls := rfl
@[simp] theorem addEvent_fetches (s : State) (e : EventRec) : (addEvent s e).fetches = s.fetches := rfl
@[simp] theorem addEvent_images (s : State) (e : EventRec) : (addEvent s e).images = s.images := rfl
@[simp] theorem addEvent_nvme (s : State) (e : EventRec) : (addEvent s e).nvme = s.nvme := rfl
@[simp] theorem addEvent_nvmeQs (s : State) (e : EventRec) : (addEvent s e).nvmeQs = s.nvmeQs := rfl
@[simp] theorem addEvent_conns (s : State) (e : EventRec) : (addEvent s e).conns = s.conns := rfl
@[simp] theorem addEvent_outbox (s : State) (e : EventRec) : (addEvent s e).outbox = s.outbox := rfl
@[simp] theorem addEvent_colls (s : State) (e : EventRec) : (addEvent s e).colls = s.colls := rfl
@[simp] theorem addEvent_early (s : State) (e : EventRec) : (addEvent s e).early = s.early := rfl
@[simp] theorem addEvent_extents (s : State) (e : EventRec) : (addEvent s e).extents = s.extents := rfl
@[simp] theorem addEvent_flash (s : State) (e : EventRec) : (addEvent s e).flash = s.flash := rfl
@[simp] theorem addEvent_ident (s : State) (e : EventRec) : (addEvent s e).ident = s.ident := rfl
@[simp] theorem addEvent_identified (s : State) (e : EventRec) : (addEvent s e).identified = s.identified := rfl
@[simp] theorem addEvent_recovery (s : State) (e : EventRec) : (addEvent s e).recovery = s.recovery := rfl
@[simp] theorem addEvent_bar0 (s : State) (e : EventRec) : (addEvent s e).bar0 = s.bar0 := rfl
@[simp] theorem addEvent_hostOut (s : State) (e : EventRec) : (addEvent s e).hostOut = s.hostOut := rfl
@[simp] theorem addEvent_spdm (s : State) (e : EventRec) : (addEvent s e).spdm = s.spdm := rfl
@[simp] theorem addEvent_measured (s : State) (e : EventRec) : (addEvent s e).measured = s.measured := rfl
@[simp] theorem addEvent_eventRing (s : State) (e : EventRec) : (addEvent s e).eventRing = s.eventRing := rfl
@[simp] theorem addEvent_eventsOut (s : State) (e : EventRec) : (addEvent s e).eventsOut = s.eventsOut := rfl
@[simp] theorem addEvent_fws (s : State) (e : EventRec) : (addEvent s e).fws = s.fws := rfl
@[simp] theorem addEvent_events (s : State) (e : EventRec) : (addEvent s e).events = s.events ++ [e] := rfl

/-! A syllable commits. -/

@[simp] theorem commitSyl_clock (k : Option Sticky) (s : State) : (commitSyl k s).clock = s.clock := rfl
@[simp] theorem commitSyl_uclock (k : Option Sticky) (s : State) : (commitSyl k s).uclock = s.uclock := rfl
@[simp] theorem commitSyl_cores (k : Option Sticky) (s : State) : (commitSyl k s).cores = s.cores := rfl
@[simp] theorem commitSyl_inputs (k : Option Sticky) (s : State) : (commitSyl k s).inputs = s.inputs := rfl
@[simp] theorem commitSyl_mem (k : Option Sticky) (s : State) : (commitSyl k s).mem = s.mem := rfl
@[simp] theorem commitSyl_pois (k : Option Sticky) (s : State) : (commitSyl k s).pois = s.pois := rfl
@[simp] theorem commitSyl_wc (k : Option Sticky) (s : State) : (commitSyl k s).wc = s.wc := rfl
@[simp] theorem commitSyl_meta (k : Option Sticky) (s : State) : (commitSyl k s).meta_ = s.meta_ := rfl
@[simp] theorem commitSyl_capture (k : Option Sticky) (s : State) : (commitSyl k s).capture = s.capture := rfl
@[simp] theorem commitSyl_tracker (k : Option Sticky) (s : State) : (commitSyl k s).tracker = s.tracker := rfl
@[simp] theorem commitSyl_capDue (k : Option Sticky) (s : State) : (commitSyl k s).capDue = s.capDue := rfl
@[simp] theorem commitSyl_winClock (k : Option Sticky) (s : State) : (commitSyl k s).winClock = s.winClock := rfl
@[simp] theorem commitSyl_retiring (k : Option Sticky) (s : State) : (commitSyl k s).retiring = s.retiring := rfl
@[simp] theorem commitSyl_layoutOut (k : Option Sticky) (s : State) : (commitSyl k s).layoutOut = s.layoutOut := rfl
@[simp] theorem commitSyl_annexMap (k : Option Sticky) (s : State) : (commitSyl k s).annexMap = s.annexMap := rfl
@[simp] theorem commitSyl_annexMem (k : Option Sticky) (s : State) : (commitSyl k s).annexMem = s.annexMem := rfl
@[simp] theorem commitSyl_annexBuf (k : Option Sticky) (s : State) : (commitSyl k s).annexBuf = s.annexBuf := rfl
@[simp] theorem commitSyl_hostMem (k : Option Sticky) (s : State) : (commitSyl k s).hostMem = s.hostMem := rfl
@[simp] theorem commitSyl_hostMaps (k : Option Sticky) (s : State) : (commitSyl k s).hostMaps = s.hostMaps := rfl
@[simp] theorem commitSyl_hostLines (k : Option Sticky) (s : State) : (commitSyl k s).hostLines = s.hostLines := rfl
@[simp] theorem commitSyl_cxlCache (k : Option Sticky) (s : State) : (commitSyl k s).cxlCache = s.cxlCache := rfl
@[simp] theorem commitSyl_limits (k : Option Sticky) (s : State) : (commitSyl k s).limits = s.limits := rfl
@[simp] theorem commitSyl_woken (k : Option Sticky) (s : State) : (commitSyl k s).woken = s.woken := rfl
@[simp] theorem commitSyl_hot (k : Option Sticky) (s : State) : (commitSyl k s).hot = s.hot := rfl
@[simp] theorem commitSyl_remap (k : Option Sticky) (s : State) : (commitSyl k s).remap = s.remap := rfl
@[simp] theorem commitSyl_spares (k : Option Sticky) (s : State) : (commitSyl k s).spares = s.spares := rfl
@[simp] theorem commitSyl_copies (k : Option Sticky) (s : State) : (commitSyl k s).copies = s.copies := rfl
@[simp] theorem commitSyl_kvs (k : Option Sticky) (s : State) : (commitSyl k s).kvs = s.kvs := rfl
@[simp] theorem commitSyl_relocs (k : Option Sticky) (s : State) : (commitSyl k s).relocs = s.relocs := rfl
@[simp] theorem commitSyl_held (k : Option Sticky) (s : State) : (commitSyl k s).held = s.held := rfl
@[simp] theorem commitSyl_events (k : Option Sticky) (s : State) : (commitSyl k s).events = s.events := rfl
@[simp] theorem commitSyl_irqs (k : Option Sticky) (s : State) : (commitSyl k s).irqs = s.irqs := rfl
@[simp] theorem commitSyl_qtab (k : Option Sticky) (s : State) : (commitSyl k s).qtab = s.qtab := rfl
@[simp] theorem commitSyl_queues (k : Option Sticky) (s : State) : (commitSyl k s).queues = s.queues := rfl
@[simp] theorem commitSyl_pkts (k : Option Sticky) (s : State) : (commitSyl k s).pkts = s.pkts := rfl
@[simp] theorem commitSyl_gangs (k : Option Sticky) (s : State) : (commitSyl k s).gangs = s.gangs := rfl
@[simp] theorem commitSyl_nextId (k : Option Sticky) (s : State) : (commitSyl k s).nextId = s.nextId := rfl
@[simp] theorem commitSyl_slice (k : Option Sticky) (s : State) : (commitSyl k s).slice = s.slice := rfl
@[simp] theorem commitSyl_raised (k : Option Sticky) (s : State) : (commitSyl k s).raised = s.raised := rfl
@[simp] theorem commitSyl_nextCore (k : Option Sticky) (s : State) : (commitSyl k s).nextCore = s.nextCore := rfl
@[simp] theorem commitSyl_turn (k : Option Sticky) (s : State) : (commitSyl k s).turn = s.turn := rfl
@[simp] theorem commitSyl_coreMHz (k : Option Sticky) (s : State) : (commitSyl k s).coreMHz = s.coreMHz := rfl
@[simp] theorem commitSyl_uacc (k : Option Sticky) (s : State) : (commitSyl k s).uacc = s.uacc := rfl
@[simp] theorem commitSyl_told (k : Option Sticky) (s : State) : (commitSyl k s).told = s.told := rfl
@[simp] theorem commitSyl_shadow (k : Option Sticky) (s : State) : (commitSyl k s).shadow = s.shadow := rfl
@[simp] theorem commitSyl_nskeys (k : Option Sticky) (s : State) : (commitSyl k s).nskeys = s.nskeys := rfl
@[simp] theorem commitSyl_catOps (k : Option Sticky) (s : State) : (commitSyl k s).catOps = s.catOps := rfl
@[simp] theorem commitSyl_recalls (k : Option Sticky) (s : State) : (commitSyl k s).recalls = s.recalls := rfl
@[simp] theorem commitSyl_fetches (k : Option Sticky) (s : State) : (commitSyl k s).fetches = s.fetches := rfl
@[simp] theorem commitSyl_images (k : Option Sticky) (s : State) : (commitSyl k s).images = s.images := rfl
@[simp] theorem commitSyl_nvme (k : Option Sticky) (s : State) : (commitSyl k s).nvme = s.nvme := rfl
@[simp] theorem commitSyl_nvmeQs (k : Option Sticky) (s : State) : (commitSyl k s).nvmeQs = s.nvmeQs := rfl
@[simp] theorem commitSyl_conns (k : Option Sticky) (s : State) : (commitSyl k s).conns = s.conns := rfl
@[simp] theorem commitSyl_outbox (k : Option Sticky) (s : State) : (commitSyl k s).outbox = s.outbox := rfl
@[simp] theorem commitSyl_colls (k : Option Sticky) (s : State) : (commitSyl k s).colls = s.colls := rfl
@[simp] theorem commitSyl_early (k : Option Sticky) (s : State) : (commitSyl k s).early = s.early := rfl
@[simp] theorem commitSyl_extents (k : Option Sticky) (s : State) : (commitSyl k s).extents = s.extents := rfl
@[simp] theorem commitSyl_flash (k : Option Sticky) (s : State) : (commitSyl k s).flash = s.flash := rfl
@[simp] theorem commitSyl_ident (k : Option Sticky) (s : State) : (commitSyl k s).ident = s.ident := rfl
@[simp] theorem commitSyl_identified (k : Option Sticky) (s : State) : (commitSyl k s).identified = s.identified := rfl
@[simp] theorem commitSyl_recovery (k : Option Sticky) (s : State) : (commitSyl k s).recovery = s.recovery := rfl
@[simp] theorem commitSyl_bar0 (k : Option Sticky) (s : State) : (commitSyl k s).bar0 = s.bar0 := rfl
@[simp] theorem commitSyl_hostOut (k : Option Sticky) (s : State) : (commitSyl k s).hostOut = s.hostOut := rfl
@[simp] theorem commitSyl_spdm (k : Option Sticky) (s : State) : (commitSyl k s).spdm = s.spdm := rfl
@[simp] theorem commitSyl_measured (k : Option Sticky) (s : State) : (commitSyl k s).measured = s.measured := rfl
@[simp] theorem commitSyl_eventRing (k : Option Sticky) (s : State) : (commitSyl k s).eventRing = s.eventRing := rfl
@[simp] theorem commitSyl_eventsOut (k : Option Sticky) (s : State) : (commitSyl k s).eventsOut = s.eventsOut := rfl
@[simp] theorem commitSyl_fws (k : Option Sticky) (s : State) : (commitSyl k s).fws = s.fws := rfl
@[simp] theorem commitSyl_epoch (k : Option Sticky) (s : State) : (commitSyl k s).epoch = s.epoch + 1 := rfl
@[simp] theorem commitSyl_iss (k : Option Sticky) (s : State) : (commitSyl k s).iss = { s.iss with slot := s.iss.slot + 1 } := rfl

/-! A sticky register is written. -/

@[simp] theorem setSticky_ps (p : Part) (n : Nat) (k : Option Sticky) : (setSticky p n k).ps = p.ps := rfl
@[simp] theorem setSticky_steward (p : Part) (n : Nat) (k : Option Sticky) : (setSticky p n k).steward = p.steward := rfl
@[simp] theorem setSticky_age (p : Part) (n : Nat) (k : Option Sticky) : (setSticky p n k).age = p.age := rfl
@[simp] theorem setSticky_lastIssue (p : Part) (n : Nat) (k : Option Sticky) : (setSticky p n k).lastIssue = p.lastIssue := rfl
@[simp] theorem setSticky_gang (p : Part) (n : Nat) (k : Option Sticky) : (setSticky p n k).gang = p.gang := rfl
@[simp] theorem setSticky_queue (p : Part) (n : Nat) (k : Option Sticky) : (setSticky p n k).queue = p.queue := rfl
@[simp] theorem setSticky_role (p : Part) (n : Nat) (k : Option Sticky) : (setSticky p n k).role = p.role := rfl
@[simp] theorem setSticky_slots (p : Part) (n : Nat) (k : Option Sticky) : (setSticky p n k).slots = p.slots := rfl
@[simp] theorem setSticky_accs (p : Part) (n : Nat) (k : Option Sticky) : (setSticky p n k).accs = p.accs := rfl
@[simp] theorem setSticky_wregs (p : Part) (n : Nat) (k : Option Sticky) : (setSticky p n k).wregs = p.wregs := rfl
@[simp] theorem setSticky_tslen (p : Part) (n : Nat) (k : Option Sticky) : (setSticky p n k).tslen = p.tslen := rfl
@[simp] theorem setSticky_wbase (p : Part) (n : Nat) (k : Option Sticky) : (setSticky p n k).wbase = p.wbase := rfl
@[simp] theorem setSticky_tsbase (p : Part) (n : Nat) (k : Option Sticky) : (setSticky p n k).tsbase = p.tsbase := rfl
@[simp] theorem setSticky_segmax (p : Part) (n : Nat) (k : Option Sticky) : (setSticky p n k).segmax = p.segmax := rfl
@[simp] theorem setSticky_born (p : Part) (n : Nat) (k : Option Sticky) : (setSticky p n k).born = p.born := rfl
@[simp] theorem setSticky_spbase (p : Part) (n : Nat) (k : Option Sticky) : (setSticky p n k).spbase = p.spbase := rfl
@[simp] theorem setSticky_splen (p : Part) (n : Nat) (k : Option Sticky) : (setSticky p n k).splen = p.splen := rfl
@[simp] theorem setSticky_coord (p : Part) (n : Nat) (k : Option Sticky) : (setSticky p n k).coord = p.coord := rfl
@[simp] theorem setSticky_tc (p : Part) (n : Nat) (k : Option Sticky) : (setSticky p n k).tc = p.tc := rfl
@[simp] theorem setSticky_s (p : Part) (n : Nat) (k : Option Sticky) : (setSticky p n k).s = p.s := rfl
@[simp] theorem setSticky_sp (p : Part) (n : Nat) (k : Option Sticky) : (setSticky p n k).sp = p.sp := rfl
@[simp] theorem setSticky_sh (p : Part) (n : Nat) (k : Option Sticky) : (setSticky p n k).sh = p.sh := rfl
@[simp] theorem setSticky_shp (p : Part) (n : Nat) (k : Option Sticky) : (setSticky p n k).shp = p.shp := rfl
@[simp] theorem setSticky_v (p : Part) (n : Nat) (k : Option Sticky) : (setSticky p n k).v = p.v := rfl
@[simp] theorem setSticky_vp (p : Part) (n : Nat) (k : Option Sticky) : (setSticky p n k).vp = p.vp := rfl
@[simp] theorem setSticky_p (p : Part) (n : Nat) (k : Option Sticky) : (setSticky p n k).p = p.p := rfl
@[simp] theorem setSticky_g (p : Part) (n : Nat) (k : Option Sticky) : (setSticky p n k).g = p.g := rfl
@[simp] theorem setSticky_lc (p : Part) (n : Nat) (k : Option Sticky) : (setSticky p n k).lc = p.lc := rfl
@[simp] theorem setSticky_le (p : Part) (n : Nat) (k : Option Sticky) : (setSticky p n k).le = p.le := rfl
@[simp] theorem setSticky_ft (p : Part) (n : Nat) (k : Option Sticky) : (setSticky p n k).ft = p.ft := rfl
@[simp] theorem setSticky_mca (p : Part) (n : Nat) (k : Option Sticky) : (setSticky p n k).mca = p.mca := rfl
@[simp] theorem setSticky_mcb (p : Part) (n : Nat) (k : Option Sticky) : (setSticky p n k).mcb = p.mcb := rfl
@[simp] theorem setSticky_mcs (p : Part) (n : Nat) (k : Option Sticky) : (setSticky p n k).mcs = p.mcs := rfl
@[simp] theorem setSticky_mcg (p : Part) (n : Nat) (k : Option Sticky) : (setSticky p n k).mcg = p.mcg := rfl
@[simp] theorem setSticky_mce (p : Part) (n : Nat) (k : Option Sticky) : (setSticky p n k).mce = p.mce := rfl
@[simp] theorem setSticky_mcr (p : Part) (n : Nat) (k : Option Sticky) : (setSticky p n k).mcr = p.mcr := rfl
@[simp] theorem setSticky_acc (p : Part) (n : Nat) (k : Option Sticky) : (setSticky p n k).acc = p.acc := rfl
@[simp] theorem setSticky_tile (p : Part) (n : Nat) (k : Option Sticky) : (setSticky p n k).tile = p.tile := rfl
@[simp] theorem setSticky_tileWas (p : Part) (n : Nat) (k : Option Sticky) : (setSticky p n k).tileWas = p.tileWas := rfl
@[simp] theorem setSticky_tags (p : Part) (n : Nat) (k : Option Sticky) : (setSticky p n k).tags = p.tags := rfl
@[simp] theorem setSticky_fpctl (p : Part) (n : Nat) (k : Option Sticky) : (setSticky p n k).fpctl = p.fpctl := rfl
@[simp] theorem setSticky_tvec (p : Part) (n : Nat) (k : Option Sticky) : (setSticky p n k).tvec = p.tvec := rfl
@[simp] theorem setSticky_uivec (p : Part) (n : Nat) (k : Option Sticky) : (setSticky p n k).uivec = p.uivec := rfl
@[simp] theorem setSticky_uictl (p : Part) (n : Nat) (k : Option Sticky) : (setSticky p n k).uictl = p.uictl := rfl
@[simp] theorem setSticky_rplact (p : Part) (n : Nat) (k : Option Sticky) : (setSticky p n k).rplact = p.rplact := rfl
@[simp] theorem setSticky_cfc01 (p : Part) (n : Nat) (k : Option Sticky) : (setSticky p n k).cfc01 = p.cfc01 := rfl
@[simp] theorem setSticky_cfc23 (p : Part) (n : Nat) (k : Option Sticky) : (setSticky p n k).cfc23 = p.cfc23 := rfl
@[simp] theorem setSticky_tsw (p : Part) (n : Nat) (k : Option Sticky) : (setSticky p n k).tsw = p.tsw := rfl
@[simp] theorem setSticky_tcause (p : Part) (n : Nat) (k : Option Sticky) : (setSticky p n k).tcause = p.tcause := rfl
@[simp] theorem setSticky_taddr (p : Part) (n : Nat) (k : Option Sticky) : (setSticky p n k).taddr = p.taddr := rfl
@[simp] theorem setSticky_tpc (p : Part) (n : Nat) (k : Option Sticky) : (setSticky p n k).tpc = p.tpc := rfl
@[simp] theorem setSticky_level (p : Part) (n : Nat) (k : Option Sticky) : (setSticky p n k).level = p.level := rfl
@[simp] theorem setSticky_bank1 (p : Part) (n : Nat) (k : Option Sticky) : (setSticky p n k).bank1 = p.bank1 := rfl
@[simp] theorem setSticky_bank2 (p : Part) (n : Nat) (k : Option Sticky) : (setSticky p n k).bank2 = p.bank2 := rfl
@[simp] theorem setSticky_ui (p : Part) (n : Nat) (k : Option Sticky) : (setSticky p n k).ui = p.ui := rfl
@[simp] theorem setSticky_uiSeq (p : Part) (n : Nat) (k : Option Sticky) : (setSticky p n k).uiSeq = p.uiSeq := rfl
@[simp] theorem setSticky_pends (p : Part) (n : Nat) (k : Option Sticky) : (setSticky p n k).pends = p.pends := rfl
@[simp] theorem setSticky_early (p : Part) (n : Nat) (k : Option Sticky) : (setSticky p n k).early = p.early := rfl
@[simp] theorem setSticky_nextSeq (p : Part) (n : Nat) (k : Option Sticky) : (setSticky p n k).nextSeq = p.nextSeq := rfl
@[simp] theorem setSticky_reports (p : Part) (n : Nat) (k : Option Sticky) : (setSticky p n k).reports = p.reports := rfl
@[simp] theorem setSticky_monitor (p : Part) (n : Nat) (k : Option Sticky) : (setSticky p n k).monitor = p.monitor := rfl
@[simp] theorem setSticky_cur (p : Part) (n : Nat) (k : Option Sticky) : (setSticky p n k).cur = p.cur := rfl
@[simp] theorem setSticky_nxt (p : Part) (n : Nat) (k : Option Sticky) : (setSticky p n k).nxt = p.nxt := rfl
@[simp] theorem setSticky_bucket (p : Part) (n : Nat) (k : Option Sticky) : (setSticky p n k).bucket = p.bucket := rfl
@[simp] theorem setSticky_preempt (p : Part) (n : Nat) (k : Option Sticky) : (setSticky p n k).preempt = p.preempt := rfl
@[simp] theorem setSticky_single (p : Part) (n : Nat) (k : Option Sticky) : (setSticky p n k).single = p.single := rfl
@[simp] theorem setSticky_stepped (p : Part) (n : Nat) (k : Option Sticky) : (setSticky p n k).stepped = p.stepped := rfl
@[simp] theorem setSticky_debugged (p : Part) (n : Nat) (k : Option Sticky) : (setSticky p n k).debugged = p.debugged := rfl
@[simp] theorem setSticky_entered (p : Part) (n : Nat) (k : Option Sticky) : (setSticky p n k).entered = p.entered := rfl
@[simp] theorem setSticky_nexty (p : Part) (n : Nat) (k : Option Sticky) : (setSticky p n k).nexty = p.nexty := rfl
@[simp] theorem setSticky_atYield (p : Part) (n : Nat) (k : Option Sticky) : (setSticky p n k).atYield = p.atYield := rfl
@[simp] theorem setSticky_stepFrom (p : Part) (n : Nat) (k : Option Sticky) : (setSticky p n k).stepFrom = p.stepFrom := rfl

/-! A pending operation is added. -/

@[simp] theorem pushPend_ps (p : Part) (e : Pend) : (pushPend p e).ps = p.ps := rfl
@[simp] theorem pushPend_steward (p : Part) (e : Pend) : (pushPend p e).steward = p.steward := rfl
@[simp] theorem pushPend_age (p : Part) (e : Pend) : (pushPend p e).age = p.age := rfl
@[simp] theorem pushPend_lastIssue (p : Part) (e : Pend) : (pushPend p e).lastIssue = p.lastIssue := rfl
@[simp] theorem pushPend_gang (p : Part) (e : Pend) : (pushPend p e).gang = p.gang := rfl
@[simp] theorem pushPend_queue (p : Part) (e : Pend) : (pushPend p e).queue = p.queue := rfl
@[simp] theorem pushPend_role (p : Part) (e : Pend) : (pushPend p e).role = p.role := rfl
@[simp] theorem pushPend_slots (p : Part) (e : Pend) : (pushPend p e).slots = p.slots := rfl
@[simp] theorem pushPend_accs (p : Part) (e : Pend) : (pushPend p e).accs = p.accs := rfl
@[simp] theorem pushPend_wregs (p : Part) (e : Pend) : (pushPend p e).wregs = p.wregs := rfl
@[simp] theorem pushPend_tslen (p : Part) (e : Pend) : (pushPend p e).tslen = p.tslen := rfl
@[simp] theorem pushPend_wbase (p : Part) (e : Pend) : (pushPend p e).wbase = p.wbase := rfl
@[simp] theorem pushPend_tsbase (p : Part) (e : Pend) : (pushPend p e).tsbase = p.tsbase := rfl
@[simp] theorem pushPend_segmax (p : Part) (e : Pend) : (pushPend p e).segmax = p.segmax := rfl
@[simp] theorem pushPend_born (p : Part) (e : Pend) : (pushPend p e).born = p.born := rfl
@[simp] theorem pushPend_spbase (p : Part) (e : Pend) : (pushPend p e).spbase = p.spbase := rfl
@[simp] theorem pushPend_splen (p : Part) (e : Pend) : (pushPend p e).splen = p.splen := rfl
@[simp] theorem pushPend_coord (p : Part) (e : Pend) : (pushPend p e).coord = p.coord := rfl
@[simp] theorem pushPend_tc (p : Part) (e : Pend) : (pushPend p e).tc = p.tc := rfl
@[simp] theorem pushPend_at (p : Part) (e : Pend) : (pushPend p e).at_ = p.at_ := rfl
@[simp] theorem pushPend_s (p : Part) (e : Pend) : (pushPend p e).s = p.s := rfl
@[simp] theorem pushPend_sp (p : Part) (e : Pend) : (pushPend p e).sp = p.sp := rfl
@[simp] theorem pushPend_sh (p : Part) (e : Pend) : (pushPend p e).sh = p.sh := rfl
@[simp] theorem pushPend_shp (p : Part) (e : Pend) : (pushPend p e).shp = p.shp := rfl
@[simp] theorem pushPend_v (p : Part) (e : Pend) : (pushPend p e).v = p.v := rfl
@[simp] theorem pushPend_vp (p : Part) (e : Pend) : (pushPend p e).vp = p.vp := rfl
@[simp] theorem pushPend_p (p : Part) (e : Pend) : (pushPend p e).p = p.p := rfl
@[simp] theorem pushPend_g (p : Part) (e : Pend) : (pushPend p e).g = p.g := rfl
@[simp] theorem pushPend_lc (p : Part) (e : Pend) : (pushPend p e).lc = p.lc := rfl
@[simp] theorem pushPend_le (p : Part) (e : Pend) : (pushPend p e).le = p.le := rfl
@[simp] theorem pushPend_ft (p : Part) (e : Pend) : (pushPend p e).ft = p.ft := rfl
@[simp] theorem pushPend_mca (p : Part) (e : Pend) : (pushPend p e).mca = p.mca := rfl
@[simp] theorem pushPend_mcb (p : Part) (e : Pend) : (pushPend p e).mcb = p.mcb := rfl
@[simp] theorem pushPend_mcs (p : Part) (e : Pend) : (pushPend p e).mcs = p.mcs := rfl
@[simp] theorem pushPend_mcg (p : Part) (e : Pend) : (pushPend p e).mcg = p.mcg := rfl
@[simp] theorem pushPend_mce (p : Part) (e : Pend) : (pushPend p e).mce = p.mce := rfl
@[simp] theorem pushPend_mcr (p : Part) (e : Pend) : (pushPend p e).mcr = p.mcr := rfl
@[simp] theorem pushPend_acc (p : Part) (e : Pend) : (pushPend p e).acc = p.acc := rfl
@[simp] theorem pushPend_tile (p : Part) (e : Pend) : (pushPend p e).tile = p.tile := rfl
@[simp] theorem pushPend_tileWas (p : Part) (e : Pend) : (pushPend p e).tileWas = p.tileWas := rfl
@[simp] theorem pushPend_tags (p : Part) (e : Pend) : (pushPend p e).tags = p.tags := rfl
@[simp] theorem pushPend_fpctl (p : Part) (e : Pend) : (pushPend p e).fpctl = p.fpctl := rfl
@[simp] theorem pushPend_tvec (p : Part) (e : Pend) : (pushPend p e).tvec = p.tvec := rfl
@[simp] theorem pushPend_uivec (p : Part) (e : Pend) : (pushPend p e).uivec = p.uivec := rfl
@[simp] theorem pushPend_uictl (p : Part) (e : Pend) : (pushPend p e).uictl = p.uictl := rfl
@[simp] theorem pushPend_rplact (p : Part) (e : Pend) : (pushPend p e).rplact = p.rplact := rfl
@[simp] theorem pushPend_cfc01 (p : Part) (e : Pend) : (pushPend p e).cfc01 = p.cfc01 := rfl
@[simp] theorem pushPend_cfc23 (p : Part) (e : Pend) : (pushPend p e).cfc23 = p.cfc23 := rfl
@[simp] theorem pushPend_tsw (p : Part) (e : Pend) : (pushPend p e).tsw = p.tsw := rfl
@[simp] theorem pushPend_tcause (p : Part) (e : Pend) : (pushPend p e).tcause = p.tcause := rfl
@[simp] theorem pushPend_taddr (p : Part) (e : Pend) : (pushPend p e).taddr = p.taddr := rfl
@[simp] theorem pushPend_tpc (p : Part) (e : Pend) : (pushPend p e).tpc = p.tpc := rfl
@[simp] theorem pushPend_level (p : Part) (e : Pend) : (pushPend p e).level = p.level := rfl
@[simp] theorem pushPend_bank1 (p : Part) (e : Pend) : (pushPend p e).bank1 = p.bank1 := rfl
@[simp] theorem pushPend_bank2 (p : Part) (e : Pend) : (pushPend p e).bank2 = p.bank2 := rfl
@[simp] theorem pushPend_ui (p : Part) (e : Pend) : (pushPend p e).ui = p.ui := rfl
@[simp] theorem pushPend_uiSeq (p : Part) (e : Pend) : (pushPend p e).uiSeq = p.uiSeq := rfl
@[simp] theorem pushPend_early (p : Part) (e : Pend) : (pushPend p e).early = p.early := rfl
@[simp] theorem pushPend_reports (p : Part) (e : Pend) : (pushPend p e).reports = p.reports := rfl
@[simp] theorem pushPend_monitor (p : Part) (e : Pend) : (pushPend p e).monitor = p.monitor := rfl
@[simp] theorem pushPend_cur (p : Part) (e : Pend) : (pushPend p e).cur = p.cur := rfl
@[simp] theorem pushPend_nxt (p : Part) (e : Pend) : (pushPend p e).nxt = p.nxt := rfl
@[simp] theorem pushPend_bucket (p : Part) (e : Pend) : (pushPend p e).bucket = p.bucket := rfl
@[simp] theorem pushPend_preempt (p : Part) (e : Pend) : (pushPend p e).preempt = p.preempt := rfl
@[simp] theorem pushPend_single (p : Part) (e : Pend) : (pushPend p e).single = p.single := rfl
@[simp] theorem pushPend_stepped (p : Part) (e : Pend) : (pushPend p e).stepped = p.stepped := rfl
@[simp] theorem pushPend_debugged (p : Part) (e : Pend) : (pushPend p e).debugged = p.debugged := rfl
@[simp] theorem pushPend_entered (p : Part) (e : Pend) : (pushPend p e).entered = p.entered := rfl
@[simp] theorem pushPend_nexty (p : Part) (e : Pend) : (pushPend p e).nexty = p.nexty := rfl
@[simp] theorem pushPend_atYield (p : Part) (e : Pend) : (pushPend p e).atYield = p.atYield := rfl
@[simp] theorem pushPend_stepFrom (p : Part) (e : Pend) : (pushPend p e).stepFrom = p.stepFrom := rfl
@[simp] theorem pushPend_nextSeq (p : Part) (e : Pend) : (pushPend p e).nextSeq = p.nextSeq + 1 := rfl

/-! A pending operation is changed. -/

@[simp] theorem updPend_ps (p : Part) (q : Nat) (f : Pend → Pend) : (updPend p q f).ps = p.ps := rfl
@[simp] theorem updPend_steward (p : Part) (q : Nat) (f : Pend → Pend) : (updPend p q f).steward = p.steward := rfl
@[simp] theorem updPend_age (p : Part) (q : Nat) (f : Pend → Pend) : (updPend p q f).age = p.age := rfl
@[simp] theorem updPend_lastIssue (p : Part) (q : Nat) (f : Pend → Pend) : (updPend p q f).lastIssue = p.lastIssue := rfl
@[simp] theorem updPend_gang (p : Part) (q : Nat) (f : Pend → Pend) : (updPend p q f).gang = p.gang := rfl
@[simp] theorem updPend_queue (p : Part) (q : Nat) (f : Pend → Pend) : (updPend p q f).queue = p.queue := rfl
@[simp] theorem updPend_role (p : Part) (q : Nat) (f : Pend → Pend) : (updPend p q f).role = p.role := rfl
@[simp] theorem updPend_slots (p : Part) (q : Nat) (f : Pend → Pend) : (updPend p q f).slots = p.slots := rfl
@[simp] theorem updPend_accs (p : Part) (q : Nat) (f : Pend → Pend) : (updPend p q f).accs = p.accs := rfl
@[simp] theorem updPend_wregs (p : Part) (q : Nat) (f : Pend → Pend) : (updPend p q f).wregs = p.wregs := rfl
@[simp] theorem updPend_tslen (p : Part) (q : Nat) (f : Pend → Pend) : (updPend p q f).tslen = p.tslen := rfl
@[simp] theorem updPend_wbase (p : Part) (q : Nat) (f : Pend → Pend) : (updPend p q f).wbase = p.wbase := rfl
@[simp] theorem updPend_tsbase (p : Part) (q : Nat) (f : Pend → Pend) : (updPend p q f).tsbase = p.tsbase := rfl
@[simp] theorem updPend_segmax (p : Part) (q : Nat) (f : Pend → Pend) : (updPend p q f).segmax = p.segmax := rfl
@[simp] theorem updPend_born (p : Part) (q : Nat) (f : Pend → Pend) : (updPend p q f).born = p.born := rfl
@[simp] theorem updPend_spbase (p : Part) (q : Nat) (f : Pend → Pend) : (updPend p q f).spbase = p.spbase := rfl
@[simp] theorem updPend_splen (p : Part) (q : Nat) (f : Pend → Pend) : (updPend p q f).splen = p.splen := rfl
@[simp] theorem updPend_coord (p : Part) (q : Nat) (f : Pend → Pend) : (updPend p q f).coord = p.coord := rfl
@[simp] theorem updPend_tc (p : Part) (q : Nat) (f : Pend → Pend) : (updPend p q f).tc = p.tc := rfl
@[simp] theorem updPend_at (p : Part) (q : Nat) (f : Pend → Pend) : (updPend p q f).at_ = p.at_ := rfl
@[simp] theorem updPend_s (p : Part) (q : Nat) (f : Pend → Pend) : (updPend p q f).s = p.s := rfl
@[simp] theorem updPend_sp (p : Part) (q : Nat) (f : Pend → Pend) : (updPend p q f).sp = p.sp := rfl
@[simp] theorem updPend_sh (p : Part) (q : Nat) (f : Pend → Pend) : (updPend p q f).sh = p.sh := rfl
@[simp] theorem updPend_shp (p : Part) (q : Nat) (f : Pend → Pend) : (updPend p q f).shp = p.shp := rfl
@[simp] theorem updPend_v (p : Part) (q : Nat) (f : Pend → Pend) : (updPend p q f).v = p.v := rfl
@[simp] theorem updPend_vp (p : Part) (q : Nat) (f : Pend → Pend) : (updPend p q f).vp = p.vp := rfl
@[simp] theorem updPend_p (p : Part) (q : Nat) (f : Pend → Pend) : (updPend p q f).p = p.p := rfl
@[simp] theorem updPend_g (p : Part) (q : Nat) (f : Pend → Pend) : (updPend p q f).g = p.g := rfl
@[simp] theorem updPend_lc (p : Part) (q : Nat) (f : Pend → Pend) : (updPend p q f).lc = p.lc := rfl
@[simp] theorem updPend_le (p : Part) (q : Nat) (f : Pend → Pend) : (updPend p q f).le = p.le := rfl
@[simp] theorem updPend_ft (p : Part) (q : Nat) (f : Pend → Pend) : (updPend p q f).ft = p.ft := rfl
@[simp] theorem updPend_mca (p : Part) (q : Nat) (f : Pend → Pend) : (updPend p q f).mca = p.mca := rfl
@[simp] theorem updPend_mcb (p : Part) (q : Nat) (f : Pend → Pend) : (updPend p q f).mcb = p.mcb := rfl
@[simp] theorem updPend_mcs (p : Part) (q : Nat) (f : Pend → Pend) : (updPend p q f).mcs = p.mcs := rfl
@[simp] theorem updPend_mcg (p : Part) (q : Nat) (f : Pend → Pend) : (updPend p q f).mcg = p.mcg := rfl
@[simp] theorem updPend_mce (p : Part) (q : Nat) (f : Pend → Pend) : (updPend p q f).mce = p.mce := rfl
@[simp] theorem updPend_mcr (p : Part) (q : Nat) (f : Pend → Pend) : (updPend p q f).mcr = p.mcr := rfl
@[simp] theorem updPend_acc (p : Part) (q : Nat) (f : Pend → Pend) : (updPend p q f).acc = p.acc := rfl
@[simp] theorem updPend_tile (p : Part) (q : Nat) (f : Pend → Pend) : (updPend p q f).tile = p.tile := rfl
@[simp] theorem updPend_tileWas (p : Part) (q : Nat) (f : Pend → Pend) : (updPend p q f).tileWas = p.tileWas := rfl
@[simp] theorem updPend_tags (p : Part) (q : Nat) (f : Pend → Pend) : (updPend p q f).tags = p.tags := rfl
@[simp] theorem updPend_fpctl (p : Part) (q : Nat) (f : Pend → Pend) : (updPend p q f).fpctl = p.fpctl := rfl
@[simp] theorem updPend_tvec (p : Part) (q : Nat) (f : Pend → Pend) : (updPend p q f).tvec = p.tvec := rfl
@[simp] theorem updPend_uivec (p : Part) (q : Nat) (f : Pend → Pend) : (updPend p q f).uivec = p.uivec := rfl
@[simp] theorem updPend_uictl (p : Part) (q : Nat) (f : Pend → Pend) : (updPend p q f).uictl = p.uictl := rfl
@[simp] theorem updPend_rplact (p : Part) (q : Nat) (f : Pend → Pend) : (updPend p q f).rplact = p.rplact := rfl
@[simp] theorem updPend_cfc01 (p : Part) (q : Nat) (f : Pend → Pend) : (updPend p q f).cfc01 = p.cfc01 := rfl
@[simp] theorem updPend_cfc23 (p : Part) (q : Nat) (f : Pend → Pend) : (updPend p q f).cfc23 = p.cfc23 := rfl
@[simp] theorem updPend_tsw (p : Part) (q : Nat) (f : Pend → Pend) : (updPend p q f).tsw = p.tsw := rfl
@[simp] theorem updPend_tcause (p : Part) (q : Nat) (f : Pend → Pend) : (updPend p q f).tcause = p.tcause := rfl
@[simp] theorem updPend_taddr (p : Part) (q : Nat) (f : Pend → Pend) : (updPend p q f).taddr = p.taddr := rfl
@[simp] theorem updPend_tpc (p : Part) (q : Nat) (f : Pend → Pend) : (updPend p q f).tpc = p.tpc := rfl
@[simp] theorem updPend_level (p : Part) (q : Nat) (f : Pend → Pend) : (updPend p q f).level = p.level := rfl
@[simp] theorem updPend_bank1 (p : Part) (q : Nat) (f : Pend → Pend) : (updPend p q f).bank1 = p.bank1 := rfl
@[simp] theorem updPend_bank2 (p : Part) (q : Nat) (f : Pend → Pend) : (updPend p q f).bank2 = p.bank2 := rfl
@[simp] theorem updPend_ui (p : Part) (q : Nat) (f : Pend → Pend) : (updPend p q f).ui = p.ui := rfl
@[simp] theorem updPend_uiSeq (p : Part) (q : Nat) (f : Pend → Pend) : (updPend p q f).uiSeq = p.uiSeq := rfl
@[simp] theorem updPend_early (p : Part) (q : Nat) (f : Pend → Pend) : (updPend p q f).early = p.early := rfl
@[simp] theorem updPend_nextSeq (p : Part) (q : Nat) (f : Pend → Pend) : (updPend p q f).nextSeq = p.nextSeq := rfl
@[simp] theorem updPend_reports (p : Part) (q : Nat) (f : Pend → Pend) : (updPend p q f).reports = p.reports := rfl
@[simp] theorem updPend_monitor (p : Part) (q : Nat) (f : Pend → Pend) : (updPend p q f).monitor = p.monitor := rfl
@[simp] theorem updPend_cur (p : Part) (q : Nat) (f : Pend → Pend) : (updPend p q f).cur = p.cur := rfl
@[simp] theorem updPend_nxt (p : Part) (q : Nat) (f : Pend → Pend) : (updPend p q f).nxt = p.nxt := rfl
@[simp] theorem updPend_bucket (p : Part) (q : Nat) (f : Pend → Pend) : (updPend p q f).bucket = p.bucket := rfl
@[simp] theorem updPend_preempt (p : Part) (q : Nat) (f : Pend → Pend) : (updPend p q f).preempt = p.preempt := rfl
@[simp] theorem updPend_single (p : Part) (q : Nat) (f : Pend → Pend) : (updPend p q f).single = p.single := rfl
@[simp] theorem updPend_stepped (p : Part) (q : Nat) (f : Pend → Pend) : (updPend p q f).stepped = p.stepped := rfl
@[simp] theorem updPend_debugged (p : Part) (q : Nat) (f : Pend → Pend) : (updPend p q f).debugged = p.debugged := rfl
@[simp] theorem updPend_entered (p : Part) (q : Nat) (f : Pend → Pend) : (updPend p q f).entered = p.entered := rfl
@[simp] theorem updPend_nexty (p : Part) (q : Nat) (f : Pend → Pend) : (updPend p q f).nexty = p.nexty := rfl
@[simp] theorem updPend_atYield (p : Part) (q : Nat) (f : Pend → Pend) : (updPend p q f).atYield = p.atYield := rfl
@[simp] theorem updPend_stepFrom (p : Part) (q : Nat) (f : Pend → Pend) : (updPend p q f).stepFrom = p.stepFrom := rfl
@[simp] theorem updPend_pends (p : Part) (q : Nat) (f : Pend → Pend) : (updPend p q f).pends = p.pends.map fun e => if e.seq = q then f e else e := rfl

/-! Flags are set. -/

@[simp] theorem orFlags_ps (p : Part) (f : Flags) : (orFlags p f).ps = p.ps := rfl
@[simp] theorem orFlags_steward (p : Part) (f : Flags) : (orFlags p f).steward = p.steward := rfl
@[simp] theorem orFlags_age (p : Part) (f : Flags) : (orFlags p f).age = p.age := rfl
@[simp] theorem orFlags_lastIssue (p : Part) (f : Flags) : (orFlags p f).lastIssue = p.lastIssue := rfl
@[simp] theorem orFlags_gang (p : Part) (f : Flags) : (orFlags p f).gang = p.gang := rfl
@[simp] theorem orFlags_queue (p : Part) (f : Flags) : (orFlags p f).queue = p.queue := rfl
@[simp] theorem orFlags_role (p : Part) (f : Flags) : (orFlags p f).role = p.role := rfl
@[simp] theorem orFlags_slots (p : Part) (f : Flags) : (orFlags p f).slots = p.slots := rfl
@[simp] theorem orFlags_accs (p : Part) (f : Flags) : (orFlags p f).accs = p.accs := rfl
@[simp] theorem orFlags_wregs (p : Part) (f : Flags) : (orFlags p f).wregs = p.wregs := rfl
@[simp] theorem orFlags_tslen (p : Part) (f : Flags) : (orFlags p f).tslen = p.tslen := rfl
@[simp] theorem orFlags_wbase (p : Part) (f : Flags) : (orFlags p f).wbase = p.wbase := rfl
@[simp] theorem orFlags_tsbase (p : Part) (f : Flags) : (orFlags p f).tsbase = p.tsbase := rfl
@[simp] theorem orFlags_segmax (p : Part) (f : Flags) : (orFlags p f).segmax = p.segmax := rfl
@[simp] theorem orFlags_born (p : Part) (f : Flags) : (orFlags p f).born = p.born := rfl
@[simp] theorem orFlags_spbase (p : Part) (f : Flags) : (orFlags p f).spbase = p.spbase := rfl
@[simp] theorem orFlags_splen (p : Part) (f : Flags) : (orFlags p f).splen = p.splen := rfl
@[simp] theorem orFlags_coord (p : Part) (f : Flags) : (orFlags p f).coord = p.coord := rfl
@[simp] theorem orFlags_tc (p : Part) (f : Flags) : (orFlags p f).tc = p.tc := rfl
@[simp] theorem orFlags_at (p : Part) (f : Flags) : (orFlags p f).at_ = p.at_ := rfl
@[simp] theorem orFlags_s (p : Part) (f : Flags) : (orFlags p f).s = p.s := rfl
@[simp] theorem orFlags_sp (p : Part) (f : Flags) : (orFlags p f).sp = p.sp := rfl
@[simp] theorem orFlags_sh (p : Part) (f : Flags) : (orFlags p f).sh = p.sh := rfl
@[simp] theorem orFlags_shp (p : Part) (f : Flags) : (orFlags p f).shp = p.shp := rfl
@[simp] theorem orFlags_v (p : Part) (f : Flags) : (orFlags p f).v = p.v := rfl
@[simp] theorem orFlags_vp (p : Part) (f : Flags) : (orFlags p f).vp = p.vp := rfl
@[simp] theorem orFlags_p (p : Part) (f : Flags) : (orFlags p f).p = p.p := rfl
@[simp] theorem orFlags_g (p : Part) (f : Flags) : (orFlags p f).g = p.g := rfl
@[simp] theorem orFlags_lc (p : Part) (f : Flags) : (orFlags p f).lc = p.lc := rfl
@[simp] theorem orFlags_le (p : Part) (f : Flags) : (orFlags p f).le = p.le := rfl
@[simp] theorem orFlags_ft (p : Part) (f : Flags) : (orFlags p f).ft = p.ft := rfl
@[simp] theorem orFlags_mca (p : Part) (f : Flags) : (orFlags p f).mca = p.mca := rfl
@[simp] theorem orFlags_mcb (p : Part) (f : Flags) : (orFlags p f).mcb = p.mcb := rfl
@[simp] theorem orFlags_mcs (p : Part) (f : Flags) : (orFlags p f).mcs = p.mcs := rfl
@[simp] theorem orFlags_mcg (p : Part) (f : Flags) : (orFlags p f).mcg = p.mcg := rfl
@[simp] theorem orFlags_mce (p : Part) (f : Flags) : (orFlags p f).mce = p.mce := rfl
@[simp] theorem orFlags_mcr (p : Part) (f : Flags) : (orFlags p f).mcr = p.mcr := rfl
@[simp] theorem orFlags_acc (p : Part) (f : Flags) : (orFlags p f).acc = p.acc := rfl
@[simp] theorem orFlags_tile (p : Part) (f : Flags) : (orFlags p f).tile = p.tile := rfl
@[simp] theorem orFlags_tileWas (p : Part) (f : Flags) : (orFlags p f).tileWas = p.tileWas := rfl
@[simp] theorem orFlags_tags (p : Part) (f : Flags) : (orFlags p f).tags = p.tags := rfl
@[simp] theorem orFlags_tvec (p : Part) (f : Flags) : (orFlags p f).tvec = p.tvec := rfl
@[simp] theorem orFlags_uivec (p : Part) (f : Flags) : (orFlags p f).uivec = p.uivec := rfl
@[simp] theorem orFlags_uictl (p : Part) (f : Flags) : (orFlags p f).uictl = p.uictl := rfl
@[simp] theorem orFlags_rplact (p : Part) (f : Flags) : (orFlags p f).rplact = p.rplact := rfl
@[simp] theorem orFlags_cfc01 (p : Part) (f : Flags) : (orFlags p f).cfc01 = p.cfc01 := rfl
@[simp] theorem orFlags_cfc23 (p : Part) (f : Flags) : (orFlags p f).cfc23 = p.cfc23 := rfl
@[simp] theorem orFlags_tsw (p : Part) (f : Flags) : (orFlags p f).tsw = p.tsw := rfl
@[simp] theorem orFlags_tcause (p : Part) (f : Flags) : (orFlags p f).tcause = p.tcause := rfl
@[simp] theorem orFlags_taddr (p : Part) (f : Flags) : (orFlags p f).taddr = p.taddr := rfl
@[simp] theorem orFlags_tpc (p : Part) (f : Flags) : (orFlags p f).tpc = p.tpc := rfl
@[simp] theorem orFlags_level (p : Part) (f : Flags) : (orFlags p f).level = p.level := rfl
@[simp] theorem orFlags_bank1 (p : Part) (f : Flags) : (orFlags p f).bank1 = p.bank1 := rfl
@[simp] theorem orFlags_bank2 (p : Part) (f : Flags) : (orFlags p f).bank2 = p.bank2 := rfl
@[simp] theorem orFlags_ui (p : Part) (f : Flags) : (orFlags p f).ui = p.ui := rfl
@[simp] theorem orFlags_uiSeq (p : Part) (f : Flags) : (orFlags p f).uiSeq = p.uiSeq := rfl
@[simp] theorem orFlags_pends (p : Part) (f : Flags) : (orFlags p f).pends = p.pends := rfl
@[simp] theorem orFlags_early (p : Part) (f : Flags) : (orFlags p f).early = p.early := rfl
@[simp] theorem orFlags_nextSeq (p : Part) (f : Flags) : (orFlags p f).nextSeq = p.nextSeq := rfl
@[simp] theorem orFlags_reports (p : Part) (f : Flags) : (orFlags p f).reports = p.reports := rfl
@[simp] theorem orFlags_monitor (p : Part) (f : Flags) : (orFlags p f).monitor = p.monitor := rfl
@[simp] theorem orFlags_cur (p : Part) (f : Flags) : (orFlags p f).cur = p.cur := rfl
@[simp] theorem orFlags_nxt (p : Part) (f : Flags) : (orFlags p f).nxt = p.nxt := rfl
@[simp] theorem orFlags_bucket (p : Part) (f : Flags) : (orFlags p f).bucket = p.bucket := rfl
@[simp] theorem orFlags_preempt (p : Part) (f : Flags) : (orFlags p f).preempt = p.preempt := rfl
@[simp] theorem orFlags_single (p : Part) (f : Flags) : (orFlags p f).single = p.single := rfl
@[simp] theorem orFlags_stepped (p : Part) (f : Flags) : (orFlags p f).stepped = p.stepped := rfl
@[simp] theorem orFlags_debugged (p : Part) (f : Flags) : (orFlags p f).debugged = p.debugged := rfl
@[simp] theorem orFlags_entered (p : Part) (f : Flags) : (orFlags p f).entered = p.entered := rfl
@[simp] theorem orFlags_nexty (p : Part) (f : Flags) : (orFlags p f).nexty = p.nexty := rfl
@[simp] theorem orFlags_atYield (p : Part) (f : Flags) : (orFlags p f).atYield = p.atYield := rfl
@[simp] theorem orFlags_stepFrom (p : Part) (f : Flags) : (orFlags p f).stepFrom = p.stepFrom := rfl
@[simp] theorem orFlags_fpctl (p : Part) (f : Flags) : (orFlags p f).fpctl = p.fpctl ||| (f.setWidth 64 <<< 8) := rfl

end Sys2Proof.Machine
end

