-- ==== Sys2Proof/Tests/Slice0.lean ====
section
/-! SUPPORT. Tests: ill-formed terms that the checks refuse, words written out from the spec that decode, small single steps whose
results come from the spec, and, for each obligation, states and operands that meet its hypotheses. -/

namespace Sys2Proof.Tests

set_option maxRecDepth 4000
set_option Elab.async false

open Sys2Proof.Machine

/-! Blank operands. -/

def sa : SA := { x := none, k := false, d := 0, a := 0, b := 0, rstep := 0, fn := 0 }
def sc : SC := { x := none, k := false, a := 0, b := 0, cnd := 0, lc := 0 }
def sm : SM := { x := none, k := false, d := 0, a := 0, w := 3, lat := 8 }
def va : VA := { x := none, k := false, d := 0, a := 0, b := 0, bs := false }
def vm : VM := { x := none, k := false, d := 0, a := 0, md := 0, lat := 8 }
def mt : MT := { x := none, k := false, acc := 0, ta := 0, tb := 0, lcx := 0, rstep := 0 }
def xt : XT := { x := none, k := false, d := 0, a := 0, fmt := 1, rstep := 0, ovp := 0 }
def cq : CQ := { x := none, k := false, d := 0, a := 0, sh := 0, lat := 8 }

/-! Small states. -/

/-- A ready task that owns every slot and bank, the whole vector window, tile lines and scratchpad of its core. -/
def task : Part :=
  { Part.empty with ps := .ready, slots := 255, accs := 255, wregs := 128, tslen := 4096, splen := 0x10000, entered := 1 }

/-- A core with a scratchpad pool from 0x10000 to 0x100000. -/
def core : CoreSt := { CoreSt.empty with b1 := 0x10000, b2 := 0x100000 }

/-- A machine in which that task of core 0, partition 0 issues a bundle and stands at a slot, in a syllable that the bundle names. -/
def issuing (slot : Nat) (p : Part) : State :=
  setCore (setPart { State.reset with iss := { Issue.closed with isOpen := true, slot := slot, named := true } } 0 0 p) 0 core

/-- With these scalar registers. -/
def withS (p : Part) (l : List (Nat × W64)) : Part := { p with s := l.foldl (fun s e => s.setIfInBounds e.1 e.2) p.s }

/-- With bytes of HBM. -/
def poke (s : State) (a n x : Nat) : State := { s with mem := setBytes s.mem a (toBytes x n) }

/-- A memory that holds these values, each an address, a length and a number, in rising order. -/
def cellsFrom (a : Nat) : List Byte → TMap Byte
  | [] => []
  | b :: bs => if b = 0 then cellsFrom (a + 1) bs else (a, b) :: cellsFrom (a + 1) bs
def cells (l : List (Nat × Nat × Nat)) : TMap Byte := l.flatMap fun e => cellsFrom e.1 (toBytes e.2.2 e.2.1)

/-- The state that an outcome goes on with. -/
def after (o : Out) : State :=
  match o with
  | .next t => t
  | _ => State.reset

/-- The fault in which an outcome ends. -/
def faultOf (o : Out) : Option Fault :=
  match o with
  | .fault f => some f
  | _ => none

/-- The pending operation that a syllable has left. -/
def left (o : Out) : Option Pend := (cur (after o)).pends.getLast?

/-- Its results, its deadline and its flags. -/
def results (o : Out) : List RegWrite × Nat × Flags := ((left o).map fun e => (e.writes, e.due, e.flags)).getD ([], 0, 0)

/-- The state after a syllable of an engine has issued and the engine has carried its operation out. -/
def byEngine (i : Instr) (s : State) : State :=
  let t := after (exec i s)
  match (cur t).pends.getLast? with
  | some e => after (exec (.resultWrite t.iss.core t.iss.part e.seq) t)
  | none => t
/-- The fault that it has come to. -/
def failed (i : Instr) (s : State) : Option PendSt := (cur (byEngine i s)).pends.getLast?.map (·.st)
def answered (i : Instr) (s : State) : Option (List RegWrite) := (cur (byEngine i s)).pends.getLast?.map (·.writes)

/-- The cause, slot and opcode of the trap that the task has taken, and its TADDR. -/
def trapOf (o : Out) : Nat × W64 := ((cur (after o)).tcause.toNat, (cur (after o)).taddr)

/-- What a word decodes to. -/
def decoded (c : SlotClass) (w : W32) (x : Option W32) : Option Instr := (decodeSyl c w x).toOption

/-! Ill-formed terms (R56 to R64, R78 and the rules of each instruction). -/

theorem test_wf_scope_reserved : (Instr.scope { k := false, sc := 6 }).wf = false := by decide
theorem test_wf_alu : (Instr.add { sa with fn := 2 }).wf = false ∧ (Instr.div { sa with x := some 1, b := 1 }).wf = false := by decide
theorem test_wf_moves : (Instr.mov { sa with b := 1 }).wf = false ∧ (Instr.movi sa).wf = false ∧ (Instr.movhi { sa with x := some 0, fn := 1 }).wf = false ∧
    (Instr.csel { sa with x := some 0 }).wf = false := by decide
theorem test_wf_loads : (Instr.ld { sm with lat := 0 }).wf = false ∧ (Instr.st { sm with w := 7 }).wf = false ∧ (Instr.lds { sm with w := 7 }).wf = false := by decide
theorem test_wf_transfers : (Instr.br sc).wf = false ∧ (Instr.br { sc with x := some 0x02000000 }).wf = false ∧ (Instr.chk { sc with x := some 0, b := 1 }).wf = false ∧
    (Instr.bc { sc with x := some 0, cnd := 12 }).wf = false ∧ (Instr.bri { sc with x := some 0 }).wf = false ∧
    (Instr.call { sc with x := some 0, b := 1 }).wf = false ∧ (Instr.calli { sc with cnd := 1 }).wf = false ∧ (Instr.ret { sc with k := true }).wf = false := by decide
theorem test_wf_loops : (Instr.lset { sc with cnd := 8 }).wf = false ∧ (Instr.lnext { sc with x := some 0, a := 1 }).wf = false ∧
    (Instr.bksel { sc with x := some 0x10000 }).wf = false ∧ (Instr.bksel { sc with x := some 0, lc := 1 }).wf = false := by decide
theorem test_wf_sync : (Instr.fset { sa with d := 1 }).wf = false ∧ (Instr.fwait { sa with x := some 0 }).wf = false ∧ (Instr.launch { sa with b := 1 }).wf = false ∧
    (Instr.barv { sa with b := 1 }).wf = false ∧ (Instr.barw { sa with k := true }).wf = false := by decide
theorem test_wf_special : (Instr.mfsr { sa with b := 0x1E }).wf = false ∧ (Instr.mfsr { sa with a := 1 }).wf = false ∧ (Instr.mtsr { sa with b := 5 }).wf = false ∧
    (Instr.mtsr { sa with b := 3, d := 1 }).wf = false := by decide
theorem test_wf_atomics : (Instr.aadd { sm with w := 0 }).wf = false ∧ (Instr.acas { sm with a := 2 }).wf = false ∧ (Instr.aswap { sm with k := true }).wf = false ∧
    (Instr.aclaim { sm with w := 2 }).wf = false ∧ (Instr.waitm { sm with x := some 0 }).wf = false ∧ (Instr.waitm { sm with a := 1 }).wf = false := by decide
theorem test_wf_system : (Instr.trap { sa with d := 1 }).wf = false ∧ (Instr.brk { sa with b := 1 }).wf = false ∧ (Instr.svc { sa with a := 1 }).wf = false ∧
    (Instr.ctxsv { sa with fn := 1 }).wf = false ∧ (Instr.ctxld { sa with k := true }).wf = false := by decide
theorem test_wf_vector_format : (Instr.vfadd { va with x := some 11 }).wf = false ∧ (Instr.vadd { va with x := some 0 }).wf = false ∧
    (Instr.vperm { va with x := some 1 }).wf = false ∧ (Instr.vcmp { va with x := some 13 }).wf = false ∧ (Instr.vfcmp { va with x := some 1 }).wf = false ∧
    (Instr.vfadd { va with x := some 0x800000 }).wf = false := by decide
theorem test_wf_vector_roles : (Instr.vfabs { va with b := 1 }).wf = false ∧ (Instr.vbcast va).wf = false ∧ (Instr.vadd { va with bs := true, b := 64 }).wf = false ∧
    (Instr.vfmin { va with x := some 0x400 }).wf = false ∧ (Instr.vrsqrt { va with x := some 0x2000 }).wf = false ∧
    (Instr.vadd { va with x := some 0x1000B }).wf = false ∧ (Instr.vmin { va with x := some 0x1000B }).wf = false := by decide
theorem test_wf_vector_aux : (Instr.vfcmp { va with x := some 0x60000 }).wf = false ∧ (Instr.vcmp { va with x := some 0xC000B }).wf = false ∧
    (Instr.vkey { va with x := some 0x20000 }).wf = false ∧ (Instr.vpx3 { va with x := some 0x40000 }).wf = false ∧
    (Instr.vhist { va with bs := true, x := some 0x2000E }).wf = false ∧ (Instr.vshadd3 { va with bs := true, x := some 0x1000B }).wf = false := by decide
theorem test_wf_predicates : (Instr.pand { va with x := some 1 }).wf = false ∧ (Instr.por { va with d := 16 }).wf = false ∧ (Instr.pxor { va with bs := true }).wf = false ∧
    (Instr.pnot { va with b := 1 }).wf = false ∧ (Instr.pcnt { va with a := 16 }).wf = false ∧ (Instr.vcmp { va with d := 16 }).wf = false := by decide
theorem test_wf_vcvt : (Instr.vcvt { va with b := 16 }).wf = false ∧ (Instr.vcvt { va with b := 3, x := some 0x40000 }).wf = false ∧ (Instr.vcvt { va with bs := true }).wf = false := by decide
theorem test_wf_vector_memory : (Instr.vld { vm with md := 2 }).wf = false ∧ (Instr.vst { vm with lat := 0 }).wf = false ∧ (Instr.vgath { vm with x := some 1 }).wf = false ∧
    (Instr.vlds { vm with x := some 0x10000 }).wf = false ∧ (Instr.vscat { vm with x := some 0x40E }).wf = false := by decide
theorem test_wf_matrix : (Instr.mstep { mt with x := some 0 }).wf = false ∧ (Instr.mzero { mt with ta := 1 }).wf = false ∧ (Instr.mread { mt with ta := 8 }).wf = false ∧
    (Instr.mwrite { mt with lcx := 1 }).wf = false ∧ (Instr.medge { mt with tb := 3 }).wf = false ∧ (Instr.medge { mt with ta := 64 }).wf = false ∧
    (Instr.mrot { mt with ta := 0 }).wf = false ∧ (Instr.mrot { mt with acc := 4, ta := 4 }).wf = false := by decide
theorem test_wf_matrix_control : (Instr.mfmt mt).wf = false ∧ (Instr.mfmt { mt with x := some 0x10 }).wf = false ∧ (Instr.mloop { mt with x := some 8 }).wf = false ∧
    (Instr.mloop { mt with ta := 4, x := some 0 }).wf = false ∧ (Instr.mscale { mt with ta := 16, x := some 0 }).wf = false := by decide
theorem test_wf_transform : (Instr.xqnt { xt with fmt := 3 }).wf = false ∧ (Instr.xqnt { xt with x := some 0x10000 }).wf = false ∧ (Instr.xexp { xt with fmt := 5 }).wf = false ∧
    (Instr.xtrn { xt with fmt := 5 }).wf = false ∧ (Instr.xcvt { xt with fmt := 0 }).wf = false ∧ (Instr.xplane { xt with ovp := 1 }).wf = false ∧
    (Instr.xunpl { xt with x := some 0 }).wf = false ∧ (Instr.xscale xt).wf = false := by decide
theorem test_wf_copies : (Instr.ocopy { cq with a := 2 }).wf = false ∧ (Instr.oload { cq with sh := 2 }).wf = false ∧ (Instr.ostore { cq with lat := 0 }).wf = false ∧
    (Instr.tload { cq with a := 1 }).wf = false ∧ (Instr.kvld { cq with a := 1 }).wf = false ∧ (Instr.kvldt { cq with a := 2 }).wf = false ∧
    (Instr.kvapp { cq with sh := 1 }).wf = false := by decide
theorem test_wf_catalogue : (Instr.seal { cq with a := 1 }).wf = false ∧ (Instr.catlook { cq with a := 2 }).wf = false ∧ (Instr.loan { cq with sh := 1 }).wf = false ∧
    (Instr.unloan { cq with sh := 2 }).wf = false ∧ (Instr.promote { cq with sh := 4 }).wf = false := by decide
theorem test_wf_queues : (Instr.qpush { cq with sh := 1 }).wf = false ∧ (Instr.qpoll { cq with a := 1 }).wf = false ∧ (Instr.cwait { cq with sh := 2 }).wf = false ∧
    (Instr.barset { cq with x := some 0 }).wf = false ∧ (Instr.coll { cq with sh := 7 }).wf = false ∧ (Instr.olcinv { cq with sh := 4 }).wf = false ∧
    (Instr.reloc { cq with a := 1 }).wf = false := by decide

/-! Words written out from the spec's encodings: OP[31:24], E, K, and the fields of Table 3.3. -/

/-- SCOPE SYS: OP 0x01, SC 4 in bits [21:19]. -/
theorem test_decode_scope : decoded .P 0b00000001001000000000000000000000 none = some (.scope { k := false, sc := 4 }) := by decide
/-- ADD s5, s5, 0x100 (chapter 3): E = 1, D = 5, A = 5. -/
theorem test_decode_add : decoded .S 0b00000010100001010001010000000000 (some 0x100) = some (.add { sa with x := some 0x100, d := 5, a := 5 }) := by decide
/-- BC lt, s7, s8: OP 0x29, E = 1, A = 7, B = 8, CND 2. -/
theorem test_decode_bc : decoded .S 0b00101001100001110010000010000000 (some 0x20000) = some (.bc { sc with x := some 0x20000, a := 7, b := 8, cnd := 2 }) := by decide
/-- ST.4u s15, obj(s1, 1) (chapter 18): E = 1, D = 15, A = 1, W = 2, LAT7 = 1. -/
theorem test_decode_st : decoded .S 0x218F0501 (some 1) = some (.st { sm with x := some 1, d := 15, a := 1, w := 2, lat := 1 }) := by decide
/-- WAITM (chapter 10): OP 0x49, D = 20, A = 2, W = 3, LAT7 = 1. -/
theorem test_decode_waitm : decoded .S 0x49140981 none = some (.waitm { sm with d := 20, a := 2, w := 3, lat := 1 }) := by decide
/-- VLD (chapter 3): E = 1, K = 1, D = 16, A = 9, MD = 1, LAT7 = 12. -/
theorem test_decode_vld : decoded .V 0b00110000110010000001001010001100 (some 0x201) =
    some (.vld { vm with x := some 0x201, k := true, d := 16, a := 9, md := 1, lat := 12 }) := by decide
/-- VBCAST (chapter 12). -/
theorem test_decode_vbcast : decoded .V 0x258A941B (some 0xD) = some (.vbcast { va with x := some 0xD, d := 21, a := 20, b := 13, bs := true }) := by decide
/-- MFMT (chapter 13) with its entry's lower word. -/
theorem test_decode_mfmt : decoded .M 0x06802000 (some 0x00100213) = some (.mfmt { mt with x := some 0x00100213, ta := 2 }) := by decide
/-- XTRN t3, t5 in BF16: OP 0x04, D = 3, A = 5, FMT = 1. -/
theorem test_decode_xtrn : decoded .X 0b00000100000000011000010100010000 none = some (.xtrn { xt with d := 3, a := 5 }) := by decide
/-- OLOAD (chapter 8). -/
theorem test_decode_oload : decoded .C 0x03D83220 (some 0) = some (.oload { cq with x := some 0, k := true, d := 24, a := 12, sh := 4, lat := 32 }) := by decide
/-- Codes that no map assigns, and a syllable whose K the map bars, are illegal (R56, R77). -/
theorem test_decode_unassigned : decoded .S 0x00000000 none = none ∧ decoded .M 0x0B000000 none = none ∧ (decoded .C 0x09595001 none).map Instr.wf = some false := by decide
/-- A well-formed instruction, its encoding, and back. -/
theorem witness_DecodeEncode : (Instr.lset { sc with a := 7, cnd := 2 }).wf = true ∧
    encode (.lset { sc with a := 7, cnd := 2 }) = some (.S, 0x2E070080, none) := by decide

/-! The step and the bundle issue. -/

/-- A bundle whose S slot is ADD s5, s5, s6. -/
def addBundle : Bundle := { hdr := 0x40000400, words := [0x02051460] }
/-- One whose S slot is a BC with an unassigned condition. -/
def badBundle : Bundle := { hdr := 0x40000800, words := [0x29800300, 0] }

def stepping (b : Bundle) : State :=
  let s := issuing 1 (withS { task with at_ := { Point.start 0 with rep := some 0 } } [(5, 3), (6, 4)])
  { s with iss := { s.iss with bundle := b } }

theorem witness_Step_named : (stepping addBundle).iss.bundle.names 1 = true ∧ ((stepping addBundle).iss.bundle.sylAt 1).isSome = true ∧
    (stepping addBundle).iss.bundle.sylAt 1 = some { slot := 1, word := 0x02051460, ext := none } ∧ decoded .S 0x02051460 none = some (.add { sa with d := 5, a := 5, b := 6 }) ∧
    results (step (stepping addBundle)) = ([.s 5 false 7 false], 1, 0) := by decide +kernel
theorem witness_Step_illegal : badBundle.sylAt 1 = some { slot := 1, word := 0x29800300, ext := some 0 } ∧
    (decoded .S 0x29800300 (some 0)).map Instr.wf = some false := by decide +kernel
/-- A repeat runs what the slot's sticky register holds. -/
def repeating : State :=
  let s := stepping addBundle
  let p := setSticky { cur s with at_ := { (cur s).at_ with again := true } } 1
    (some { instr := .add { sa with k := true, d := 5, a := 5, b := 6 }, cap := [], cnt := 1 })
  setCur s p
theorem witness_Step_repeat : (cur repeating).at_.again = true ∧ repeating.iss.bundle.isEnd = false ∧ (getSticky (cur repeating) 1).isSome = true ∧
    results (step repeating) = ([.s 5 false 7 false], 1, 0) := by decide +kernel
/-- With no slot left the issue ends. -/
theorem witness_Step_end : (List.range 8).all (fun j => slotDo (cur (stepping Bundle.none)) Bundle.none j = .none) = true ∧
    (after (step (stepping Bundle.none))).iss.isOpen = false := by decide +kernel
theorem witness_Step_input : isEvent .sliceStart = true ∧ Instr.wf .sliceStart = true ∧ isEvent .drain = false ∧
    faultOf (step { State.reset with inputs := [.drain] }) = some (.noSuchUnit 0) := by decide +kernel
/-- A slice begins when the core clock has reached it. -/
theorem witness_Step_engine : (allDue { State.reset with clock := 700000 })[0]? = some .sliceStart := by decide +kernel
theorem witness_Step_selection : (allDue State.reset)[0]? = none ∧ (after (step State.reset)).nextCore = 1 := by decide +kernel

/-- A task at bundle 0 of a segment that its loop buffer holds. -/
def buffered : State :=
  setPart State.reset 0 0 { task with cur := some { off := 0, valid := true, nb := 1, next := none, bundles := [addBundle], rest := [] } }
theorem witness_BundleIssues_pc : bundleAt (getPart buffered 0 0) = some addBundle := by decide +kernel
theorem witness_BundleIssues_end : (stepping addBundle).iss.second = none ∧ (stepping addBundle).iss.writes = [] ∧
    (cur (stepping addBundle)).at_.rep = some 0 ∧ (cur repeating).at_.again = true ∧ (cur (after (step (stepping Bundle.none)))).tc = 1 := by decide +kernel
theorem witness_Invariants : State.reset.memoryOk = true ∧ State.reset.seqsOk = true ∧ State.reset.modesOk = true := by decide +kernel

/-! The scalar slot: results from Tables 11.3 to 11.8. -/

def scalars : State := issuing 1 (withS { task with at_ := { Point.start 0x00010005 with rep := some 0 } }
  [(1, 0xFFFFFFFFFFFFFFFF), (2, 5), (3, 0x80000000), (4, 0), (7, 0x123456789ABCDEF0)])

theorem test_add_wraps : results (exec (.add { sa with d := 9, a := 1, b := 2 }) scalars) = ([.s 9 false 4 false], 1, 0) := by decide +kernel
theorem test_add_32_signed : results (exec (.add { sa with d := 9, a := 3, b := 4, fn := 1 }) scalars) =
    ([.s 9 false 0xFFFFFFFF80000000 false], 1, 0) := by decide +kernel
theorem test_sub : results (exec (.sub { sa with d := 9, a := 4, b := 2 }) scalars) = ([.s 9 false 0xFFFFFFFFFFFFFFFB false], 1, 0) := by decide +kernel
theorem test_mul : results (exec (.mul { sa with d := 9, a := 1, b := 2 }) scalars) = ([.s 9 false 0xFFFFFFFFFFFFFFFB false], 3, 0) := by decide +kernel
theorem test_mulh_unsigned : results (exec (.mulh { sa with d := 9, a := 1, b := 2, fn := 2 }) scalars) = ([.s 9 false 4 false], 3, 0) := by decide +kernel
theorem test_mulh_signed : results (exec (.mulh { sa with d := 9, a := 1, b := 2 }) scalars) = ([.s 9 false 0xFFFFFFFFFFFFFFFF false], 3, 0) := by decide +kernel
theorem test_div_by_zero : results (exec (.div { sa with d := 9, a := 2, b := 4 }) scalars) = ([.s 9 false 0xFFFFFFFFFFFFFFFF false], 20, 0) := by decide +kernel
theorem test_rem_signed : results (exec (.rem { sa with d := 9, a := 1, b := 2 }) scalars) = ([.s 9 false 0xFFFFFFFFFFFFFFFF false], 20, 0) := by decide +kernel
theorem test_logic : results (exec (.and { sa with d := 9, a := 7, b := 3 }) scalars) = ([.s 9 false 0x80000000 false], 1, 0) ∧
    results (exec (.or { sa with d := 9, a := 2, b := 3 }) scalars) = ([.s 9 false 0x80000005 false], 1, 0) ∧
    results (exec (.xor { sa with d := 9, a := 1, b := 2 }) scalars) = ([.s 9 false 0xFFFFFFFFFFFFFFFA false], 1, 0) ∧
    results (exec (.andn { sa with d := 9, a := 7, b := 1 }) scalars) = ([.s 9 false 0 false], 1, 0) ∧
    results (exec (.orn { sa with d := 9, a := 4, b := 1 }) scalars) = ([.s 9 false 0 false], 1, 0) := by decide +kernel
theorem test_shifts : results (exec (.shl { sa with d := 9, x := some 68, a := 2 }) scalars) = ([.s 9 false 80 false], 1, 0) ∧
    results (exec (.shr { sa with d := 9, x := some 60, a := 1 }) scalars) = ([.s 9 false 15 false], 1, 0) ∧
    results (exec (.sar { sa with d := 9, x := some 4, a := 3, fn := 1 }) scalars) = ([.s 9 false 0xFFFFFFFFF8000000 false], 1, 0) ∧
    results (exec (.rol { sa with d := 9, x := some 1, a := 3, fn := 3 }) scalars) = ([.s 9 false 1 false], 1, 0) := by decide +kernel
theorem test_minmax : results (exec (.min { sa with d := 9, a := 1, b := 2 }) scalars) = ([.s 9 false 0xFFFFFFFFFFFFFFFF false], 1, 0) ∧
    results (exec (.max { sa with d := 9, a := 1, b := 2, fn := 2 }) scalars) = ([.s 9 false 0xFFFFFFFFFFFFFFFF false], 1, 0) := by decide +kernel
theorem test_compares : results (exec (.cmpeq { sa with d := 9, a := 1, b := 2 }) scalars) = ([.s 9 false 0 false], 1, 0) ∧
    results (exec (.cmpne { sa with d := 9, a := 1, b := 2 }) scalars) = ([.s 9 false 1 false], 1, 0) ∧
    results (exec (.cmplt { sa with d := 9, a := 1, b := 2 }) scalars) = ([.s 9 false 1 false], 1, 0) ∧
    results (exec (.cmple { sa with d := 9, a := 1, b := 2, fn := 2 }) scalars) = ([.s 9 false 0 false], 1, 0) := by decide +kernel
theorem test_popc : results (exec (.popc { sa with d := 9, a := 7, b := 1 }) scalars) = ([.s 9 false 32 false], 1, 0) := by decide +kernel
theorem test_moves : results (exec (.mov { sa with d := 9, a := 2 }) scalars) = ([.s 9 false 5 false], 1, 0) ∧
    results (exec (.movi { sa with d := 9, x := some 0xFFFFFFFE }) scalars) = ([.s 9 false 0xFFFFFFFFFFFFFFFE false], 1, 0) ∧
    results (exec (.movhi { sa with d := 9, x := some 0x11223344, a := 7 }) scalars) = ([.s 9 false 0x112233449ABCDEF0 false], 1, 0) ∧
    results (exec (.csel { sa with d := 2, a := 7, b := 4 }) scalars) = ([.s 2 false 5 false], 1, 0) ∧
    results (exec (.csel { sa with d := 2, a := 7, b := 3 }) scalars) = ([.s 2 false 0x123456789ABCDEF0 false], 1, 0) := by decide +kernel
/-- A result for s0 is discarded, and poison passes through an ALU instruction (R254, R255). -/
theorem test_hardwired : readS scalars 0 = (0, false) ∧ writeReg task (.s 0 false 7 true) = task ∧
    results (exec (.add { sa with d := 9, a := 2, b := 4 }) (setCur scalars { cur scalars with sp := 16 })) = ([.s 9 false 5 true], 1, 0) := by decide +kernel

/-- The transfer that a syllable has set up. -/
def jump (o : Out) : Option (Option W32 × Bool × Nat) := (cur (after o)).at_.xfer.map fun x => (x.target, x.bad, x.left)

theorem test_br_relative : jump (exec (.br { sc with x := some 0x0003FFFF }) scalars) = some (some 0x00030004, false, 3) := by decide +kernel
theorem test_br_outside : (jump (exec (.br { sc with x := some 0x00008000 }) scalars)).map (·.2) = some (true, 3) := by decide +kernel
theorem test_bc : jump (exec (.bc { sc with x := some 0x00000001, a := 1, b := 2, cnd := 2 }) scalars) = some (some 0x00000006, false, 3) ∧
    jump (exec (.bc { sc with x := some 0x00000001, a := 1, b := 2, cnd := 6 }) scalars) = some (none, false, 3) := by decide +kernel
theorem test_bri_ret : jump (exec (.bri { sc with a := 2 }) scalars) = some (some 5, false, 3) ∧
    jump (exec (.ret { sc with a := 2 }) scalars) = some (some 5, false, 3) := by decide +kernel
theorem test_calls : jump (exec (.calli { sc with a := 9, b := 2 }) scalars) = some (some 5, false, 3) ∧
    (results (exec (.call { sc with a := 9, x := some 2 }) scalars)).2.1 = 1 ∧ jump (exec (.call { sc with a := 9, x := some 2 }) scalars) = some (some 7, false, 3) := by decide +kernel
/-- CHK transfers for a poisoned register alone (R263). -/
theorem test_chk : jump (exec (.chk { sc with a := 2, x := some 1 }) scalars) = none ∧
    jump (exec (.chk { sc with a := 2, x := some 1 }) (setCur scalars { cur scalars with sp := 4 })) = some (some 6, false, 3) := by decide +kernel
/-- LSET of 5 with two epilogue iterations: the counter is 7, and p8 is set for the first (R266). -/
theorem test_lset : results (exec (.lset { sc with a := 2, cnd := 2 }) scalars) = ([.lc 0 7, .g 0 (BitVec.allOnes 128), .g 1 0, .g 2 0, .g 3 0, .g 4 0,
    .g 5 0, .g 6 0, .g 7 0], 1, 0) := by decide +kernel
theorem test_lset_other : results (exec (.lset { sc with a := 2, cnd := 2, lc := 1 }) scalars) = ([.lc 1 7], 1, 0) := by decide +kernel
def looping (n : W32) : State := setCur scalars { cur scalars with lc := (cur scalars).lc.set 1 n }
theorem test_lnext : results (exec (.lnext { sc with x := some 1, lc := 1 }) (looping 2)) = ([.lc 1 1], 1, 0) ∧
    jump (exec (.lnext { sc with x := some 1, lc := 1 }) (looping 2)) = some (some 6, false, 3) ∧
    jump (exec (.lnext { sc with x := some 1, lc := 1 }) (looping 1)) = some (none, false, 3) ∧
    jump (exec (.lnext { sc with x := some 1, lc := 1 }) (looping 0)) = some (none, false, 3) := by decide +kernel
/-- BKSEL of 5 in buckets of 4: the second bucket, with 3 positions of padding and a predicate of 5 lanes (R268). -/
def bucketing : State := setCur scalars { cur scalars with bucket := some (0, [2, 0x00010000, 0x00020000]) }
theorem test_bksel : results (exec (.bksel { sc with a := 2, b := 9, cnd := 2, x := some 0 }) bucketing) =
      ([.s 9 false 0x100000003 false, .p 15 31], 1, 0) ∧
    jump (exec (.bksel { sc with a := 2, b := 9, cnd := 2, x := some 0 }) bucketing) = some (some 0x00020005, false, 3) := by decide +kernel
theorem test_bksel_none : results (exec (.bksel { sc with a := 2, b := 9, cnd := 1, x := some 0 }) bucketing) =
      ([.s 9 false 0xFFFFFFFFFFFFFFFF false], 1, 0) ∧
    jump (exec (.bksel { sc with a := 2, b := 9, cnd := 1, x := some 0 }) bucketing) = some (none, false, 3) := by decide +kernel
theorem witness_BucketSelect : (2 : W32).toNat ≤ [0x00010000, (0x00020000 : W32)].length ∧ (readS bucketing 2) = (5, false) ∧ 1 * 2 ^ 2 < 5 ∧ 5 ≤ (1 + 1) * 2 ^ 2 ∧
    2 * 2 ^ 1 < 5 := by decide +kernel

/-- SCOPE, NOP and YIELD. -/
theorem test_scope : (after (exec (.scope { k := false, sc := 4 }) scalars)).iss.scope = 4 := by decide +kernel
theorem test_nop : (left (exec (.nop .S) scalars)).isNone = true ∧ getSticky (cur (after (exec (.nop .S) repeating))) 1 = none := by decide +kernel
theorem test_yield : (left (exec .yield scalars)).isNone = true ∧ (after (exec .yield scalars)).iss.slot = 2 := by decide +kernel

/-! Special registers. -/

theorem test_mfsr : results (exec (.mfsr { sa with d := 9, b := 0x14 }) scalars) = ([.s 9 false 0x80000000 false], 1, 0) ∧ srPending scalars 0x14 = false := by decide +kernel
theorem test_mtsr : results (exec (.mtsr { sa with a := 2, b := 3 }) scalars) = ([.sr 3 5], 1, 0) ∧
    results (exec (.mtsr { sa with a := 2, b := 0x21 }) scalars) = ([.lc 1 5], 1, 0) := by decide +kernel
/-- TSW outside a handler and AGE_LIMIT outside the steward are ILLEGAL_SYLLABLE (0x02), in slot S, OP 0x3E. -/
theorem test_mtsr_barred : (cur scalars).level = 0 ∧ (cur scalars).steward = false ∧ (Instr.mtsr { sa with a := 2, b := 0x10 }).wf = true ∧
    (Instr.mtsr { sa with a := 2, b := 4 }).wf = true := by decide +kernel
theorem test_special_effects : (writeReg task (.sr 0x03 0xFFFF)).fpctl = 0x70F ∧ (writeReg { task with uictl := 0x3FE } (.sr 0x16 0x00D)).uictl = 0x3F3 ∧
    (ageWrites core [.sr 4 0]).ageLimit = 16 ∧ (ageWrites core [.sr 4 9999]).ageLimit = 4096 := by decide +kernel

/-! Traps, returns and contexts. -/

/-- A task with a handler. -/
def guarded : Part := { task with tvec := 0x00050000, at_ := { Point.start 0x00010005 with rep := some 0 } }
def pending (n due : Nat) : Pend :=
  { seq := n, op := 4, slot := 1, pc := 0x00010005, cyc := 200, due := due, level := 0, writes := [.s 4 false 7 false], flags := 0, st := .ready
    dst := none, vec := false, ranges := [], eng := none, late := false, lost := [] }

/-- The trap of Table 15.8: VST of a poisoned v13 in slot V1 with two operations pending at task cycle 200. -/
def poisonedStore : State :=
  let p := { guarded with tc := 200, pends := [pending 0 203, pending 1 220], nextSeq := 2, vp := BitVec.ofNat 128 (2 ^ 13) }
  issuing 3 p
theorem test_trap_entry_of_table_15_8 :
    let t := after (exec (.vst { vm with d := 13, a := 9 }) poisonedStore)
    (cur t).tsw = 0x23 ∧ (cur t).tcause = 0x00310635 ∧ (cur t).taddr = 0x10D ∧ (cur t).tpc = 0x00010005 ∧ (cur t).tc = 0 ∧ (cur t).level = 1 ∧
      ((cur t).bank1.map (·.tc)) = some 200 ∧ (cur t).pends.length = 2 ∧ (cur t).at_.pc = 0x00050000 := by decide +kernel
theorem witness_PreciseTrapEntry : poisonedStore.iss.writes = [] ∧ poisonedStore.iss.second = none ∧
    (cur poisonedStore).monitor = none ∧ (∀ e ∈ (cur poisonedStore).pends, e.st = .ready) ∧ (cur poisonedStore).level = 0 ∧
    (cur poisonedStore).tvec ≠ 0x80000000 := by decide +kernel
/-- In the handler, its window open or closed. -/
def handling (seen : Bool) : State :=
  let t := after (exec (.vst { vm with d := 13, a := 9 }) poisonedStore)
  let p := { cur t with bank1 := (cur t).bank1.map fun (b : TrapBank) => { b with sawCause := seen, sawAddr := seen } }
  let s := setCur t { p with at_ := { p.at_ with rep := some 0 } }
  { s with iss := { s.iss with isOpen := true, slot := 1, named := true } }
theorem witness_TrapEntry : (getPart (wakeAllWaitm poisonedStore 0 0) 0 0).level = 0 ∧ (getPart (wakeAllWaitm poisonedStore 0 0) 0 0).tvec ≠ 0x80000000 := by
  decide +kernel
theorem witness_NestedTrap : (getPart (wakeAllWaitm (handling true) 0 0) 0 0).level = 1 ∧
    ((getPart (wakeAllWaitm (handling true) 0 0) 0 0).bank1.map fun b => b.sawCause && b.sawAddr) = some true ∧
    (cur (after (exec (.trap { sa with a := 2 }) (handling true)))).level = 2 ∧ (cur (after (exec (.trap { sa with a := 2 }) (handling true)))).tsw.getLsbD 13 = true := by
  decide +kernel
/-- A trap in the window kills with DOUBLE_FAULT; so does one in a nested handler; one without a handler kills with its own cause. -/
theorem test_double_fault : (cur (after (exec (.trap { sa with a := 2 }) (handling false)))).ps = .free ∧
    (after (exec (.trap { sa with a := 2 }) (handling false))).events =
      [{ code := 0x0D, loc := 0x35 * 2 ^ 32 + 0x40 * 2 ^ 40, detail := [0x10D, 0] }] ∧
    ((cur (after (exec (.trap { sa with a := 2 }) (handling false)))).bank2.map fun b => (b.tcause.toNat % 256, b.tpc)) = some (0x35, 0x00010005) := by decide +kernel
theorem test_trap_without_handler : (cur (after (exec (.trap { sa with a := 2 }) scalars))).ps = .free ∧
    (after (exec (.trap { sa with a := 2 }) scalars)).events = [{ code := 0x0C, loc := 0, detail := [0x40, 5] }] := by decide +kernel
theorem witness_TrapKills : (getPart (wakeAllWaitm scalars 0 0) 0 0).tvec = 0x80000000 ∧ (getPart (wakeAllWaitm scalars 0 0) 0 0).level = 0 ∧
    (getPart (wakeAllWaitm (handling false) 0 0) 0 0).level ≠ 0 := by decide +kernel
/-- TRAP takes SOFT_TRAP (0x40) with SRES 2, BRK takes BREAKPOINT (0x41), and a held partition stops. -/
def trapping : State := issuing 1 (withS guarded [(2, 5)])
theorem test_trap : trapOf (exec (.trap { sa with a := 2 }) trapping) = (0x00500240, 5) ∧ (cur (after (exec (.trap { sa with a := 2 }) trapping))).tsw.toNat % 8 = 2 := by
  decide +kernel
theorem test_brk : trapOf (exec (.brk { sa with a := 2 }) trapping) = (0x00530241, 5) ∧
    (cur (after (exec (.brk { sa with a := 2 }) (setCur trapping { cur trapping with debugged := true })))).ps = .stopped := by decide +kernel
theorem test_poison_use : trapOf (exec (.bri { sc with a := 2 }) (setCur trapping { cur trapping with sp := 4 })) = (0x002A0235, 2) ∧
    trapOf (exec (.trap { sa with a := 2 }) (setCur trapping { cur trapping with sp := 4 })) = (0x00500235, 2) := by decide +kernel

/-- RETT restores what entry saved; at level 0 it is ILLEGAL_SYLLABLE (0x02). -/
theorem test_rett : let t := after (exec .rett (handling true))
    (cur t).level = 0 ∧ (cur t).tc = 200 ∧ (cur t).at_.pc = 0x00010005 ∧ (cur t).at_.slot = 3 ∧ (cur t).pends.length = 2 := by decide +kernel
theorem test_rett_illegal : (trapOf (exec .rett trapping)).1 % 256 = cIllegal ∧ (cur trapping).level = 0 := by decide +kernel
theorem witness_ReturnFromTrap : (cur (handling true)).level ≠ 0 ∧ ((cur (handling true)).bank1.map (·.repc)) = some false ∧ (handling true).iss.writes = [] ∧
    (handling true).iss.second = none ∧ (∀ e ∈ (cur (handling true)).pends, e.st = .ready) ∧ (handling true).copies = [] ∧
    (cur (handling true)).early = [] := by decide +kernel
/-- The return to an address that the handler has written into TPC. -/
def rewritten : State := setCur (handling true) (writeReg (cur (handling true)) (.sr 0x13 0x00020001))
theorem test_rett_to_tpc : ((cur rewritten).bank1.map (·.repc)) = some true ∧ (cur (after (exec .rett rewritten))).at_.pc = 0x00020001 := by decide +kernel
/-- RETT from a nested handler brings the first handler's bank back. -/
def nested : State :=
  let t := after (exec (.trap { sa with a := 2 }) (handling true))
  let s := setCur t { cur t with at_ := { (cur t).at_ with rep := some 0 } }
  { s with iss := { s.iss with isOpen := true, slot := 1, named := true } }
theorem test_rett_nested : (cur nested).bank2.isSome = true ∧ (cur (after (exec .rett nested))).level = 1 ∧
    (cur (after (exec .rett nested))).tcause = (cur (handling true)).tcause := by decide +kernel
/-- A trap in the nested handler kills. -/
theorem test_third_trap : (cur (after (exec (.trap { sa with a := 2 }) nested))).ps = .free := by decide +kernel

def completing : State := setCur trapping { cur trapping with ui := some (Point.start 0x00010003), uictl := 3 }
theorem test_uiret : (cur (after (exec .uiret completing))).at_.pc = 0x00010003 ∧ (cur (after (exec .uiret completing))).uictl = 1 ∧
    (cur (after (exec .uiret completing))).ui = none := by decide +kernel
theorem test_uiret_illegal : (cur trapping).ui = none ∧ (trapOf (exec .uiret trapping)).1 % 256 = cIllegal := by decide +kernel

/-! Kills and ends. -/

def gang : Gang :=
  { pkt := 7, queue := 0, parent := none, rec_ := [], header := [], depth := 1, kids := 1, kidsUsed := 0, placed := true, released := true
    tasks := [(0, 0)], numbers := [1], live := 1, bars := [], waits := 0, closed := none, holds := [] }
def launched : State :=
  let s := setCur trapping { cur trapping with gang := some 9 }
  { s with gangs := [(9, gang)], queues := [(0, { base := 0, retired := [], lastRead := 0, stopped := [], visited := 0, fw := 0 })] }
theorem test_end : (cur (after (exec .endTask launched))).ps = .free ∧ ((mget (after (exec .endTask launched)).gangs 9).map (·.live)) = some 0 := by decide +kernel
theorem test_kill : ((mget (killTask launched 0 0 [5]).queues 0).map (·.stopped)) = some [7] ∧ (getPart (killTask launched 0 0 [5]) 0 0).ps = .free := by
  decide +kernel
theorem witness_KillTask : (getPart launched 0 0).gang = some 9 ∧ mget launched.gangs 9 = some gang ∧ msorted launched.gangs = true ∧ launched.iss.part < 16 ∧
    launched.iss.writes = [] ∧ (getPart launched 0 0).steward = false ∧ localWrites launched 0 1 = false := by decide +kernel

/-! Contexts: the steward saves partition 1, which is stopped, and loads it into partition 2. -/

def stewarding : State :=
  let p := withS { stewardPart with at_ := { Point.start 0 with rep := some 0 } } [(2, 0), (3, 0x101), (5, 0x102)]
  let s := setPart (setPart State.reset 0 16 p) 0 1 { withS task [(6, 42)] with ps := .stopped, wregs := 16, tslen := 16 }
  { setCore s 0 core with iss := { Issue.closed with isOpen := true, part := 16, slot := 1, named := true } }
def saved : State :=
  let t := after (exec (.ctxsv { sa with d := 9, a := 2, b := 3 }) stewarding)
  { t with iss := { t.iss with slot := 1 } }
theorem test_ctxsv : (left (exec (.ctxsv { sa with d := 9, a := 2, b := 3 }) stewarding)).map (·.writes) = some [.s 9 false 0 false] ∧
    (getPart saved 0 1).ps = .free ∧ (mget saved.shadow 0).isSome = true := by decide +kernel
theorem test_ctxld : (left (exec (.ctxld { sa with d := 9, a := 2, b := 5 }) saved)).map (·.writes) = some [.s 9 false 0 false] ∧
    (getPart (after (exec (.ctxld { sa with d := 9, a := 2, b := 5 }) saved)) 0 2).ps = .placed ∧
    (getPart (after (exec (.ctxld { sa with d := 9, a := 2, b := 5 }) saved)) 0 2).s[6] = 42 := by decide +kernel
theorem witness_ContextTransfer : (cur stewarding).steward = true ∧ readS stewarding 2 = (0, false) ∧ readS stewarding 3 = (0x101, false) ∧ barredTask saved (shadowKey 0 0) 0 = false ∧
    (getPart stewarding 0 1).ps = .stopped ∧ imageLen (getPart stewarding 0 1) ≤ 2 ^ 25 ∧ (cur trapping).steward = false ∧
    (getPart saved 0 2).ps = .free ∧ ((mget saved.shadow (shadowKey 0 0)).map fun x => (x.core, x.lver)) = some (0, 1) ∧
    ((mget saved.shadow (shadowKey 0 0)).bind fun x => fitTasks (residents saved 0) (getCore saved 0).b1 1 (ctxShape x.ctx)).isSome = true := by decide +kernel
/-- A partition that is not stopped answers STATE (1), another layout version LAYOUT (2). -/
theorem test_ctxsv_checks : (left (exec (.ctxsv { sa with d := 9, a := 2, b := 5 }) stewarding)).map (·.writes) = some [.s 9 false 1 false] ∧
    (left (exec (.ctxsv { sa with d := 9, a := 2, b := 4 }) (setCur stewarding (withS (cur stewarding) [(4, 0x201)])))).map (·.writes) = some [.s 9 false 2 false] := by
  decide +kernel

/-! Scalar memory. Handle 1 of queue 0 names 4,096 elements of N32 at 0x10000 (Tables 5.2 to 5.4). -/

/-- The line of an object of rank 1 in the linear layout. -/
def lineOf (base len fmt perm : Nat) : Nat :=
  base + len * 2 ^ 128 + 2 ^ 160 + 2 ^ 192 + 2 ^ 224 + (fmt * 32 + 0x2000 + perm * 65536) * 2 ^ 384
def withObjects (s : State) : State := { s with mem := cells [(8, 8, 0x1000), (16, 4, 16), (0x1040, 64, lineOf 0x10000 4096 14 0xFFF)] }
def object (lofs : Nat) : W64 := BitVec.ofNat 64 (2 ^ 44 + lofs)
/-- s1 holds the object's start, s2 its fifth word, s5 data, s6 an unused handle. -/
def loading : State :=
  poke (withObjects (issuing 1 (withS task [(1, object 0), (2, object 16), (5, 0x1122334455667788), (6, 0x200000000000), (8, object 0), (9, 5), (10, 5), (11, 0),
    (12, object 0), (13, 1), (14, 5), (15, 3)]))) 0x10010 4 0x80000001

theorem test_ld : (left (exec (.ld { sm with d := 9, a := 2, w := 2 }) loading)).map (·.writes) = some [.s 9 false 0xFFFFFFFF80000001 false] ∧
    (left (exec (.ld { sm with d := 9, a := 1, x := some 4, w := 6 }) loading)).map (·.writes) = some [.s 9 false 0x80000001 false] := by decide +kernel
/-- An unknown handle is OBJ_INVALID (1), a result fault of LD and a poisoned code of LDS. -/
theorem test_ld_fault : (left (exec (.ld { sm with d := 9, a := 6 }) loading)).map (·.st) = some (.fault 1 0x200000000000 0 0) ∧
    (left (exec (.lds { sm with d := 9, a := 6 }) loading)).map (·.writes) = some [.s 9 false 1 true] := by decide +kernel
theorem test_lds : (left (exec (.lds { sm with d := 9, a := 2, w := 6 }) loading)).map (·.writes) = some [.s 9 false 0x80000001 false] ∧
    (left (exec (.lds { sm with d := 9, a := 2 }) (setCur loading { cur loading with sp := 4 }))).map (·.writes) = some [.s 9 false 0x3F true] := by decide +kernel
theorem witness_ScalarLoads : loading.memoryOk = true ∧ (getCore loading 0).cache = [] ∧ ((captured loading [2]).toOption.map (·.1)) = some [object 16] ∧
    (loadScalar (smAddr (object 16) 2 none 0) 4 loading).2.toOption = some (0x80000001, false) ∧
    (capturedSpec loading (.lds { sm with a := 2 })).isSome = true ∧
    (capturedSpec (setCur loading { cur loading with sp := 4 }) (.lds { sm with a := 2 })) = none := by decide +kernel
/-- The store is made at the end of the bundle issue (R236). -/
theorem test_st : (after (exec (.st { sm with d := 5, a := 1, w := 3 }) loading)).iss.writes.length = 8 ∧
    peekNat (applyWrites (after (exec (.st { sm with d := 5, a := 1, w := 3 }) loading))) 0x10000 8 = 0x1122334455667788 ∧
    peekNat (after (exec (.st { sm with d := 5, a := 1, w := 3 }) loading)) 0x10000 8 = 0 := by decide +kernel
theorem test_st_poison : trapOf (exec (.st { sm with d := 5, a := 1 }) (setCur loading { guarded with s := (cur loading).s, sp := 32 })) = (0x00210235, 5) := by decide +kernel
def stored : State := after (exec (.st { sm with d := 5, a := 1, w := 3 }) loading)
theorem witness_ScalarStores : (xlateSV loading 0 0 (smAddr (object 0) 3 none 0) 8 { cls := clsScalar, rd := false, wr := true }).2.toOption.isSome = true ∧
    (readS loading 5).2 = false ∧ loading.relocs = [] ∧ stored.memoryOk = true ∧
    (∀ w ∈ stored.iss.writes, populated stored w.addr = true ∧ w.scratch = false ∧ w.mask = 255) := by decide +kernel

/-! Atomics: the word at 0x10010 is 0x80000001. -/

def op (kind opnd cmp : Nat) (signed : Bool) : AtomicOp :=
  { kind := kind, addr := 0x10010, n := 4, signed := signed, opnd := opnd, cmp := cmp, acq := false, scope := 0, cmpr := false, fmt := 14 }
theorem test_atomics_perform : ((op 0 2 0 false).perform loading 0).2.res = 0x80000001 ∧ peekNat ((op 0 2 0 false).perform loading 0).1 0x10010 4 = 0x80000003 ∧
    peekNat ((op 1 5 0 false).perform loading 0).1 0x10010 4 = 5 ∧ peekNat ((op 1 5 0 true).perform loading 0).1 0x10010 4 = 0x80000001 ∧
    peekNat ((op 2 5 0 true).perform loading 0).1 0x10010 4 = 5 ∧ peekNat ((op 3 5 0 false).perform loading 0).1 0x10010 4 = 5 ∧
    peekNat ((op 4 5 0x80000001 false).perform loading 0).1 0x10010 4 = 5 ∧ peekNat ((op 4 5 1 false).perform loading 0).1 0x10010 4 = 0x80000001 := by decide +kernel
/-- A queue header at 0x10040 with CLAIM 3, LIMIT 2 and SIZE 2 has room for one claim. -/
def claiming (limit : Nat) : State := poke (poke (poke loading 0x10040 8 3) 0x10048 8 limit) 0x10050 4 2
def claim : AtomicOp := { op 5 0 0 false with addr := 0x10040, n := 8 }
theorem test_aclaim_perform : (claim.perform (claiming 2) 0).2.res = 3 ∧ peekNat (claim.perform (claiming 2) 0).1 0x10040 8 = 4 ∧
    (claim.perform (claiming 1) 0).2.res = 0xFFFFFFFFFFFFFFFF ∧ peekNat (claim.perform (claiming 1) 0).1 0x10040 8 = 3 := by decide +kernel
theorem witness_AtomicsPerform : loading.memoryOk = true ∧ (claiming 2).memoryOk = true ∧ 0x10010 + 4 ≤ hbmTop ∧ 0x10040 + 24 ≤ hbmTop := by decide +kernel
/-- An atomic reads its word at issue, and its write stands among those of the issue (R236): AADD of 5 to 0, and an ACAS whose compare fails. -/
theorem test_aadd_issues : let t := after (exec (.aadd { sm with d := 9, a := 8, w := 2 }) loading)
    ((left (.next t)).map (·.writes)) = some [.s 9 false 0 false] ∧ peekNat t 0x10000 4 = 0 ∧ peekNat (applyWrites t) 0x10000 4 = 5 := by decide +kernel
theorem test_acas_issues : let t := after (exec (.acas { sm with d := 9, a := 12, w := 2 }) loading)
    ((left (.next t)).map (·.writes)) = some [.s 9 false 0 false] ∧ peekNat (applyWrites t) 0x10000 4 = 0 := by decide +kernel
/-- AMIN and AMAX of 0 and 5, ASWAP of 5, and ACLAIM in a queue with room. -/
theorem test_atomics_issue : let t (i : Instr) := peekNat (applyWrites (after (exec i loading))) 0x10000 4
    t (.amin { sm with d := 9, a := 8, w := 2 }) = 0 ∧ t (.amax { sm with d := 9, a := 8, w := 2 }) = 5 ∧ t (.aswap { sm with d := 9, a := 8, w := 2 }) = 5 ∧
    (left (exec (.aclaim { sm with d := 9, a := 8 }) loading)).map (·.writes) = some [.s 9 false 0 false] := by decide +kernel
theorem witness_AtomicsIssue : (∀ r : Fin 4, (readS loading (BitVec.ofNat 6 (8 + r.val))).2 = false) ∧
    (xlateWord loading 0 0 (smAddr (object 0) 2 none 0) 4 4 4 { cls := clsScalar, rd := true, wr := true }).2.toOption.isSome = true ∧
    (xlateWord loading 0 0 (smAddr (object 0) 3 none 0) 24 64 8 { cls := clsScalar, rd := true, wr := true }).2.toOption.isSome = true := by decide +kernel

/-! Releases, acquires and waits. -/

/-- A task with an access in its drain set. -/
def undrained : State := setCur loading { cur loading with pends := [{ pending 0 300 with op := 0x20, st := .engine, level := 0 }], nextSeq := 1 }
theorem witness_Releases : drained (cur loading) (cur loading).nextSeq = true ∧ drained (cur undrained) (cur undrained).nextSeq = false ∧
    (cur loading).seqsOk = true ∧ (cur undrained).seqsOk = true := by decide +kernel
/-- With the release flag (bit 1 of the order) an atomic waits for its drain set. -/
theorem test_release_waits : (left (exec (.acas { sm with d := 9, a := 12, w := 2 }) undrained)).map (·.st) =
    some (.wait (.rel 1 (.atomic { op 4 1 5 true with addr := 0x10000, acq := true }))) := by decide +kernel
theorem test_drain : (left (exec .drain loading)).map (·.st) = some .ready ∧ (left (exec .drain undrained)).map (·.st) = some (.wait (.drain 0 1)) := by decide +kernel
/-- FSET of flag 5 of core 0 by 3, and FWAIT for it (R271). -/
def flagging : State := setCur loading (withS (cur loading) [(1, 0x500), (2, 3), (3, 5)])
theorem test_fset : flagOf (getCore (after (exec (.fset { sa with a := 1, b := 2 }) flagging)) 0) 5 = 3 ∧
    (left (exec (.fwait { sa with d := 9, a := 3, b := 2 }) flagging)).map (·.st) = some (.wait (.fwait 5 3)) := by decide +kernel
def flagged : State :=
  let t := after (exec (.fwait { sa with d := 9, a := 3, b := 2 }) flagging)
  setCore t 0 { getCore t 0 with flags := [(5, 4)] }
theorem test_fwait_ends : ((cur flagged).pends.getLast?.map fun e => flagOf (getCore (pollPend flagged 0 0 e) 0) 5) = some 1 := by decide +kernel
/-- SVC with no drain set is with the steward. -/
theorem test_svc : (left (exec (.svc { sa with d := 9, a := 2 }) flagging)).map (·.st) = some (.wait (.answer 3 5)) := by decide +kernel
/-- A gang barrier of level 0 with two participants: BARV answers its generation, the second arrival moves it on, BARW of a passed
generation ends at once (R278). -/
def barriers (arrived : Nat) : State :=
  let g : Gang := { gang with rec_ := List.replicate 28 0 ++ [8], bars := [(0, { gen := 4, arrived := arrived })] }
  let s := setCur loading { withS (cur loading) [(1, 0), (2, 4), (3, 3)] with gang := some 9, coord := (cur loading).coord.set 0 0x20000 }
  { s with gangs := [(9, g)] }
theorem test_barv : (left (exec (.barv { sa with d := 9, a := 1 }) (barriers 0))).map (·.writes) = some [.s 9 false 4 false] ∧
    (barAt (after (exec (.barv { sa with d := 9, a := 1 }) (barriers 1))) (cur (barriers 1)) 0).map (·.inst) = some { gen := 5, arrived := 0 } := by decide +kernel
theorem test_barw : (left (exec (.barw { sa with d := 9, a := 1, b := 2 }) (barriers 0))).map (·.st) = some (.wait (.barw 0 4)) ∧
    (left (exec (.barw { sa with d := 9, a := 1, b := 3 }) (barriers 0))).map (·.writes) = some [.s 9 false 4 false] := by decide +kernel
theorem witness_barriers : (barAt (barriers 0) (cur (barriers 0)) 0).map (fun x => (x.inst.gen, x.count)) = some (4, 2) ∧ barAt loading (cur loading) 0 = none := by decide +kernel
/-- WAITM of a word equal to its operand arms a monitor; of another it ends at once (R245). -/
theorem test_waitm : (left (exec (.waitm { sm with d := 11, a := 8, w := 2 }) loading)).isSome = true ∧
    (cur (after (exec (.waitm { sm with d := 11, a := 8, w := 2 }) loading))).monitor = some 0 ∧
    (cur (after (exec (.waitm { sm with d := 9, a := 8, w := 2 }) loading))).monitor = none := by decide +kernel
/-- LAUNCH of a packet that is no LAUNCH packet answers 3; a misaligned offset answers 3 too. -/
theorem test_launch : (left (exec (.launch { sa with d := 9, a := 7 }) loading)).map (·.writes) = some [.s 9 false 3 false] ∧
    (left (exec (.launch { sa with d := 9, a := 9 }) loading)).map (·.writes) = some [.s 9 false 3 false] := by decide +kernel
def launchPacket : List Byte := [0x01, 0x05, 0, 0] ++ List.replicate 60 0
theorem witness_ReleasesAndLaunches : pktType (ofBytes launchPacket) = 1 ∧ pktOk (ofBytes launchPacket) = true ∧
    (launchChild { launched with gangs := [(9, { gang with kids := 1 })] } { guarded with gang := some 9 } launchPacket).2 = 0 ∧
    (launchChild { launched with gangs := [(9, { gang with kids := 0 })] } { guarded with gang := some 9 } launchPacket).2 = 1 ∧
    (launchChild { launched with gangs := [(9, { gang with depth := 0 })] } { guarded with gang := some 9 } launchPacket).2 = 2 ∧
    (launchChild launched guarded [0x00]).2 = 3 := by decide +kernel
/-- A transaction barrier at word 0 of the share: armed with a count, done, poisoned, not armed (R203). -/
def barWords (x : Nat) : State :=
  let s := setCore loading 0 (writeScratchBytes (getCore loading 0) 0 (toBytes x 8))
  setCur s { cur s with pends := [{ pending 0 300 with st := .wait (.cwaitBar 0 none), level := 0 }], nextSeq := 1 }
def polled (x : Nat) : State := pollPend (barWords x) 0 0 { pending 0 300 with st := .wait (.cwaitBar 0 none), level := 0 }
theorem witness_AcquiresAndWaits : barWord (getCore (barWords (2 ^ 56 + 3)) 0) 0 = 2 ^ 56 + 3 ∧ polled (2 ^ 56 + 3) = barWords (2 ^ 56 + 3) ∧
    ((cur (polled (2 ^ 56))).pends.map fun e => e.st) = [.ready] ∧ ((cur (polled (2 ^ 57))).pends.map fun e => e.st) = [.ready] ∧
    ((cur (polled 0)).pends.map fun e => e.st) = [.ready] := by decide +kernel

/-! Vectors. -/

/-- A register of 128 lanes. -/
def lanes (f : Nat → Nat) : VReg := BitVec.ofNat 4096 (packElems 32 (tab 128 f))
def withV (p : Part) (l : List (Nat × VReg)) : Part := { p with v := l.foldl (fun m e => mput m e.1 e.2) p.v }
/-- Element `k` of width `w` of the vector register that a syllable leaves. -/
def laneAt (o : Out) (w k : Nat) : Option Nat :=
  match (results o).1 with
  | [.v _ x _] => some (elem x.toNat w k)
  | _ => none
def lanesAt (o : Out) (n : Nat) : List (Option Nat) := tab n fun k => laneAt o 32 k
/-- Bit `k` of the predicate that a syllable leaves. -/
def predBit (o : Out) (k : Nat) : Option Bool :=
  match (results o).1 with
  | [.p _ x] => some (x.getLsbD k)
  | _ => none
/-- v1 and v2 hold 1.0 and 2.0 in FP32, v3 NaNs, v4 −0, v5 zeros, v6 3, v7 −1, v8 1 to 128. -/
def vectors : State := issuing 1 (withV (withS { task with p := (task.p.set 4 0xFF).set 5 1 } [(1, 0), (2, 0x40000000), (6, 0x100)])
  [(1, lanes fun _ => 0x3F800000), (2, lanes fun _ => 0x40000000), (3, lanes fun _ => 0x7FC00001), (4, lanes fun _ => 0x80000000), (5, 0),
   (6, lanes fun _ => 3), (7, lanes fun _ => 0xFFFFFFFF), (8, lanes fun k => k + 1), (9, lanes fun k => [1, 0, 1, 1, 0, 2, 0, 1].getD k 0)])
/-- 1.0 op 2.0; 1.0 × 2.0 ± 5 × 0; with a scalar B. -/
theorem test_vfloat : laneAt (exec (.vfadd { va with d := 10, a := 1, b := 2, x := some 0x50 }) vectors) 32 0 = some 0x40400000 ∧
    laneAt (exec (.vfsub { va with d := 10, a := 1, b := 2, x := some 0x50 }) vectors) 32 0 = some 0xBF800000 ∧
    laneAt (exec (.vfmul { va with d := 10, a := 2, b := 2, bs := true, x := some 0x50 }) vectors) 32 0 = some 0x40800000 ∧
    laneAt (exec (.vfma { va with d := 1, a := 2, b := 2, x := some 0x50 }) vectors) 32 0 = some 0x40A00000 ∧
    laneAt (exec (.vfnma { va with d := 1, a := 2, b := 2, x := some 0x50 }) vectors) 32 0 = some 0xC0400000 ∧
    laneAt (exec (.vfmin { va with d := 10, a := 3, b := 2, x := some 0x50 }) vectors) 32 0 = some 0x40000000 ∧
    laneAt (exec (.vfmin { va with d := 10, a := 5, b := 4, x := some 0x50 }) vectors) 32 0 = some 0x80000000 ∧
    laneAt (exec (.vfmax { va with d := 10, a := 4, b := 5, x := some 0x50 }) vectors) 32 0 = some 0 ∧
    laneAt (exec (.vfabs { va with d := 10, a := 4, x := some 0x50 }) vectors) 32 0 = some 0 ∧ laneAt (exec (.vfneg { va with d := 10, a := 5, x := some 0x50 }) vectors) 32 0 = some 0x80000000 := by
  decide +kernel
theorem test_vfunctions : laneAt (exec (.vrcp { va with d := 10, a := 2, x := some 0x50 }) vectors) 32 0 = some 0x3F000000 ∧
    laneAt (exec (.vrcp { va with d := 10, a := 4, x := some 0x50 }) vectors) 32 0 = some 0xFF800000 ∧
    laneAt (exec (.vrsqrt { va with d := 10, a := 5, x := some 0x50 }) vectors) 32 0 = some 0x7F800000 ∧
    (results (exec (.vrsqrt { va with d := 10, a := 2, x := some 0x50 }) vectors)).2 = (8, 0) ∧
    laneAt (exec (.vexp2 { va with d := 10, a := 2, x := some 0x50 }) vectors) 32 0 = some 0x40800000 := by decide +kernel
theorem witness_VectorFloat : (cur vectors).wregs = 128 ∧ (readV vectors 1).2 = false ∧ fmtDecode 0 0x7FC00001 = .nan ∧ fmtDecode 0 0x40000000 ≠ .nan ∧
    trapOf (exec (.vfadd { va with d := 10, a := 1, b := 2 }) (setCur vectors { cur vectors with tvec := 0x50000, wregs := 8 })) = (0x00020230, 0x02050104) := by
  decide +kernel
theorem test_vcvt : laneAt (exec (.vcvt { va with d := 10, a := 1, b := 0, x := some 0x1 }) vectors) 16 127 = some 0x3F80 ∧
    laneAt (exec (.vcvt { va with d := 10, a := 2, b := 0, x := some 0x0000000B }) vectors) 32 5 = some 2 := by decide +kernel
theorem witness_VectorConvertAndKeys : fmtWidth 0 = 32 ∧ fmtWidth 1 = 16 ∧ fmtDecode 1 0x7FC0 = .nan ∧ fmtDecode 1 0x3F80 ≠ .nan ∧ fmtWidth 1 ≤ fmtWidth 0 ∧
    (cur vectors).wregs = 128 ∧ vkeyElem 0 0 0xBF800000 < vkeyElem 0 0 0x3F800000 := by decide +kernel
/-- A negative float orders below a positive one, and the inverse gives it back (R304). -/
theorem test_vkey : (laneAt (exec (.vkey { va with d := 10, a := 4 }) vectors) 32 0).map (fun x => decide (x < 0x80000000)) = some true ∧
    laneAt (exec (.vkeyx { va with d := 10, a := 11 }) (setCur vectors (withV (cur vectors) [(11, lanes fun _ => vkeyElem 0 0 0x40000000)]))) 32 0 =
      some 0x40000000 := by decide +kernel
theorem test_vint : laneAt (exec (.vadd { va with d := 10, a := 7, b := 6 }) vectors) 32 0 = some 2 ∧
    laneAt (exec (.vsub { va with d := 10, a := 5, b := 6 }) vectors) 32 0 = some 0xFFFFFFFD ∧
    laneAt (exec (.vmul { va with d := 10, a := 7, b := 6 }) vectors) 32 0 = some 0xFFFFFFFD ∧
    laneAt (exec (.vand { va with d := 10, a := 7, b := 6 }) vectors) 32 0 = some 3 ∧ laneAt (exec (.vor { va with d := 10, a := 5, b := 6 }) vectors) 32 0 = some 3 ∧
    laneAt (exec (.vxor { va with d := 10, a := 7, b := 6 }) vectors) 32 0 = some 0xFFFFFFFC ∧
    laneAt (exec (.vshl { va with d := 10, a := 7, b := 6 }) vectors) 32 0 = some 0xFFFFFFF8 ∧
    laneAt (exec (.vshr { va with d := 10, a := 7, b := 6 }) vectors) 32 0 = some 0x1FFFFFFF ∧
    laneAt (exec (.vsar { va with d := 10, a := 4, b := 6 }) vectors) 32 0 = some 0xF0000000 := by decide +kernel
theorem test_vminmax : laneAt (exec (.vmin { va with d := 10, a := 7, b := 6 }) vectors) 32 0 = some 0xFFFFFFFF ∧
    laneAt (exec (.vmin { va with d := 10, a := 7, b := 6, x := some 0xE }) vectors) 32 0 = some 3 ∧
    laneAt (exec (.vmax { va with d := 10, a := 7, b := 6 }) vectors) 32 0 = some 3 := by decide +kernel
theorem test_vcompares : predBit (exec (.vfcmp { va with d := 2, a := 1, b := 2, x := some 0x20000 }) vectors) 0 = some true ∧
    predBit (exec (.vfcmp { va with d := 2, a := 3, b := 3, x := some 0x10000 }) vectors) 0 = some true ∧
    predBit (exec (.vcmp { va with d := 2, a := 7, b := 6, x := some 0x2000B }) vectors) 127 = some true := by decide +kernel
theorem witness_VectorIntegerAndCompare : (readV vectors 1).2 = false ∧ (readB vectors { va with b := 2 }).poison = false ∧
    (readV (setCur vectors { cur vectors with vp := 2 }) 1).2 = true ∧ (readB (setCur vectors { cur vectors with vp := 4 }) { va with b := 2 }).poison = true ∧
    fmtDecode 0 0x7FC00001 = .nan := by decide +kernel

/-- 1 + 2 + … + 128 = 8,256; the greatest of them; the scans. -/
theorem test_vtrees : laneAt (exec (.vradd { va with d := 10, a := 8, x := some 0xB }) vectors) 32 9 = some 8256 ∧
    laneAt (exec (.vrmax { va with d := 10, a := 8, x := some 0xB }) vectors) 32 9 = some 128 ∧
    laneAt (exec (.vscani { va with d := 10, a := 8, x := some 0xB }) vectors) 32 9 = some 55 ∧
    laneAt (exec (.vscanx { va with d := 10, a := 8, x := some 0xB }) vectors) 32 9 = some 45 ∧
    laneAt (exec (.vscanx { va with d := 10, a := 8, x := some 0xB }) vectors) 32 0 = some 0 := by decide +kernel
theorem test_vpermutes : laneAt (exec (.vperm { va with d := 10, a := 8, b := 6 }) vectors) 32 0 = some 4 ∧
    laneAt (exec (.vbcast { va with d := 10, a := 8, b := 1, bs := true }) vectors) 32 77 = some 1 ∧
    laneAt (exec (.vslide { va with d := 10, a := 8, b := 6, bs := true, x := some 0x6000E }) vectors) 32 0 = some 3 ∧
    laneAt (exec (.vcompr { va with d := 10, a := 8, x := some 0x4E }) vectors) 32 7 = some 8 ∧
    laneAt (exec (.vcompr { va with d := 10, a := 8, x := some 0x4E }) vectors) 32 8 = some 0 := by decide +kernel
theorem witness_VectorTreesAndPermutes : (cur vectors).wregs = 128 ∧ 0 < fmtWidth 0 ∧ (VMod.of (some 0x6000E) 14).aux < 128 ∧
    (predOf vectors (VMod.of (some 0x4E) 14)).getLsbD 7 = true := by decide +kernel
theorem test_predicates : predBit (exec (.pand { va with d := 2, a := 4, b := 0 }) vectors) 7 = some true ∧
    predBit (exec (.por { va with d := 2, a := 4, b := 0 }) vectors) 127 = some true ∧ predBit (exec (.pxor { va with d := 2, a := 4, b := 0 }) vectors) 0 = some false ∧
    predBit (exec (.pnot { va with d := 2, a := 4 }) vectors) 8 = some true ∧ laneAt (exec (.pcnt { va with d := 10, a := 4 }) vectors) 32 99 = some 8 := by
  decide +kernel
theorem witness_PredicateOperations : (Instr.pand va).wf = true ∧ (Instr.pcnt va).wf = true ∧ (Instr.pnot { va with b := 1 }).wf = false ∧ (Instr.pand { va with bs := true }).wf = false ∧
    (10 : BitVec 7).toNat < (cur vectors).wregs ∧ (cur (setCur vectors { cur vectors with wregs := 8 })).wregs ≤ (10 : BitVec 7).toNat := by decide +kernel

/-! The worked examples of chapter 12. -/

def mixing : State := issuing 1 (withV (withS { task with wregs := 48, fpctl := 4 } [(12, 0x40800000), (13, 5)])
  [(8, lanes fun k => [0x40800000, 0xC2200000, 0x40900000, 0x7FC00000, 0xC2200000, 0x40200000].getD k 0xC2200000), (20, 0),
   (40, lanes fun k => [1000, 0xFFFFFC17, 0x7FFFFF].getD k 0), (30, lanes fun k => [100, 0, 0x7FFF0000].getD k 0),
   (21, lanes fun _ => 0x0A0A0A0A)])
theorem test_vpx3 : lanesAt (exec (.vpx3 { va with d := 20, a := 8, b := 12, bs := true }) mixing) 4 = [some 0x80028000, some 0x80800A80, some 0x80808080, some 0x80808080] ∧
    laneAt (exec (.vpx3 { va with d := 20, a := 8, b := 12, bs := true }) mixing) 32 32 = some 0 ∧
    (results (exec (.vpx3 { va with d := 20, a := 8, b := 12, bs := true }) mixing)).2.2.getLsbD 1 = true := by decide +kernel
theorem test_vshadd3 : lanesAt (exec (.vshadd3 { va with d := 30, a := 40, b := 21 }) mixing) 3 = [some 0x1DB, some 0xFFFFFE87, some 0x802EFFFE] := by decide +kernel
theorem test_vpart : lanesAt (exec (.vpart { va with d := 10, a := 9, b := 6, bs := true, x := some 0x4E }) vectors) 9 =
    [0x101, 0x104, 0x106, 0x100, 0x102, 0x103, 0x107, 0x105, 0x108].map some := by decide +kernel
theorem test_vhist : lanesAt (exec (.vhist { va with d := 5, a := 9, b := 6, bs := true, x := some 0x4E }) (setCur vectors (withS (cur vectors) [(6, 0x100)]))) 4 =
    [some 3, some 4, some 1, some 0] := by decide +kernel
/-- 1.0 scaled by 2^1 and back (R307). -/
theorem test_vfx : laneAt (exec (.vfxt { va with d := 10, a := 1, b := 7, bs := true }) (setCur vectors (withS (cur vectors) [(7, 0xFF)]))) 32 0 = some 2 ∧
    laneAt (exec (.vfxf { va with d := 10, a := 6, b := 7, bs := true }) (setCur vectors (withS (cur vectors) [(7, 1)]))) 32 0 = some 0x40C00000 := by decide +kernel
theorem witness_ServingOperations : (cur mixing).wregs = 48 ∧ fmtDecode 0 0xFF800000 = .inf true ∧ (∀ b, fmtDecode 0 0x3F800000 ≠ .inf b) ∧ fmtDecode 0 0x3F800000 ≠ .nan := by
  refine ⟨by decide +kernel, by decide +kernel, ?_, by decide +kernel⟩
  intro b; cases b <;> decide +kernel

/-! Vector memory: an operand of the scratchpad in s1, of the object of test_ld in s2. -/

def vloading : State := poke (withObjects (issuing 1 (withV (withS { task with p := task.p.set 4 0x3, tvec := 0x50000 }
    [(1, 0x100), (2, object 0), (3, 0xFFFC), (6, 0x200000000000)])
  [(10, lanes fun _ => 7), (11, lanes fun k => 127 - k), (12, lanes fun k => k)]))) 0x10000 16 0x00000004000000030000000200000001
def vscratch : State := setCore vloading 0 (writeScratchBytes (getCore vloading 0) 0x100 (toBytes 0x2222222211111111 8))
theorem test_vld : lanesAt (exec (.vld { vm with d := 10, a := 1, md := 1, x := some 0x40 }) vscratch) 3 = [some 0x11111111, some 0x22222222, some 7] ∧
    lanesAt (exec (.vld { vm with d := 10, a := 2, x := some 0x40 }) vloading) 3 = [some 1, some 2, some 7] := by decide +kernel
/-- VLD of an unknown handle is a result fault, past the share LOCAL_RANGE; VLDS gives the codes. -/
theorem test_vld_faults : (left (exec (.vld { vm with d := 10, a := 6 }) vloading)).map (·.st) = some (.fault 1 0x200000000000 0 0) ∧
    trapOf (exec (.vld { vm with d := 10, a := 3, md := 1 }) vloading) = (0x00300221, 0x10000) ∧
    laneAt (exec (.vlds { vm with d := 10, a := 6 }) vloading) 32 3 = some 1 ∧ laneAt (exec (.vlds { vm with d := 10, a := 3, md := 1 }) vloading) 32 3 = some 0x21 := by
  decide +kernel
theorem test_vgath : lanesAt (exec (.vgath { vm with d := 10, a := 2, x := some 0x000B0040 }) vloading) 3 = [some 0, some 0, some 7] ∧
    lanesAt (exec (.vgaths { vm with d := 10, a := 2, x := some 0x000C004E }) vloading) 3 = [some 1, some 2, some 7] := by decide +kernel
theorem test_vst : peekNat (applyWrites (after (exec (.vst { vm with d := 12, a := 2, x := some 0x40 }) vloading))) 0x10000 16 = 0x00000004000000030000000100000000 ∧
    (after (exec (.vscat { vm with d := 12, a := 1, md := 1, x := some 0x000B0040 }) vloading)).iss.writes.length = 8 := by decide +kernel
theorem witness_VectorLoads : (10 : BitVec 7).toNat < (cur vloading).wregs ∧ ((captured vloading [1]).toOption.map (·.1)) = some [0x100] ∧
    (capturedSpec vloading (.vlds { vm with a := 1 })).isSome = true ∧ capturedSpec (setCur vloading { cur vloading with sp := 2 }) (.vlds { vm with a := 1 }) = none ∧
    (readV vloading 11).2 = false ∧ (readV (setCur vloading { cur vloading with vp := 2048 }) 11).2 = true ∧ spOk 0x100 = true ∧
    (∀ j : Fin 128, ∀ b : Fin 4, inShare (cur vloading) (curCore vloading) (0x100 + 4 * j.val + b.val) = true) := by decide +kernel
theorem witness_VectorStores : (readV vloading 12).2 = false ∧ rangeFault vloading 0x100 (vmBase { vm with md := 1 } 0x100 none 0) (laneOffs (govLanes (predOf vloading (VMod.of none 0))) 0x100 none) = none ∧
    (rangeFault vloading 0xFFFC (vmBase { vm with md := 1 } 0xFFFC none 0) (laneOffs (govLanes (predOf vloading (VMod.of none 0))) 0xFFFC none)).isSome = true ∧
    (cur vloading).seqsOk = true ∧
    (∀ w ∈ (after (exec (.vscat { vm with d := 12, a := 1, md := 1, x := some 0x000B0040 }) vloading)).iss.writes, w.scratch = true ∧ w.mask = 255) := by decide +kernel

/-! Matrix and transform units: the example of chapter 13, its edges cut to one cell and two terms. -/

def tileA : TMap W128 := tab 8 fun j => (0x400 + 64 * j, if j = 3 ∨ j = 4 ∨ j = 5 then BitVec.allOnes 128 else if j = 7 then 0xAAAAAAAAAAAAAAAAAAAAAAAAAAAAAAAA else 0)
/-- B(0, 0) is 3.0 and B(1, 0) is 1.0 in BF16. -/
def tileB : TMap W128 := (tab 16 fun j => [(0x1000 + 128 * j, if j = 6 ∨ j = 14 then (1 : W128) else 0), (0x1001 + 128 * j, if 7 ≤ j ∧ j ≤ 13 then (1 : W128) else 0)]).flatten
def tilesOf (base n tag : Nat) : TMap W16 := tab n fun i => (base + i, BitVec.ofNat 16 (if i = 0 then tag + 0x200 else tag))
def matrixTask : Part :=
  { task with tslen := 0x8000, spbase := 0x10000, tvec := 0x50000, lc := task.lc.set 3 2, ft := task.ft.set 2 0x3F803F8000100213, mca := 0x00200400, mcb := 0x1000
              mcs := 0x00080140, mce := 0x7E7F7F, tile := tileA ++ tileB, tags := tilesOf 0x40 32 0x8D ++ tilesOf 0x100 128 0xC5, mcr := 0xFAC688 }
def matrices : State := issuing 4 matrixTask
def zeroed : State := setCur matrices { cur matrices with acc := tab 128 fun r => (128 + r, (0 : VReg)) }
def gatedOff : State := setCur matrices { cur matrices with mcg := 0x8888, g := (cur matrices).g.set 0 0 }
theorem test_mstep : elem (bankRow (cur (after (exec (.mstep { mt with acc := 1, lcx := 3 }) zeroed))) 1 0).toNat 32 0 = 0x40000000 ∧
    (results (exec (.mstep { mt with acc := 1, lcx := 3 }) zeroed)).2.1 = 70 := by decide +kernel
theorem test_mzero : bankRow (cur (after (exec (.mzero { mt with acc := 1 }) matrices))) 1 127 = 0 ∧ (results (exec (.mzero { mt with acc := 1 }) matrices)).2.1 = 6 := by
  decide +kernel
theorem test_mgate : left (exec (.mzero { mt with acc := 1 }) gatedOff) = none := by decide +kernel
/-- MREAD of a row of 1.0 in E4M3: 0x38 at 0x14000, among the writes of its issue (R236). -/
def reading : State := issuing 4 { (cur zeroed) with ft := task.ft.set 2 0x3F803F8000300213, acc := tab 128 fun r => (128 + r, (0x3F800000 : VReg)) }
theorem test_mread : ((after (exec (.mread { mt with acc := 1, lcx := 3 }) reading)).iss.writes.find? (·.addr == 0x14000)).map (·.val) = some 0x38 ∧
    (results (exec (.mread { mt with acc := 1, lcx := 3 }) reading)).2.1 = 24 := by decide +kernel
theorem test_matrix_traps : (trapOf (exec (.mstep { mt with acc := 1, lcx := 2 }) matrices)).1 % 256 = cMatrix ∧
    (trapOf (exec (.mzero { mt with acc := 1 }) (setCur matrices { cur matrices with accs := 1 }))).1 % 256 = cIllegal ∧
    (trapOf (exec (.mstep { mt with acc := 1, lcx := 3, ta := 1 }) matrices)).1 % 256 = cLayout := by decide +kernel
theorem convert_sat (x : Machine.Num) (m : RMode) : (convert x 0 m .sat).trap = false := by
  cases x <;> simp only [convert, FFmt.encode, FFmt.overflow, convOk, Nat.zero_le, if_true]
  all_goals (repeat' split) <;> rfl
theorem witness_MatrixOperations : (cur matrices).accs.getLsbD 1 = true ∧ (∀ k : Fin 4, gateOn matrices k.val = true ∧ gateOn gatedOff k.val = false) ∧
    (entryOf matrices 3).1.legal = true ∧ (entryOf matrices 2).1.legal = false ∧
    (let ra : Region := { base := 0x400, rows := 64, fmt := 3, row := false }
     let rb : Region := { base := 0x1000, rows := 128, fmt := 1, row := false }
     ra.outside (cur matrices) = none ∧ rb.outside (cur matrices) = none ∧ ra.mistagged (cur matrices) = none ∧ rb.mistagged (cur matrices) = none) ∧
    shareBad (cur matrices) (curCore matrices) (mOffset (cur matrices) 0) 8192 = none := by decide +kernel
/-- MREAD of FP32 cells under SAT never traps; a cell that E4M3 cannot hold traps under TRAP. -/
theorem witness_MatrixReads (x : Machine.Num) : (convert x 0 .rne .sat).trap = false ∧ (convert ((ffmt 0).decode 0x7F7FFFFF) 3 .rne .trap).trap = true :=
  ⟨convert_sat x _, by decide +kernel⟩
theorem test_mcontrol : results (exec (.mfmt { mt with x := some 0x00100213, ta := 2 }) matrices) = ([.ftLo 2 0x00100213], 1, 0) ∧
    results (exec (.mscale { mt with x := some 0x3F803F80, ta := 2 }) matrices) = ([.ftHi 2 0x3F803F80], 1, 0) ∧
    results (exec (.mloop { mt with x := some 0x00200400 }) matrices) = ([.mc 0 0x00200400], 1, 0) := by decide +kernel
/-- EN = 120 (chapter 13); an edge above 128 is 128. Rotating banks 0 to 2 of the map 0, 1, … 7 gives 1, 2, 0, 3 … -/
theorem test_medge : results (exec (.medge { mt with ta := 7, tb := 1 }) (issuing 4 (withS task [(7, 120)]))) = ([.edge 1 120], 1, 0) ∧
    results (exec (.medge { mt with ta := 7, tb := 1 }) (issuing 4 (withS task [(7, 1000)]))) = ([.edge 1 128], 1, 0) := by decide +kernel
theorem test_mrot : results (exec (.mrot { mt with ta := 2 }) matrices) = ([.mc 4 0xFAC611], 1, 0) := by decide +kernel
theorem witness_MatrixControl : (readS matrices 7).2 = false ∧ (readS (setCur matrices { cur matrices with sp := 128 }) 7).2 = true ∧
    (∀ k : Fin 3, (cur matrices).accs.getLsbD k.val = true) ∧ (cur (setCur matrices { cur matrices with accs := 1 })).accs.getLsbD 1 = false := by decide +kernel

/-! Transforms. -/

/-- The first row of scratchpad unit 0 holds the INT4 codes 1, 2, …; tile unit 2 holds a plane region of FP32. -/
def transforming : State :=
  let s := issuing 7 { task with tvec := 0x50000, tslen := 0x8000, spbase := 0, tags := tilesOf 0x20 128 0xC5, tile := [] }
  setCore s 0 (writeScratchBytes (getCore s 0) 0 (tab 64 fun i => BitVec.ofNat 8 (if i = 0 then 0x21 else 0)))
theorem test_xunpl_mistagged : trapOf (exec (.xunpl { xt with d := 30, a := 1, fmt := 1 }) transforming) = (0x00070E37, 256) := by decide +kernel
theorem witness_Transforms : fmtTile 6 = true ∧ fmtTile 1 = true ∧ shareBad (cur transforming) (curCore transforming) (spUnit (cur transforming) 0) (spBytes 1) = none ∧
    (shareBad (cur transforming) (curCore transforming) (spUnit (cur transforming) 15) (spBytes 1)).isSome = true ∧ (tileUnit 12 1 false).outside (cur transforming) = none ∧
    (tileUnit 2 1 false).mistagged (cur transforming) = none ∧ (tileUnit 1 1 false).mistagged (cur transforming) = some 256 ∧
    (tileTag (cur transforming) (16 * 2)).toNat = 0x2C5 ∧ 0x2C5 % 4 = 1 ∧ 0x2C5 / 4 % 16 = 1 ∧ 0x2C5 / 64 % 4 = 3 ∧ 0x2C5 / 256 % 2 = 0 := by decide +kernel
theorem blocks_never_trap (xs : List Machine.Num) (band : Nat) (m : RMode) : (blockConv xs band m .sat).trap = false := by
  simp only [blockConv, Block.void]
  (repeat' split) <;> rfl
/-- XQNT, XCVT, XEXP and XSCALE under SAT complete; the greatest FP32 number in E4M3 under TRAP does not. -/
theorem witness_TransformsComplete (xs : List Machine.Num) (x : Machine.Num) : (blockConv xs 0x3F80 .rne .sat).trap = false ∧ (convert x 0 .rne .sat).trap = false ∧
    (convert (numExp2 x) 0 .rne .sat).trap = false ∧ (blockConv [.inf true] 0x3F80 .rne .trap).trap = true :=
  ⟨blocks_never_trap _ _ _, convert_sat _ _, convert_sat _ _, by decide +kernel⟩

/-! C slots. Handle 1 of queue 0 is the object of the loads above, handle 2 another one of its format at 0x20000. -/

def twoObjects (s : State) : State :=
  { s with mem := cells [(8, 8, 0x1000), (16, 4, 16), (0x1040, 64, lineOf 0x10000 4096 14 0xFFF), (0x1080, 64, lineOf 0x20000 4096 14 0xFFF)] }
def cslot (l : List (Nat × W64)) : State := twoObjects (issuing 5 (withS { task with tvec := 0x50000, entered := 1 } l))
/-- 4 columns of one row: handle 1, no barrier. -/
def tileW (h bar : Nat) : W64 := BitVec.ofNat 64 (h + 3 * 2 ^ 20 + bar * 2 ^ 48)
/-- s8: a copy to local 0x200; s12: with a misfit pitch; s16: barrier 4; s20: an unknown handle; s24: a local side outside the share; s28: to handle 2. -/
def copying : State := cslot [(8, tileW 1 0xFFFF), (11, 0x200), (12, tileW 1 0xFFFF), (15, 0x800000200), (16, tileW 1 4), (19, 0x200), (20, tileW 9 0xFFFF),
  (24, tileW 1 0xFFFF), (27, 0x10000), (28, tileW 1 0xFFFF), (31, 2)]
def unready (n op : Nat) : Copy :=
  { newCopy op [tileW 1 0xFFFF, 0, 0, 0x200] false copying with
    num := n, shape := (findRec copying 0 (tabOf copying 0) 1).2.toOption.map (·.shape), seq := some 0 }
theorem test_oload : (mget (after (exec (.oload { cq with d := 9, a := 8 }) copying)).copies 0).map (fun z => (z.op, z.seq, z.shape.isSome, z.holding)) =
      some (3, some 0, true, false) ∧
    (left (exec (.oload { cq with d := 9, a := 8, sh := 1 }) copying)).map (·.writes) = some [.s 9 false 0 false] := by decide +kernel
/-- A pitch of 8 is BADPITCH (6), an unarmed barrier BADBAR (2). -/
theorem test_copy_status : (left (exec (.oload { cq with d := 9, a := 12, sh := 1 }) copying)).map (·.writes) = some [.s 9 false 6 false] ∧
    (left (exec (.oload { cq with d := 9, a := 16, sh := 1 }) copying)).map (·.writes) = some [.s 9 false 2 false] := by decide +kernel
theorem test_copies : (mget (after (exec (.ocopy { cq with d := 9, a := 28 }) copying)).copies 0).map (·.op) = some 2 ∧
    (mget (after (exec (.ostore { cq with d := 9, a := 8 }) copying)).copies 0).map (·.op) = some 4 ∧
    (left (exec (.tload { cq with d := 9, a := 8 }) copying)).map (·.writes) = some [.s 9 false 3 false] := by decide +kernel
theorem test_copy_held : (mget (after (exec (.oload { cq with d := 9, a := 20 }) copying)).copies 0).map (fun z => (z.holding, z.pcode)) = some (true, 1) ∧
    (mget (after (exec (.oload { cq with d := 9, a := 24 }) copying)).copies 0).map (fun z => (z.holding, z.pcode)) = some (true, 0x21) := by decide +kernel
theorem witness_CopiesIssue : ∀ a ∈ [(8 : BitVec 6), 12, 16, 20, 24, 28], (captured copying [a, a + 1, a + 2, a + 3]).toOption.isSome = true := by decide +kernel

/-! Barriers and rings. -/

def barring : State := cslot [(8, 0x20), (9, 0x4000), (10, 0xFFFF), (12, 0x4000), (14, 2)]
def armed : State := setCore barring 0 (writeScratchBytes (curCore barring) 0x100 (toBytes (2 ^ 56 + 0x4000) 8))
/-- The example of chapter 8. -/
theorem test_barset : barWord (curCore (applyWrites (after (exec (.barset { cq with d := 20, a := 8 }) barring)))) 0x20 = 0x0100000000004000 ∧
    (left (exec (.barset { cq with d := 20, a := 8 }) barring)).map (·.writes) = some [.s 20 false 0 false] := by decide +kernel
theorem test_cwait : (left (exec (.cwait { cq with d := 22, a := 8 }) armed)).map (·.st) = some (.wait (.cwaitBar 0x20 (some 0x4000))) ∧
    (left (exec (.cwait { cq with d := 22, a := 8, sh := 1 }) armed)).map (·.writes) = some [.s 22 false 3 false] := by decide +kernel
theorem witness_BarriersAndRings : (readS barring 8).2 = false ∧ (readS barring 9).2 = false ∧ rangeInShare (cur barring) (curCore barring) 0x100 8 = true ∧
    rangeInShare (cur barring) (curCore barring) (8 * 0x4000) 8 = false ∧ (cur barring).seqsOk = true ∧ barAnswer (curCore armed) 0x20 = none ∧
    (readS barring 12).1.toNat % 65536 = 0x4000 ∧ (readS barring 10).1.toNat % 65536 = 0xFFFF ∧
    (∃ s, s = ({ armed with copies := [(0, { unready 7 3 with opd := [tileW 1 0x20] })] } : State) ∧
      (s.copies.any fun e => e.1 / 4096 == s.iss.core && e.2.bar == 0x20) = true) := ⟨by decide +kernel, by decide +kernel, by decide +kernel, by decide +kernel, by decide +kernel, by decide +kernel, by decide +kernel, by decide +kernel, _, rfl, by decide +kernel⟩

/-! A queue of two slots at 0x10400 of handle 1: CLAIM 3, LIMIT `limit`, CONS 2; the packet of slot 2 has phase 0. -/

def queueing (limit phase : Nat) : State :=
  let s := cslot [(8, object 0x400), (9, 0x40), (10, object 0x420), (11, 0x40), (12, 2 ^ 63 + 1), (16, 1), (17, 0x80000)]
  let s := { s with mem := s.mem ++ cells [(0x10400, 8, 3), (0x10408, 8, limit), (0x10410, 4, 2), (0x10418, 8, 2), (0x10440, 4, phase * 2 ^ 31 + 0x55)] }
  setCore s 0 (writeScratchBytes (curCore s) 0x40 (toBytes 0x77 64))
theorem test_qpush : (left (exec (.qpush { cq with d := 20, a := 8 }) (queueing 2 0))).map (·.writes) = some [.s 20 false 0x300000000 false] ∧
    peekNat (applyWrites (after (exec (.qpush { cq with d := 20, a := 8 }) (queueing 2 0)))) 0x10400 8 = 4 ∧
    peekNat (applyWrites (after (exec (.qpush { cq with d := 20, a := 8 }) (queueing 2 0)))) 0x10480 4 = 0x77 ∧
    (left (exec (.qpush { cq with d := 20, a := 8 }) (queueing 1 0))).map (·.writes) = some [.s 20 false 1 false] := by decide +kernel
theorem test_qpoll : (left (exec (.qpoll { cq with d := 20, a := 8 }) (queueing 2 0))).map (·.writes) = some [.s 20 false 0x200000000 false] ∧
    peekNat (applyWrites (after (exec (.qpoll { cq with d := 20, a := 8 }) (queueing 2 0)))) 0x10418 8 = 3 ∧
    scratchByte (curCore (applyWrites (after (exec (.qpoll { cq with d := 20, a := 8 }) (queueing 2 0))))) 0x40 = 0x55 ∧
    (left (exec (.qpoll { cq with d := 20, a := 8 }) (queueing 2 1))).map (·.writes) = some [.s 20 false 8 false] := by decide +kernel
theorem test_olcinv : (left (exec (.olcinv { cq with d := 20, a := 16 }) (queueing 2 0))).map (·.writes) = some [.s 20 false 0 false] := by decide +kernel
/-- RELOC needs RELOCOK (bit 12 of the table word), else it is OBJ_PERM; of an object without a bitmap it answers 2. -/
theorem test_reloc : failed (.reloc { cq with d := 20, a := 16 }) (queueing 2 0) = some (.fault 3 0x100000000000 0 0) ∧
    answered (.reloc { cq with d := 20, a := 16 }) (poke (queueing 2 0) 20 2 0x1000) = some [.s 20 false 2 false] := by decide +kernel
theorem witness_QueuesAndRecords : readS (queueing 2 0) 8 = (object 0x400, false) ∧ (object 0x400).toNat % 64 = 0 ∧ (object 0x420).toNat % 64 ≠ 0 ∧
    (cur (queueing 2 0)).seqsOk = true ∧ (queueing 2 0).memoryOk = true ∧ (queueing 2 0).relocs = [] ∧ (queueing 2 0).iss.writes = [] ∧
    soundAt (queueing 2 0) (plainCells 0x10400 64) = true ∧
    localOk (cur (queueing 2 0)) (curCore (queueing 2 0)) 0x40 64 = true ∧
    ((xlateAl (queueing 2 0) 0 0 (object 0x400) 64 64 { cls := clsCopy, rd := true, wr := true }).2.toOption.map (·.2)) = some (plainCells 0x10400 64) ∧
    queueOk (peekNat (queueing 2 0) 0x10400 64) = true ∧ queueOk 0 = false ∧ drained (cur (queueing 2 0)) 0 = true ∧
    (tabOf (queueing 2 0) 0).relocok = false ∧ (tabOf (poke (queueing 2 0) 20 2 0x1000) 0).relocok = true ∧
    inFlightOps (queueing 2 0) (scopeCores 0 0) 0 none = [] ∧ (1 : Nat) < (tabOf (queueing 2 0) 0).tlen := by decide +kernel

/-! A KV space with one layer and one head of 64 E4M3 elements: sequence 1 with tail node 1, whose folio 1 is open and holds 3 rows at
0x80000; node 2, whose sealed folio 2 has its data at 0x82000; spare node 3 with folio 3; and a catalogue of 1,024 entries at 0x30000, in
which entry 0 names node 2 by the shelfmark 5. -/

def kvDesc : Nat := 0x2100 + 0x2400 * 2 ^ 64 + 0x2800 * 2 ^ 128 + 4 * 2 ^ 192 + 8 * 2 ^ 224 + 8 * 2 ^ 256 + 3 * 2 ^ 304
def catDesc : Nat := 0x30000 + 10 * 2 ^ 48 + 0x80000 * 2 ^ 64 + 8 * 2 ^ 128 + 0x2E00 * 2 ^ 192 + 0x2E40 * 2 ^ 256 + 16 * 2 ^ 320 + 1 * 2 ^ 448
def seqLine (len npath : Nat) : Nat := 0xAB + len * 2 ^ 64 + npath * 2 ^ 96 + 0x2C00 * 2 ^ 128 + 1 * 2 ^ 192 + 2 ^ 224
def folLine (dbase surv word loans : Nat) : Nat := dbase + surv * 2 ^ 64 + word * 2 ^ 128 + loans * 2 ^ 160
def nodeLine (sm nstate : Nat) : Nat := sm + nstate * 2 ^ 160 + 0x2D00 * 2 ^ 192 + 0xAB * 2 ^ 256
def inKv (s : State) (len npath appnxt surv tail : Nat) : State :=
  { s with
    mem := cells [(8, 8, 0x1000), (16, 4, 16), (0x18, 6, 0x2000), (0x20, 6, 0x2080), (0x1040, 64, lineOf 0x10000 4096 14 0xFFF),
      (0x1080, 64, lineOf 0x20000 4096 14 0xFFF), (0x2000, 64, kvDesc), (0x2080, 64, catDesc), (0x2140, 64, seqLine len npath),
      (0x2480, 64, nodeLine 0 0), (0x24C0, 4, tail), (0x2500, 64, nodeLine 5 1), (0x2540, 4, 2), (0x2580, 64, nodeLine 0 0), (0x25C0, 4, 3),
      (0x2840, 64, folLine 0x80000 surv (appnxt * 2 ^ 16) 0), (0x2880, 64, folLine 0x82000 (2 ^ 64 - 1) 1 0), (0x28C0, 64, folLine 0x84000 0 0 0),
      (0x2E00, 1, 0xF0), (0x30000, 64, 5 + 2 * 2 ^ 128 + 1 * 2 ^ 160 + 0xAB * 2 ^ 192), (0x81000, 8, 0x0123456789ABCDEF)]
    nskeys := [(0, toBytes 1 32)] }
/-- s8: KVLD at position 0 of the sequence to 0x200, no mask; s12: at position 3; s20: of an unknown sequence; s24: KVAPP from position 3. -/
def kvTask (len npath appnxt surv tail : Nat) : State :=
  inKv (cslot [(8, 1), (9, 0), (10, 0x200), (11, 0xFFFFFFFF00000000), (12, 1), (13, 3), (14, 0x200), (15, 0xFFFFFFFF00000000),
    (20, 3), (21, 0), (22, 0x200), (23, 0xFFFFFFFF00000000), (28, 1), (29, 2), (30, 5), (31, 0), (32, 1), (33, 3), (34, 2), (35, 1),
    (36, 1), (37, object 0), (38, 64), (39, object 0x800)]) len npath appnxt surv tail
def kvs : State := kvTask 4 0 3 7 1
/-- KVLD of the value row of position 0. -/
theorem test_kvld : answered (.kvld { cq with d := 20, a := 8, sh := 1 }) kvs = some [.s 20 false 1 false] ∧
    scratchByte (curCore (byEngine (.kvld { cq with d := 20, a := 8, sh := 1 }) kvs)) 0x200 = 0xEF := by decide +kernel
/-- An unknown sequence is KV_INVALID. -/
theorem test_kv_fault : (mget (byEngine (.kvld { cq with d := 20, a := 20, sh := 1 }) kvs).kvs 1).map (·.fault) = some (some (0x10, 0x300000000000)) := by decide +kernel
/-- A row of zeros appended at position 3 (R140). -/
def appending : State := setCore kvs 0 (writeScratchBytes (curCore kvs) 0x200 (toBytes 0x11 128))
theorem test_kvapp : answered (.kvapp { cq with d := 20, a := 12 }) appending = some [.s 20 false 0 false] ∧
    peekNat (byEngine (.kvapp { cq with d := 20, a := 12 }) appending) 0x2852 1 = 4 := by decide +kernel
def space : KvSpace := KvSpace.of kvDesc
def kvOp : KvOp := { core := 0, task := 1, seq := 0, queue := 0, op := 6, sh := 1, opd := [1, 0, 0x200, 0xFFFFFFFF00000000], c := 0, fault := none, repair := none }
theorem witness_KvOperations : (captured kvs [8, 9, 10, 11]).toOption.isSome = true ∧ (captured kvs [20, 21, 22, 23]).toOption.isSome = true ∧
    (cur kvs).seqsOk = true ∧ homeOf kvs 0 1 = some (.part 0) ∧ kvs.memoryOk = true ∧ kvOp.noMask = true ∧ kvOp.pos % 64 + kvOp.n ≤ 64 ∧
    space.rb ≤ kvOp.pitch space ∧ kvOp.pitch space % 16 = 0 ∧ space.ok = true ∧
    ((kvXlate kvs 0 space 1 0 0 0).2.toOption.map fun a => (a.seq.len, a.hdr.surv)) = some (4, 7) := by decide +kernel
/-- A sealed folio whose data fails its check values needs a replica (R142). -/
def spoiled : State := { kvTask 4 0 3 7 2 with pois := [(0x83000 / 256, true)] }
theorem witness_KvRepair : (kvLoad spoiled kvOp space).2 = .repair { fol := 2, num := 1, node := 0, dbase := 0x82000, surv := 2 ^ 64 - 1, len := 4 } := by decide +kernel

/-! The catalogue. -/

def cat : CatDesc := CatDesc.of catDesc
def sealable : State := kvTask 64 0 64 (2 ^ 64 - 1) 1
def loanable : State := kvTask 0 0 0 0 1
theorem test_seal : (left (exec (.seal { cq with d := 20, a := 32 }) sealable)).map (·.writes) = some [.s 20 false 0 false] ∧
    (mget (after (exec (.seal { cq with d := 20, a := 32 }) sealable)).catOps 1).map (fun x => (x.kind, x.seqH, x.args)) = some (0, 1, [3]) := by decide +kernel
theorem test_loan : answered (.loan { cq with d := 20, a := 28 }) loanable = some [.s 20 false 0 false] ∧
    peekNat (byEngine (.loan { cq with d := 20, a := 28 }) loanable) 0x2894 4 = 1 := by decide +kernel
theorem test_unloan : answered (.unloan { cq with d := 20, a := 28 }) kvs = some [.s 20 false 0x1B false] ∧
    (failed (.unloan { cq with d := 20, a := 20 }) kvs).map (fun | .fault c _ _ _ => c | _ => 0) = some 0x10 := by decide +kernel
theorem test_catlook_promote : (left (exec (.catlook { cq with d := 20, a := 36 }) loanable)).map (·.writes) = some [.s 20 false 0 false] ∧
    (left (exec (.promote { cq with d := 20, a := 35 }) loanable)).map (·.writes) = some [.s 20 false 8 false] := by decide +kernel

theorem witness_CatalogueIssue : readS sealable 32 = (1, false) ∧ readS sealable 33 = (3, false) ∧ readS loanable 28 = (1, false) ∧
    readS loanable 29 = (2, false) ∧ readS loanable 30 = (5, false) ∧ readS loanable 31 = (0, false) ∧ readS loanable 34 = (2, false) ∧
    ((catPre loanable 0 1).2.toOption.map fun x => (x.sr.len, x.sr.npath)) = some (0, 0) ∧
    (let s1 := (catPre loanable 0 1).1
     let s2 := (catNode s1 space 2).1
     let s3 := (lastNode s2 (SeqRec.of (seqLine 0 0))).1
     ((catNode s1 space 2).2.toOption.map fun n => (n.nstate, n.sm, n.parent)) = some (1, 5, 0) ∧
     ((lastNode s2 (SeqRec.of (seqLine 0 0))).2.toOption = some 0) ∧ (namesNode s3 cat 5 2 (SeqRec.of (seqLine 0 0))).2.toOption = some true ∧
     (namesNode s3 cat 6 2 (SeqRec.of (seqLine 0 0))).2.toOption = some false) := by decide +kernel
/-- A lookup whose tokens are named by handle 0 faults before it is accepted (R170). -/
theorem test_catlook_object : (lookObjects loanable 0 (object 0x800) 1).2 = some { code := 1, taddr := 0 } ∧
    (lookObjects loanable (object 0) (object 0x800) 1).2 = none := by decide +kernel

/-! Collectives: handle 1 holds a group record of one chip at 0x10800; the descriptor at scratchpad 0x40 broadcasts 4 elements. -/

def collecting (bar chip : Nat) : State :=
  let s := { loanable with mem := loanable.mem.takeWhile (·.1 < 0x10800) ++ cells [(0x10800, 4, 7), (0x10804, 4, 1), (0x10808, 4, chip)] ++ loanable.mem.dropWhile (·.1 < 0x10800) }
  let d := toBytes (object 0).toNat 8 ++ toBytes (2 * 2 ^ 44) 8 ++ toBytes 4 8 ++ toBytes (object 0x800).toNat 8 ++ toBytes (bar * 2 ^ 16) 32 ++ toBytes 1 64
  setCore (setCur s (withS (cur s) [(40, 0x40), (41, 0x80), (42, 0x10000), (43, 0x48)])) 0 (writeScratchBytes (curCore s) 0x40 d)
theorem test_coll : (left (exec (.coll { cq with d := 20, a := 40 }) (collecting 0xFFFF 0))).map (·.writes) = some [.s 20 false 0 false] ∧
    (mget (after (exec (.coll { cq with d := 20, a := 40 }) (collecting 0xFFFF 0))).colls 1).map (fun z => (z.gid, z.chips, z.rank)) = some (7, [0], 0) := by decide +kernel
theorem witness_CatalogueAndCollectiveIssue :
    (left (exec (.coll { cq with d := 20, a := 40 }) (collecting 0xFFFF 5))).map (·.writes) = some [.s 20 false 9 false] ∧
    (left (exec (.coll { cq with d := 20, a := 40 }) (collecting 8 0))).map (·.writes) = some [.s 20 false 2 false] ∧
    (left (exec (.coll { cq with d := 20, a := 42 }) (collecting 0xFFFF 0))).map (·.st) = some (.fault 0x21 0x10000 0 0) ∧
    (left (exec (.coll { cq with d := 20, a := 43 }) (collecting 0xFFFF 0))).map (·.st) = some (.fault 0x21 0x48 0 0) := by decide +kernel

/-! The partitions. -/

/-- Partitions 0 and 1 of core 0 are ready at their first bundle, 1 with the older last issue; they use the same slots. -/
def selecting : State :=
  let seg : Option Seg := some { off := 0, valid := true, nb := 1, next := none, bundles := [addBundle], rest := [] }
  let p := { task with cur := seg }
  setCore (setPart (setPart State.reset 0 0 { p with lastIssue := 3 }) 0 1 { p with lastIssue := 1 }) 0 core
def selected : State := after (exec (.partitionSelect 0 []) selecting)
theorem test_selection : (selected.iss.isOpen, selected.iss.part, selected.iss.second) = (true, 1, none) ∧ (getPart selected 0 0).age = 1 ∧
    (getPart selected 0 1).age = 0 ∧ (after (exec (.partitionSelect 5 []) selecting)).iss.isOpen = false := by decide +kernel
/-- The steward's own bundle, with no other partition ready. -/
def stewardReady : State :=
  setPart State.reset 0 16 { stewardPart with cur := some { off := 0, valid := true, nb := 1, next := none, bundles := [addBundle], rest := [] } }
theorem witness_StewardSelected : (getPart (prep stewardReady 0 16) 0 16).ps = .ready ∧ readyParts (prep stewardReady 0 16) 0 = [] ∧
    (stewardMay stewardReady 0 false).1 = true ∧ ((after (exec (.partitionSelect 0 []) stewardReady)).iss.isOpen, (after (exec (.partitionSelect 0 []) stewardReady)).iss.part) =
      (true, 16) := by decide +kernel
theorem test_tick : (after (exec (.partitionSelect 127 []) { State.reset with nextCore := 127 })).clock = 1 := by decide +kernel
theorem witness_PartitionSelection : (1 : Nat) ≠ selecting.nextCore ∧ selecting.coreMHz ≠ 0 ∧
    (let u := (List.range 17).foldl (fun s i => prep s 0 i) ((wakeLines selecting).shadow.foldl (fun s e => pollShadow s 0 e.1 e.2) (wakeLines selecting))
     (readyParts u 0).map (·.1) = [0, 1] ∧ (firstOf 256 (readyParts u 0)).map (·.1) = some 1 ∧ readyParts State.reset 0 = []) ∧
    ({ State.reset with coreMHz := 0 } : State).coreMHz = 0 ∧ (300 : Nat) ≥ 256 := by decide +kernel

/-! Events of a partition: waits, expansion, buckets, and the steward's control. -/

def withPend (st : PendSt) : State := setCur loading { cur loading with pends := [{ pending 0 300 with st := st, level := 0, dst := some (9, false), writes := [] }], nextSeq := 1 }
def waitmCells : List LByte := plainCells 0x10010 4
theorem test_resultWrite : (cur (after (exec (.resultWrite 0 0 0) (withPend .engine)))).pends.map (·.st) = [.ready] := by decide +kernel
theorem test_segmentExpand : ((getPart (after (exec (.segmentExpand 0 0) (setPart State.reset 0 0
      { task with cur := some { off := 0, valid := true, nb := 2, next := none, bundles := [], rest := [0x40000400, 0x02051460, 0] } }))) 0 0).cur.map fun g =>
    (g.bundles, g.rest)) = some ([addBundle], [0]) := by decide +kernel
theorem test_bucketTableRead : (bucketNamed (cur bucketing)).isNone = true ∧
    (after (exec (.bucketTableRead 0 0) bucketing)).epoch = bucketing.epoch + 1 := by decide +kernel
theorem test_timeouts : ((cur (after (exec (.cwaitTimeout 0 0 0) (withPend (.wait (.cwaitBar 4 (some 0))))))).pends.map (·.writes)) = [[.s 9 false 2 false]] ∧
    ((cur (after (exec (.waitmTimeout 0 0 0) (withPend (.wait (.waitm waitmCells true 0 (some 0))))))).pends.map (·.writes)) =
      [[.s 9 false 0xFFFFFFFF80000001 false]] ∧
    ((cur (after (exec (.waitmWake 0 0 0) (withPend (.wait (.waitm waitmCells false 0 none)))))).pends.map (·.writes)) =
      [[.s 9 false 0x80000001 false]] := by decide +kernel
def bundleOf (b : Bundle) : Part := { task with cur := some { off := 0, valid := true, nb := 1, next := none, bundles := [b], rest := [] } }
/-- BKSEL with a table at 0x80. -/
def bkselBundle : Bundle := { hdr := 0x40000800, words := [0x30800000, 0x80] }
theorem witness_PartitionEvents : isActive (getPart selecting 0 0) = true ∧ isActive Part.empty = false ∧ (withPend .engine).memoryOk = true ∧
    expandable Part.empty = false ∧ (bucketNamed (bundleOf bkselBundle)).isSome = true ∧
    (cur (withPend .engine)).level = 0 ∧ (cur { withPend .engine with clock := 5 }).pends.map (·.eng) = [none] := by decide +kernel
theorem test_control : (getPart (after (exec (.preemptRequest 0 0) selecting)) 0 0).preempt = some true ∧
    (getPart (after (exec (.partitionResume 0 1) stewarding)) 0 1).ps = .ready ∧
    (getPart (after (exec (.singleStepSet 0 0 true) selecting)) 0 0).single = true ∧
    (getPart (after (exec (.debugHold 0 (.hold 0)) selecting)) 0 0).debugged = true ∧
    (getPart (after (exec (.taskKill 0 0) selecting)) 0 0).ps = .free := by decide +kernel
theorem test_services : ((cur (after (exec (.svcCatclk 0 0 0) { withPend (.wait (.answer 1 0)) with uclock := 3000 }))).pends.map (·.writes)) = [[.s 9 false 2 false]] ∧
    (after (exec (.svcEvent 0 0 0) (withPend (.wait (.answer 3 7))))).events = [{ code := 0x80, loc := 0, detail := [7] }] ∧
    ((cur (after (exec (.svcUnknown 0 0 0) (withPend (.wait (.answer 4 0)))))).pends.map (·.writes)) = [[.s 9 false 0xFFFFFFFFFFFFFFFF false]] := by decide +kernel
theorem test_services_of_firmware : ((cur (after (exec (.svcFwver 0 0 0) (withPend (.wait (.answer 0 0)))))).pends.map (·.writes.length)) = [1] ∧
    (after (exec (.svcAnswer 0 0 0 5) (withPend (.wait (.answer 0 0))))).epoch = (withPend .ready).epoch + 1 ∧
    ((cur (after (exec (.svcDirhome 0 0 0) (inKv (withPend (.wait (.answer 2 5))) 4 0 3 7 1)))).pends.map (·.writes)) = [[.s 9 false 0 false]] := by decide +kernel
theorem witness_PartitionAndStewardEvents : (getPart stewarding 0 1).ps = .stopped ∧ (getPart selecting 0 0).ps ≠ .free ∧ (getPart selecting 0 7).ps = .free ∧
    (cur (withPend (.wait (.answer 2 5)))).pends.find? (fun e => e.seq == 0) = (cur (withPend (.wait (.answer 2 5)))).pends.head? ∧
    (catOf (inKv (withPend .ready) 4 0 3 7 1) 0).2.isSome = true ∧ (4 : Nat) ≤ (BitVec.ofNat 16 4).toNat := by decide +kernel

/-! The memory side. -/

def request (c0 cols : Nat) : TileReq := { q := 0, handle := 1, c0 := c0, c1 := 0, c2 := 0, c3 := 0, cols := cols, rows := 1 }
theorem test_layoutRead : ((after (exec (.layoutRead (request 4 2)) loading)).layoutOut.map fun o => (o.data.take 4, o.fault)) = some ([1, 0, 0, 0x80], none) ∧
    ((after (exec (.layoutRead (request 4095 2)) loading)).layoutOut.map (·.fault)) = some (some [4096, 0, 0, 0]) := by decide +kernel
theorem test_layoutWrite : peekNat (after (exec (.layoutWrite (request 5 1) .folios ⟨toBytes 0x12345678 4, []⟩) loading)) 0x10014 4 = 0x12345678 := by decide +kernel
theorem witness_LayoutUnits : ((reqRec (request 4 1) loading).2.map fun r => (r.rbmp, r.isPlane, r.w, r.base, r.inShape { c0 := 4, c1 := 0, c2 := 0, c3 := 0 })) =
      some (0, false, 32, 0x10000, true) ∧
    ((reqRec (request 4095 2) loading).2.map fun r => ((shapeFault r (reqCoords (request 4095 2) r)).isSome,
      (shapeFault r (reqCoords (request 4 1) r)).isSome, r.bitOff { c0 := 4, c1 := 0, c2 := 0, c3 := 0 } % 8, (reqCoords (request 4 1) r).length,
      (elemAddrs r (8 * r.base + r.bitOff { c0 := 4, c1 := 0, c2 := 0, c3 := 0 })).all fun a => decide (a < hbmTop))) = some (true, false, 0, 1, true) ∧
    cvMismatch (toBytes 0x12345678 4) [] = [] ∧ cvMismatch (toBytes 0x12345678 4) [0] = [0] := by decide +kernel
/-- 1.0 in BF16 at 0x10000, plus 2.0. -/
def reducing : State := { loading with mem := cells [(0x10000, 2, 0x3F80)] }
def combining : State := { reducing with wc := [(0x10000 / 2048, { cls := .folios, used := 0, data := [], bad := [], red := [(0, { f32 := false, red := true, val := 0x3F800000 })], raw := true, fmts := [] })] }
theorem test_memorySideReduction : peekNat (after (exec (.memorySideReduction 0x10000 false 0x40000000 ⟨.folios, true⟩) reducing)) 0x10000 2 = 0x4040 ∧
    peekNat (after (exec (.memorySideReduction 0x10000 false 0x40000000 ⟨.folios, true⟩) combining)) 0x10000 2 = 0x4080 := by decide +kernel
def annexed : State := { State.reset with annexMap := [(0, { v := true, port := 0, base := 0 })] }
theorem test_ioDieReduction : peekNat (after (exec (.ioDieReduction annexBase true 0x40000000) annexed)) annexBase 4 = 0x40000000 := by decide +kernel
theorem test_stewardMergeCommand : peekNat (after (exec (.stewardMergeCommand [0x10000 / 2048]) combining)) 0x10000 2 = 0x4000 ∧
    (after (exec (.stewardMergeCommand [0x10000 / 2048]) combining)).wc = [] := by decide +kernel
theorem witness_ReductionsAndMerges : reducing.memoryOk = true ∧ combining.memoryOk = true ∧ annexed.memoryOk = true ∧ mget reducing.wc (0x10000 / 2048) = none ∧
    (mget combining.wc (0x10000 / 2048)).isSome = true ∧ populated annexed annexBase = true ∧ annexBase % redWidth true = 0 := by decide +kernel

/-! Capture, scrub and the core cache. -/

def capturing : State := { loading with capDue := [32], wc := [(32, { cls := .folios, used := 0, data := [(5, 9)], bad := [], red := [], raw := true, fmts := [] })], winClock := 10 }
def captured_ (e : Capture) : State := { loading with capture := [(32, e)], clock := 50, winClock := 10 }
theorem test_chunkCapture : (mget (after (exec (.chunkCapture 32) capturing)).capture 32).isSome = true ∧ peek (after (exec (.chunkCapture 32) capturing)) 0x10005 = 9 ∧
    (after (exec (.chunkCapture 32) loading)).capture = [] := by decide +kernel
theorem test_refreshWindowEnd : (mget (after (exec .refreshWindowEnd (captured_ { dirty := true, used := 5, storing := false, raw := true, fmts := [], home := 0 }))).capture 32).map (·.storing) =
      some true ∧
    (after (exec (.captureStoreBackDone 32) (captured_ { dirty := true, used := 5, storing := true, raw := true, fmts := [], home := 0 }))).capture = [] := by decide +kernel
theorem witness_CaptureScrubAndRetirement : capturing.memoryOk = true ∧ capturing.capDue.contains 32 = true ∧ loading.capDue.contains 32 = false ∧
    (captured_ { dirty := true, used := 5, storing := true, raw := true, fmts := [], home := 0 }).memoryOk = true ∧ mget capturing.capture 32 = none := by decide +kernel
def hotHome (score : Nat) (corrected : Bool) : State := { loading with hot := [(7, { score := score, corrected := corrected })], retiring := [(9, 0)] }
theorem test_patrolScrub : (mget (after (exec (.patrolScrub (.home 7) .corrected) (hotHome 4 true))).hot 7).map (·.score) = some 20 ∧
    (mget (after (exec (.patrolScrub (.home 7) .corrected) loading)).hot 7).map (·.score) = some 1 ∧ ((after (exec (.patrolScrub (.home 7) .corrected) loading)).events.map (·.code)) = [1] ∧ (after (exec (.patrolScrub (.home 7) .clean) loading)).hot = [] := by decide +kernel
theorem test_scrubPeriodEnd : (mget (after (exec .scrubPeriodEnd (hotHome 5 true))).hot 7).map (·.score) = some 2 ∧
    (after (exec (.retirementCopyDone 9) (hotHome 5 true))).retiring = [] := by decide +kernel
theorem witness_Scrub : (mget (hotHome 20 true).hot 7).isSome = true ∧ 32 ≤ 20 + 16 ∧ mget (hotHome 20 true).retiring 7 = none ∧ mget (hotHome 20 true).retiring 9 = some 0 ∧
    mget loading.hot 7 = none ∧ loading.hot.length < 64 := by decide +kernel
def cached (filled : Nat) : State := setCore { loading with clock := 70000 } 0 { getCore loading 0 with cache := [(3, { data := 0, poison := false, filled := filled })] }
theorem test_coreCacheLineExpiry : (getCore (after (exec (.coreCacheLineExpiry 0 3) (cached 0))) 0).cache = [] ∧
    (getCore (after (exec (.coreCacheLineExpiry 0 3) (cached 60000))) 0).cache.length = 1 := by decide +kernel

/-! Copies in flight: entry 0 of core 0, of 4 words of handle 1. -/

def tileOpd (h bar : Nat) (w3 : W64) : List W64 := [tileW h bar, 0, 0, w3]
/-- The copy has been checked against its records as they stand. -/
def shaped (s : State) : State :=
  match mget s.copies 0 with
  | none => s
  | some x =>
    match (x.recs s 0).2 with
    | .ok (r, d) => { s with copies := [(0, { x with shape := some r.shape, dshape := d.map (·.shape) })] }
    | .error _ => { s with copies := [(0, { x with shape := some (ObjRec.of 0).shape })] }
def flying (op : Nat) (opd : List W64) (f : Copy → Copy) : State :=
  let s := setCur copying { cur copying with pends := [{ pending 0 300 with st := .engine, writes := [], dst := some (9, false), eng := some 0 }], nextSeq := 1 }
  let s := { s with mem := s.mem ++ cells [(0x10000, 16, 0x44444444333333332222222211111111), (0x20000, 4, 0)] }
  let s := setCore s 0 (writeScratchBytes (curCore s) 0x20 (toBytes (2 ^ 56 + 64) 8))
  shaped { s with copies := [(0, f { newCopy op opd false s with seq := some 0, pieces := some [] })] }
def unit16 (bad : Bool) : TMap CUnit := [(32, { bytes := 16, fc := [0, 0, 0, 0], bad := bad, dst := [(0, 128)] })]
def unitDone (failed : Bool) (s : State) : State := after (exec (.copyUnitDone 0 0 failed) s)
/-- A bound copy answers its status with its count; 16 bytes count into barrier 4; a bad unit makes CHECK (4) and poisons it. -/
theorem test_copyUnitDone : ((cur (unitDone false (flying 3 (tileOpd 1 4 0x200) fun x => { x with counted := 16 }))).pends.map (·.writes)) =
      [[.s 9 false 0x1000000000 false]] ∧
    barWord (curCore (unitDone false (flying 3 (tileOpd 1 4 0x200) fun x => { x with units := unit16 false }))) 4 = 2 ^ 56 + 48 ∧
    (barWord (curCore (unitDone true (flying 4 (tileOpd 1 4 0x200) fun x => { x with units := unit16 true }))) 4).testBit 57 = false ∧
    (barWord (curCore (unitDone false (flying 3 (tileOpd 1 4 0x200) fun x => { x with units := unit16 true }))) 4).testBit 57 = true := by decide +kernel
def detached (recd : Bool) : State := flying 3 (tileOpd (1 + (if recd then 2 ^ 37 else 0)) 0xFFFF 0x200) fun x => { x with seq := none }
theorem test_copy_record : ((unitDone false (detached true)).held.map fun r => (r.queue, r.ring, r.entry, r.body.length)) = [(0, 0, some 0, 32)] ∧
    (unitDone false (detached false)).copies = [] := by decide +kernel
def faulting : State := flying 3 (tileOpd 9 0xFFFF 0x200) fun x => { x with pieces := some [0] }
theorem test_copyFaultReport : (mget (after (exec (.copyFaultReport 0 0) faulting)).copies 0).map (fun z => (z.holding, z.pcode, z.pfc)) =
      some (true, 1, [0, 0, 0, 0]) ∧ ((cur (after (exec (.copyFaultReport 0 0) faulting))).reports.map (·.code)) = [1] := by decide +kernel
def begun (op : Nat) (opd : List W64) : State := flying op opd fun x => { x with pieces := some [0], units := [] }
theorem test_copy_pieces : ofBytes (tab 4 fun i => scratchByte (curCore (unitDone false (begun 3 (tileOpd 1 0xFFFF 0x200)))) (0x204 + i)) = 0x22222222 ∧
    peekNat (unitDone false (begun 2 (tileOpd 1 0xFFFF 2))) 0x2000C 4 = 0x44444444 ∧
    peekNat (unitDone false (begun 4 (tileOpd 1 0xFFFF 0x20))) 0x10000 4 = 64 := by decide +kernel
/-- A piece of one element: its place in the object, and in the destination. -/
def oneOpd (w3 : W64) : List W64 := [1 + 0xFFFF000000000000, 3, 0, w3]
def pieceAt (s : State) : Option (List PieceElem) :=
  match mget s.copies 0 with
  | none => none
  | some x =>
    match x.recs s 0 with
    | (u, .ok (r, d)) => (xlatePiece u x r d (x.pieceElems r 0)).2.toOption
    | _ => none
/-- E4M3 elements can be loaded to the tile store. -/
def loadingTile : State :=
  let s := flying 5 [1 + 3 * 2 ^ 20 + 0xFFFF000000000000, 0, 0, 0] fun x => { x with pieces := some [0] }
  shaped { s with mem := s.mem.takeWhile (·.1 < 0x1040) ++ cells [(0x1040, 64, lineOf 0x10000 4096 3 0xFFF)] ++ s.mem.dropWhile fun e => decide (e.1 < 0x1080) }
theorem test_copy_tile : (tileLine (cur (unitDone false loadingTile)) 0).toNat % 16 = 15 ∧ (tileLine (cur (unitDone false loadingTile)) 16).toNat % 16 = 0 := by decide +kernel
theorem witness_CopyEngine : (∀ s ∈ [detached true, detached false, faulting, begun 3 (tileOpd 1 0xFFFF 0x200), begun 4 (oneOpd 0x20), begun 2 (oneOpd 2), loadingTile,
      flying 3 (tileOpd 1 4 0x200) fun x => { x with units := unit16 true }],
      ((mget s.copies 0).map fun x => (x.op ≤ 5 && copyReady s 0 x && !x.holding && x.shape.isSome)) = some true ∧ s.memoryOk = true ∧ s.relocs = []) ∧
    homeOf faulting 0 1 = some (.part 0) ∧ (findPend faulting 0 0 0).isSome = true ∧ (∀ k ∈ mkeys faulting.copies, k / 4096 = 0 → k % 4096 < 64) ∧
    (match mget faulting.copies 0 with | some x => (match (x.recs faulting 0).2 with | .error c => c | _ => 0) | none => 0) = 1 ∧
    pieceAt (begun 4 (oneOpd 0x20)) = some [{ row := 0, col := 0, src := .at 0x80060, dst := .pad }] ∧
    pieceAt (begun 2 (oneOpd 2)) = some [{ row := 0, col := 0, src := .at 0x80060, dst := .at 0x100060 }] ∧
    ((pieceAt (begun 3 (tileOpd 1 0xFFFF 0x200))).map (·.length)) = some 4 ∧ ((pieceAt loadingTile).map (·.length)) = some 4 := by decide +kernel
/-- A piece whose object lies in the annex, where nothing is mapped. -/
def unmapped : State :=
  let s := begun 3 (tileOpd 1 0xFFFF 0x200)
  { s with mem := s.mem.takeWhile (·.1 < 0x1040) ++ cells [(0x1040, 64, lineOf 0x100000000000 4096 14 0xFFF)] ++ s.mem.dropWhile fun e => decide (e.1 < 0x1080) }
theorem witness_CopyPieceFault : (match mget unmapped.copies 0 with
    | some x => (match x.recs unmapped 0 with
      | (u, .ok (r, d)) => (match (xlatePiece u x r d (x.pieceElems r 0)).2 with | .error (c, _, _) => c | .ok _ => 99)
      | _ => 98)
    | none => 97) = 8 := by decide +kernel
theorem witness_CopyBegins : (let s := flying 3 (tileOpd 1 0xFFFF 0x200) fun x => { x with pieces := none }
    match mget s.copies 0 with
    | some x => (match x.recs s 0 with
      | (_, .ok (r, _)) => x.localOk (cur s) (getCore s 0) r && copyReady s 0 x
      | _ => false)
    | none => false) = true := by decide +kernel

/-! Records: ring 0 of queue 0 has its header at 0x3000, with 16 slots and an interrupt after 2 records or 1 microsecond. -/

def aRecord : HeldRec := { queue := 0, ring := 0, body := toBytes 0x10004 4 ++ toBytes 0x77 28, entry := none, ui := none }
def ringed (prod cons mark : Nat) : State :=
  { State.reset with
    mem := cells [(0x30, 6, 0x3000), (0x3000, 64, prod + cons * 2 ^ 32 + 16 * 2 ^ 64 + mark * 2 ^ 96 + 2 ^ 97 + 2 * 2 ^ 128 + 2 ^ 144 + 5 * 2 ^ 160)]
    eventRing := 0x3000, events := [{ code := 9, loc := 3, detail := [] }], held := [aRecord] }
/-- Slot 1 of the second pass, with phase 0; then PROD is 18. A full ring is marked. -/
theorem test_completionRecordWrite : peekNat (after (exec (.completionRecordWrite 0 0) (ringed 1 0 0))) 0x3060 4 = 0x80010004 ∧
    peekNat (after (exec (.completionRecordWrite 0 0) (ringed 17 16 0))) 0x3060 4 = 0x10004 ∧
    peekNat (after (exec (.completionRecordWrite 0 0) (ringed 17 16 0))) 0x3000 4 = 18 ∧
    peekNat (after (exec (.completionRecordWrite 0 0) (ringed 17 1 0))) 0x300C 1 = 3 := by decide +kernel
theorem test_ringConsAdvance : (after (exec (.ringConsAdvance 0 0) (ringed 17 16 0))).held = [] ∧ (after (exec (.ringConsAdvance 0 0) (ringed 17 1 0))).held = [aRecord] ∧
    peekNat (after (exec (.completionRecordWrite 1024 0) (ringed 1 0 0))) 0x3060 4 = 0x80000009 := by decide +kernel
def timing : State := { ringed 1 0 0 with irqs := [{ queue := 0, ring := 0, waiting := 1, since := some 7 }], uclock := 1507 }
theorem test_hostInterruptTimer : (after (exec (.hostInterruptTimer 0 0) timing)).raised = [5] ∧
    (after (exec (.hostInterruptTimer 0 0) { timing with uclock := 1506 })).raised = [] := by decide +kernel
theorem witness_RecordsAndInterrupts : (∀ s ∈ [ringed 1 0 0, ringed 17 1 0], s.memoryOk = true ∧ ringAddr s 0 0 = 0x3000 ∧ heldFor s 0 0 = some aRecord ∧
      0x3000 + 64 + 32 * 16 ≤ hbmTop ∧ ringOk (peekNat s 0x3000 64) = true ∧ s.eventsOut = 0 ∧ s.eventRing = 0x3000) ∧
    ringFull (peekNat (ringed 1 0 0) 0x3000 64) = false ∧ ringFull (peekNat (ringed 17 1 0) 0x3000 64) = true ∧ aRecord.body.length = 32 ∧
    ofBytes (aRecord.body.take 4) < 2 ^ 31 ∧ (peekNat (ringed 17 1 0) 0x3000 64).testBit 96 = false ∧ heldFor (ringed 1 0 0) 0 1 = none ∧
    (timing.irqs.find? fun x => x.queue == 0 && x.ring == 0 && irqDue timing x) = some { queue := 0, ring := 0, waiting := 1, since := some 7 } := by decide +kernel

/-! A KV operation with a fault; a relocation, of the object of handle 1 to 0x30000, with its bitmap at 0x3800. -/

def kvFaulting : State :=
  let s := setCur kvs { cur kvs with pends := [{ pending 0 300 with st := .engine, writes := [], dst := some (9, false), eng := some (2 ^ 24 + 1) }], nextSeq := 1 }
  { s with kvs := [(1, { kvOp with fault := some (0x10, 0x300000000000) })] }
theorem test_kvFaultReport : ((cur (after (exec (.kvFaultReport 0 0 0) kvFaulting))).reports.map (·.code)) = [0x10] ∧
    (mget (after (exec (.kvFaultReport 0 0 0) kvFaulting)).kvs 1).map (·.fault) = some none := by decide +kernel
theorem witness_KvFaultReport : (findPend kvFaulting 0 0 0).isSome = true ∧ ((findPend kvFaulting 0 0 0).bind kvIdOf) = some 1 ∧
    homeOf kvFaulting 0 1 = some (.part 0) := by decide +kernel
def movingLine (len : Nat) : Nat := lineOf 0x10000 len 14 0xFFF + 0x80000 * 2 ^ 64 + 2 ^ 395 + 0x3800 * 2 ^ 448
def moving (len next total : Nat) : State :=
  { copying with
    mem := cells [(8, 8, 0x1000), (16, 4, 16), (0x1040, 64, movingLine len), (0x3800, 1, 1), (0x10000, 4, 0x12345678)]
    relocs := [(2, { queue := 0, handle := 1, line := BitVec.ofNat 512 (movingLine len), rbmp := 0x3800, nbase := 0x80000, ring := 0, next := next, copying := true, total := total, moved := 0 })] }
theorem test_relocSubtileCopy : peekNat (after (exec (.relocSubtileCopy 2) (moving 1 0 1))) 0x80000 4 = 0x12345678 ∧
    peekNat (after (exec (.relocSubtileCopy 2) (moving 1 0 1))) 0x3800 1 = 3 := by decide +kernel
/-- A sub-tile is marked COPYING before it is copied. -/
theorem test_reloc_marks : let s := { moving 1 0 1 with relocs := [(2, { queue := 0, handle := 1, line := BitVec.ofNat 512 (movingLine 1), rbmp := 0x3800, nbase := 0x80000, ring := 0, next := 0, copying := false, total := 1, moved := 0 })] }
    (mget (after (exec (.relocSubtileCopy 2) s)).relocs 2).map (·.copying) = some true ∧ peekNat (after (exec (.relocSubtileCopy 2) s)) 0x80000 4 = 0 := by decide +kernel
theorem test_relocFinish : peekNat (after (exec (.relocFinish 2) (moving 1 1 1))) 0x1040 6 = 0x80000 ∧
    peekNat (after (exec (.relocFinish 2) (moving 1 1 1))) 0x1046 2 = 1 ∧ ((after (exec (.relocFinish 2) (moving 1 1 1))).held.length) = 1 := by decide +kernel
def movingRec : ObjRec := ((relocRec (moving 1 0 1) { queue := 0, handle := 1, line := BitVec.ofNat 512 (movingLine 1), rbmp := 0x3800, nbase := 0x80000, ring := 0, next := 0, copying := false, total := 1, moved := 0 }).2).getD (ObjRec.of 0)
theorem witness_Relocation : (moving 1 0 1).memoryOk = true ∧ (moving 1 1 1).memoryOk = true ∧ oldPending (moving 1 0 1) movingRec.base movingRec.footSpan = false ∧
    movingRec.isE2M1 = false ∧ unitPending (moving 1 0 1) movingRec 0 = false ∧ (resMov (moving 1 0 1) movingRec 0).2 = some (true, false) ∧
    (bitmapFails (moving 1 1 1) movingRec).2 = false ∧ (∀ b ∈ elemAddrs movingRec (8 * 0x80000), b < hbmTop) ∧ 0x3800 ∉ elemAddrs movingRec (8 * 0x80000) ∧
    (bitmapFails { moving 1 1 1 with pois := [(0x38, true)] } movingRec).2 = true ∧ movingRec.rbmp = 0x3800 ∧ movingRec.subCoords 0 = [{ c0 := 0, c1 := 0, c2 := 0, c3 := 0 }] ∧
    movingRec.isPlane = false ∧ movingRec.w = 32 ∧ (tabOf (moving 1 0 1) 0).tbase + 64 = 0x1040 ∧ movingRec.nsub = 1 ∧ movingRec.nbase = 0x80000 ∧
    (peek (moving 1 0 1) 0x3800).getLsbD 0 = true := by decide +kernel

/-! The host: aperture 0 names the object of handle 1. -/

def hosting : State :=
  { loading with bar0 := [(0x40000, 0), (0x40001, 0x1000), (0x40002, 0x400)], hostMem := [(64, 7)]
                 hostLines := [(1, { st := .M, data := tab 64 fun i => BitVec.ofNat 8 (i + 1) }), (2, { st := .E, data := List.replicate 64 0 })] }
theorem test_hostApertureRead : (after (exec (.hostApertureRead 16 4) hosting)).hostOut = some (.data [1, 0, 0, 0x80]) ∧
    (after (exec (.hostApertureRead 0x4000000 4) hosting)).hostOut = some .unsupported := by decide +kernel
theorem test_hostApertureWrite : peekNat (after (exec (.hostApertureWrite 20 [1, 2, 3, 4]) hosting)) 0x10014 4 = 0x04030201 ∧
    (after (exec (.hostApertureWrite 0x4000000 [1, 2]) hosting)).events.length = 1 := by decide +kernel
theorem bar0_of (o : Nat) (x : W32) (s : State) (h : o % 4 = 0 ∧ o < 2 ^ 26) :
    (after (exec (.bar0RegisterWrite o x) s)).bar0 = mput s.bar0 (o / 4) (x &&& bar0Mask o) := by
  show (bar0Step o x s).bar0 = _
  rw [bar0Step, if_pos (by rw [Bool.and_eq_true]; exact ⟨decide_eq_true h.1, decide_eq_true h.2⟩)]
  dsimp only
  split <;> rfl
theorem test_bar0RegisterWrite : mget (after (exec (.bar0RegisterWrite 0x100018 0xFFFFFFFF) hosting)).bar0 0x40006 = some 0x7FF ∧
    (after (exec (.bar0RegisterWrite 2 1) hosting)).bar0 = hosting.bar0 := by
  rw [bar0_of _ _ _ (by decide)]
  exact ⟨by decide +kernel, by decide +kernel⟩
/-- A host read of BAR0, past BAR2 (R387). -/
theorem test_bar0_read : (after (exec (.hostApertureRead (2 ^ 38 + 0x100004) 4) hosting)).hostOut = some (.data [0, 0x10, 0, 0]) ∧
    (after (exec (.hostApertureRead (2 ^ 38 + 0x100002) 4) hosting)).hostOut = some .unsupported := by decide +kernel
theorem test_host_lines : byteAt (after (exec (.hostSnpdata 1) hosting)).hostMem 64 = 1 ∧ mget (after (exec (.hostSnpinv ⟨1, []⟩) hosting)).hostLines 1 = none ∧
    (after (exec (.hostSnpinv ⟨1, []⟩) hosting)).woken = [hostBase / 64 + 1] ∧ mget (after (exec (.hostLineEviction 2) hosting)).hostLines 2 = none := by decide +kernel
/-- A write of the host's own is found by the next read of the line (R252). -/
theorem test_host_write : hostByte (after (exec (.hostSnpinv ⟨1, (List.replicate 64 9)⟩) hosting)) 64 = 9 ∧
    mget (after (exec (.hostSnpinv ⟨1, (List.replicate 64 9)⟩) hosting)).hostLines 1 = none := by decide +kernel
theorem witness_HostAccesses : hosting.memoryOk = true ∧ apertureTarget hosting 16 4 = some (0, object 16) ∧ apertureTarget hosting 0x4000000 4 = none ∧
    apertureTarget hosting 0x4000000 2 = none ∧ hosting.relocs = [] ∧
    ((xlateAl hosting ioDie 0 (object 16) 4 1 { cls := clsHost, rd := true, wr := false }).2.toOption.map (·.2)) = some (plainCells 0x10010 4) ∧
    ((xlateAl hosting ioDie 0 (object 20) 4 1 { cls := clsHost, rd := false, wr := true }).2.toOption.map (·.2)) = some (plainCells 0x10014 4) ∧
    (mget hosting.hostLines 1).map (·.st) = some .M ∧ (mget hosting.hostLines 2).map (·.data) = some (bytesAt hosting.hostMem 128 64) ∧
    mget hosting.hostLines 3 = none := by decide +kernel

/-! The mailbox and the module: a flash record of 256 bytes that does not verify makes a reset go to recovery. -/

def secure : State := { State.reset with spdm := true }
theorem test_keys : (after (exec .spdmSecureSession State.reset)).spdm = true ∧ (after (exec (.setkey 5 5 9) secure)).nskeys = [(5, toBytes 9 32)] ∧
    (after (exec (.setkey 5 5 9) State.reset)).nskeys = [] ∧ (after (exec (.clearkey 5) { secure with nskeys := [(5, [])] })).nskeys = [] := by decide +kernel
theorem test_eventRingName : (after (exec (.eventRingName 0x3000 0) State.reset)).eventRing = 0x3000 ∧
    (after (exec (.eventRingName 0x3004 0) State.reset)).eventRing = State.reset.eventRing := by decide +kernel
theorem test_mailbox_complete : (∃ t, exec (.mailboxModuleRecord [1] 0) secure = .next t) ∧ (∃ t, exec (.getMeasurements [1]) secure = .next t) ∧
    (∃ t, exec (.mailboxFirmwareStage [1]) secure = .next t) := ⟨⟨_, rfl⟩, ⟨_, rfl⟩, ⟨_, rfl⟩⟩
theorem test_reset : (after (exec .reset { secure with uclock := 5 })).spdm = false ∧ (after (exec .reset { secure with uclock := 5 })).uclock = State.reset.uclock := by decide +kernel
theorem test_power : (after (exec .powerOverCap { secure with coreMHz := 700 })).coreMHz = 650 ∧ (after (exec .thermalThrottle { secure with coreMHz := 380 })).coreMHz = 350 ∧
    (after (exec .powerBelowCap { secure with coreMHz := 680 })).coreMHz = 700 ∧ (after (exec .thermalRecovery { secure with coreMHz := 400 })).coreMHz = 450 := by decide +kernel
theorem test_thermalTrip : (after (exec .thermalTrip loading)).coreMHz = 0 ∧ (after (exec .thermalTrip loading)).iss.isOpen = false := by decide +kernel
theorem witness_MailboxAndModule : secure.spdm = true ∧ secure.recovery = false ∧ (5 : Nat) = (5 : W32).toNat ∧ State.reset.spdm = false ∧
    (0x3000 : W64).toNat % 64 = 0 ∧ (0x3000 : W64).toNat < hbmTop ∧ (0x3004 : W64).toNat % 64 ≠ 0 ∧ secure.flash = [] ∧
    ({ secure with flash := [1] } : State).flash ≠ [] ∧ secure.coreMHz ≠ 0 ∧ ({ secure with recovery := true } : State).recovery = true := by decide +kernel

/-! The annex and the repository. -/

def extents (since : Option Nat) (clk : Nat) : State :=
  { State.reset with annexMap := [(0, { v := true, port := 0, base := 0 })], extents := [(4, { first := 0, count := 1, since := since, grace := [] })], nextId := 5, uclock := clk }
theorem test_annexExtentOffer : (after (exec (.annexExtentOffer 2 0x20000000 0x10000000 (.extent 0 true)) (extents none 0))).annexMap.length = 1 ∧
    (after (exec (.annexExtentOffer 2 0x20000000 0x10000000 (.extent 0 true)) (extents none 0))).extents.length = 1 ∧
    (after (exec (.annexExtentOffer 2 0x20000000 0x10000000 (.extent 8 false)) (extents none 0))).annexMap.length = 1 := by decide +kernel
theorem test_annex_release : (mget (after (exec (.annexReleaseRequest 4) (extents none 9))).extents 4).map (·.since) = some (some 9) ∧
    (after (exec (.annexgraceExpiry 4) (extents (some 0) 9))).annexMap.length = 1 ∧
    (after (exec (.annexgraceExpiry 4) (extents (some 0) 1000000000000000))).annexMap = [] ∧ (after (exec (.annexForcedRelease 4) (extents none 9))).annexMap = [] := by decide +kernel
/-- An atomic on the extent has still to perform. -/
def stillGoing : State := setPart (extents (some 0) 1000000000000000) 0 0 { task with pends := [{ pending 0 300 with st := .wait (.rel 0 (.atomic { op 0 1 0 false with addr := annexBase })) }] }
theorem test_nvmeQueueHandoff : (after (exec (.nvmeQueueHandoff 3 4 64) State.reset)).nvmeQs = [(3, 4, 64)] ∧
    (after (exec (.nvmeQueueHandoff 3 4 2000) State.reset)).nvmeQs = [] := by decide +kernel
def aFetch : Fetch := { queue := 0, sm := 5, layer := none, holders := none, asked := none, data := [], full := false, failed := false, repo := true }
def aRecall : Recall := { queue := 0, node := 2, layer := 0, fol := 2, dest := 3, place := 0, len := 64, stage := 1, image := [], up := none }
def driving (kind : Nat) : State :=
  { inKv State.reset 4 0 3 7 1 with
    nvme := [(8, { kind := kind, drive := 0, block := 0, bytes := 4, data := [], owner := 6, since := 0 })], fetches := [(6, aFetch)], recalls := [(6, aRecall)]
    uclock := 1000000000000000 }
theorem test_nvmeCompletion : (mget (after (exec (.nvmeCompletion 8 true [1, 2, 3, 4, 5]) (driving 0))).fetches 6).map (fun f => (f.data, f.full)) = some ([1, 2, 3, 4], true) ∧
    (mget (after (exec (.nvmeCompletion 8 true []) (driving 1))).recalls 6).map (·.stage) = some 2 := by decide +kernel
theorem test_repotoExpiry : (mget (after (exec (.repotoExpiry 8) (driving 0))).fetches 6).map (·.failed) = some true ∧
    (after (exec (.repotoExpiry 8) { driving 0 with uclock := 5 })).nvme.length = 1 := by decide +kernel
theorem witness_AnnexAndRepository : (∃ p ∈ windowPlaces (extents none 0), windowFits (extents none 0) 1 p = true) ∧ (mget (extents none 0).extents 4).isSome = true ∧
    9 < 0 + (extents (some 0) 9).limits.annexGrace * 1500000000 ∧ 0 + (extents (some 0) 9).limits.annexGrace * 1500000000 ≤ 1000000000000000 ∧
    ((mget (extents (some 0) 9).extents 4).map (stillToExtent (extents (some 0) 9))) = some false ∧ ((mget stillGoing.extents 4).map (stillToExtent stillGoing)) = some true ∧
    (mget (driving 0).nvme 8).isSome = true ∧ 0 + (driving 0).limits.repoto * 1500000000 ≤ 1000000000000000 ∧ (driving 1).nvme.map (·.2.kind) = [1] ∧
    (spacesOf (driving 1) 0).2.isSome = true ∧ 3 < 512 := by decide +kernel

/-! Queue 0 has its header at the object address of 0x10400: SIZE 2, CONS 2. Slot 2 holds the packet `x`. At 0x2200 stands a graph node (a
NOP), at 0x4000 a launch record of two tasks on core 0, at 0x5000 an image of one segment of one empty bundle. -/

def nopPkt : Nat := 0x300
def writePktOf : Nat := 0x304 + (object 0x800).toNat * 2 ^ 64 + 0x1122334455667788 * 2 ^ 192
def graphPkt : Nat := 0x302 + 0x2200 * 2 ^ 64 + 1 * 2 ^ 192
def condPktOf (cond : Nat) : Nat := 0x303 + (object 0x800).toNat * 2 ^ 64 + 5 * 2 ^ 128 + cond * 2 ^ 192 + 7 * 2 ^ 208 + 2 * 2 ^ 224
def launchPktOf : Nat := 0x301 + 0x4000 * 2 ^ 64 + 9 * 2 ^ 192
def flushPktOf : Nat := 0x305 + 2 ^ 64
def launchRec : Nat := 1 + 0x5000 * 2 ^ 64 + (2 + 5 * 2 ^ 16) * 2 ^ 384
def header : Nat := 1 + 0xFF * 2 ^ 16 + 1 * 2 ^ 32 + 1 * 2 ^ 64 + 32 * 2 ^ 128
def segment : Nat := 5 + 0x80000000 * 2 ^ 32 + 0x8F02CB1E * 2 ^ 96 + 0x4000 * 2 ^ 128
def servingWith (l : TMap Byte) (qerr x : Nat) : State :=
  { State.reset with
    mem := cells [(0, 8, (object 0x400).toNat), (8, 8, 0x1000), (16, 4, 16), (0x29, 2, 0x0101), (0x70, 1, qerr), (0x1040, 64, lineOf 0x10000 4096 14 0xFFF)] ++ l ++
      cells [(0x10400, 8, 3), (0x10408, 8, 2), (0x10410, 4, 2), (0x10418, 8, 2), (0x10440, 64, x), (0x10800, 8, 5)] }
def serving (qerr x : Nat) : State := servingWith [] qerr x
def ringAt (k : Nat) : QueueSt := { base := k, retired := [], lastRead := k, stopped := [], visited := 0, fw := 0 }
/-- A packet of the ring. -/
def packetOf (x : Nat) : Pkt :=
  { queue := 0, k := 2, words := pktWords x, card := [], st := .fetched, graph := none, node := 0, parent := none, gang := none, run := none }
def holdingWith (l : TMap Byte) (x : Nat) (p : Pkt) : State := { servingWith l 0 x with queues := [(0, ringAt 2)], pkts := [(6, p)], nextId := 20 }
def holding (x : Nat) (p : Pkt) : State := holdingWith [] x p
def launching (x : Nat) (p : Pkt) : State := holdingWith (cells [(0x4000, 128, launchRec), (0x5000, 64, header), (0x5040, 32, segment)]) x p
def graphing (p : Pkt) : State := holdingWith (cells [(0x2200, 64, nopPkt)]) graphPkt p
theorem test_queueVisit : (mget (after (exec (.queueVisit 0) (serving 0 nopPkt))).queues 0).map (fun x => (x.base, x.lastRead)) = some (2, 2) ∧
    (after (exec (.queueVisit 0) (serving 1 nopPkt))).queues = [] := by decide +kernel
def fetching (x : Nat) : State := { serving 0 x with queues := [(0, ringAt 2)], nextId := 20 }
/-- A packet whose phase shows slot 2 filled is fetched; type 9 stops the queue. -/
theorem test_packetFetch : (mget (after (exec (.packetFetch 0 2) (fetching nopPkt))).pkts 20).map (fun p => (p.type, p.k, p.st)) = some (0, 2, .fetched) ∧
    (queueSt (after (exec (.packetFetch 0 2) (fetching 0x309))) 0).stopped != [] := by decide +kernel
def stoppedAt (qerr : Nat) : State :=
  { serving qerr nopPkt with queues := [(0, { ringAt 2 with stopped := [6] })], pkts := [(6, packetOf nopPkt)] }
theorem test_queueResume : (after (exec (.queueResume 0) (stoppedAt 0))).pkts = [] ∧ (queueSt (after (exec (.queueResume 0) (stoppedAt 0))) 0).stopped = [] ∧
    (queueSt (after (exec (.queueResume 0) (stoppedAt 1))) 0).stopped = [6] := by decide +kernel
def runningGraph (ptr : Nat) : Pkt :=
  { packetOf graphPkt with st := .running, run := some { base := 0x2200, nnode := 1, ptr := ptr, taken := [], execs := 0 } }
theorem test_pktGraph : (mget (after (exec (.pktGraph 6) (graphing (packetOf graphPkt)))).pkts 6).map (·.st) = some .issued ∧
    (mget (after (exec (.pktGraph 6) (graphing (runningGraph 0)))).pkts 20).map (fun p => (p.type, p.graph, p.node)) = some (0, some 6, 0) := by decide +kernel
/-- A launch packet whose gang has ended, with a child or without. -/
def launchEnded (kid : Bool) (live : Nat) : State :=
  let s := launching launchPktOf { packetOf launchPktOf with st := .running, gang := some 9 }
  { s with gangs := [(9, { gang with live := live })], pkts := s.pkts ++ if kid then [(8, { packetOf nopPkt with parent := some 9 })] else [] }
theorem test_packetRetire : (after (exec (.packetRetire 6) (launchEnded false 0))).pkts = [] ∧ (after (exec (.packetRetire 6) (launchEnded false 0))).gangs = [] ∧
    (mget (after (exec (.packetRetire 6) (launchEnded true 0))).pkts 6).map (·.st) = some .ended ∧
    (after (exec (.packetRetire 6) (launchEnded false 1))).pkts = (launchEnded false 1).pkts := by decide +kernel
def flushing : State := holding flushPktOf { packetOf flushPktOf with st := .issued }
theorem test_packetRetire_others : (after (exec (.packetRetire 6) flushing)).pkts = [] ∧
    (after (exec (.packetRetire 6) (graphing (runningGraph 1)))).pkts = [] := by decide +kernel
/-- An issued packet whose queue has stopped. -/
def stoppedIssued : State := { stoppedAt 0 with pkts := [(6, { packetOf flushPktOf with st := .issued })] }
theorem witness_QueueService : (∀ s ∈ [serving 0 nopPkt, fetching nopPkt, fetching (nopPkt + 2 ^ 31), fetching 0x309, stoppedAt 0], s.memoryOk = true) ∧
    served (serving 1 nopPkt) 0 = false ∧ served (serving 0 nopPkt) 0 = true ∧ served (fetching nopPkt) 0 = true ∧
    (∀ x ∈ [nopPkt, nopPkt + 2 ^ 31, 0x309], ((queueHead (fetching x) 0).2.map fun h => (qCons h.2.2, qSize h.2.2)) = some (2, 2) ∧
      (slotWords (queueHead (fetching x) 0).1 0 2 2).2 = some x ∧ ringPkt (fetching x) 0 2 = none) ∧
    phaseOf 2 2 = false ∧ pktPhase nopPkt = false ∧ pktPhase (nopPkt + 2 ^ 31) = true ∧ pktOk nopPkt = true ∧ pktOk 0x309 = false ∧ cardAddr nopPkt = 0 ∧
    (readCard (fetching nopPkt) 0 0).2.toOption = some [] ∧ (readCard (fetching nopPkt) 0 0x10440).2.toOption = none ∧
    (queueSt (stoppedAt 0) 0).stopped = [6] ∧ peekNat (stoppedAt 0) 0x70 1 = 0 ∧ peekNat (stoppedAt 1) 0x70 1 ≠ 0 ∧ (packetOf nopPkt).isRing = true ∧ (packetOf nopPkt).st = .fetched ∧
    ((mget (stoppedIssued.pkts) 6).map (·.st)) = some .issued ∧ (queueSt stoppedIssued 0).stopped = [6] ∧ peekNat stoppedIssued 0x70 1 = 0 ∧
    stoppedIssued.memoryOk = true := by decide +kernel
/-- A graph past its last node with a node still open. -/
def nodeLeft : State :=
  let s := graphing (runningGraph 1)
  { s with pkts := s.pkts ++ [(12, { packetOf nopPkt with graph := some 6 })] }
theorem witness_Graphs : (∀ s ∈ [graphing (runningGraph 0), graphing (runningGraph 1), launchEnded true 0, launchEnded false 0, flushing], s.memoryOk = true) ∧
    (runningGraph 0).type = 2 ∧ enabled (graphing (runningGraph 0)) 0 = true ∧ standsStopped (graphing (runningGraph 0)) 0 6 = false ∧ (readNode (graphing (runningGraph 0)) 0 0x2200).2.toOption = some (pktWords nopPkt, []) ∧
    ((graphing (runningGraph 1)).pkts.filter fun e => e.2.graph == some 6) = [] ∧ (nodeLeft.pkts.filter fun e => e.2.graph == some 6) ≠ [] ∧ nodeLeft.memoryOk = true ∧
    (packetOf launchPktOf).type = 1 ∧ gang.released = true ∧ childrenOf (launchEnded true 0) 9 ≠ [] ∧ childrenOf (launchEnded false 0) 9 = [] ∧
    resultsLeft (launchEnded false 0) { gang with live := 0 } = false ∧ resultsLeft { launchEnded false 0 with copies := [(1, unready 1 0)] } { gang with numbers := [(unready 1 0).task] } = true ∧
    (packetOf flushPktOf).type = 5 ∧ inFlightOps flushing (List.range 128) 0 none = [] := by decide +kernel

/-! The packets. -/

theorem test_pktNop : peekNat (after (exec (.pktNop 6) (holding nopPkt (packetOf nopPkt)))) 0x10418 8 = 3 := by decide +kernel
theorem test_pktWrite : peekNat (after (exec (.pktWrite 6) (holding writePktOf (packetOf writePktOf)))) 0x10800 8 = 0x1122334455667788 := by decide +kernel
theorem test_pktFlush : (mget (after (exec (.pktFlush 6) (holding flushPktOf (packetOf flushPktOf)))).pkts 6).map (·.st) = some .issued := by decide +kernel
/-- A COND node of a running graph: the word is 5; EQ (0) moves the pointer to 7, NE (1) to the next node. -/
def conding (cond : Nat) : State :=
  let s := graphing { runningGraph 0 with run := some { base := 0x2200, nnode := 9, ptr := 3, taken := [], execs := 4 } }
  { s with pkts := s.pkts ++ [(12, { packetOf (condPktOf cond) with graph := some 6, node := 3, k := 3 })] }
theorem test_pktCond : ((mget (after (exec (.pktCond 12) (conding 0))).pkts 6).bind (·.run)).map (·.ptr) = some 7 ∧
    ((mget (after (exec (.pktCond 12) (conding 1))).pkts 6).bind (·.run)).map (·.ptr) = some 4 := by decide +kernel
theorem test_pktLaunch : (mget (after (exec (.pktLaunch 6) (launching launchPktOf (packetOf launchPktOf)))).gangs 20).map (fun g => (g.live, g.pkt, g.placed)) =
    some (2, 6, false) := by decide +kernel
def badLaunch : Nat := 0x301 + 0x4040 * 2 ^ 64
theorem test_pktLaunch_bad : (queueSt (after (exec (.pktLaunch 6) (holding badLaunch (packetOf badLaunch)))) 0).stopped = [6] := by decide +kernel
theorem witness_PacketsIssue : (∀ x ∈ [nopPkt, writePktOf, flushPktOf, graphPkt, launchPktOf, badLaunch], mayIssue (holding x (packetOf x)) 6 (packetOf x) = true ∧
      (holding x (packetOf x)).memoryOk = true) ∧ (∀ x ∈ [nopPkt, graphPkt], (rereadSlot (holding x (packetOf x)) 6 (packetOf x)).2 = true) ∧ (holding nopPkt (packetOf nopPkt)).relocs = [] ∧
    ((xlateAl (holding writePktOf (packetOf writePktOf)) ioDie 0 (BitVec.ofNat 64 (pktAddr writePktOf + nbits writePktOf 112 16 * 2 ^ 48)) 8 8
      { cls := clsCopy, rd := false, wr := true }).2.toOption.map (·.2)) = some (plainCells 0x10800 8) ∧
    (let s := (xlateAl (holding writePktOf (packetOf writePktOf)) ioDie 0 (object 0x800) 8 8 { cls := clsCopy, rd := false, wr := true }).1
     (rereadSlot s 6 (packetOf writePktOf)).2 = true) ∧ flushPktOf.testBit 64 = true ∧ (packetOf graphPkt).run = none := by decide +kernel
theorem witness_PacketsCond : (∀ s ∈ [conding 0, conding 1], s.memoryOk = true ∧ ((mget s.pkts 12).map fun p => (mayIssue s 12 p, p.type, p.isRing, (graphOf s p).map (·.1))) =
      some (true, 3, false, some 6)) ∧
    ((xlateAl (conding 0) ioDie 0 (object 0x800) 8 8 { cls := clsCopy, rd := true, wr := false }).2.toOption.map fun x => x.2.length) = some 8 := by decide +kernel
theorem witness_PacketsLaunch : launchOk (launching 0 (packetOf 0)).limits.stewardArea launchRec = true ∧ imageOk (launching 0 (packetOf 0)) 0x5000 0 header = true ∧
    placeable (launching 0 (packetOf 0)) launchRec (thShape header) = true ∧ cardDue (packetOf launchPktOf) = false ∧ (packetOf launchPktOf).parent = none ∧
    0x4000 + 128 ≤ hbmTop ∧ launchOk (launching 0 (packetOf 0)).limits.stewardArea (peekNat (launching 0 (packetOf 0)) 0x4040 128) = false ∧
    (let s := touchRead (touchRead (touchRead (launching launchPktOf (packetOf launchPktOf)) 0x4000 128) 0x5000 64) 0x5000 (areaOff header + thImlen header)
     (rereadSlot s 6 (packetOf launchPktOf)).2 = true) := by decide +kernel

/-! Gangs. -/

def candidate (placed : Bool) (tasks : List (Nat × Nat)) : Gang :=
  { gang with pkt := 6, rec_ := toBytes launchRec 128, header := toBytes header 64, placed := placed, released := false, tasks := tasks, live := 2, kids := 0, depth := 0 }
def ganging (g : Gang) : State := setCore { launching launchPktOf { packetOf launchPktOf with st := .issued, gang := some 9 } with gangs := [(9, g)] } 0 core
theorem test_gangPlace : (mget (after (exec (.gangPlace 9) (ganging (candidate false [])))).gangs 9).map (·.tasks) = some [(0, 0), (1, 1)] ∧
    (getPart (after (exec (.gangPlace 9) (ganging (candidate false [])))) 0 1).ps = .placed := by decide +kernel
def placedGang : State := after (exec (.gangPlace 9) (ganging (candidate false [])))
theorem test_gangRelease : (let p := getPart (after (exec (.gangRelease 9) placedGang)) 0 1
    (p.ps, p.s[1], p.coord[0], p.at_.pc, p.tvec)) = (.ready, 9, 0x500020001, 0, 0x80000000) := by decide +kernel
theorem test_gangClose : (mget (after (exec (.gangClose 9) { ganging (candidate false []) with uclock := 10 ^ 18 })).gangs 9).map (·.closed) = some (some (10 ^ 18)) ∧
    (mget (after (exec (.gangClose 9) (ganging (candidate false [])))).gangs 9).map (·.closed) = some none := by decide +kernel
/-- A launch that states the boundaries 0, 0x20000, 0x20000. -/
def moved : Nat := launchRec + 2 * 2 ^ 168 + 2 * 2 ^ 176
def changing (ps : PState) : State :=
  setPart (ganging { candidate false [] with rec_ := toBytes moved 128, closed := some 0 }) 0 0 { Part.empty with ps := ps }
theorem test_poolBoundaryChange : boundsOf (getCore (after (exec (.poolBoundaryChange 0 0 0x20000 0x20000) (changing .free))) 0) = (0, 0x20000, 0x20000) ∧
    boundsOf (getCore (after (exec (.poolBoundaryChange 0 0 0x20000 0x20000) (changing .ready))) 0) = boundsOf core := by decide +kernel
theorem test_sliceStart : (after (exec .sliceStart { State.reset with clock := 10 ^ 12 })).slice = 10 ^ 12 / State.reset.limits.slice := by decide +kernel
def activating (layouts : List Nat) : State :=
  { holding nopPkt (packetOf nopPkt) with fws := [{ digest := [], major := 1, minor := 0, layouts := layouts }], shadow := [(3, { core := 0, part := 0, lver := 1, len := 0, forced := false, held := false, patch := [], uipend := 0, ctx := { Part.empty with queue := 0 } })] }
theorem test_firmwareActivation : (queueSt (after (exec (.firmwareActivation 0) (activating [1]))) 0).fw = 1 ∧
    (queueSt (after (exec (.firmwareActivation 0) (activating [2]))) 0).fw = 0 := by decide +kernel
theorem witness_Gangs : (let s := ganging (candidate false [])
    let g := candidate false []
    placeDue s 9 g = true ∧ g.parent ≠ some 9 ∧ launchOk s.limits.stewardArea g.lrec = true ∧ closeDue s g = false ∧
      placeDue s 9 (candidate true []) = false) ∧ (mget placedGang.gangs 9).map (fun g => (g.placed, g.released)) = some (true, false) ∧ placedGang.memoryOk = true ∧
    closeDue { ganging (candidate false []) with uclock := 10 ^ 18 } (candidate false []) = true ∧ lrBounds moved = some (0, 0x20000, 0x20000) ∧
    ((mget (changing .free).gangs 9).map fun g => changeDue (changing .free) 9 g 0) = some true ∧ coreQuiet (changing .ready) 0 = false ∧
    layoutsListed (activating [1]) 0 { digest := [], major := 1, minor := 0, layouts := [1] } = true ∧
    layoutsListed (activating [2]) 0 { digest := [], major := 1, minor := 0, layouts := [2] } = false ∧ (activating [1]).fws.getLast?.isSome = true ∧
    ((activating [1]).queues.filter fun e => e.1 != 0) = [] := by decide +kernel

/-! Catalogue operations under way. The tail, node 1, holds 64 tokens 0 and no folio; SM0 is its shelfmark under the key of namespace 0,
whose probe begins at entry SM0[41:32] of the table. -/

def sm0 : Nat := 224728042995278904289848163314194808702
def entry0 : Nat := 0x30000 + 64 * nbits sm0 32 10
def catOp (kind seqH : Nat) (args : List Nat) : CatOp :=
  { kind := kind, queue := 0, ring := 1, seqH := seqH, args := args, key := toBytes 1 32, step := 0, parent := 0, bytes := 0, status := 0, fault := none
    awaited := none, block := none }
/-- A catalogue whose sequence 1 holds its 64 tokens in node 1, with these entries, and folio 2 with this word and these loans. -/
def catMem (objects : Bool) (word loans : Nat) (entries : TMap Byte) : State :=
  { State.reset with
    mem := (if objects then cells [(8, 8, 0x1000), (16, 4, 16)] else []) ++ cells [(0x18, 6, 0x2000), (0x20, 6, 0x2080)] ++
      (if objects then cells [(0x1040, 64, lineOf 0x10000 4096 14 0xFFF)] else []) ++
      cells [(0x2000, 64, kvDesc), (0x2080, 64, catDesc), (0x2140, 64, seqLine 64 0), (0x2480, 64, nodeLine 0 0), (0x2500, 64, nodeLine 5 1), (0x2540, 4, 2),
        (0x2880, 64, folLine 0x82000 1 word loans)] ++ entries
    nextId := 20 }
/-- An entry that names node 2 by SM0, and one that names it by 5, whose probe begins at entry 0. -/
def listed : TMap Byte := cells [(entry0, 64, sm0 + 2 * 2 ^ 128 + 1 * 2 ^ 160 + 0xAB * 2 ^ 192)]
def listed5 : TMap Byte := cells [(0x30000, 64, 5 + 2 * 2 ^ 128 + 1 * 2 ^ 160)]
def withOp (x : CatOp) (s : State) : State := { s with catOps := [(7, x)] }
def sealing (entries : TMap Byte) (word : Nat) : State := withOp (catOp 0 1 [3]) (catMem false word 0 entries)
def sealing_ : State := sealing [] 1
def matching : State := sealing listed 1
def statusOf (t : State) : Option Byte := t.held.head?.bind fun r => r.body.head?
/-- The tail is sealed in its place: the path names it, and NSTATE is SEALED. -/
theorem test_sealRun : statusOf (after (exec (.sealRun 7) sealing_)) = some 0 ∧ peekNat (after (exec (.sealRun 7) sealing_)) 0x2C00 8 = 2 ^ 32 + 1 ∧
    peekNat (after (exec (.sealRun 7) sealing_)) 0x2500 4 = 5 := by decide +kernel
def sealsAt : CatAt := { k := space, c := cat, sr := SeqRec.of (seqLine 64 0) }
theorem witness_Seals : (catPre sealing_ 0 3).2.toOption = none ∧ (catPre sealing_ 0 1).2.toOption = some (sealsAt) ∧
    (let s1 := (catPre sealing_ 0 1).1
     let x := sealsAt
     (nodeRec s1 x.k x.sr.tail).2.isSome = true ∧ (lastNode (nodeRec s1 x.k x.sr.tail).1 x.sr).2.toOption = some 0) := by decide +kernel
theorem witness_Seals_tail : (layersOf sealing_ space 1).2.toOption = some [none] ∧ (digestTail sealing_ space [none]).2 = some [] ∧
    (digestTail { sealing_ with pois := [(0x80000 / 256, true)] } space [some (1, FolHdr.of (folLine 0x80000 (2 ^ 64 - 1) (64 * 2 ^ 16) 0))]).2 = none := by
  decide +kernel
theorem tokens_of (s : State) (h : s = sealing_ ∨ s = matching) : tokensAt s 0x2D00 = List.replicate 64 0 := by
  rcases h with rfl | rfl <;> decide +kernel
theorem shelfmark0 : shelfmarkOf (toBytes 1 32) 0 0xAB (List.replicate 64 0) = sm0 := by decide +kernel
theorem witness_Seals_probe : (probe sealing_ space cat (shelfmarkOf (toBytes 1 32) 0 0xAB (tokensAt sealing_ 0x2D00)) 0 0xAB (tokensAt sealing_ 0x2D00) 0).2 = some none ∧
    (probe matching space cat (shelfmarkOf (toBytes 1 32) 0 0xAB (tokensAt matching 0x2D00)) 0 0xAB (tokensAt matching 0x2D00) 0).2 = some (some 2) := by
  rw [tokens_of _ (.inl rfl), tokens_of _ (.inr rfl), shelfmark0]
  decide +kernel
theorem witness_Seals_match : ((layersOf matching space 2).2.toOption.map fun l => l.map fun e => e.map fun h => (h.2.fstate, h.2.loans)) = some [some (1, 0)] ∧
    ((layersOf (sealing listed 2) space 2).2.toOption.map fun l => l.map fun e => e.map fun h => h.2.fstate) = some [some 2] := by decide +kernel

/-! Lookups: the tokens at the start of handle 1's object, the list at 0x800 of it. -/

def looking (entries : TMap Byte) (tok : W64) (step : Nat) : State :=
  withOp { catOp 1 0 [tok.toNat, 64, 0, (object 0x800).toNat, 0xAB, 0] with step := step } (catMem true 1 0 entries)
theorem test_catlookRun : peekNat (after (exec (.catlookRun 7) (looking listed (object 0) 0))) 0x10810 4 = 2 := by decide +kernel
theorem test_catlookRun_ends : statusOf (after (exec (.catlookRun 7) (looking [] (object 0) 1))) = some 0 ∧
    ((after (exec (.catlookRun 7) (looking [] 0x300000000000 0))).held.map fun r => r.body.getD 1 0) = [1] := by decide +kernel
theorem witness_Lookups : (spacesOf { looking [] (object 0) 0 with mem := [] } 0).2 = none ∧ (spacesOf (looking [] (object 0) 0) 0).2 = some (space, cat) ∧
    (let s := looking [] (object 0) 0
     let x := xlateAl (spacesOf s 0).1 ioDie 0 (object 0) 256 1 { cls := clsCopy, rd := true, wr := false }
     (x.2.toOption.map fun p => (p.2.length, (linesOf p.2).any fun n => poisonedAt x.1 (64 * n) 64)) = some (256, false)) ∧
    (let s := { looking [] (object 0) 0 with pois := [(0x10000 / 256, true)] }
     let x := xlateAl (spacesOf s 0).1 ioDie 0 (object 0) 256 1 { cls := clsCopy, rd := true, wr := false }
     (x.2.toOption.map fun p => (linesOf p.2).any fun n => poisonedAt x.1 (64 * n) 64) = some true) ∧
    (xlateAl (looking [] 0 0) ioDie 0 0x300000000000 256 1 { cls := clsCopy, rd := true, wr := false }).2.toOption = none ∧
    ((xlateAl (looking [] 0 0) ioDie 0 (object 0x800) 24 1 { cls := clsCopy, rd := false, wr := true }).2.toOption.map (·.2)) = some (plainCells 0x10800 24) ∧
    (looking listed (object 0) 0).memoryOk = true := by decide +kernel

/-! Circulation: the recall 6 of folio 2; the deaccession of node 2, whose folio is ABSENT. -/

/-- What the load has translated: folio 2 of node 2, layer 0. -/
def heldRow : KvHeld := { fol := 2, num := 2, node := 0, dbase := 0x82000, surv := 1, len := 4 }
def recalling (dest word : Nat) : State :=
  { catMem false word 0xFFFFFFFF [] with recalls := [(6, { aRecall with dest := dest, stage := 0, len := 0 })] }
def loading_ : State := { recalling 0 2 with kvs := [(9, { kvOp with repair := some heldRow })] }
/-- A demotion to the stacks; a folio of the repository (tier 3) is dropped; a load holds the recall. -/
theorem test_recallDataMove : (folHdr (after (exec (.recallDataMove 6) (recalling 0 0x12))) space 2).tier = 0 ∧
    (folHdr (after (exec (.recallDataMove 6) (recalling 1 0x32))) space 2).fstate = 3 ∧ (after (exec (.recallDataMove 6) loading_)).recalls.length = 1 := by decide +kernel
/-- A folio of the annex, which `n` bytes fill: whatever the watermarks are, enough of them make a pass due. -/
def crowded (n : Nat) : State :=
  { catMem false 0x21 0 [] with
    mem := (cells [(0x58, 6, 0x2000), (0x60, 6, 0x2080)]).foldl (fun m e => mput m e.1 e.2) (catMem false 0x21 0 []).mem
    qtab := 0x40, annexMap := [(0, { v := true, port := 0, base := 0 })], images := [(imageKey 2 0, n)] }
def lastFolio : FolioAt := { queue := 0, k := space, node := 2, layer := 0, fol := 2, sm := 5, hdr := FolHdr.of (folLine 0x82000 1 0x21 0) }
theorem crowded_left (n : Nat) : leftAfter (crowded n) 2 = n := by
  simp [leftAfter, occupancy, recallsFrom, crowded, catMem, State.reset, sumOf, imageKey]
theorem witness_DemotionPass : ∃ n, highMark 2 < leftAfter (crowded n) 2 ∧ lowMark 2 < leftAfter (crowded n) 2 := by
  refine ⟨highMark 2 + lowMark 2 + 1, ?_⟩
  rw [crowded_left]
  omega
theorem witness_DemotionPass_candidate : candidatesOf (crowded 0) 2 = [lastFolio] ∧ (crowded 0).memoryOk = true ∧
    (spacesOf (crowded 0) 0).2 = some (space, cat) ∧ candidatesOf (recalling 0 2) 0 = [] := by decide +kernel
def going : State := catMem false 3 0 listed5
theorem test_deaccession : peekNat (after (exec (.deaccession 0 2) going)) 0x30014 1 = 2 ∧
    (after (exec (.deaccession 0 2) (catMem false 1 0 listed5))).mem = (catMem false 1 0 listed5).mem := by decide +kernel
theorem witness_Circulation : (spacesOf (recalling 0 2) 0).2 = some (space, cat) ∧ (recalling 0 0x12).memoryOk = true ∧ aRecall.up = none ∧ (recalling 1 0x32).memoryOk = true ∧
    loadHeld loading_ 0 2 = true ∧ loadHeld (recalling 0 2) 0 2 = false ∧ space.folAddr 2 + 64 ≤ hbmTop ∧ (folHdr (recalling 1 0x32) space 2).fstate ≠ 3 ∧
    2 ≤ (folHdr (recalling 1 0x32) space 2).tier ∧ ((nodeRec going space 2).2.map (·.nstate)) = some 1 ∧
    ((layersOf going space 2).2.toOption.map fun l => l.all fun l => l.all fun e => e.2.fstate == fAbsent && e.2.loans == 0) = some true ∧ nodeBusy going 0 2 = false ∧
    (((visits going cat 5).2.2.find? fun e => e.2.estate == eLive && e.2.node == 2).map (·.1)) = some 0x30000 ∧ going.memoryOk = true := by decide +kernel

/-! Promotions of node 2, layer 0, to the stacks (0) or the annex (2), and a replica's repair. -/

def promoting (target word : Nat) : State :=
  withOp (catOp 2 0 [2, 0, 0, 0, target]) (catMem false word 0 [])
/-- A move down that a loan keeps from going. -/
def lent : State := withOp (catOp 2 0 [2, 0, 0, 0, 2]) (catMem false 1 1 [])
theorem test_promotionRun_down : statusOf (after (exec (.promotionRun 7) lent)) = some 0x18 ∧
    statusOf (after (exec (.promotionRun 7) (promoting 2 1))) = some 0x17 := by decide +kernel
theorem test_promotionRun : statusOf (after (exec (.promotionRun 7) (promoting 0 1))) = some 0 ∧ statusOf (after (exec (.promotionRun 7) (promoting 0 4))) = some 0x13 ∧
    statusOf (after (exec (.promotionRun 7) (promoting 2 3))) = some 0x16 ∧ (after (exec (.promotionRun 7) (promoting 0 2))).held = [] := by decide +kernel
theorem witness_Promotion : (∀ s ∈ [promoting 0 1, promoting 0 0, promoting 0 4, promoting 2 3, promoting 0 2, lent, promoting 2 1], graceWaits s 7 = false ∧ s.memoryOk = true ∧
      (spacesOf s 0).2 = some (space, cat) ∧ (nodeRec (spacesOf s 0).1 space 2).2.isSome = true ∧
      (folioRef (nodeRec (spacesOf s 0).1 space 2).1 space 2 0).2 = some 2 ∧ ((folRec s space 2).2.map (·.fstate)) = some (folHdr s space 2).fstate) ∧
    cat.fabon = false ∧ (folHdr lent space 2).loans = 1 ∧ (folHdr (promoting 2 1) space 2).loans = 0 ∧ tierUp 2 < tierUp 0 ∧ attached (promoting 2 1) 2 = false ∧ (folHdr (promoting 0 1) space 2).tier = 0 ∧ (folHdr (promoting 0 0) space 2).fstate = fOpen := by decide +kernel
def replicaFetch : Fetch := { aFetch with sm := 5, layer := some 0, data := [] }
def repairing (f : Fetch) : State :=
  { setPart (catMem false 1 0 []) 0 0 { task with pends := [{ pending 0 300 with st := .engine, writes := [], dst := some (9, false), eng := some (2 ^ 24 + 6) }] } with
    kvs := [(6, { kvOp with repair := some heldRow })], fetches := [(6, f)] }
theorem test_replicaRepair : (mget (after (exec (.replicaRepair 6) (repairing { replicaFetch with failed := true }))).kvs 6).map (fun x => x.fault.map (·.1)) =
      some (some kvDamaged) ∧ (mget (after (exec (.replicaRepair 6) (repairing replicaFetch))).kvs 6).map (·.fault) = some none := by decide +kernel

/-! A replica that verifies: folio 2's header holds the seal digest of the data that has come, in a write-combining entry of its chunk. -/

def replicaBytes : List Byte := List.replicate (space.fsz + 8) 1
theorem ofBytes_append (a b : List Byte) : ofBytes (a ++ b) = ofBytes a + 256 ^ a.length * ofBytes b := by
  induction a with
  | nil => simp [ofBytes]
  | cons x l ih =>
    simp only [List.cons_append, ofBytes, ih, List.length_cons]
    rw [Nat.pow_succ, Nat.mul_add, Nat.add_assoc, ← Nat.mul_assoc, Nat.mul_comm 256 (256 ^ l.length)]
theorem ofBytes_lt (a : List Byte) : ofBytes a < 256 ^ a.length := by
  induction a with
  | nil => simp [ofBytes]
  | cons x l ih =>
    simp only [ofBytes, List.length_cons, Nat.pow_succ]
    have := x.isLt
    omega
theorem digest_of (a b : List Byte) (ha : a.length = 32) (hb : b.length = 32) : nbits (ofBytes (a ++ b)) 256 256 = ofBytes b := by
  have h1 := ofBytes_lt a
  have h2 := ofBytes_lt b
  rw [ha] at h1
  rw [hb] at h2
  rw [ofBytes_append, ha, nbits, Nat.shiftRight_eq_div_pow]
  omega
def sealBytes : List Byte := blake3 (replicaBytes.take space.fsz ++ toBytes 0x0101010101010101 8)
theorem blake3With_length (key : List Nat) (flags : Nat) (bs : List Byte) : (blake3With key flags bs).length = 32 := by
  simp only [blake3With, bWordsBytes, bCompress]
  generalize bRounds _ _ _ = v
  rfl
def sealEntry : WcEntry :=
  { cls := .folios, used := 0, data := tab 32 fun i => (0xA0 + i, sealBytes.getD i 0), red := [], raw := true, fmts := [], bad := [] }
def replicated : State := { repairing { replicaFetch with data := replicaBytes, full := true } with wc := [(5, sealEntry)] }
theorem tab_64 {α : Type} (f : Nat → α) : tab 64 f = tab 32 f ++ tab 32 fun i => f (32 + i) := rfl
theorem mget_tab (f : Nat → Byte) (n i : Nat) (hi : i < n) (k : Nat) :
    mget ((List.range' k n).map fun j => (0xA0 + j, f j)) (0xA0 + (k + i)) = some (f (k + i)) := by
  induction n generalizing i k with
  | zero => omega
  | succ n ih =>
    simp only [List.range'_succ, List.map_cons, mget]
    cases i with
    | zero => simp
    | succ i =>
      rw [if_neg (by omega)]
      have := ih i (by omega) (k + 1)
      rw [show k + (i + 1) = k + 1 + i from by omega]
      exact this
theorem replicated_peek (i : Nat) (hi : i < 32) : peek replicated (0x28A0 + i) = sealBytes.getD i 0 := by
  have h1 : 0x28A0 + i < hbmTop := by simp only [hbmTop]; omega
  have h2 : chunkOf (0x28A0 + i) = 5 := by simp only [chunkOf]; omega
  have h3 : (0x28A0 + i) % 2048 = 0xA0 + i := by omega
  have h4 : mget sealEntry.data (0xA0 + i) = some (sealBytes.getD i 0) := by
    have := mget_tab (fun i => sealBytes.getD i 0) 32 i hi 0
    simpa [sealEntry, tab, List.range_eq_range'] using this
  have h5 : sealEntry.elemAt (0xA0 + i) = none := rfl
  simp only [peek, if_pos h1, hbmByte, h2, h3]
  simp only [replicated, mget, if_pos, h5, h4]
theorem replicated_header : peekBytes replicated (space.folAddr 2) 64 = tab 32 (fun i => peek replicated (0x2880 + i)) ++ sealBytes := by
  have h : sealBytes.length = 32 := blake3With_length _ _ _
  have e : tab 32 (fun i => peek replicated (0x2880 + (32 + i))) = sealBytes := by
    apply List.ext_getElem (by simp [tab, h])
    intro i h1 h2
    simp only [tab, List.getElem_map, List.getElem_range]
    rw [show 0x2880 + (32 + i) = 0x28A0 + i from by omega, replicated_peek i (by omega), List.getD, List.getElem?_eq_getElem h2, Option.getD_some]
  rw [show space.folAddr 2 = 0x2880 from by decide +kernel, peekBytes, tab_64, e]
/-- A replica whose bytes have the digest of the header, beside everything else that its clause asks for. -/
theorem witness_Replica : (mget replicated.kvs 6).map (·.repair) = some (some heldRow) ∧ replicated.memoryOk = true ∧ (kvSpaceOf replicated 0).2 = some space ∧
    (mget replicated.fetches 6).map (fun f => (f.failed, f.full)) = some (false, true) ∧
    fabricData space (folHdr replicated space 2).digest replicaBytes = some (replicaBytes.take space.fsz, 0x0101010101010101) ∧
    heldRow.dbase + (replicaBytes.take space.fsz).length ≤ hbmTop := by
  have hl : sealBytes.length = 32 := blake3With_length _ _ _
  have ht : (tab 32 fun i => peek replicated (0x2880 + i)).length = 32 := by simp [tab]
  have hd : (folHdr replicated space 2).digest = ofBytes sealBytes := by
    simp only [folHdr, FolHdr.of, peekNat, replicated_header]
    exact digest_of _ _ ht hl
  have hn : replicaBytes.length = space.fsz + 8 := by simp [replicaBytes]
  have hs : ofBytes ((replicaBytes.drop space.fsz).take 8) = 0x0101010101010101 := by decide +kernel
  refine ⟨by decide +kernel, by decide +kernel, by decide +kernel, by decide +kernel, ?_, ?_⟩
  · simp only [fabricData, hn, hs, hd, sealDigest]
    have : ofBytes (blake3 (replicaBytes.take space.fsz ++ toBytes 0x0101010101010101 8)) = ofBytes sealBytes := rfl
    simp [this]
  · decide +kernel

/-! Itkoril: this chip is number 1 of 4, and has open connections with chip 3 in every class. Entry 0 of the catalogue is HOME for the
shelfmark 5, with chip 2 as its holder. A search (6) has asked chip 3. -/

def itk (type cls seq opnd : Nat) (payload : List Byte) : List Byte :=
  toBytes (1 + type * 2 ^ 16 + cls * 2 ^ 24 + 3 * 2 ^ 32 + seq * 2 ^ 64 + payload.length * 2 ^ 128 + opnd * 2 ^ 192) 32 ++ payload
def smallCat : TMap Byte :=
  cells [(8, 8, 0x1000), (16, 4, 16), (0x18, 6, 0x2000), (0x20, 6, 0x2080), (0x1040, 64, lineOf 0x10000 4096 14 0xFFF), (0x2000, 64, kvDesc),
    (0x2080, 64, catDesc + 2 ^ 54 + 3 * 2 ^ 448 + 2 ^ 464), (0x2500, 64, nodeLine 5 1), (0x2540, 4, 2), (0x2880, 64, folLine 0x82000 (2 ^ 64 - 1) 1 0),
    (0x10010, 4, 0x12345678), (0x30000, 64, 5 + 2 * 2 ^ 128 + 1 * 2 ^ 160 + 1 * 2 ^ 162 + 0xAB * 2 ^ 192 + 0x8002 * 2 ^ 256)]
def openConn3 (cls : Nat) (lost : Bool) : Nat × Conn := (connKey 3 cls, { Conn.fresh 0 with up := !lost, lost := lost, expect := 9, next := 1 })
def searching (layer : Option Nat) (holders : Option (List Nat)) (lost : Bool) : State :=
  { State.reset with mem := smallCat, conns := tab 4 fun i => openConn3 i lost
                     fetches := [(6, { aFetch with sm := 5, layer := layer, holders := holders, asked := some 3, repo := false })] }
def peering : State := searching (some 0) none false
/-- The frames sent to chip 3 in a class, by type and payload. -/
def framesOf (cls : Nat) (t : State) : List (Nat × List Byte) := (((mget t.conns (connKey 3 cls)).map (·.sent)).getD []).map fun f => (f.type, f.payload)
def directory (type seq : Nat) : List Byte := itk type 0 seq 5 (toBytes 0 8)
theorem test_itkDreg : (CatEntry.of (peekNat (after (exec (.itkDreg 3 (directory 0x10 9)) peering)) 0x30000 64)).hold.take 2 = [0x8002, 0x8003] ∧
    (CatEntry.of (peekNat (after (exec (.itkDreg 3 (directory 0x10 8)) peering)) 0x30000 64)).hold.take 2 = [0x8002, 0] := by decide +kernel
theorem test_itkDquery : framesOf 0 (after (exec (.itkDquery 3 (directory 0x11 9)) peering)) = [(0x12, toBytes 0 8 ++ toBytes 0x8002 12)] ∧
    ((after (exec (.itkDquery 3 (directory 0x11 9)) peering)).outbox.head?.map fun f => (f.frame.type, f.frame.seq, f.ack)) = some (2, 1, 10) := by decide +kernel
def dlist (h : Nat) : List Byte := itk 0x12 0 9 5 (toBytes 0 8 ++ toBytes h 12)
theorem test_itkDlist : (mget (after (exec (.itkDlist 3 (dlist 0x8003)) peering)).fetches 6).map (fun f => (f.holders, f.asked)) = some (some [], some 3) ∧
    (mget (after (exec (.itkDlist 3 (dlist 0x8001)) peering)).fetches 6).map (·.failed) = some true := by decide +kernel
def fetchMsg (sm layer : Nat) : List Byte := itk 0x13 1 9 sm (toBytes 0 8 ++ toBytes layer 2)
theorem test_itkFetch : (framesOf 1 (after (exec (.itkFetch 3 (fetchMsg 5 0xFFFF)) peering))).map (fun f => (f.1, f.2.length)) = [(0x16, 305)] ∧
    framesOf 1 (after (exec (.itkFetch 3 (fetchMsg 7 0)) peering)) = [(0x15, toBytes 0 8 ++ toBytes 0 2 ++ toBytes 1 2)] := by decide +kernel
def fdata : List Byte := itk 0x14 1 9 (5 * 2 ^ 40) (dataPayload [1, 2, 3])
theorem test_itkFdata : (mget (after (exec (.itkFdata 3 fdata) peering)).fetches 6).map (fun f => (f.data, f.full)) = some ([1, 2, 3], false) := by decide +kernel
def nohold : List Byte := itk 0x15 1 9 5 (toBytes 0 8 ++ toBytes 0 2 ++ toBytes 3 2)
theorem test_itkNohold : (mget (after (exec (.itkNohold 3 nohold) (searching (some 0) (some [3]) false))).fetches 6).map (fun f => (f.holders, f.asked)) = some (some [], some 3) ∧
    (mget (after (exec (.itkNohold 3 nohold) (searching (some 0) (some []) false))).fetches 6).map (·.failed) = some true := by decide +kernel
theorem test_itkNodeinfo : (mget (after (exec (.itkNodeinfo 3 (itk 0x16 1 9 5 [7])) (searching none (some []) false))).fetches 6).map (fun f => (f.data, f.full)) =
    some ([7], true) := by decide +kernel
def pread (h : Nat) : List Byte := itk 0x20 3 9 (h * 2 ^ 44 + 16) (toBytes 4 4)
theorem test_itkPread : (framesOf 3 (after (exec (.itkPread 3 (pread 1)) peering))).map (fun f => (f.1, f.2.take 8)) = [(0x22, toBytes 4 4 ++ toBytes 0x12345678 4)] ∧
    framesOf 3 (after (exec (.itkPread 3 (pread 2)) peering)) = [(0x23, [1])] := by decide +kernel
def pwrite : List Byte := itk 0x21 3 9 (2 ^ 44 + 16) (dataPayload [1, 2])
theorem test_itkPwrite : ∃ t, exec (.itkPwrite 3 pwrite) peering = .next t := ⟨_, rfl⟩
theorem test_itkPdata : ((mget (after (exec (.itkPdata 3 (itk 0x22 3 9 0 (dataPayload [1]))) peering)).conns 15).map (·.expect)) = some 10 ∧
    ((mget (after (exec (.itkPrefuse 3 (itk 0x23 3 9 0 [1])) peering)).conns 15).map (·.expect)) = some 10 := by decide +kernel
theorem witness_FabricMessages_receive : (Itk.of (directory 0x10 9)).map (fun m => (m.src, m.type, m.seq)) = some (3, 0x10, 9) ∧
    (mget peering.conns (connKey 3 0)).map (fun c => (c.expect, c.up, c.lost)) = some (9, true, false) ∧
    ((mget (searching (some 0) none true).conns (connKey 3 0)).map (·.lost)) = some true ∧ ((Itk.of (directory 0x10 8)).map (·.seq)) = some 8 ∧
    ((Itk.of fdata).bind fun m => payloadData m.payload) = some [1, 2, 3] ∧ carriesData 0x14 = true ∧
    ((Itk.of (itk 0x14 1 9 0 (toBytes 3 4 ++ List.replicate 260 1))).map fun m => payloadData m.payload) = some none := by decide +kernel
def fabCat : CatDesc := CatDesc.of (catDesc + 2 ^ 54 + 3 * 2 ^ 448 + 2 ^ 464)
def read_ (bs : List Byte) : Itk := (Itk.of bs).getD { vmaj := 0, vmin := 0, type := 0, cls := 0, src := 0, dst := 0, seq := 0, ack := 0, qg := 0, opnd := 0, payload := [] }
theorem witness_FabricMessages_directory : peering.memoryOk = true ∧ (catOf peering 0).2 = some fabCat ∧ homeChip fabCat 5 = fabCat.chipno ∧
    homeChip fabCat 6 ≠ fabCat.chipno ∧ ((homeEntry (catOf peering 0).1 fabCat 5).2.map (·.1)) = some 0x30000 ∧ (read_ (directory 0x10 9)).sm = 5 := by decide +kernel
theorem witness_FabricMessages_lists : (mget peering.fetches 6).map (fun x => (x.asked, x.queue)) = some (some 3, 0) ∧
    (mget peering.fetches 6).map (fun x => (x.full, x.failed, x.holders)) = some (false, false, none) ∧
    holderChips [0x8003, 0, 0, 0, 0, 0] fabCat.chipno = [3] ∧ holderChips [0x8001, 0, 0, 0, 0, 0] fabCat.chipno = [] ∧
    ((mget peering.conns (connKey 3 0)).map (·.lost)) = some false := by decide +kernel
theorem witness_FabricMessages_folios : (mget (searching (some 0) (some [3]) false).fetches 6).map (fun x => (x.holders, x.sm, x.layer.getD 0xFFFF)) = some (some [3], 5, 0) ∧
    (read_ nohold).sm = 5 ∧ ofBytes (((read_ nohold).payload.drop 8).take 2) = 0 ∧ (kvSpaceOf peering 0).2 = some space ∧
    payloadData (read_ fdata).payload = some [1, 2, 3] ∧ nbits (read_ fdata).opnd 32 8 = 0 ∧ (5 : Nat) % 2 ^ 24 = (read_ fdata).opnd / 2 ^ 40 ∧
    nbits (read_ fdata).opnd 0 32 = 0 ∧ (spacesOf { peering with mem := [] } 0).2 = none ∧ (spacesOf peering 0).2 = some (space, fabCat) ∧
    ((nodeNamed (spacesOf peering 0).1 space fabCat 5).2.map (·.1)) = some 2 ∧ (heldFolio peering space 2 1).2 = none := by decide +kernel
theorem witness_FabricMessages_peers : (xlateAl peering ioDie 0 (BitVec.ofNat 64 (2 * 2 ^ 44 + 16)) 4 1 { cls := clsPeer, rd := true, wr := false }).2.toOption = none ∧
    (let x := xlateAl peering ioDie 0 (BitVec.ofNat 64 (2 ^ 44 + 16)) 4 1 { cls := clsPeer, rd := true, wr := false }
     (x.2.toOption.map fun p => (p.2, (linesOf p.2).any fun i => poisonedAt (readCells x.1 p.2).1 (64 * i) 64)) = some (plainCells 0x10010 4, false)) ∧
    (let x := xlateAl { peering with pois := [(0x10000 / 256, true)] } ioDie 0 (BitVec.ofNat 64 (2 ^ 44 + 16)) 4 1 { cls := clsPeer, rd := true, wr := false }
     (x.2.toOption.map fun p => (linesOf p.2).any fun i => poisonedAt (readCells x.1 p.2).1 (64 * i) 64) = some true) ∧
    ((xlateAl peering ioDie 0 (BitVec.ofNat 64 (2 ^ 44 + 16)) 2 1 { cls := clsPeer, rd := false, wr := true }).2.toOption.map (·.2)) = some (plainCells 0x10010 2) ∧
    peering.relocs = [] ∧ payloadData (read_ pwrite).payload = some [1, 2] := by decide +kernel

/-! Connections: HELLO of the majors 1 to 1, and of 2 to 2. -/

def hello (lo hi : Nat) : List Byte := itk 1 0 0 0 (toBytes lo 1 ++ toBytes hi 1 ++ toBytes 0 1)
theorem test_itkHello : (mget (after (exec (.itkHello 3 (hello 1 1)) State.reset)).conns 12).map (fun c => (c.up, c.expect)) = some (true, 1) ∧
    (mget (after (exec (.itkHello 3 (hello 2 2)) State.reset)).conns 12).map (fun c => (c.up, c.lost)) = some (false, true) := by decide +kernel
def sentFrame (n : Nat) : Frame := { type := 0x11, cls := 0, dst := 3, seq := n, qg := 0, opnd := 0, payload := [] }
def connected (now : Nat) (told : Bool) : State :=
  { State.reset with uclock := now, conns := [(12, { Conn.fresh 0 with up := true, expect := 9, next := 3, sent := [sentFrame 1, sentFrame 2], told := told })] }
def ackOf (n : Nat) : List Byte := toBytes (1 + 2 * 2 ^ 16 + 3 * 2 ^ 32 + n * 2 ^ 96) 32
theorem test_itkAck : (mget (after (exec (.itkAck 3 (ackOf 2)) (connected 5 false))).conns 12).map (fun c => (c.sent, c.heard)) = some ([sentFrame 2], 5) := by decide +kernel
theorem test_itkUnknownType : (mget (after (exec (.itkUnknownType 3 (itk 0x77 0 9 0 [])) (connected 5 false))).conns 12).map (·.told) = some true ∧
    (after (exec (.itkUnknownType 3 (itk 0x77 0 9 0 [])) (connected 5 true))).events.length = 0 := by decide +kernel
theorem test_itkRetransmitTimeout : ((after (exec (.itkRetransmitTimeout 3 []) (connected 96000 false))).outbox.take 2 |>.map (·.frame)) = [sentFrame 1, sentFrame 2] ∧
    (after (exec (.itkRetransmitTimeout 3 []) (connected 95999 false))).outbox = [] := by decide +kernel
theorem test_peertoExpiry : (mget (after (exec (.peertoExpiry 3) (connected (10 ^ 15) false))).conns 12).map (·.lost) = some true ∧
    (mget (after (exec (.peertoExpiry 3) (connected 5 false))).conns 12).map (·.lost) = some false := by decide +kernel

/-- Roles of the ports (R396): by default every class is carried; with FOLIO ports alone no frame of class 2 comes. -/
def folioOnly : State := { connected 5 false with limits := { Limits.default with portRole := 0 } }
theorem test_portRoles : (List.range 4).map (carried folioOnly) = [true, true, false, true] ∧
    (after (exec (.itkHello 3 (itk 1 2 0 0 [1, 1, 0])) folioOnly)).conns.length = 1 := by decide +kernel
theorem witness_carried : (List.range 4).map (carried peering) = [true, true, true, true] ∧ (List.range 4).map (carried (connected 96000 false)) = [true, true, true, true] ∧
    carried folioOnly 2 = false ∧ (Itk.of (itk 1 2 0 0 [1, 1, 0])).map (fun m => (m.src, m.cls)) = some (3, 2) := by decide +kernel

/-! A collective of the chips 0 and 3, with tag 4; its copy entry is detached with a record and barrier 4. -/

def collDesc : Nat := 2 ^ 44 * 2 ^ 64 + 4 * 2 ^ 128 + 4 * 2 ^ 272 + 4 * 2 ^ 288
def aColl (joined : Bool) : Coll :=
  { copyKey := 0, queue := 0, op := 1, desc := collDesc, gid := 7, rank := 0, chips := [0, 3], members := if joined then [(1, { Member.none with joined := true })] else []
    since := 0, sent := false }
def gathering (joined : Bool) (now : Nat) : State :=
  let s := { copying with colls := [(6, aColl joined)], uclock := now, conns := [openConn3 2 false] }
  { s with copies := [(0, { newCopy 0x12 [BitVec.ofNat 64 (2 ^ 37 + 4 * 2 ^ 48)] false s with shape := (unready 1 0).shape })] }
def joinMsg (st : Nat) : List Byte := toBytes (1 + 0x30 * 2 ^ 16 + 2 * 2 ^ 24 + 3 * 2 ^ 32 + 9 * 2 ^ 64 + 2 * 2 ^ 128 + 7 * 2 ^ 160 + 4 * 2 ^ 240) 32 ++ [BitVec.ofNat 8 st, 1]
theorem test_itkCjoin : (mget (after (exec (.itkCjoin 3 (joinMsg 0)) (gathering false 0))).colls 6).map (fun x => ((x.member 1).joined, (x.member 1).desc)) = some (true, [1]) ∧
    (mget (after (exec (.itkCjoin 3 (joinMsg 10)) (gathering true 0))).colls 6).map (fun x => (x.member 1).bad) = some 10 := by decide +kernel
def cdata : List Byte :=
  let p := dataPayload [5, 6]
  toBytes (1 + 0x31 * 2 ^ 16 + 2 * 2 ^ 24 + 3 * 2 ^ 32 + 9 * 2 ^ 64 + p.length * 2 ^ 128 + 7 * 2 ^ 160 + 1 * 2 ^ 192 + 4 * 2 ^ 240) 32 ++ p
theorem test_itkCdata : (mget (after (exec (.itkCdata 3 cdata) (gathering true 0))).colls 6).map (fun x => (x.member 1).data) = some [(1, 5), (2, 6)] := by decide +kernel
theorem test_collectiveTimeout : ((after (exec (.collectiveTimeout 6) (gathering false (10 ^ 15)))).held.map fun r => r.body.getD 0 0) = [0x0B] ∧
    (after (exec (.collectiveTimeout 6) (gathering false 5))).held = [] := by decide +kernel
theorem witness_ConnectionsAndCollectives : (Itk.of (hello 1 1)).map (fun m => (m.src, m.type)) = some (3, 1) ∧ (Itk.of (ackOf 2)).map (fun m => (m.src, m.type)) = some (3, 2) ∧
    ((Itk.of (itk 0x77 0 9 0 [])).map fun m => (knownTypes.contains m.type, m.seq)) = some (false, 9) ∧ knownTypes.contains 0x11 = true ∧
    (connected 96000 false).conns.map (fun e => (e.1, e.2.sent.length, e.2.sentAt, e.2.heard)) = [(connKey 3 0, 2, 0, 0)] ∧
    0 + (connected 5 false).limits.peerto * 1500000000 ≤ 10 ^ 15 ∧ 5 < 0 + (connected 5 false).limits.peerto * 1500000000 ∧
    (collFor (gathering false 0) 7 4 3 fun e => !e.joined).map (fun x => (x.1, x.2.2)) = some (6, 1) ∧
    (collFor (gathering true 0) 7 4 3 (·.joined)).map (fun x => (x.1, x.2.2)) = some (6, 1) ∧ ((Itk.of cdata).bind fun m => payloadData m.payload) = some [5, 6] ∧
    (mget (gathering false 0).copies 0).map (fun y => (y.seq, y.recd, y.bar)) = some (none, true, 4) ∧ (aColl false).allJoined = false ∧
    0 + (gathering false 0).limits.collLimit * 1500000000 ≤ 10 ^ 15 := by decide +kernel

/-! A holder that has the folio: its data is zeros, and its header holds their seal digest, in a write-combining entry of its chunk. -/

def heldBytes : List Byte := blake3 ((List.replicate 8192 0).take space.fsz ++ toBytes (2 ^ 64 - 1) 8)
def cellsOf (d : List Byte) : TMap Byte := tab 32 fun i => (0xA0 + i, d.getD i 0)
def entryOf (d : List Byte) : WcEntry := { cls := .folios, used := 0, data := cellsOf d, red := [], raw := true, fmts := [], bad := [] }
def held_ : State := { peering with wc := [(5, entryOf heldBytes)] }
def heldW : State := (nodeNamed (spacesOf held_ 0).1 space fabCat 5).1
def heldR : State := (folioRef heldW space 2 0).1
set_option exponentiation.threshold 600 in
theorem heldR_wc : heldR.wc = [(5, entryOf heldBytes)] := by
  rfl
/-- What the header's read finds: the entry, no other metadata, and the header's first half in memory. -/
def Unmerged (d : List Byte) (s : State) : Prop :=
  s.wc = [(5, entryOf d)] ∧ s.capture = [] ∧ s.pois = [] ∧ s.meta_ = [] ∧ s.mem.all (fun e => e.1 < 0x82000) = true ∧
    ofBytes (tab 32 fun i => byteAt s.mem (0x2880 + i)) = folLine 0x82000 (2 ^ 64 - 1) 1 0
theorem mget_tab_out (f : Nat → Byte) (n i k : Nat) (hi : i < 0xA0 + k ∨ 0xA0 + k + n ≤ i) :
    mget ((List.range' k n).map fun j => (0xA0 + j, f j)) i = none := by
  induction n generalizing k with
  | zero => rfl
  | succ n ih =>
    simp only [List.range'_succ, List.map_cons, mget]
    rw [if_neg (by omega), ih (k + 1) (by omega)]
theorem trackRow_keeps (s : State) (c : Nat) : (trackRow s c).mem = s.mem ∧ (trackRow s c).wc = s.wc ∧ (trackRow s c).pois = s.pois ∧
    (trackRow s c).meta_ = s.meta_ ∧ (trackRow s c).capture = s.capture := ⟨rfl, rfl, rfl, rfl, rfl⟩
/-- What a read of the entry's chunk makes of a state. -/
def unmet (d : List Byte) (s : State) : State := { s with mem := applyData s.mem 0x2800 (cellsOf d), wc := [], pois := [] }
def merged (d : List Byte) (s : State) : State := trackRow (storeMeta (trackRow (unmet d s) 5) 5 true [] (entryOf d).meetsSector) 5
theorem merged_keeps (d : List Byte) (s : State) : (merged d s).mem = applyData s.mem 0x2800 (cellsOf d) ∧ (merged d s).wc = [] ∧ (merged d s).pois = [] ∧
    (merged d s).meta_ = mput s.meta_ 5 (newMeta (trackRow (unmet d s) 5) 5 true [] (entryOf d).meetsSector) ∧ (merged d s).capture = s.capture := by
  have h1 := trackRow_keeps (unmet d s) 5
  have h2 := trackRow_keeps (storeMeta (trackRow (unmet d s) 5) 5 true [] (entryOf d).meetsSector) 5
  refine ⟨h2.1.trans h1.1, h2.2.1.trans h1.2.1, h2.2.2.1.trans h1.2.2.1, h2.2.2.2.1.trans ?_, h2.2.2.2.2.trans h1.2.2.2.2⟩
  rw [storeMeta, h1.2.2.2.1]
  rfl
theorem mdels (l : List Nat) (f : Nat → Nat) : l.foldl (fun p i => mdel p (f i)) ([] : TMap Bool) = [] := by
  induction l with
  | nil => rfl
  | cons i l ih => exact ih
theorem touch_held (d : List Byte) (s : State) (hw : s.wc = [(5, entryOf d)]) (hc : s.capture = []) (hp : s.pois = []) (hm : s.meta_ = []) : touchChunk s 5 = merged d s := by
  have hf : failing s 5 (entryOf d) = [] := by simp [failing, cvFails, hm, mget]
  have hb : ∀ i, (entryOf d).badSector i = false := fun i => rfl
  have ha : applyEntry s 5 (entryOf d) = unmet d s := by
    simp only [applyEntry, hf, hb, hp, mdels]
    simp [hw, mdel, entryOf, applyRed]
    exact rfl
  have h1 : mergeChunk s 5 = storeMeta (trackRow (unmet d s) 5) 5 true [] (entryOf d).meetsSector := by
    rw [mergeChunk, hw, mget, if_pos rfl]
    simp only [ha]
    rfl
  have h2 : (storeMeta (trackRow (unmet d s) 5) 5 true [] (entryOf d).meetsSector).capture = [] := hc
  simp only [touchChunk, h1, awaitStore, h2, mget]
  rfl
theorem merged_read (d : List Byte) (s : State) (h : Unmerged d s) : touchRead s 0x2880 64 = merged d s := by
  rw [touchRead, if_neg (by omega), if_pos (by simp only [hbmTop]; omega)]
  exact touch_held d s h.1 h.2.1 h.2.2.1 h.2.2.2.1
theorem merged_byte (d : List Byte) (s : State) (a : Nat) :
    byteAt (merged d s).mem a = if 0x28A0 ≤ a ∧ a < 0x28C0 then d.getD (a - 0x28A0) 0 else byteAt s.mem a := by
  rw [(merged_keeps d s).1, byteAt_applyData _ _ _ (lo := 0) (show sortedFrom 0 (cellsOf d) = true from rfl)]
  by_cases h : 0x28A0 ≤ a ∧ a < 0x28C0
  · have := mget_tab (fun i => d.getD i 0) 32 (a - 0x28A0) (by omega) 0
    rw [Nat.zero_add] at this
    rw [if_pos h, if_pos (by omega), show a - 0x2800 = 0xA0 + (a - 0x28A0) from by omega]
    simp only [cellsOf, tab, List.range_eq_range', this, Option.getD_some]
  · rw [if_neg h]
    split
    · have := mget_tab_out (fun i => d.getD i 0) 32 (a - 0x2800) 0 (by omega)
      simp only [cellsOf, tab, List.range_eq_range', this, Option.getD_none]
    · rfl
theorem merged_peek (d : List Byte) (s : State) (a : Nat) (h : a < hbmTop) : peek (merged d s) a = byteAt (merged d s).mem a := by
  rw [peek, if_pos h, hbmByte, (merged_keeps d s).2.1, mget]
theorem merged_header (d : List Byte) (h : d.length = 32) (s : State) : peekBytes (merged d s) 0x2880 64 = tab 32 (fun i => byteAt s.mem (0x2880 + i)) ++ d := by
  rw [peekBytes, tab_64]
  have e1 : tab 32 (fun i => peek (merged d s) (0x2880 + i)) = tab 32 (fun i => byteAt s.mem (0x2880 + i)) := by
    simp only [tab]
    refine List.map_congr_left fun i hi => ?_
    rw [List.mem_range] at hi
    rw [merged_peek _ _ _ (by simp only [hbmTop]; omega), merged_byte, if_neg (by omega)]
  have e2 : tab 32 (fun i => peek (merged d s) (0x2880 + (32 + i))) = d := by
    apply List.ext_getElem (by simp [tab, h])
    intro i h1 h2
    simp only [tab, List.getElem_map, List.getElem_range]
    rw [merged_peek _ _ _ (by simp only [hbmTop]; omega), merged_byte, if_pos (by omega), show 0x2880 + (32 + i) - 0x28A0 = i from by omega, List.getD,
      List.getElem?_eq_getElem h2, Option.getD_some]
  rw [e1, e2]
theorem low_of (a b : List Byte) (lo n : Nat) (ha : a.length = 32) (h : lo + n ≤ 256) : nbits (ofBytes (a ++ b)) lo n = nbits (ofBytes a) lo n := by
  rw [ofBytes_append, ha]
  have e : (256 : Nat) ^ 32 = 2 ^ lo * (2 ^ n * 2 ^ (256 - lo - n)) :=
    (show (256 : Nat) ^ 32 = 2 ^ 256 from by decide).trans
      (by rw [← Nat.pow_add, ← Nat.pow_add, show lo + (n + (256 - lo - n)) = 256 from by omega])
  rw [e, nbits, nbits, Nat.shiftRight_eq_div_pow, Nat.shiftRight_eq_div_pow, Nat.mul_assoc, Nat.mul_assoc, Nat.add_mul_div_left _ _ (Nat.two_pow_pos lo),
    Nat.add_mul_mod_self_left]
theorem merged_hdr (d : List Byte) (hl : d.length = 32) (s : State) (hs : Unmerged d s) (lo n : Nat) (h : lo + n ≤ 256) :
    nbits (peekNat (merged d s) 0x2880 64) lo n = nbits (folLine 0x82000 (2 ^ 64 - 1) 1 0) lo n := by
  rw [peekNat, merged_header d hl, low_of _ _ _ _ (by simp [tab]) h, hs.2.2.2.2.2]
theorem newMeta_first (s : State) (c : Nat) (raw : Bool) (fmts : List Nat) (ch : Nat → Bool) (h : mget s.meta_ c = none) :
    (newMeta s c raw fmts ch).cv.getD 0 0 = crc32c (bytesAt s.mem (2048 * c) 256) := by
  simp only [newMeta, h, tab, List.getD, List.getElem?_map]
  rw [show (List.range 8)[0]? = some 0 from rfl, Option.map_some, Option.getD_some, Nat.mul_zero, List.drop_zero, bytesAt_take _ _ _ _ (by omega)]
/-- The header's sector verifies against the check value that the merge has stored. -/
theorem merged_sound (d : List Byte) (s : State) (hs : Unmerged d s) : poisonedAt (merged d s) 0x2880 64 = false := by
  have h1 : cvFails (merged d s) 40 = false := by
    have hu := trackRow_keeps (unmet d s) 5
    have hm := (merged_keeps d s).2.2.2.1
    have h3 := newMeta_first (trackRow (unmet d s) 5) 5 true [] (entryOf d).meetsSector (by rw [hu.2.2.2.1]; exact congrArg (mget · 5) hs.2.2.2.1)
    rw [hu.1, show (unmet d s).mem = (merged d s).mem from (merged_keeps d s).1.symm] at h3
    rw [cvFails, show 40 / 8 = 5 from rfl, hm, mget_mput_same]
    simp only [Nat.reduceMod, h3, Nat.reduceMul, bne_self_eq_false, Bool.and_false]
  have h2 := (merged_keeps d s).2.2.1
  simp [poisonedAt, sectorFails, h1, h2, mget]
theorem merged_rec (d : List Byte) (hl : d.length = 32) (s : State) (hs : Unmerged d s) : folRec s space 2 = (merged d s, some (FolHdr.of (peekNat (merged d s) 0x2880 64))) := by
  have h1 : readRecord s 0x2880 64 = (merged d s, some (peekNat (merged d s) 0x2880 64)) := by
    rw [readRecord, if_neg (by simp only [hbmTop]; omega), merged_read d s hs]
    simp only [merged_sound d s hs, Bool.false_eq_true, if_false]
  have h2 : folOk (peekNat (merged d s) 0x2880 64) = true := by
    simp (disch := decide) only [folOk, merged_hdr d hl s hs]
    decide +kernel
  rw [folRec, if_neg (by decide +kernel), show space.folAddr 2 = 0x2880 from by decide +kernel]
  simp only [h1, Option.bind_some, h2, if_true]
/-- A read of chunks that have no entry leaves the bytes. -/
theorem touch_bare (l : List Nat) (s : State) (hw : s.wc = []) (hc : s.capture = []) :
    let t := l.foldl (fun s i => touchChunk s (260 + i)) s
    t.mem = s.mem ∧ t.wc = [] ∧ t.pois = s.pois ∧ t.meta_ = s.meta_ := by
  induction l generalizing s with
  | nil => exact ⟨rfl, hw, rfl, rfl⟩
  | cons i l ih =>
    have h : touchChunk s (260 + i) = trackRow s (260 + i) := by simp [touchChunk, mergeChunk, awaitStore, hw, hc, mget]
    simp only [List.foldl, h]
    have k := trackRow_keeps s (260 + i)
    have r := ih (trackRow s (260 + i)) (k.2.1.trans hw) (k.2.2.2.2.trans hc)
    exact ⟨r.1.trans k.1, r.2.1, r.2.2.1.trans k.2.2.1, r.2.2.2.trans k.2.2.2.1⟩
theorem bare_is (d : List Byte) (s : State) (hs : Unmerged d s) : let t := touchRead (merged d s) 0x82000 8192
    t.mem = (merged d s).mem ∧ t.wc = [] ∧ t.pois = [] ∧ t.meta_ = (merged d s).meta_ := by
  rw [touchRead, if_neg (by omega), if_pos (by simp only [hbmTop]; omega), show (0x82000 + 8192 - 1) / 2048 + 1 - 0x82000 / 2048 = 4 from rfl,
    show 0x82000 / 2048 = 260 from rfl]
  have h := merged_keeps d s
  have b := touch_bare (List.range 4) (merged d s) h.2.1 (h.2.2.2.2.trans hs.2.1)
  exact ⟨b.1, b.2.1, b.2.2.1.trans h.2.2.1, b.2.2.2⟩
theorem mget_beyond (m : TMap Byte) (b a : Nat) (h : m.all (fun e => e.1 < b) = true) (hb : b ≤ a) : mget m a = none := by
  induction m with
  | nil => rfl
  | cons e m ih =>
    obtain ⟨k, x⟩ := e
    simp only [List.all_cons, Bool.and_eq_true, decide_eq_true_eq] at h
    rw [mget, if_neg (by omega), ih h.2]
theorem bare_data (d : List Byte) (s : State) (hs : Unmerged d s) : peekBytes (touchRead (merged d s) 0x82000 8192) 0x82000 8192 = List.replicate 8192 0 := by
  have ht := bare_is d s hs
  generalize touchRead (merged d s) 0x82000 8192 = t at ht
  rw [List.eq_replicate_iff]
  refine ⟨by simp [peekBytes, tab], ?_⟩
  intro b hb
  simp only [peekBytes, tab, List.mem_map, List.mem_range] at hb
  obtain ⟨i, hi, rfl⟩ := hb
  rw [peek, if_pos (by simp only [hbmTop]; omega), hbmByte, ht.2.1, mget, ht.1, merged_byte, if_neg (by omega), byteAt,
    mget_beyond _ _ _ hs.2.2.2.2.1 (Nat.le_add_right _ i), Option.getD_none]
theorem bare_sound (d : List Byte) (s : State) (hs : Unmerged d s) : poisonedAt (touchRead (merged d s) 0x82000 8192) 0x82000 8192 = false := by
  have ht := bare_is d s hs
  generalize touchRead (merged d s) 0x82000 8192 = t at ht
  have h : ∀ i, i < 32 → cvFails t (0x820 + i) = false := by
    intro i hi
    have : mget t.meta_ ((0x820 + i) / 8) = none := by
      rw [ht.2.2.2, (merged_keeps d s).2.2.2.1, mget_mput_ne _ _ _ _ (by omega), hs.2.2.2.1, mget]
    rw [cvFails, this]
  simp only [poisonedAt, List.any_eq_false, List.mem_range]
  intro i hi
  have : cvFails t (0x820 + i) = false := h i (by omega)
  simp [sectorFails, ht.2.2.1, mget, this]
theorem bare_folio (d : List Byte) (hl : d.length = 32) (hg : sealDigest space (List.replicate 8192 0) (2 ^ 64 - 1) = ofBytes d) (s : State) (hs : Unmerged d s) (v : State) (hf : folioRef v space 2 0 = (s, some 2)) :
    (heldFolio v space 2 0).2 = some (List.replicate 8192 0 ++ toBytes (2 ^ 64 - 1) 8) := by
  have hd : (FolHdr.of (peekNat (merged d s) 0x2880 64)).digest = ofBytes d := by
    simp only [FolHdr.of, peekNat, merged_header d hl]
    exact digest_of _ _ (by simp [tab]) hl
  have hs' : (FolHdr.of (peekNat (merged d s) 0x2880 64)).fstate = fSealed := by
    simp only [FolHdr.of]; rw [merged_hdr d hl s hs _ _ (by decide)]; decide +kernel
  have hr : (FolHdr.of (peekNat (merged d s) 0x2880 64)).tier = 0 := by
    simp only [FolHdr.of]; rw [merged_hdr d hl s hs _ _ (by decide)]; decide +kernel
  have hb : (FolHdr.of (peekNat (merged d s) 0x2880 64)).dbase = 0x82000 := by
    simp only [FolHdr.of]; rw [merged_hdr d hl s hs _ _ (by decide)]; decide +kernel
  have hv : (FolHdr.of (peekNat (merged d s) 0x2880 64)).surv = 2 ^ 64 - 1 := by
    simp only [FolHdr.of]; rw [merged_hdr d hl s hs _ _ (by decide)]; decide +kernel
  have hz : space.fsz = 8192 := by decide +kernel
  have hx := bare_data d s hs
  have hp := bare_sound d s hs
  rw [heldFolio, if_neg (by decide +kernel)]
  simp only [hf, Option.getD_some, merged_rec d hl s hs, hs', hr, hb, hv, hd, hz, hx, hp, hg]
  rw [if_neg (by decide), if_neg (by simp)]
theorem heldR_unmerged : Unmerged heldBytes heldR :=
  ⟨heldR_wc, by decide +kernel, by decide +kernel, by decide +kernel, by decide +kernel, by decide +kernel⟩
/-- A holder that answers FETCH with the folio's data. -/
theorem witness_FabricMessages_held : (spacesOf held_ 0).2 = some (space, fabCat) ∧ ((nodeNamed (spacesOf held_ 0).1 space fabCat 5).2.map (·.1)) = some 2 ∧
    (heldFolio heldW space 2 0).2 = some (List.replicate 8192 0 ++ toBytes (2 ^ 64 - 1) 8) ∧ held_.memoryOk = true :=
  ⟨by decide +kernel, by decide +kernel, bare_folio heldBytes (blake3With_length _ _ _) rfl heldR heldR_unmerged heldW (Prod.ext rfl (by decide +kernel)), by decide +kernel⟩

/-! Further clauses: repeats, where control goes, held faults, returns, the completion handler, saved contexts. -/

/-- A re-issue of an LD that captured 7 and has been re-issued once. -/
def reissuing : State :=
  let s := setCur trapping (setSticky (cur trapping) 1 (some { instr := .ld { sm with k := true, d := 9, a := 2 }, cap := [7], cnt := 2 }))
  { s with iss := { s.iss with named := false } }
def kept : Instr := .add { sa with k := true, d := 5, a := 2, b := 3, rstep := 1 }
/-- K = 1 loads the sticky register with the syllable as its first repeat takes it. -/
theorem test_sticky : getSticky (cur (after (exec kept trapping))) 1 =
      some { instr := .add { sa with k := true, d := 6, a := 3, b := 4, rstep := 1 }, cap := [], cnt := 1 } ∧
    (captured reissuing [2]).toOption = some ([7], 2) ∧ (captured trapping [2]).toOption = some ([5], 0) := by decide +kernel
theorem witness_MovesAndSyllablesWithoutResult_sticky : isEvent kept = false ∧ trapping.iss.second = none ∧ stickyFlag kept = true ∧ trapping.iss.named = true ∧
    reissuing.iss.named = false ∧ (getSticky (cur reissuing) 1).isSome = true ∧ getSticky (cur trapping) 1 = none ∧ stickyFlag (.add sa) = false ∧
    (after (exec kept trapping)).iss.isOpen = true ∧ (∀ r ∈ capturedRegs (.ld { sm with a := 2 }), (readS trapping r).2 = false) := by decide +kernel

def oneBundle (nb : Nat) (next : Option Nat) (valid : Bool) : Seg := { off := 0, valid := valid, nb := nb, next := next, bundles := [], rest := [] }
def passing (left : Nat) (target : Option W32) (bad : Bool) (g : Seg) : Part :=
  { task with at_ := { Point.start 0x00010000 with xfer := some { target := target, bad := bad, left := left, src := 0, op := 0x28 } }, cur := some g }
theorem witness_BundleIssues_advance : advance core (passing 2 none false (oneBundle 2 none true)) (0, 1) = some (0, 2) ∧
    advance core (passing 2 none false (oneBundle 1 (some 4) true)) (0, 1) = some (4, 0) ∧
    advance core (passing 1 none false (oneBundle 1 none true)) (0, 1) = none ∧ posOf 0x00010000 = (0, 1) ∧
    (pointAfter core (passing 1 (some 0x20004) false (oneBundle 1 none true))).pc = 0x20004 ∧
    ((pointAfter core (passing 2 none false (oneBundle 1 (some 4) true))).xfer.map (·.left)) = some 1 ∧
    (pointAfter core (passing 1 none false (oneBundle 1 none true))).done = true := by decide +kernel
theorem witness_BundleIssues_landing : idxOf (0x00010000 : W32) = 1 ∧ (passing 0 none true (oneBundle 1 none true)).at_.done = false ∧
    standing core (passing 0 none true (oneBundle 1 none true)) false = .trap cTarget 1 0x28 0 ∧
    standing core (passing 0 none false (oneBundle 0 none true)) false = .trap cTarget 1 0x28 0 ∧
    standing core (passing 0 none false (oneBundle 1 none false)) false = .trap cSegment 0 0 0 ∧ badAddr 0x4000 = true := by decide +kernel

/-- A held result fault of an operation of the S slot, or of a KV load, which stays held. -/
def aReport (slot op code : Nat) : Report :=
  { copy := false, id := 0, level := 0, code := code, slot := slot, op := op, pc := 0x10003, taddr := 7, cfc01 := 1, cfc23 := 2 }
def reported (r : Report) : State :=
  setPart selecting 0 0 { getPart selecting 0 0 with
    tvec := 0x00050000, nextSeq := 1, pends := [{ pending 0 300 with st := .fault r.code r.taddr 0 0, level := 0 }], reports := [r] }
theorem test_result_fault : (let q := getPart (boundary (reported (aReport 5 6 0x10)) 0 0) 0 0;
      (q.tcause, q.taddr, q.tpc, q.tsw.getLsbD 11, q.pends.map (·.st)) = (0x00060B10, 7, 0, true, [.replay])) ∧
    (let q := getPart (boundary (reported (aReport 3 0x25 0x36)) 0 0) 0 0;
      (q.tcause, q.taddr, q.tpc, q.pends.length) = (0x00250736, 0, 0x10003, 0)) := by decide +kernel
theorem witness_TrapEntry_results : ∀ r ∈ [aReport 5 6 0x10, aReport 5 3 1, aReport 3 0x25 0x36], (let p := getPart (reported r) 0 0
      p.atYield = false ∧ p.at_.slot = 0 ∧ p.level = 0 ∧ p.tvec ≠ 0x80000000 ∧ p.reports.find? (fun r => r.level == p.level) = some r ∧
        ∀ e ∈ p.pends, e.st = .fault r.code 7 0 0) := by decide +kernel

/-- A task that has returned to level 0 with an operation held at its level: a piece of a copy, or a KV operation. -/
def heldTask (rp : W64) (eng : Option Nat) : Part :=
  { cur trapping with rplact := rp, nextSeq := 1, pends := eng.toList.map fun k => { pending 0 300 with st := .replay, level := 0, eng := some k, dst := some (9, false), writes := [] } }
def heldCopy (bound : Bool) : Copy := { unready 0 3 with holding := true, pieces := some [0], seq := if bound then some 0 else none }
def returning (rp : W64) (eng : Option Nat) : State :=
  { setCur copying (heldTask rp eng) with copies := [(0, heldCopy eng.isSome)], kvs := [(1, kvOp)] }
theorem test_replay : ((mget (replayAll (returning 0 (some 0)) 0 0).copies 0).map fun x => (x.holding, x.pieces)) = some (false, some [0]) ∧
    ((mget (replayAll (returning 1 (some 0)) 0 0).copies 0).map fun x => (x.holding, x.pieces, x.status, x.counted)) = some (false, some [], 5, 16) ∧
    ((getPart (replayAll (returning 1 (some (2 ^ 24 + 1))) 0 0) 0 0).pends.map fun e => (e.st, e.writes)) = [(.ready, [.s 9 false 0 false])] ∧
    (replayAll (returning 1 (some (2 ^ 24 + 1))) 0 0).kvs = [] := by decide +kernel
theorem witness_Returns_replay : ∀ eng ∈ [some 0, some (2 ^ 24 + 1)], ((heldTask 1 eng).pends.filter fun e => e.level == (heldTask 1 eng).level && e.st == .replay).map (·.eng) = [eng] ∧
    (heldTask 1 eng).level = 0 ∧ (heldTask 1 eng).rplact = 1 ∧ (heldTask 0 eng).rplact = 0 ∧ (heldTask 0 eng).entered = 1 ∧ (heldTask 0 none).pends = [] := by decide +kernel
theorem witness_Returns_replay_copies : heldCopies (returning 0 (some 0)) 0 (heldTask 0 (some 0)) = [] ∧ heldCopies (returning 0 none) 0 (heldTask 0 none) = [0] ∧
    (heldCopy true).pieces = some [0] ∧ kvOp.core = 0 ∧ kvOp.task = 1 ∧ kvOp.seq = 0 := by decide +kernel
theorem witness_Returns_replay_home : homeOf (returning 1 (some (2 ^ 24 + 1))) 0 1 = some (.part 0) := by decide +kernel
theorem witness_Returns_replay_shape : (heldCopy true).shape.isSome = true := by decide +kernel

/-- A task with its completion interrupt 0 pending and enabled. -/
def interrupted : State := setPart selecting 0 0 { getPart selecting 0 0 with uictl := 5, uivec := 0x00020003 }
theorem test_completion_handler : (let q := getPart (enterUi interrupted 0 0) 0 0
    (q.at_.pc, q.uictl, q.sh[0], q.ui.isSome, uiDue (getPart interrupted 0 0), uiDue q) = (0x00020003, 3, 1, true, true, false)) := by decide +kernel
theorem witness_Returns_handler : (getPart interrupted 0 0).pends = [] := by decide +kernel

/-- Images of partition 1 of core 0: one that yielded, of which another task has the room or the choice. -/
def yielded : State :=
  { saved with shadow := saved.shadow.map fun e => (e.1, { e.2 with forced := false }) }
def crowdedCore : State := setPart saved 0 3 { task with wregs := 128, accs := 0xFF }
def closedCore : State := { saved with gangs := [(9, { gang with placed := false, released := false, closed := some 0, rec_ := toBytes launchRec 128 })] }
theorem witness_ContextTransfer_room : (∀ s ∈ [crowdedCore, closedCore, yielded], (mget s.shadow (shadowKey 0 0)).map (fun x => (x.core, x.lver, x.patch)) = some (0, 1, []) ∧
      (getPart s 0 2).ps = .free) ∧ barredTask closedCore (shadowKey 0 0) 0 = true ∧
    ((mget crowdedCore.shadow (shadowKey 0 0)).map fun x => fitTasks (residents crowdedCore 0) (getCore crowdedCore 0).b1 1 (ctxShape x.ctx)) = some none ∧
    ((mget yielded.shadow (shadowKey 0 0)).map fun x => (x.forced, returnDue yielded (shadowKey 0 0) x)) = some (false, true) ∧
    (left (exec (.ctxld { sa with d := 9, a := 2, b := 5 }) crowdedCore)).map (·.writes) = some [.s 9 false 3 false] := by decide +kernel

/-- A LAUNCH that waits for its drain set, which performs. -/
def launchWait (n : Nat) : Pend := { pending 5 300 with st := .wait (.rel n (.launch launchPacket)), level := 0 }
theorem witness_AcquiresAndWaits_launch : drained (cur undrained) 5 = false ∧ drained (cur trapping) 5 = true ∧ pollPend undrained 0 0 (launchWait 5) = undrained := by
  decide +kernel
theorem witness_ReleasesAndLaunches_launch : pktType (ofBytes launchPacket) = 1 ∧ pktOk (ofBytes launchPacket) = true ∧ pktOk 0x309 = false ∧
    (let g (depth kids used : Nat) : State := { setCur trapping { cur trapping with gang := some 9 } with gangs := [(9, { gang with depth := depth, kids := kids, kidsUsed := used })] }
     (launchChild (g 0 1 0) (cur (g 0 1 0)) launchPacket).2 = 2 ∧ (launchChild (g 1 1 1) (cur (g 1 1 1)) launchPacket).2 = 1 ∧
       (launchChild (g 1 1 0) (cur (g 1 1 0)) launchPacket).2 = 0 ∧ (launchChild trapping (cur trapping) launchPacket).2 = 2) := by decide +kernel

/-! Engines: what they carry out, and what a clock does. -/

/-- An operation that the task has given to an engine, as operation 1 of it. -/
def engaged (s : State) (x : KvOp) : State :=
  { setCur s { cur s with nextSeq := 1, pends := [{ pending 0 300 with st := .engine, level := 0, writes := [], dst := some (9, false), eng := some (kvKey 1) }] } with
    kvs := [(1, x)] }
def engOp (op : Nat) (opd : List W64) : KvOp := { kvOp with op := op, opd := opd }
theorem engaged_of (s : State) (x : KvOp) (e : Pend) (hf : findPend s 0 0 0 = some e) (he : e.st = .engine ∧ e.eng = some (kvKey 1)) (hk : mget s.kvs 1 = some x)
    (hx : x.core = 0 ∧ x.seq = 0 ∧ x.task = (getPart s 0 0).entered ∧ x.fault = none ∧ x.repair = none ∧ homeOf s 0 x.task = some (.part 0) ∧
      (getPart s 0 0).ps ≠ .placed) : Engaged s 0 0 0 1 x :=
  ⟨by decide, ⟨e, hf, he⟩, hk, hx⟩
theorem witness_Engaged_kv : Engaged (engaged kvs kvOp) 0 0 0 1 kvOp :=
  engaged_of _ _ _ rfl (by decide +kernel) rfl (by decide +kernel)
theorem witness_Engaged_loan : Engaged (engaged loanable (engOp 0x0B [1, 2, 5, 0])) 0 0 0 1 (engOp 0x0B [1, 2, 5, 0]) :=
  engaged_of _ _ _ rfl (by decide +kernel) rfl (by decide +kernel)
/-- RELOC of handle 1, of queue 0 with RELOCOK. -/
def relocating : State := engaged (poke (queueing 2 0) 20 2 0x1000) (engOp 0x14 [1, 0x80000])
theorem witness_Engaged_reloc : Engaged relocating 0 0 0 1 (engOp 0x14 [1, 0x80000]) :=
  engaged_of _ _ _ rfl (by decide +kernel) rfl (by decide +kernel)
theorem witness_QueuesAndRecords_reloc : (tabOf relocating 0).relocok = true ∧ ((findRec relocating 0 (tabOf relocating 0) 1).2.toOption.map (·.rbmp)) = some 0 ∧
    ((findRec relocating 0 (tabOf relocating 0) 9).2.toOption) = none ∧ (tabOf (queueing 2 0) 0).relocok = false := by decide +kernel
/-- An object with a bitmap of its own can be moved. -/
def movable : State :=
  { queueing 2 0 with mem := cells [(8, 8, 0x1000), (16, 4, 0x10000010), (0x1040, 64, lineOf 0x10000 1 14 0xFFF + 0x3800 * 2 ^ 448), (0x3800, 1, 1)] }
theorem witness_QueuesAndRecords_accepted : (match (findRec movable 0 (tabOf movable 0) 1) with
    | (u, .ok r) => (relocStatus u r 0x80000, (bitmapFails (recLine u 0 (tabOf movable 0) 1).1 r).2, r.rbmp)
    | _ => (99, true, 0)) = (0, false, 0x3800) := by decide +kernel

/-- An atomic and a WAITM that were translated with records of the table 0, handles 1 and 2. -/
def translating : State :=
  setCur (queueing 2 0) { cur (queueing 2 0) with nextSeq := 2, pends :=
    [{ pending 0 300 with st := .wait (.rel 0 (.atomic claim)), level := 0, obj := some ((tabOf (queueing 2 0) 0).ctx, 1) },
     { pending 1 300 with st := .wait (.waitm waitmCells false 0 none), level := 0, obj := some ((tabOf (queueing 2 0) 0).ctx, 2) }] }
theorem test_in_flight : inFlightOps translating [0] (tabOf translating 0).ctx (some 1) = [(0, 1, 0)] ∧
    inFlightOps translating [0] (tabOf translating 0).ctx none = [(0, 1, 0), (0, 1, 1)] ∧ inFlightOps translating [1] (tabOf translating 0).ctx none = [] := by decide +kernel

/-- KVLD and KVLDT of 16 positions of the sequence, with a mask word at 0x300; KVLDT to line 32. -/
def maskedLoad (op : Nat) : KvOp := { kvOp with op := op, sh := 2, opd := [1, 0, if op = 6 then 0x1000 else 32, 0x30000000000] }
theorem witness_KvOperations_loads : (maskedLoad 6).noMask = false ∧ (maskedLoad 6).mofs % 8 = 0 ∧ (maskedLoad 6).pos % 64 + (maskedLoad 6).n ≤ 64 ∧
    space.rb ≤ (maskedLoad 6).pitch space ∧ (maskedLoad 6).pitch space % 16 = 0 ∧ space.hdc ≤ 2 ∧ homeOf kvs 0 1 = some (.part 0) ∧
    kvOff (maskedLoad 6).ofs + (maskedLoad 6).pitch space * 15 + space.rb ≤ 0x2000 ∧ kvOff (maskedLoad 6).maskOp + 8 ≤ kvOff (maskedLoad 6).ofs := by decide +kernel
def ended (r : KvRes) : Option W64 :=
  match r with
  | .done v _ => some v
  | _ => none
theorem test_kvldt : ended (kvLoad kvs (maskedLoad 7) space).2 = some 7 ∧ ended (kvLoad kvs (maskedLoad 6) space).2 = some 7 ∧
    tileTag (getPart (kvLoad kvs (maskedLoad 7) space).1 0 0) 2 = mkTag 1 3 16 0 true := by decide +kernel

/-- KVAPP of one row at position 3 of the sequence. -/
def appendOp (pos : W64) : KvOp := { kvOp with op := 8, sh := 0, opd := [1, pos, 0x200, 0xFFFFFFFF00000000] }
theorem witness_KvOperations_append : (seqOf kvs 0 space 1).2.toOption = some (SeqRec.of (seqLine 4 0)) ∧
    ((folioOf (seqOf kvs 0 space 1).1 0 space (SeqRec.of (seqLine 4 0)).tail 0).2.toOption.map fun f => (f.1, f.2.fstate, f.2.appnxt, f.2.surv, f.2.dbase)) =
      some (1, 0, 3, 7, 0x80000) ∧ (appendOp 3).pos % 64 + (appendOp 3).n ≤ 64 ∧ (SeqRec.of (seqLine 4 0)).npath = 0 ∧ 64 < (appendOp 64).pos + (appendOp 64).n ∧
    (appendOp 2).pos < 3 ∧ space.folAddr 1 + 64 ≤ hbmTop ∧ space.seqAddr 1 + 64 ≤ space.folAddr 1 ∧ 0x80000 + space.fsz ≤ hbmTop ∧ 7 < 2 ^ 3 ∧ space.kfmt = 3 ∧ kvs.memoryOk = true := by decide +kernel

/-! What is due. -/

/-- A result due at task cycle 200, with a flag; and one written before its deadline. -/
def dueTask (l early : List Pend) : State := setPart selecting 0 0 { getPart selecting 0 0 with tc := 300, nextSeq := 9, pends := l, early := early }
def dueRes : Pend := { pending 0 203 with level := 0, flags := 1 }
theorem test_due : (let q := getPart (writeDue (dueTask [dueRes] []) 0 0) 0 0; (q.s[4], q.fpctl, q.pends.length)) = (7, 0x104, 0) ∧
    (getPart (writeDue (dueTask [] [dueRes]) 0 0) 0 0).fpctl = 0x104 ∧
    (getPart (boundary (dueTask [{ dueRes with st := .engine }] []) 0 0) 0 0).ps = .frozen := by decide +kernel
theorem witness_PartitionAndStewardEvents_due : (let p := getPart (dueTask [dueRes] []) 0 0;
      p.pends.filter (fun x => isDue p x && x.st == .ready) = [dueRes] ∧ p.early = [] ∧ isActive p = true ∧ p.at_.done = false ∧ p.reports = [] ∧ p.single = false ∧
        p.preempt = none ∧ uiDue p = false ∧ p.atYield = false) ∧ dueRes.late = false ∧ dueRes.lost = [] ∧
    isDue (getPart (dueTask [] [dueRes]) 0 0) dueRes = true ∧ isDue (getPart (dueTask [{ dueRes with st := .engine }] []) 0 0) { dueRes with st := .engine } = true := by
  decide +kernel
/-- 64 operations stand, all of whose results have come; or none has. -/
def many (st : PendSt) : State := dueTask (tab 64 fun i => { pending i 900 with level := 0, st := st }) []
theorem test_occupancy : (settle (many .ready) 0 0).2 = .ready ∧ (getPart (settle (many .ready) 0 0).1 0 0).pends.length = 0 ∧
    (settle (many .engine) 0 0).2 = .frozen := by decide +kernel
theorem witness_PartitionAndStewardEvents_occupancy : standing core (getPart (many .engine) 0 0) false = .ready ∧ Machine.crowded (getPart (many .engine) 0 0) = true ∧
    overAhead (many .engine) 0 0 = true ∧ Machine.crowded (getPart (dueTask [] []) 0 0) = false ∧
    standing core { getPart (many .engine) 0 0 with at_ := { Point.start 0 with done := true } } false = .exitWait := by decide +kernel

/-! Stops, yields and the debugger. -/

def stopping (p : Part → Part) : State := setPart selecting 0 0 (p (getPart selecting 0 0))
theorem test_stops : (getPart (boundary (stopping fun p => { p with preempt := some true }) 0 0) 0 0).ps = .stopped ∧
    (getPart (boundary (stopping fun p => { p with preempt := some true, at_ := { p.at_ with slot := 2 } }) 0 0) 0 0).ps = .ready ∧
    (getPart (boundary (stopping fun p => { p with single := true, stepped := true }) 0 0) 0 0).ps = .stopped ∧
    ((boundary (stopping fun p => { p with single := true, stepped := true }) 0 0).told.map (·.code)) = [1] := by decide +kernel
theorem witness_PartitionAndStewardEvents_stops : (let s := stopping fun p => { p with preempt := some true };
      (settle s 0 0).2 = .ready ∧ ((bundleAt (getPart (settle s 0 0).1 0 0)).map Bundle.isEnd) = some false ∧ trapsAhead (settle s 0 0).1 0 0 = false) ∧
    stepOver { task with pends := [{ pending 0 300 with st := .wait (.fwait 0 1) }] } = false ∧ stepOver task = true := by decide +kernel
/-- A task of a lower rank yields on core 0 while a gang of a higher one waits for its slots. -/
def yielding (held : Bool) : State :=
  let s := ganging (candidate false [])
  setPart (poke s 0x28 1 3) 0 0 { task with queue := 1, atYield := true, nexty := if held then 10 ^ 9 else 1 }
theorem witness_PartitionAndStewardEvents_yields : (yieldsTo (yielding true) 0 0).bind (·.gang) = some 9 ∧ yieldsTo (yielding false) 0 0 = none := by
  decide +kernel
theorem test_debugger : (let s : State := { saved with shadow := saved.shadow.map fun e => (e.1, { e.2 with ctx := { e.2.ctx with debugged := true } }) };
      (imageAt s 0 0x40).map (fun e => (e.1, e.2.2, e.2.1.ctx.debugged)) = some (0, 0x40, true) ∧
        ((mget (after (exec (.debugHold 0 (.write 0x40 [9])) s)).shadow 0).map (·.patch)) = some [(0x40, 9)]) ∧
    ((imageAt saved 0 0x40).map fun e => e.2.1.ctx.debugged) = some false ∧ imageAt saved 0 (2 ^ 24) = none := by decide +kernel
/-- A result that comes to a task that is swapped out. -/
def away : State :=
  { saved with shadow := saved.shadow.map fun e => (e.1, { e.2 with ctx := { e.2.ctx with pends := [{ pending 0 300 with st := .engine, writes := [] }] } }) }
theorem test_result_of_swapped : ((mget (after (exec (.resultWrite 0 32 0) away)).shadow 0).map fun x => x.ctx.pends.map (·.st)) = some [.ready] := by decide +kernel

/-! Transforms, units, copies, the host, the annex. -/

/-- Tile unit 2 holds a plane region of FP32; tile unit 12 can take a region of E2M1 with its scales. -/
theorem witness_Transforms_blocks : (tileUnit 12 5 false).outside (cur transforming) = none ∧ (tileUnit 2 1 false).outside (cur transforming) = none ∧
    256 * 1 < (cur transforming).tslen ∧ (tileTag (cur transforming) (16 * 1)).toNat % 4 = 0 := by decide +kernel
/-- A unit reads a line, or a unit of the scratchpad, that a pending write of another slot has changed. -/
def wasOne (val : W128) : Was := { task := 1, level := 0, due := 203, slot := 5, val := val }
def overwritten : State :=
  let s := setCur transforming { cur transforming with tc := 200, tile := [(64, 9)], tileWas := [(64, [wasOne 3])] }
  setCore s 0 { curCore s with spWas := [(4, [wasOne 3])] }
theorem witness_Transforms_units : (wasOne 3).open_ (cur overwritten) = true ∧ (((mget (cur overwritten).tileWas 64).getD []).takeWhile fun w => w.open_ (cur overwritten) && w.slot != 7) = [wasOne 3] ∧
    (((mget (curCore overwritten).spWas 4).getD []).takeWhile fun w => w.open_ (cur overwritten) && w.slot != 7) = [wasOne 3] ∧
    unitLine overwritten 5 64 = 9 ∧ unitLine overwritten 7 65 = 0 := by decide +kernel

theorem witness_HostAccesses_bar0 : (4 : Nat) ∈ [1, 2, 4, 8, 16, 32, 64] ∧ 0x100004 % 4 = 0 ∧ (0x100004 : Nat) < 2 ^ 26 ∧ mget hosting.bar0 (0x100004 / 4) = some 0x1000 := by decide +kernel
theorem witness_MailboxAndModule_identity : State.reset.flash = [] ∧ secure.eventRing = 0 ∧ ({ secure with flash := [1] } : State).flash ≠ [] := by decide +kernel
/-- A static range that covers one granule whole, with parts of two others. -/
theorem witness_AnnexAndRepository_hdm : 5 < granuleBytes ∧ 5 ≤ 3 * granuleBytes ∧ 7 < granuleBytes ∧ ∃ p ∈ windowPlaces (extents none 0), windowFits (extents none 0) 1 p = true := by
  decide +kernel

/-! The command processor. -/

/-- A queue that stands stopped at a node of a graph. -/
def nodeStopped : State :=
  let s := graphing (runningGraph 1)
  { s with queues := [(0, { ringAt 2 with stopped := [12] })], pkts := s.pkts ++ [(12, { packetOf nopPkt with graph := some 6, node := 0 })] }
theorem witness_QueueService_node : (queueSt nodeStopped 0).stopped = [12] ∧ ((mget nodeStopped.pkts 12).map fun p => (p.st, p.isRing, (graphOf nodeStopped p).map (·.1))) =
      some (.fetched, false, some 6) ∧ peekNat nodeStopped 0x70 1 = 0 ∧ (readNode nodeStopped 0 0x2200).2.toOption = some (pktWords nopPkt, []) ∧ nodeStopped.memoryOk = true ∧
    (mget (after (exec (.queueResume 0) nodeStopped)).pkts 12).map (·.words) = some (pktWords nopPkt) := by decide +kernel
/-- A flush that waits for an atomic of core 0. -/
def flushWaits : State :=
  { setPart flushing 0 0 { task with pends := [{ pending 0 300 with st := .wait (.rel 0 (.atomic claim)) }] } with
    pkts := [(6, { packetOf flushPktOf with st := .issued, ops := [(0, 1, 0)] })] }
theorem witness_Graphs_flush : opLeft flushWaits (0, 1, 0) = true ∧ (after (exec (.packetRetire 6) flushWaits)).pkts = flushWaits.pkts ∧
    flushWaits.memoryOk = true ∧ (packetOf flushPktOf).ops = [] := by decide +kernel
theorem witness_Gangs_rivals : (let s := ganging (candidate false []); msorted s.gangs = true ∧ placeDue s 9 (candidate false []) = true ∧ (rivals s (candidate false []).cores 0).length = 1) ∧
    (mget placedGang.gangs 9).map (fun g => (g.tasks.map (·.1), lrKeep g.lrec)) = some ([0, 1], false) := by decide +kernel

/-! The catalogue: a sequence whose path has one node. -/

def pathed (entries : TMap Byte) : State :=
  withOp (catOp 0 1 [3]) { State.reset with
    mem := cells [(0x18, 6, 0x2000), (0x20, 6, 0x2080), (0x2000, 64, kvDesc), (0x2080, 64, catDesc), (0x2140, 64, seqLine 128 1), (0x2480, 64, nodeLine 0 0),
      (0x2500, 64, nodeLine 5 1), (0x2540, 4, 2), (0x2880, 64, folLine 0x82000 1 1 0), (0x2C00, 8, 2 ^ 32 + 2)] ++ entries
    nextId := 20 }
theorem witness_Seals_path : ((catPre (pathed []) 0 1).2.toOption.map fun x => (x.sr.npath, x.sr.tail)) = some (1, 1) ∧
    (let s1 := (catPre (pathed []) 0 1).1
     let s2 := (nodeRec s1 space 1).1
     let s3 := (lastNode s2 (SeqRec.of (seqLine 128 1))).1
     let s4 := (layersOf s3 space 1).1
     (lastNode s2 (SeqRec.of (seqLine 128 1))).2.toOption = some 2 ∧ (layersOf s3 space 1).2.toOption = some [none] ∧ ((nodeRec s4 space 2).2.map (·.sm)) = some 5) := by
  decide +kernel
/-- A match whose folio has its loans at their limit, and one that is being recalled; and one whose path has room. -/
theorem witness_Seals_limits : ((layersOf { sealing listed 1 with mem := setBytes (sealing listed 1).mem 0x2880 (toBytes (folLine 0x82000 1 1 loanTop) 64) } space 2).2.toOption.map
      fun l => l.map fun e => e.map fun h => (h.2.fstate, h.2.loans)) = some [some (1, loanTop)] ∧
    ((layersOf matching space 2).2.toOption.map fun l => (l.filterMap fun l => l).all fun h => h.2.fstate != fRecalling && h.2.loans != loanTop) = some true ∧
    space.seqAddr 1 + 64 ≤ hbmTop ∧ (SeqRec.of (seqLine 64 0)).path = 0x2C00 ∧ (0x2C00 : Nat) + 8 ≤ hbmTop := by decide +kernel
/-- A lookup at its second node, whose parent is node 2, or no node at all. -/
theorem witness_Lookups_parent : ((nodeRec (spacesOf (looking [] (object 0) 0) 0).1 space 2).2.map (·.sm)) = some 5 ∧
    (nodeRec (spacesOf (looking [] (object 0) 0) 0).1 space 9).2 = none ∧ (0 : Nat) < 64 / 64 := by decide +kernel

/-! Circulation: recalls to the annex and to the repository. -/

/-- Node 2's folio is the annex's, where its image stands, and is recalled to the repository; or the stacks', and is recalled to the annex. -/
def fromStacks : State := { recalling 2 2 with annexMap := [(0, { v := true, port := 0, base := 0 })] }
theorem witness_Circulation_landing : (folRec fromStacks space 2).2.map (fun h => (h.fstate, h.tier, h.dbase)) = some (2, 0, 0x82000) ∧
    ({ aRecall with dest := 2, place := annexBase } : Recall).place < 2 ^ 48 ∧ space.folAddr 2 + 64 ≤ hbmTop ∧ fromStacks.memoryOk = true ∧
    ((nodeRec fromStacks space 2).2.map (·.nstate)) = some 1 := by decide +kernel
theorem witness_Circulation_gone : (folRec (recalling 2 2) space 9).2 = none ∧ loadHeld (recalling 2 2) 0 9 = false := by decide +kernel
theorem witness_Circulation_repair : (taskPart (repairing replicaFetch) 0 1).isSome = true ∧ (mget (repairing replicaFetch).kvs 6).map (fun x => (x.core, x.task)) = some (0, 1) := by
  decide +kernel

/-! Itkoril. -/

def wireOf : Wire := { frame := { type := 0x11, cls := 0, dst := 3, seq := 5, qg := 7, opnd := 9, payload := [1, 2] }, src := 1, ack := 4, port := 0, udp := 4791, own := false }
theorem test_wire : (Itk.of wireOf.bytes).map (fun m => [m.type, m.src, m.dst, m.seq, m.ack, m.qg, m.opnd]) = some [0x11, 1, 3, 5, 4, 7, 9] ∧
    ofBytes (wireOf.bytes.take 4) = 0x00110001 := by decide +kernel
theorem witness_ConnectionsAndCollectives_hello : ((Itk.parse (hello 2 2)).map fun m => (m.src, m.type, m.payload.take 2)) = some (3, 1, [2, 2]) ∧ carried State.reset 0 = true ∧
    mget State.reset.conns (connKey 3 0) = none := by decide +kernel
/-- A chip of the fabric with which no connection stands. -/
def unconnected : State :=
  { peering with mem := (cells [(hbmTop - 0x68, 6, 0x2000), (hbmTop - 0x60, 6, 0x2080)]).foldl (fun m e => mput m e.1 e.2) peering.mem, qtab := hbmTop - 0x80, conns := [] }
theorem witness_ConnectionsAndCollectives_opens : fabricChips unconnected = [0, 2, 3] ∧ carried unconnected 1 = true ∧ mget unconnected.conns (connKey 3 1) = none := by
  decide +kernel
/-- A peer that has been silent in one class but not in another stays. -/
theorem test_heard_elsewhere : (let s := { connected (10 ^ 15) false with conns := (connected 0 false).conns ++ [(13, { Conn.fresh (10 ^ 15) with up := true })] };
    ((mget (after (exec (.peertoExpiry 3) s)).conns 12).map (·.lost)) = some false) := by decide +kernel
theorem witness_ConnectionsAndCollectives_joins :
    (let s := putJoins (gathering false 0) (earlyKey 7 4 3) { joins := [{ joined := true, desc := [1], bad := 0, data := [] }], owed := 0 };
     ((peerJoins s (earlyKey 7 4 3)).joins.getLast?.map (·.bad)) = some 0 ∧ ((peerJoins (cjoinStep 3 (read_ (joinMsg 10)) s) (earlyKey 7 4 3)).joins.map (·.bad)) = [10]) ∧
    (let s := putJoins (gathering false 0) (earlyKey 7 4 3) { joins := [], owed := 1 };
     (peerJoins (cjoinStep 3 (read_ (joinMsg 0)) s) (earlyKey 7 4 3)).owed = 0 ∧ (cjoinStep 3 (read_ (joinMsg 0)) s).colls = s.colls) ∧
    (collFor (gathering true 0) 7 4 3 fun e => e.joined && e.bad == 0).isSome = true ∧
    (peerJoins (cjoinStep 3 (read_ (joinMsg 0)) { gathering false 0 with colls := [] }) (earlyKey 7 4 3)).joins.length = 1 := by decide +kernel

end Sys2Proof.Tests
end

section
/-! SUPPORT. The integer operations of Table 11.3 and the conditions of Table 11.6 as operations on bit vectors, and the scalar ALU and BC
that they settle (R258, R259, R265). -/

namespace Sys2Proof.Machine

/-! Numbers of the model as bit vectors. -/

theorem toSigned_toNat {n : Nat} (x : BitVec n) : toSigned x.toNat n = x.toInt := by
  rw [BitVec.toInt_eq_toNat_cond, toSigned, Nat.mod_eq_of_lt x.isLt]
  cases n with
  | zero =>
    rw [BitVec.eq_nil x]
    rfl
  | succ n =>
    have half : x.toNat < 2 ^ (n + 1 - 1) ↔ 2 * x.toNat < 2 ^ (n + 1) := by rw [Nat.pow_succ, Nat.add_sub_cancel]; omega
    simp only [half]

@[simp] theorem asInt_true_toNat {n : Nat} (x : BitVec n) : asInt true n x.toNat = x.toNat := by
  simp [asInt, Nat.mod_eq_of_lt x.isLt]

@[simp] theorem asInt_false_toNat {n : Nat} (x : BitVec n) : asInt false n x.toNat = x.toInt := by
  simp [asInt, toSigned_toNat]

/-- Numbers and their interpretation by FN[1] agree modulo `2 ^ n`. -/
@[simp] theorem ofInt_asInt {n : Nat} (u : Bool) (x : BitVec n) : BitVec.ofInt n (asInt u n x.toNat) = x := by
  cases u with
  | true => simp
  | false => simp [BitVec.ofInt_toInt]

theorem decide_asInt_le {n : Nat} (u : Bool) (x y : BitVec n) :
    decide (asInt u n x.toNat ≤ asInt u n y.toNat) = if u then x.ule y else x.sle y := by
  cases u with
  | true => simp [BitVec.ule]
  | false => simp [BitVec.sle]

theorem decide_asInt_lt {n : Nat} (u : Bool) (x y : BitVec n) :
    decide (asInt u n x.toNat < asInt u n y.toNat) = if u then x.ult y else x.slt y := by
  cases u with
  | true => simp [BitVec.ult]
  | false => simp [BitVec.slt]

theorem toNat_beq {n : Nat} (x y : BitVec n) : (x.toNat == y.toNat) = (x == y) := by
  rw [Bool.eq_iff_iff, beq_iff_eq, beq_iff_eq, BitVec.toNat_inj]

theorem toNat_bne {n : Nat} (x y : BitVec n) : (x.toNat != y.toNat) = (x != y) := by
  rw [bne, toNat_beq, bne]

theorem ofInt_boolInt {n : Nat} (b : Bool) : BitVec.ofInt n (boolInt b) = bvBool b := by
  cases b with
  | true => simp [boolInt, bvBool]
  | false => simp [boolInt, bvBool]

theorem popc_toNat {n : Nat} (x : BitVec n) (k : Nat) : popc x.toNat k = x.cpopNatRec k 0 := by
  induction k with
  | zero => simp [popc]
  | succ k ih =>
    rw [popc, ih, BitVec.cpopNatRec_succ, Nat.zero_add, BitVec.cpopNatRec_eq (Bool.toNat _), Nat.add_comm, BitVec.getLsbD, Bool.toNat, Bool.cond_eq_ite]

theorem ofInt_sub_ofInt {n : Nat} (x y : Int) : BitVec.ofInt n (x - y) = BitVec.ofInt n x - BitVec.ofInt n y := by
  rw [Int.sub_eq_add_neg, BitVec.ofInt_add, BitVec.ofInt_neg, BitVec.sub_eq_add_neg]

theorem ofNat_shiftLeft_toNat {n : Nat} (x : BitVec n) (k : Nat) : BitVec.ofNat n (x.toNat <<< k) = x <<< k :=
  BitVec.eq_of_toNat_eq (by rw [BitVec.toNat_ofNat, BitVec.toNat_shiftLeft])

theorem ofInt_eq_toNat (x : Int) (n : Nat) : ofInt x n = (BitVec.ofInt n x).toNat := (BitVec.toNat_ofInt x).symm

theorem ofInt_natCast_toNat {n : Nat} (x : BitVec n) : BitVec.ofInt n x.toNat = x := by
  rw [BitVec.ofInt_natCast, BitVec.ofNat_toNat, BitVec.setWidth_eq]

/-- The upper half of a product: bits `[2n-1:n]` of a number, as a vector of `2n` bits holds them. -/
theorem setWidth_ofInt_ushiftRight {n m : Nat} (hm : m = n + n) (p : Int) :
    ((BitVec.ofInt m p) >>> n).setWidth n = BitVec.ofInt n (p / (2 ^ n : Nat)) := by
  apply BitVec.eq_of_toNat_eq
  subst hm
  have pos : (0 : Int) < (2 ^ n : Nat) := Int.natCast_pos.mpr (Nat.two_pow_pos n)
  obtain ⟨q, hq⟩ := Int.eq_ofNat_of_zero_le (Int.emod_nonneg p (Int.ne_of_gt (Int.mul_pos pos pos)))
  have halves : p / (2 ^ n : Nat) % (2 ^ n : Nat) = q / (2 ^ n : Nat) % (2 ^ n : Nat) := by
    rw [← hq, Int.emod_def p, Int.mul_assoc, Int.sub_mul_ediv_left _ _ (Int.ne_of_gt pos), Int.sub_mul_emod_self_left]
  rw [BitVec.toNat_setWidth, BitVec.toNat_ushiftRight, BitVec.toNat_ofInt, BitVec.toNat_ofInt, halves, Nat.shiftRight_eq_div_pow, Nat.pow_add,
    Int.natCast_mul, hq, Int.toNat_natCast, ← Int.natCast_ediv, ← Int.natCast_emod, Int.toNat_natCast]

theorem aluExtend_toNat_64 (u : Bool) (x : W64) : aluExtend u 64 x.toNat = x := by
  simp only [aluExtend, Nat.mod_eq_of_lt x.isLt, BitVec.ofNat_toNat, BitVec.setWidth_eq]
  rfl

theorem aluExtend_toNat_32 (u : Bool) (x : W32) : aluExtend u 32 x.toNat = if u then x.setWidth 64 else x.signExtend 64 := by
  cases u with
  | true => simp [aluExtend, -BitVec.toNat_mod_cancel, Nat.mod_eq_of_lt x.isLt]
  | false => simp [aluExtend, toSigned_toNat, BitVec.signExtend]

/-! The exact operations. -/

/-- At the width `n`, the low bits of the exact operation `op` are the bit-vector operation `g` (R259), whether FN[1] reads the
operands as unsigned or not. -/
def Computes {n : Nat} (op : Bool → Nat → Nat → Nat → Int) (g : Bool → BitVec n → BitVec n → BitVec n) : Prop :=
  ∀ u a b, BitVec.ofInt n (op u n a.toNat b.toNat) = g u a b

section
variable {n : Nat}

theorem computes_add : Computes (n := n) opAdd (fun _ a b => a + b) :=
  fun _ a b => by rw [opAdd, Int.natCast_add, BitVec.ofInt_add, ofInt_natCast_toNat, ofInt_natCast_toNat]

theorem computes_sub : Computes (n := n) opSub (fun _ a b => a - b) :=
  fun _ a b => by rw [opSub, ofInt_sub_ofInt, ofInt_natCast_toNat, ofInt_natCast_toNat]

theorem computes_mul : Computes (n := n) opMul (fun _ a b => a * b) :=
  fun _ a b => by rw [opMul, Int.natCast_mul, BitVec.ofInt_mul, ofInt_natCast_toNat, ofInt_natCast_toNat]

theorem computes_mulh {m : Nat} (hm : m = n + n) : Computes (n := n) opMulh fun u a b =>
    if u then ((a.zeroExtend m * b.zeroExtend m) >>> n).setWidth n else ((a.signExtend m * b.signExtend m) >>> n).setWidth n := by
  intro u a b
  rw [opMulh, ← setWidth_ofInt_ushiftRight hm, BitVec.ofInt_mul]
  cases u with
  | true => simp
  | false => simp [BitVec.signExtend]

theorem computes_div : Computes (n := n) opDiv fun u a b => if b = 0 then BitVec.allOnes n else if u then a / b else a.sdiv b := by
  intro u a b
  simp only [opDiv]
  by_cases hb : b = 0
  · simp [hb, ← BitVec.neg_one_eq_allOnes, BitVec.ofInt_neg]
  · have hb' : b.toNat ≠ 0 := fun h => hb (BitVec.eq_of_toNat_eq h)
    rw [if_neg hb, if_neg hb']
    cases u with
    | true => rw [asInt_true_toNat, asInt_true_toNat, ← Int.ofNat_tdiv, ← BitVec.toNat_udiv, ofInt_natCast_toNat, if_pos rfl]
    | false =>
      apply BitVec.eq_of_toInt_eq
      simp [BitVec.toInt_sdiv, BitVec.toInt_ofInt]

theorem computes_rem : Computes (n := n) opRem fun u a b => if b = 0 then a else if u then a % b else a.srem b := by
  intro u a b
  simp only [opRem]
  by_cases hb : b = 0
  · simp [hb]
  · have hb' : b.toNat ≠ 0 := fun h => hb (BitVec.eq_of_toNat_eq h)
    rw [if_neg hb, if_neg hb', ← Int.tmod_def]
    cases u with
    | true => rw [asInt_true_toNat, asInt_true_toNat, ← Int.ofNat_tmod, ← BitVec.toNat_umod, ofInt_natCast_toNat, if_pos rfl]
    | false => simp [← BitVec.toInt_srem, BitVec.ofInt_toInt]

theorem computes_and : Computes (n := n) opAnd (fun _ a b => a &&& b) :=
  fun _ a b => by rw [opAnd, ← BitVec.toNat_and, ofInt_natCast_toNat]

theorem computes_or : Computes (n := n) opOr (fun _ a b => a ||| b) :=
  fun _ a b => by rw [opOr, ← BitVec.toNat_or, ofInt_natCast_toNat]

theorem computes_xor : Computes (n := n) opXor (fun _ a b => a ^^^ b) :=
  fun _ a b => by rw [opXor, ← BitVec.toNat_xor, ofInt_natCast_toNat]

theorem computes_andn : Computes (n := n) opAndn (fun _ a b => a &&& ~~~b) :=
  fun _ a b => by rw [opAndn, ← BitVec.toNat_not, ← BitVec.toNat_and, ofInt_natCast_toNat]

theorem computes_orn : Computes (n := n) opOrn (fun _ a b => a ||| ~~~b) :=
  fun _ a b => by rw [opOrn, ← BitVec.toNat_not, ← BitVec.toNat_or, ofInt_natCast_toNat]

theorem computes_shl : Computes (n := n) opShl (fun _ a b => a <<< (b.toNat % n)) :=
  fun _ a b => by rw [opShl, shAmount, BitVec.ofInt_natCast, ofNat_shiftLeft_toNat]

theorem computes_shr : Computes (n := n) opShr (fun _ a b => a >>> (b.toNat % n)) :=
  fun _ a b => by rw [opShr, shAmount, ← BitVec.toNat_ushiftRight, ofInt_natCast_toNat]

theorem computes_sar : Computes (n := n) opSar (fun _ a b => a.sshiftRight (b.toNat % n)) := fun _ a b => by
  rw [opSar, shAmount, toSigned_toNat, ← Int.shiftRight_eq_div_pow]
  rfl

theorem computes_rol : Computes (n := n) opRol (fun _ a b => a.rotateLeft (b.toNat % n)) := fun _ a b => by
  rw [opRol, shAmount, BitVec.ofInt_natCast, BitVec.ofNat_or, ofNat_shiftLeft_toNat, ← BitVec.toNat_ushiftRight, BitVec.ofNat_toNat, BitVec.setWidth_eq]
  simp only [BitVec.rotateLeft, Nat.mod_mod, BitVec.rotateLeftAux]

theorem computes_min : Computes (n := n) opMin fun u a b => if (if u then a.ule b else a.sle b) then a else b := by
  intro u a b
  simp only [← decide_asInt_le, decide_eq_true_eq]
  rw [opMin, Int.min_def, apply_ite (BitVec.ofInt n), ofInt_asInt, ofInt_asInt]

theorem computes_max : Computes (n := n) opMax fun u a b => if (if u then a.ule b else a.sle b) then b else a := by
  intro u a b
  simp only [← decide_asInt_le, decide_eq_true_eq]
  rw [opMax, Int.max_def, apply_ite (BitVec.ofInt n), ofInt_asInt, ofInt_asInt]

theorem computes_cmpeq : Computes (n := n) opCmpeq fun _ a b => bvBool (a == b) := fun _ a b => by
  rw [opCmpeq, ofInt_boolInt, toNat_beq]

theorem computes_cmpne : Computes (n := n) opCmpne fun _ a b => bvBool (a != b) := fun _ a b => by
  rw [opCmpne, ofInt_boolInt, toNat_bne]

theorem computes_cmplt : Computes (n := n) opCmplt fun u a b => bvBool (if u then a.ult b else a.slt b) := fun u a b => by
  rw [opCmplt, ofInt_boolInt, decide_asInt_lt]

theorem computes_cmple : Computes (n := n) opCmple fun u a b => bvBool (if u then a.ule b else a.sle b) := fun u a b => by
  rw [opCmple, ofInt_boolInt, decide_asInt_le]

theorem computes_popc : Computes (n := n) opPopc fun _ a b => BitVec.ofNat n (a &&& b).cpop.toNat := fun _ a b => by
  rw [opPopc, BitVec.ofInt_natCast, ← BitVec.toNat_and, popc_toNat, ← BitVec.toNat_cpop]

end

/-! The instructions. -/

/-- What the ALU writes for an operation that both widths compute. -/
theorem aluExtend_of_computes {op : Bool → Nat → Nat → Nat → Int} {f64 : Bool → W64 → W64 → W64} {f32 : Bool → W32 → W32 → W32}
    (h64 : Computes op f64) (h32 : Computes op f32) (fn : BitVec 2) (a b : W64) :
    let n := aluWidth fn
    let u := fn.getLsbD 1
    aluExtend u n (ofInt (op u n (a.toNat % 2 ^ n) (b.toNat % 2 ^ n)) n) = aluValue fn f64 f32 a b := by
  cases hn : fn.getLsbD 0 with
  | true =>
    simp only [aluWidth, aluValue, hn, ↓reduceIte]
    rw [ofInt_eq_toNat, ← BitVec.toNat_setWidth, ← BitVec.toNat_setWidth, h32, aluExtend_toNat_32]
  | false =>
    simp only [aluWidth, aluValue, hn, Bool.false_eq_true, ↓reduceIte]
    rw [ofInt_eq_toNat, Nat.mod_eq_of_lt a.isLt, Nat.mod_eq_of_lt b.isLt, h64, aluExtend_toNat_64]

/-- An instruction that runs the ALU's body on an operation gives what both widths compute of it. -/
theorem aluGives_of_computes {mk : SA → Instr} {lat : Nat} {op : Bool → Nat → Nat → Nat → Int} {f64 : Bool → W64 → W64 → W64}
    {f32 : Bool → W32 → W32 → W32} (hexec : ∀ f s, exec (mk f) s = runSyl (mk f) (aluBody (mk f) f lat op) s)
    (h64 : Computes op f64) (h32 : Computes op f32) : AluGives mk lat f64 f32 := by
  intro f s
  refine ⟨_, (hexec f s).trans (runSyl_ok rfl), ?_⟩
  rw [aluExtend_of_computes h64 h32]
  exact gives_resultS ..

/-- Settles O9: every instruction of Table 11.3 runs the one body of R259 on an operation that the bit vectors compute. -/
theorem scalarAluResults : Obligations.ScalarAluResults := by
  unfold Obligations.ScalarAluResults
  exact ⟨aluGives_of_computes (fun _ _ => rfl) computes_add computes_add,
    aluGives_of_computes (fun _ _ => rfl) computes_sub computes_sub,
    aluGives_of_computes (fun _ _ => rfl) computes_mul computes_mul,
    aluGives_of_computes (fun _ _ => rfl) (computes_mulh rfl) (computes_mulh rfl),
    aluGives_of_computes (fun _ _ => rfl) computes_div computes_div,
    aluGives_of_computes (fun _ _ => rfl) computes_rem computes_rem,
    aluGives_of_computes (fun _ _ => rfl) computes_and computes_and,
    aluGives_of_computes (fun _ _ => rfl) computes_or computes_or,
    aluGives_of_computes (fun _ _ => rfl) computes_xor computes_xor,
    aluGives_of_computes (fun _ _ => rfl) computes_andn computes_andn,
    aluGives_of_computes (fun _ _ => rfl) computes_orn computes_orn,
    aluGives_of_computes (fun _ _ => rfl) computes_shl computes_shl,
    aluGives_of_computes (fun _ _ => rfl) computes_shr computes_shr,
    aluGives_of_computes (fun _ _ => rfl) computes_sar computes_sar,
    aluGives_of_computes (fun _ _ => rfl) computes_rol computes_rol,
    aluGives_of_computes (fun _ _ => rfl) computes_min computes_min,
    aluGives_of_computes (fun _ _ => rfl) computes_max computes_max,
    aluGives_of_computes (fun _ _ => rfl) computes_cmpeq computes_cmpeq,
    aluGives_of_computes (fun _ _ => rfl) computes_cmpne computes_cmpne,
    aluGives_of_computes (fun _ _ => rfl) computes_cmplt computes_cmplt,
    aluGives_of_computes (fun _ _ => rfl) computes_cmple computes_cmple,
    aluGives_of_computes (fun _ _ => rfl) computes_popc computes_popc⟩

/-! Branches on a condition (R265). -/

theorem useS_of_clean {s : State} {r : BitVec 6} (h : (readS s r).2 = false) : useS s r = .ok (readS s r).1 := by
  simp [useS, h]

/-- A transfer to a target word sets up the transfer in the issuing partition, and does nothing else. -/
theorem jumpWord_eq (op : Nat) (w : W32) (taken : Bool) (s : State) :
    jumpWord op (some w) taken s =
      setCur s (if taken then (cur s).jumping op (some (wordTarget s w).1) (wordTarget s w).2 else (cur s).jumping op none false) := by
  cases taken with
  | true => rfl
  | false => rfl

/-- A syllable whose body replaces the issuing partition commits with that change alone. -/
theorem committedAs_setCur (k : Option Sticky) (s : State) (q : Part) : CommittedAs 0 q s (commitSyl k (setCur s q)) := by
  refine ⟨onlyCur_commit k s q, ?_⟩
  rw [commitSyl_cur, cur_setCur]
  exact onlyPends_setSticky _ _ _ _ _ (onlyPends_self q)

theorem bcBody_of_clean {s : State} {f : SC} {w : W32} (hx : f.x = some w) (ha : (readS s f.a).2 = false) (hb : (readS s f.b).2 = false) :
    bcBody f s = .ok (jumpWord 0x29 (some w) (condHolds f.cnd.toNat 64 (readS s f.a).1.toNat (readS s f.b).1.toNat) s) := by
  simp only [bcBody, useS_of_clean ha, useS_of_clean hb, hx]

/-- The conditions of Table 11.6, code by code. -/
theorem condHolds_toNat (a b : W64) : let h (c : Nat) : Bool := condHolds c 64 a.toNat b.toNat
    h 0 = (a == b) ∧ h 1 = (a != b) ∧ h 2 = a.slt b ∧ h 3 = b.sle a ∧ h 4 = a.sle b ∧ h 5 = b.slt a ∧ h 6 = a.ult b ∧ h 7 = b.ule a ∧
    h 8 = a.ule b ∧ h 9 = b.ult a ∧ h 10 = (a &&& b != 0) ∧ h 11 = (a &&& b == 0) := by
  have bits : (a.toNat &&& b.toNat != 0) = (a &&& b != 0) ∧ (a.toNat &&& b.toNat == 0) = (a &&& b == 0) := by
    rw [← BitVec.toNat_and, ← toNat_bne, ← toNat_beq]
    exact ⟨rfl, rfl⟩
  simp only [condHolds, toSigned_toNat, toNat_beq, toNat_bne, bits, BitVec.slt, BitVec.sle, BitVec.ult, BitVec.ule, and_self]

/-- Settles O12: the body of BC on clean operands, the twelve conditions of Table 11.6 on bit vectors, the codes beyond them, and s0. -/
theorem branchConditions : Obligations.BranchConditions := by
  unfold Obligations.BranchConditions
  refine ⟨fun s f w hx ha hb => ?_, condHolds_toNat, fun f hc => ?_, fun s => rfl⟩
  · exact ⟨_, runSyl_ok (bcBody_of_clean hx ha hb), jumpWord_eq 0x29 w _ s ▸ committedAs_setCur _ s _⟩
  · have beyond : ¬ f.cnd.toNat ≤ 11 := by omega
    simp [Instr.wf, beyond]

end Sys2Proof.Machine
end

section
/-! SUPPORT. Elements of packed registers, and the predicate operations (R297). -/

namespace Sys2Proof.Machine

/-! Elements of a packed value (R25). -/

/-- Element `i` of a packed value is item `i` of its list, 0 past the list's end. -/
theorem elem_packElems (w : Nat) (xs : List Nat) (i : Nat) : elem (packElems w xs) w i = xs.getD i 0 % 2 ^ w := by
  induction xs generalizing i with
  | nil => simp [packElems, elem]
  | cons x xs ih =>
    cases i with
    | zero => simp [packElems, elem]
    | succ i =>
      have shift : (x % 2 ^ w + 2 ^ w * packElems w xs) >>> w = packElems w xs := by
        rw [Nat.shiftRight_eq_div_pow, Nat.add_mul_div_left _ _ (Nat.two_pow_pos w), Nat.div_eq_of_lt (Nat.mod_lt _ (Nat.two_pow_pos w)), Nat.zero_add]
      rw [packElems, elem, Nat.succ_mul, Nat.add_comm (i * w), Nat.shiftRight_add, shift, List.getD_cons_succ, ← ih, elem]

/-- A vector of `n` bits holds the elements that lie in it whole. -/
theorem elem_ofNat_toNat {n w i : Nat} (x : Nat) (h : (i + 1) * w ≤ n) : elem (BitVec.ofNat n x).toNat w i = elem x w i := by
  apply Nat.eq_of_testBit_eq
  intro j
  have inside : j < w → i * w + j < n := by rw [Nat.succ_mul] at h; omega
  simp only [elem, BitVec.toNat_ofNat, Nat.testBit_mod_two_pow, Nat.testBit_shiftRight]
  by_cases hj : j < w
  · simp [hj, inside hj]
  · simp [hj]

theorem tab_getD {α : Type} {n i : Nat} (f : Nat → α) (d : α) (h : i < n) : (tab n f).getD i d = f i := by
  simp [tab, h]

/-- Lane `l` of a register written from the list of its lanes. -/
theorem elem_lanes (f : Nat → Nat) {l : Nat} (h : l < 128) :
    elem (BitVec.ofNat 4096 (packElems 32 (tab 128 f))).toNat 32 l = f l % 2 ^ 32 := by
  rw [elem_ofNat_toNat _ (by omega), elem_packElems, tab_getD f 0 h]

/-! Syllables that trap without a commit. -/

theorem traps_of_error {i : Instr} {body : State → Except TrapReq State} {s : State} {r : TrapReq} (h : body s = .error r)
    (hr : r.commits = false) : Traps i r s (runSyl i body s) := by
  rw [Traps, runSyl_error h, event, hr]
  rfl

/-! The predicate operations. -/

theorem predOpMod_iff (x : Option W32) : predOpMod x = true ↔ modReserved x = true ∧
    let m := VMod.of x 0
    m.fmt = 0 ∧ m.pred = 0 ∧ m.rnd = 0 ∧ m.ovp = 0 ∧ m.aux = 0 := by
  simp only [predOpMod, Bool.and_eq_true, beq_iff_eq, and_assoc]

/-- Every predicate operation that is legal has the modifier word of R297 and names no scalar register. -/
theorem predOp_legal {f : VA} : ∀ i ∈ [Instr.pand f, .por f, .pxor f, .pnot f, .pcnt f], i.wf = true → predOpMod f.x = true ∧ f.bs = false := by
  simp only [List.forall_mem_cons, Instr.wf, Bool.and_eq_true, Bool.not_eq_true']
  refine ⟨?pand, ?por, ?pxor, ?pnot, ?pcnt, by simp⟩
  case pand | por | pxor | pnot => exact fun ⟨⟨⟨⟨hx, _⟩, _⟩, _⟩, hbs⟩ => ⟨hx, hbs⟩
  case pcnt => exact fun ⟨⟨⟨hx, _⟩, _⟩, hbs⟩ => ⟨hx, hbs⟩

/-- PNOT and PCNT, which take one predicate, are legal with B = 0 alone. -/
theorem predUnary_legal {f : VA} : ∀ i ∈ [Instr.pnot f, .pcnt f], i.wf = true → f.b = 0 := by
  simp only [List.forall_mem_cons, Instr.wf, Bool.and_eq_true, beq_iff_eq]
  exact ⟨fun ⟨⟨_, hb⟩, _⟩ => hb, fun ⟨⟨_, hb⟩, _⟩ => hb, by simp⟩

/-- An instruction that runs the body of the predicate operations gives the operation's value one task cycle later. -/
theorem gives_predBody {i : Instr} {f : VA} {op : W128 → W128 → W128} {s : State} (hexec : exec i s = runSyl i (predBody i f op) s) :
    ∃ t, exec i s = .next t ∧
      Gives i 1 [.p (f.d.setWidth 4) (op (readP s (f.a.setWidth 4)) (readP s (f.b.setWidth 4)))] 0 s t :=
  ⟨_, hexec.trans (runSyl_ok rfl), gives_result ..⟩

/-- The model's count of a predicate is the bit vector's. -/
theorem popc_eq_cpop {n : Nat} (x : BitVec n) : popc x.toNat n = x.cpop.toNat := by
  rw [popc_toNat, BitVec.toNat_cpop]

/-- The count of a predicate fits in a lane. -/
theorem popc_mod_lane (p : W128) : popc p.toNat 128 % 2 ^ 32 = p.cpop.toNat := by
  have le := BitVec.toNat_cpop_le p
  rw [popc_eq_cpop, Nat.mod_eq_of_lt (by omega)]

/-- PCNT's body (Table 12.7): every lane takes the count. -/
def pcntBody (f : VA) (s : State) : Except TrapReq State :=
  if !vregOk s f.d then illegal (.pcnt f)
  else
    let c := popc (readP s (f.a.setWidth 4)).toNat 128
    .ok (result (.pcnt f) 1 [.v f.d (BitVec.ofNat 4096 (packElems 32 (tab 128 fun _ => c))) false] 0 s)

theorem exec_pcnt (f : VA) (s : State) : exec (.pcnt f) s = runSyl (.pcnt f) (pcntBody f) s := rfl

/-- PCNT into a register of the window writes the count into every lane. -/
theorem pcnt_gives {f : VA} {s : State} (hd : f.d.toNat < (cur s).wregs) :
    ∃ t x, exec (.pcnt f) s = .next t ∧ Gives (.pcnt f) 1 [.v f.d x false] 0 s t ∧
      ∀ l, l < 128 → elem x.toNat 32 l = (readP s (f.a.setWidth 4)).cpop.toNat := by
  have inWindow : ¬ (!vregOk s f.d) = true := by simp [vregOk, hd]
  refine ⟨_, _, (exec_pcnt f s).trans (runSyl_ok (if_neg inWindow)), gives_result .., fun l hl => ?_⟩
  rw [elem_lanes _ hl, popc_mod_lane]

/-- PCNT into a register beyond the window is illegal (R60). -/
theorem pcnt_traps {f : VA} {s : State} (hd : (cur s).wregs ≤ f.d.toNat) : Traps (.pcnt f) (illegalReq (.pcnt f)) s (exec (.pcnt f) s) := by
  have beyond : (!vregOk s f.d) = true := by simp [vregOk, hd]
  have error : pcntBody f s = .error (illegalReq (.pcnt f)) := if_pos beyond
  exact exec_pcnt f s ▸ traps_of_error error rfl

/-- Settles O30: the legal forms, the four operations on predicates by the one body of R297, and PCNT inside and beyond the window. -/
theorem predicateOperations : Obligations.PredicateOperations := by
  unfold Obligations.PredicateOperations
  refine fun f s => ⟨fun i hi hwf => ?_, predUnary_legal, gives_predBody rfl, gives_predBody rfl, gives_predBody rfl,
    gives_predBody (op := fun a _ => ~~~a) rfl, pcnt_gives, pcnt_traps⟩
  obtain ⟨hx, hbs⟩ := predOp_legal i hi hwf
  obtain ⟨_, hfmt, hpred, hrnd, hovp, _⟩ := (predOpMod_iff f.x).mp hx
  exact ⟨hbs, hpred, hfmt, hrnd, hovp⟩

end Sys2Proof.Machine
end
